-- ==== Sys2Proof/Word.lean ====
section
/-! DEFINITION. The unit of everything the block moves: the byte (rule R14). -/

namespace Sys2Proof

/-- A byte, numbered 7 (most significant) down to 0 (rule R14). -/
abbrev Byte := BitVec 8

end Sys2Proof
end

