-- ==== Sys2Proof/Syntax.lean ====
section
/-! DEFINITION. The operand types of rule R16, the register names of rule R39, the decoded register values of rules
R40 to R58, the nine commands of rule R150, and `Instr`: the nine command frames and the forty-four host operations
of spec/opcode_table.json, one constructor per row. -/

namespace Sys2Proof

/-- A receive pipe, 0 to 5 (rule R11, `N_PIPES`). -/
inductive Pipe where
  | p0 | p1 | p2 | p3 | p4 | p5
  deriving DecidableEq, Repr, Inhabited

/-- One value per pipe: the arrays of rule R16 (`Bools6`) and of rules R276, R280. -/
structure Six (α : Type) where
  p0 : α
  p1 : α
  p2 : α
  p3 : α
  p4 : α
  p5 : α
  deriving DecidableEq, Repr, Inhabited

/-- The twenty-six registers the block ever addresses (rule R39). -/
inductive Reg where
  | config | enAa | enRxaddr | setupAw | setupRetr | rfCh | rfSetup | status | observeTx | cd
  | rxAddrP0 | rxAddrP1 | rxAddrP2 | rxAddrP3 | rxAddrP4 | rxAddrP5 | txAddr
  | rxPw (p : Pipe) | fifoStatus | dynpd | feature
  deriving DecidableEq, Repr, Inhabited

/-- The decoded STATUS byte (rule R40). -/
structure Status where
  rxDr : Bool
  txDs : Bool
  maxRt : Bool
  rxPNo : BitVec 3
  txFull : Bool
  deriving DecidableEq, Repr, Inhabited

/-- The decoded CONFIG register (rule R41). -/
structure ConfigReg where
  maskRxDr : Bool
  maskTxDs : Bool
  maskMaxRt : Bool
  enCrc : Bool
  crco : Bool
  pwrUp : Bool
  primRx : Bool
  deriving DecidableEq, Repr, Inhabited

/-- The decoded SETUP_RETR register (rule R45). -/
structure SetupRetr where
  ard : BitVec 4
  arc : BitVec 4
  deriving DecidableEq, Repr, Inhabited

/-- The decoded RF_SETUP register (rule R47): every non-reserved bit is carried. -/
structure RfSetup where
  contWave : Bool
  rfDrLow : Bool
  pllLock : Bool
  rfDrHigh : Bool
  rfPwr : BitVec 2
  bit0 : Bool
  deriving DecidableEq, Repr, Inhabited

/-- The decoded OBSERVE_TX register (rule R48). -/
structure ObserveTx where
  plosCnt : BitVec 4
  arcCnt : BitVec 4
  deriving DecidableEq, Repr, Inhabited

/-- The decoded FIFO_STATUS register (rule R55). -/
structure FifoStatus where
  txReuse : Bool
  txFull : Bool
  txEmpty : Bool
  rxFull : Bool
  rxEmpty : Bool
  deriving DecidableEq, Repr, Inhabited

/-- The decoded FEATURE register (rule R58). -/
structure Feature where
  enDpl : Bool
  enAckPay : Bool
  enDynAck : Bool
  deriving DecidableEq, Repr, Inhabited

/-- A value of some register type: one constructor per shape of register (rules R40 to R58). -/
inductive RegVal where
  | status (v : Status)
  | config (v : ConfigReg)
  | pipes (v : Six Bool)          -- EN_AA, EN_RXADDR, DYNPD (rule R61)
  | setupAw (aw : BitVec 2)
  | setupRetr (v : SetupRetr)
  | rfCh (ch : BitVec 7)
  | rfSetup (v : RfSetup)
  | observeTx (v : ObserveTx)
  | cd (on : Bool)
  | addr (a : List Byte)          -- RX_ADDR_P0, RX_ADDR_P1, TX_ADDR
  | addrLow (b : Byte)            -- RX_ADDR_P2 to RX_ADDR_P5
  | rxPw (n : BitVec 6)
  | fifoStatus (v : FifoStatus)
  | feature (v : Feature)
  deriving DecidableEq, Repr, Inhabited

/-- A caller's pure total function `f : R -> (R, T)` (rules R234, R235) written as data, so that an instruction can be
compared and printed; `T` is a byte string of the caller's own meaning. Every register type has finitely many values,
so `graph` alone can write every `f`; the other forms are short spellings of common ones. -/
inductive RegFn where
  | keep (t : List Byte)                                  -- x ↦ (x, t)
  | put (v : RegVal) (t : List Byte)                      -- x ↦ (v, t)
  | bits (clear set : Byte) (t : List Byte)               -- x ↦ (decode ((encode x with bits cleared) with bits set), t)
  | graph (rows : List (RegVal × RegVal × List Byte))     -- x ↦ the row that lists x; a value not listed ↦ (x, [])
  deriving DecidableEq, Repr, Inhabited

/-- The nine SPI commands (rule R150) with their operands. A register write carries the data bytes `encode(v)`. -/
inductive Cmd where
  | rRegister (r : Reg) (n : Nat)
  | wRegister (r : Reg) (data : List Byte)
  | rRxPlWid
  | rRxPayload (w : Nat)
  | wTxPayload (d : List Byte)
  | wAckPayload (p : Pipe) (d : List Byte)
  | flushTx
  | flushRx
  | nop
  deriving DecidableEq, Repr, Inhabited

/-- Rule R16, `DataRate`. -/
inductive DataRate where
  | r250Kbps | r1Mbps | r2Mbps
  deriving DecidableEq, Repr, Inhabited

/-- Rule R16, `CrcMode`. -/
inductive CrcMode where
  | disabled | oneByte | twoBytes
  deriving DecidableEq, Repr, Inhabited

/-- Rule R280. -/
structure RxConfig where
  dataRate : DataRate
  crcMode : CrcMode
  channel : Byte
  paLevel : Byte
  addressWidth : Byte
  pipeAddresses : Six (Option (List Byte))
  pipeLengths : Six (Option Byte)
  pipeAutoAck : Six Bool
  deriving DecidableEq, Repr, Inhabited

/-- Rule R281. -/
structure TxConfig where
  dataRate : DataRate
  crcMode : CrcMode
  channel : Byte
  paLevel : Byte
  addressWidth : Byte
  pipe0Address : List Byte
  pipe0Length : Option Byte
  pipe0AutoAck : Bool
  maxRetries : Byte
  retryDelay : Byte
  deriving DecidableEq, Repr, Inhabited

/-- The instructions: the nine command frames (format SPI_FRAME of the opcode table) and the forty-four host operations
(format HOST, rule R170). -/
inductive Instr where
  -- the nine command frames, 41_spi_commands.md
  | frameRRegister (r : Reg) (n : Nat)
  | frameWRegister (r : Reg) (data : List Byte)
  | frameRRxPlWid
  | frameRRxPayload (w : Nat)
  | frameWTxPayload (d : List Byte)
  | frameWAckPayload (p : Pipe) (d : List Byte)
  | frameFlushTx
  | frameFlushRx
  | frameNop
  -- transport, 42_transport.md
  | sendCommand (c : Cmd)
  | writeRegister (r : Reg) (v : RegVal)
  | readRegister (r : Reg) (w : Nat)
  | updateRegister (r : Reg) (w : Nat) (f : RegFn)
  | updateConfig (f : RegFn)
  | ceEnable
  | ceDisable
  -- configuration, 43_configuration.md
  | flushRx
  | flushTx
  | setFrequency (ch : Byte)
  | getFrequency
  | setRf (rate : DataRate) (power : Byte)
  | getAddressWidth
  | setAddressWidth (w : Byte)
  | setCrc (mode : CrcMode)
  | setInterruptMask (rxDr txDs maxRt : Bool)
  | setPipesRxEnable (b : Six Bool)
  | getInterrupts
  | clearInterrupts
  | setRxAddr (pipe : Byte) (addr : List Byte)
  | setTxAddr (addr : List Byte)
  | setPipesRxLengths (l : Six (Option Byte))
  | setAutoRetransmit (delay count : Byte)
  | getAutoAck
  | setAutoAck (b : Six Bool)
  | configureRx (c : RxConfig)
  | configureTx (c : TxConfig)
  -- mode state machine, 44_mode_fsm.md
  | new (maskRxDr maskTxDs maskMaxRt : Bool)
  | rx
  | tx
  | standbyRx
  | standbyTx
  | powerUp
  | powerDown
  -- receive, 45_receive.md
  | canRead
  | read
  | push (pipe : Byte) (d : List Byte)
  | hasCarrier
  | isEmpty
  | isFull
  -- transmit, 46_transmit.md
  | send (d : List Byte)
  | canSend
  | waitEmpty
  | observe
  deriving DecidableEq, Repr, Inhabited

end Sys2Proof
end

