-- ==== Sys2Proof/Machine/Registers.lean ====
section
/-! DEFINITION. The register model: pipe and register numbers, the addresses of rule R39, the wire widths of rule R62,
and the bit-exact `encode` and `decode` of every register type (rules R40 to R61). -/

namespace Sys2Proof

/-! ## Pipes -/

/-- The pipe index 0 to 5. -/
def Pipe.toNat : Pipe → Nat
  | .p0 => 0 | .p1 => 1 | .p2 => 2 | .p3 => 3 | .p4 => 4 | .p5 => 5

/-- The pipe a `u8` argument names; none above 5 (rule R16, `PipeArg`). -/
def Pipe.ofNat? : Nat → Option Pipe
  | 0 => some .p0 | 1 => some .p1 | 2 => some .p2 | 3 => some .p3 | 4 => some .p4 | 5 => some .p5
  | _ => none

/-- Pipes 0 to 5 in ascending order. -/
def Pipe.all : List Pipe := [.p0, .p1, .p2, .p3, .p4, .p5]

def Six.get {α : Type} (x : Six α) : Pipe → α
  | .p0 => x.p0 | .p1 => x.p1 | .p2 => x.p2 | .p3 => x.p3 | .p4 => x.p4 | .p5 => x.p5

def Six.set {α : Type} (x : Six α) (p : Pipe) (v : α) : Six α :=
  match p with
  | .p0 => { x with p0 := v } | .p1 => { x with p1 := v } | .p2 => { x with p2 := v }
  | .p3 => { x with p3 := v } | .p4 => { x with p4 := v } | .p5 => { x with p5 := v }

def Six.map {α β : Type} (f : α → β) (x : Six α) : Six β :=
  ⟨f x.p0, f x.p1, f x.p2, f x.p3, f x.p4, f x.p5⟩

/-- Rule R15, `any`. -/
def Six.any (x : Six Bool) : Bool := x.p0 || x.p1 || x.p2 || x.p3 || x.p4 || x.p5

/-! ## Addresses and widths (rules R39, R62) -/

/-- The register's address (rule R39). -/
def Reg.addr : Reg → BitVec 5
  | .config => 0x00 | .enAa => 0x01 | .enRxaddr => 0x02 | .setupAw => 0x03 | .setupRetr => 0x04
  | .rfCh => 0x05 | .rfSetup => 0x06 | .status => 0x07 | .observeTx => 0x08 | .cd => 0x09
  | .rxAddrP0 => 0x0A | .rxAddrP1 => 0x0B | .rxAddrP2 => 0x0C | .rxAddrP3 => 0x0D | .rxAddrP4 => 0x0E
  | .rxAddrP5 => 0x0F | .txAddr => 0x10
  | .rxPw .p0 => 0x11 | .rxPw .p1 => 0x12 | .rxPw .p2 => 0x13 | .rxPw .p3 => 0x14 | .rxPw .p4 => 0x15
  | .rxPw .p5 => 0x16
  | .fifoStatus => 0x17 | .dynpd => 0x1C | .feature => 0x1D

/-- Every register the block names, in address order (rule R39). -/
def Reg.all : List Reg :=
  [.config, .enAa, .enRxaddr, .setupAw, .setupRetr, .rfCh, .rfSetup, .status, .observeTx, .cd,
   .rxAddrP0, .rxAddrP1, .rxAddrP2, .rxAddrP3, .rxAddrP4, .rxAddrP5, .txAddr] ++
  Pipe.all.map .rxPw ++ [.fifoStatus, .dynpd, .feature]

/-- The register at an address; none for the reserved addresses 0x18 to 0x1B, 0x1E and 0x1F (rules R56, R59). -/
def Reg.ofAddr? (a : BitVec 5) : Option Reg := Reg.all.find? fun r => r.addr == a

/-- The three registers whose width is the configured address width `W` (rule R62, conflict C5). -/
def Reg.isAddress : Reg → Bool
  | .rxAddrP0 | .rxAddrP1 | .txAddr => true
  | _ => false

/-- The legal address widths (rule R11, `ADDR_WIDTHS`). -/
def legalWidth (w : Nat) : Bool := w == 3 || w == 4 || w == 5

/-- The data-phase lengths a register may be read or written with (rules R62, R150). -/
def Reg.legalLen (r : Reg) (n : Nat) : Bool := if r.isAddress then legalWidth n else n == 1

/-! ## Bit assembly (rule R14) -/

/-- A byte whose bit `i` is `b` and whose other bits are 0. -/
def bitAt (i : Nat) (b : Bool) : Byte := if b then 1#8 <<< i else 0#8

/-- A byte that holds the field `v` with its least significant bit at bit `i`. -/
def fieldAt {w : Nat} (i : Nat) (v : BitVec w) : Byte := v.setWidth 8 <<< i

/-- Bits `i + w - 1` down to `i` of a byte. -/
def fieldOf (b : Byte) (i w : Nat) : BitVec w := b.extractLsb' i w

/-! ## The register types (rules R40 to R61)
`encode` writes 0 in every reserved bit and `decode` ignores reserved bits (rule R60). -/

def Status.encode (s : Status) : Byte :=
  bitAt 6 s.rxDr ||| bitAt 5 s.txDs ||| bitAt 4 s.maxRt ||| fieldAt 1 s.rxPNo ||| bitAt 0 s.txFull

def Status.decode (b : Byte) : Status :=
  { rxDr := b.getLsbD 6, txDs := b.getLsbD 5, maxRt := b.getLsbD 4, rxPNo := fieldOf b 1 3, txFull := b.getLsbD 0 }

def ConfigReg.encode (c : ConfigReg) : Byte :=
  bitAt 6 c.maskRxDr ||| bitAt 5 c.maskTxDs ||| bitAt 4 c.maskMaxRt ||| bitAt 3 c.enCrc ||| bitAt 2 c.crco |||
    bitAt 1 c.pwrUp ||| bitAt 0 c.primRx

def ConfigReg.decode (b : Byte) : ConfigReg :=
  { maskRxDr := b.getLsbD 6, maskTxDs := b.getLsbD 5, maskMaxRt := b.getLsbD 4, enCrc := b.getLsbD 3,
    crco := b.getLsbD 2, pwrUp := b.getLsbD 1, primRx := b.getLsbD 0 }

/-- Rule R61, `from_bools`. -/
def fromBools (b : Six Bool) : Byte :=
  bitAt 0 b.p0 ||| bitAt 1 b.p1 ||| bitAt 2 b.p2 ||| bitAt 3 b.p3 ||| bitAt 4 b.p4 ||| bitAt 5 b.p5

/-- Rule R61, `to_bools`. -/
def toBools (b : Byte) : Six Bool :=
  ⟨b.getLsbD 0, b.getLsbD 1, b.getLsbD 2, b.getLsbD 3, b.getLsbD 4, b.getLsbD 5⟩

def SetupRetr.encode (v : SetupRetr) : Byte := fieldAt 4 v.ard ||| fieldAt 0 v.arc

def SetupRetr.decode (b : Byte) : SetupRetr := { ard := fieldOf b 4 4, arc := fieldOf b 0 4 }

def RfSetup.encode (v : RfSetup) : Byte :=
  bitAt 7 v.contWave ||| bitAt 5 v.rfDrLow ||| bitAt 4 v.pllLock ||| bitAt 3 v.rfDrHigh ||| fieldAt 1 v.rfPwr |||
    bitAt 0 v.bit0

def RfSetup.decode (b : Byte) : RfSetup :=
  { contWave := b.getLsbD 7, rfDrLow := b.getLsbD 5, pllLock := b.getLsbD 4, rfDrHigh := b.getLsbD 3,
    rfPwr := fieldOf b 1 2, bit0 := b.getLsbD 0 }

def ObserveTx.encode (v : ObserveTx) : Byte := fieldAt 4 v.plosCnt ||| fieldAt 0 v.arcCnt

def ObserveTx.decode (b : Byte) : ObserveTx := { plosCnt := fieldOf b 4 4, arcCnt := fieldOf b 0 4 }

def FifoStatus.encode (v : FifoStatus) : Byte :=
  bitAt 6 v.txReuse ||| bitAt 5 v.txFull ||| bitAt 4 v.txEmpty ||| bitAt 1 v.rxFull ||| bitAt 0 v.rxEmpty

def FifoStatus.decode (b : Byte) : FifoStatus :=
  { txReuse := b.getLsbD 6, txFull := b.getLsbD 5, txEmpty := b.getLsbD 4, rxFull := b.getLsbD 1,
    rxEmpty := b.getLsbD 0 }

def Feature.encode (v : Feature) : Byte := bitAt 2 v.enDpl ||| bitAt 1 v.enAckPay ||| bitAt 0 v.enDynAck

def Feature.decode (b : Byte) : Feature :=
  { enDpl := b.getLsbD 2, enAckPay := b.getLsbD 1, enDynAck := b.getLsbD 0 }

/-- A register type `R` of rule R60: its register and its `encode` and `decode` over the data bytes of a frame. -/
structure RegType (α : Type) where
  reg : Reg
  encode : α → List Byte
  decode : List Byte → α

/-- A one-byte register type. -/
def RegType.byte {α : Type} (r : Reg) (enc : α → Byte) (dec : Byte → α) : RegType α :=
  { reg := r, encode := fun v => [enc v], decode := fun bs => dec (bs.headD 0) }

def statusReg : RegType Status := .byte .status Status.encode Status.decode
def configReg : RegType ConfigReg := .byte .config ConfigReg.encode ConfigReg.decode
def enAaReg : RegType (Six Bool) := .byte .enAa fromBools toBools
def enRxaddrReg : RegType (Six Bool) := .byte .enRxaddr fromBools toBools
def dynpdReg : RegType (Six Bool) := .byte .dynpd fromBools toBools
def setupAwReg : RegType (BitVec 2) := .byte .setupAw (fieldAt 0) (fieldOf · 0 2)
def setupRetrReg : RegType SetupRetr := .byte .setupRetr SetupRetr.encode SetupRetr.decode
def rfChReg : RegType (BitVec 7) := .byte .rfCh (fieldAt 0) (fieldOf · 0 7)
def rfSetupReg : RegType RfSetup := .byte .rfSetup RfSetup.encode RfSetup.decode
def observeTxReg : RegType ObserveTx := .byte .observeTx ObserveTx.encode ObserveTx.decode
def cdReg : RegType Bool := .byte .cd (bitAt 0) (·.getLsbD 0)
def rxPwReg (p : Pipe) : RegType (BitVec 6) := .byte (.rxPw p) (fieldAt 0) (fieldOf · 0 6)
def fifoStatusReg : RegType FifoStatus := .byte .fifoStatus FifoStatus.encode FifoStatus.decode
def featureReg : RegType Feature := .byte .feature Feature.encode Feature.decode
def rxAddrP0Reg : RegType (List Byte) := { reg := .rxAddrP0, encode := id, decode := id }
def rxAddrP1Reg : RegType (List Byte) := { reg := .rxAddrP1, encode := id, decode := id }
def txAddrReg : RegType (List Byte) := { reg := .txAddr, encode := id, decode := id }
def rxAddrP2Reg : RegType Byte := .byte .rxAddrP2 id id
def rxAddrP3Reg : RegType Byte := .byte .rxAddrP3 id id
def rxAddrP4Reg : RegType Byte := .byte .rxAddrP4 id id
def rxAddrP5Reg : RegType Byte := .byte .rxAddrP5 id id

/-- `encode(v)` of any register value (rule R60). -/
def RegVal.encode : RegVal → List Byte
  | .status v => statusReg.encode v
  | .config v => configReg.encode v
  | .pipes v => [fromBools v]
  | .setupAw v => setupAwReg.encode v
  | .setupRetr v => setupRetrReg.encode v
  | .rfCh v => rfChReg.encode v
  | .rfSetup v => rfSetupReg.encode v
  | .observeTx v => observeTxReg.encode v
  | .cd v => cdReg.encode v
  | .addr a => a
  | .addrLow b => [b]
  | .rxPw v => [fieldAt 0 v]
  | .fifoStatus v => fifoStatusReg.encode v
  | .feature v => featureReg.encode v

/-- `R.decode(bytes)` for the register `r` (rule R60). -/
def RegVal.decode (r : Reg) (bs : List Byte) : RegVal :=
  match r with
  | .status => .status (statusReg.decode bs)
  | .config => .config (configReg.decode bs)
  | .enAa => .pipes (enAaReg.decode bs)
  | .enRxaddr => .pipes (enRxaddrReg.decode bs)
  | .dynpd => .pipes (dynpdReg.decode bs)
  | .setupAw => .setupAw (setupAwReg.decode bs)
  | .setupRetr => .setupRetr (setupRetrReg.decode bs)
  | .rfCh => .rfCh (rfChReg.decode bs)
  | .rfSetup => .rfSetup (rfSetupReg.decode bs)
  | .observeTx => .observeTx (observeTxReg.decode bs)
  | .cd => .cd (cdReg.decode bs)
  | .rxAddrP0 => .addr (rxAddrP0Reg.decode bs)
  | .rxAddrP1 => .addr (rxAddrP1Reg.decode bs)
  | .txAddr => .addr (txAddrReg.decode bs)
  | .rxAddrP2 => .addrLow (rxAddrP2Reg.decode bs)
  | .rxAddrP3 => .addrLow (rxAddrP3Reg.decode bs)
  | .rxAddrP4 => .addrLow (rxAddrP4Reg.decode bs)
  | .rxAddrP5 => .addrLow (rxAddrP5Reg.decode bs)
  | .rxPw p => .rxPw ((rxPwReg p).decode bs)
  | .fifoStatus => .fifoStatus (fifoStatusReg.decode bs)
  | .feature => .feature (featureReg.decode bs)

/-- The register type of a register named at run time, over `RegVal` (the operand of rules R232 to R234). -/
def valReg (r : Reg) : RegType RegVal := { reg := r, encode := RegVal.encode, decode := RegVal.decode r }

/-- `v` is a value of `r`'s register type. -/
def RegVal.fits (v : RegVal) : Reg → Bool
  | .status => (v matches .status _)
  | .config => (v matches .config _)
  | .enAa | .enRxaddr | .dynpd => (v matches .pipes _)
  | .setupAw => (v matches .setupAw _)
  | .setupRetr => (v matches .setupRetr _)
  | .rfCh => (v matches .rfCh _)
  | .rfSetup => (v matches .rfSetup _)
  | .observeTx => (v matches .observeTx _)
  | .cd => (v matches .cd _)
  | .rxAddrP0 | .rxAddrP1 | .txAddr => (v matches .addr _)
  | .rxAddrP2 | .rxAddrP3 | .rxAddrP4 | .rxAddrP5 => (v matches .addrLow _)
  | .rxPw _ => (v matches .rxPw _)
  | .fifoStatus => (v matches .fifoStatus _)
  | .feature => (v matches .feature _)

end Sys2Proof
end

