-- ==== Sys2Proof/Machine/Peripheral.lean ====
section
/-! DEFINITION. The remote state of 10_state.md parts B and D as plain data: the peripheral's register file, its flags,
counters and FIFOs, and the reset values of rule R451. Registers that only frames write stand in `Regs`; what the
peripheral changes on its own stands in `Radio`. -/

namespace Sys2Proof.Machine

/-- `PERIPHERAL_VARIANT` (rule R13). -/
inductive Variant where
  | nRF24L01 | nRF24L01Plus
  deriving DecidableEq, Repr, Inhabited

/-- An entry of the TX FIFO (rule R64). `attached` says that an ACK payload has already gone out as the ACK of a packet
and only waits for a different packet on its pipe (rule R114). -/
inductive TxEntry where
  | data (d : List Byte)
  | ack (p : Pipe) (d : List Byte) (attached : Bool)
  deriving DecidableEq, Repr, Inhabited

/-- An entry of the RX FIFO (rule R65). The pipe is the three bits STATUS.RX_P_NO reports. -/
structure RxPacket where
  pipe : BitVec 3
  data : List Byte
  deriving DecidableEq, Repr, Inhabited

/-- The registers of rule R39 that change only by a register write. One-byte registers are whole bytes, reserved bits
included; the three variable-width addresses are the bytes last written. -/
structure Regs where
  config : Byte
  enAa : Byte
  enRxaddr : Byte
  setupAw : Byte
  setupRetr : Byte
  rfCh : Byte
  rfSetup : Byte
  rxAddrP0 : List Byte
  rxAddrP1 : List Byte
  rxAddrP2 : Byte
  rxAddrP3 : Byte
  rxAddrP4 : Byte
  rxAddrP5 : Byte
  txAddr : List Byte
  rxPw : Six Byte
  dynpd : Byte
  feature : Byte
  deriving DecidableEq, Repr, Inhabited

/-- What the peripheral changes on its own (rules R40, R48, R49, R55, R64 to R66): the three W1C flags, the counters,
the carrier register, the FIFOs, and the stored bits of STATUS and FIFO_STATUS that mirror nothing. -/
structure Radio where
  rxDr : Bool
  txDs : Bool
  maxRt : Bool
  statusBit7 : Bool
  plosCnt : BitVec 4
  arcCnt : BitVec 4
  cd : Byte
  txReuse : Bool
  fifoBit7 : Bool
  fifoBits32 : BitVec 2
  txFifo : List TxEntry
  rxFifo : List RxPacket
  deriving DecidableEq, Repr, Inhabited

/-- The peripheral (agent 3 of rule R8). -/
structure Periph where
  regs : Regs
  radio : Radio
  deriving DecidableEq, Repr, Inhabited

/-- The register reset values of rule R451. -/
def Regs.reset (v : Variant) : Regs where
  config := 0x08
  enAa := 0x3F
  enRxaddr := 0x03
  setupAw := 0x03
  setupRetr := 0x03
  rfCh := 0x02
  rfSetup := match v with | .nRF24L01Plus => 0x0E | .nRF24L01 => 0x0F
  rxAddrP0 := [0xE7, 0xE7, 0xE7, 0xE7, 0xE7]
  rxAddrP1 := [0xC2, 0xC2, 0xC2, 0xC2, 0xC2]
  rxAddrP2 := 0xC3
  rxAddrP3 := 0xC4
  rxAddrP4 := 0xC5
  rxAddrP5 := 0xC6
  txAddr := [0xE7, 0xE7, 0xE7, 0xE7, 0xE7]
  rxPw := ⟨0, 0, 0, 0, 0, 0⟩
  dynpd := 0x00
  feature := 0x00

/-- The flags, counters and FIFOs at reset: STATUS 0x0E, FIFO_STATUS 0x11, OBSERVE_TX and CD 0x00 (rule R451). -/
def Radio.reset : Radio where
  rxDr := false
  txDs := false
  maxRt := false
  statusBit7 := false
  plosCnt := 0
  arcCnt := 0
  cd := 0x00
  txReuse := false
  fifoBit7 := false
  fifoBits32 := 0
  txFifo := []
  rxFifo := []

def Periph.reset (v : Variant) : Periph := { regs := Regs.reset v, radio := Radio.reset }

end Sys2Proof.Machine
end

