-- ==== Sys2Proof/Config.lean ====
section
/-! DEFINITION. What an implementation fixes: the settled parameters of rule R11, the open ones of rule R12, and the
free values (draws) that stand for every answer and state the spec leaves open (rule R117, decision D39). -/

namespace Sys2Proof

open Sys2Proof.Machine

/-! ## Settled parameters (rule R11) -/

/-- `PAYLOAD_MAX`. -/
abbrev Config.payloadMax : Nat := 32
/-- `TX_FIFO_DEPTH`. -/
abbrev Config.txFifoDepth : Nat := 3
/-- `RF_CH_MAX`. -/
abbrev Config.rfChMax : Nat := 125
/-- `ARD_MAX` and `ARC_MAX`. -/
abbrev Config.retrMax : Nat := 15
/-- `RF_PWR_LIMIT`: a legal power is below it. -/
abbrev Config.rfPwrLimit : Nat := 4
/-- `RX_PW_LIMIT`: a legal static length is below it. -/
abbrev Config.rxPwLimit : Nat := 64

/-! ## Open parameters (rules R12, R13) -/

/-- The parameters of the attached peripheral; the machine carries them unchanged. -/
structure Params where
  variant : Variant
  rxFifoDepth : Nat
  deriving DecidableEq, Repr, Inhabited

/-- The reference peripheral of rule R118: an nRF24L01+ with an RX FIFO of 3. -/
def Params.reference : Params := { variant := .nRF24L01Plus, rxFifoDepth := 3 }

/-- The time constants of rule R457 and the SPI clock of rule R10. No rule of the model reads them (rule R12). -/
structure Timing where
  tPor : Nat
  tPwrUp : Nat
  tRxSettle : Nat
  tCePulse : Nat
  tCdValid : Nat
  fSck : Nat
  deriving DecidableEq, Repr, Inhabited

/-- The open time constants of rule R12: no value is fixed. -/
opaque Config.timing : Timing

/-! ## Free values -/

/-- Byte `i` of draw `n`: a received byte the spec leaves open. -/
opaque Config.freeByte : Nat → Nat → Byte
/-- Bit `i` of draw `n`: an open choice of the peripheral. -/
opaque Config.freeBit : Nat → Nat → Bool
/-- The peripheral of draw `n`: its state where the spec leaves it open (rules R200, R411, R458, R462). -/
opaque Config.freePeriph : Nat → Periph

end Sys2Proof
end

