-- ==== Sys2Proof/WellFormed.lean ====
section
/-! DEFINITION. Which instructions are well formed: what the typed operands of rules R150, R154, R170 and R232 to R235
ask beyond the Lean types. A `u8` is a `Byte`, so it needs no check; argument values that an operation itself checks
(a pipe above 5, a payload over 32 bytes, a width outside 3 to 5) are well formed here and answered by the operation. -/

namespace Sys2Proof

/-- Rule R150: the operand ranges of the nine commands. A register write may carry any byte: reserved bits written as 1
do nothing on the peripheral (rule R202; log entry 30). A payload read of width 0 is well formed, although the block
itself never emits it (rules R150, R203; the choice of log entry 36). -/
def Cmd.wellFormed : Cmd → Bool
  | .rRegister r n => r.legalLen n
  | .wRegister r data => r.legalLen data.length
  | .rRxPlWid => true
  | .rRxPayload w => w ≤ 32
  | .wTxPayload d => d.length ≤ 32
  | .wAckPayload _ d => d.length ≤ 32
  | .flushTx => true
  | .flushRx => true
  | .nop => true

/-- A caller's function maps values of the register type to values of that type (rules R234, R235). -/
def RegFn.fits (f : RegFn) (r : Reg) : Bool :=
  match f with
  | .keep _ => true
  | .put v _ => v.fits r
  | .bits _ _ _ => !r.isAddress
  | .graph rows => rows.all fun row => row.1.fits r && row.2.1.fits r

/-- The whole check. -/
def Instr.wellFormed : Instr → Bool
  | .frameRRegister r n => (Cmd.rRegister r n).wellFormed
  | .frameWRegister r data => (Cmd.wRegister r data).wellFormed
  | .frameRRxPlWid => true
  | .frameRRxPayload w => (Cmd.rRxPayload w).wellFormed
  | .frameWTxPayload d => (Cmd.wTxPayload d).wellFormed
  | .frameWAckPayload p d => (Cmd.wAckPayload p d).wellFormed
  | .frameFlushTx => true
  | .frameFlushRx => true
  | .frameNop => true
  | .sendCommand c => c.wellFormed
  | .writeRegister r v => v.fits r
  | .readRegister _ _ => true
  | .updateRegister r _ f => f.fits r
  | .updateConfig f => f.fits .config
  | .ceEnable => true
  | .ceDisable => true
  | .flushRx => true
  | .flushTx => true
  | .setFrequency _ => true
  | .getFrequency => true
  | .setRf _ _ => true
  | .getAddressWidth => true
  | .setAddressWidth _ => true
  | .setCrc _ => true
  | .setInterruptMask _ _ _ => true
  | .setPipesRxEnable _ => true
  | .getInterrupts => true
  | .clearInterrupts => true
  | .setRxAddr _ _ => true
  | .setTxAddr _ => true
  | .setPipesRxLengths _ => true
  | .setAutoRetransmit _ _ => true
  | .getAutoAck => true
  | .setAutoAck _ => true
  | .configureRx _ => true
  | .configureTx _ => true
  | .new _ _ _ => true
  | .rx => true
  | .tx => true
  | .standbyRx => true
  | .standbyTx => true
  | .powerUp => true
  | .powerDown => true
  | .canRead => true
  | .read => true
  | .push _ _ => true
  | .hasCarrier => true
  | .isEmpty => true
  | .isFull => true
  | .send _ => true
  | .canSend => true
  | .waitEmpty => true
  | .observe => true

end Sys2Proof
end

