-- ==== Sys2Proof/Decode.lean ====
section
/-! DEFINITION. Command byte decoding (rules R151, R157), the decoder of one captured CSN window (rules R101, R156),
and after it the encoder (rules R150 to R154). Host operations have no binary encoding (decision D1), so only the nine
command frames decode and encode. -/

namespace Sys2Proof

/-- The nine rows of rule R151. -/
inductive CmdKind where
  | rRegister | wRegister | rRxPlWid | rRxPayload | wTxPayload | wAckPayload | flushTx | flushRx | nop
  deriving DecidableEq, Repr, Inhabited

/-- One row of rule R151: a byte `b` is of the row when `b & mask = value`. -/
structure CmdRow where
  kind : CmdKind
  value : Byte
  mask : Byte
  deriving DecidableEq, Repr

/-- The command byte table of rule R151, in its order. -/
def cmdTable : List CmdRow :=
  [⟨.rRegister, 0x00, 0xE0⟩, ⟨.wRegister, 0x20, 0xE0⟩, ⟨.rRxPlWid, 0x60, 0xFF⟩, ⟨.rRxPayload, 0x61, 0xFF⟩,
   ⟨.wTxPayload, 0xA0, 0xFF⟩, ⟨.wAckPayload, 0xA8, 0xF8⟩, ⟨.flushTx, 0xE1, 0xFF⟩, ⟨.flushRx, 0xE2, 0xFF⟩,
   ⟨.nop, 0xFF, 0xFF⟩]

/-- The row a command byte belongs to: the first that matches (rule R157). -/
def cmdKindOf (b : Byte) : Option CmdKind :=
  (cmdTable.find? fun row => b &&& row.mask == row.value).map (·.kind)

/-- Why a window is no command frame of the block. -/
inductive DecodeError where
  | emptyWindow                     -- no command byte: a frame holds at least one byte (rule R101)
  | notEmitted (cmd : Byte)         -- `NotEmitted(cmd)` of rule R157
  | badLength (cmd : Byte) (n : Nat)-- the window length is not legal for the command (rule R156)
  deriving DecidableEq, Repr

/-- The register address field (rule R152); reserved addresses are never emitted (rules R56, R59). -/
def regField (b : Byte) : Option Reg := Reg.ofAddr? (b.extractLsb' 0 5)

/-- The pipe field (rule R153); 6 and 7 are never emitted. -/
def pipeField (b : Byte) : Option Pipe := Pipe.ofNat? (b.extractLsb' 0 3).toNat

/-- The command of one CSN window (rules R156, R157). The bytes shifted out during a read carry no information. -/
def decodeCmd : List Byte → Except DecodeError Cmd
  | [] => .error .emptyWindow
  | b :: data =>
    match cmdKindOf b with
    | none => .error (.notEmitted b)
    | some .rRegister =>
      match regField b with
      | none => .error (.notEmitted b)
      | some r => if r.legalLen data.length then .ok (.rRegister r data.length) else .error (.badLength b data.length)
    | some .wRegister =>
      match regField b with
      | none => .error (.notEmitted b)
      | some r => if r.legalLen data.length then .ok (.wRegister r data) else .error (.badLength b data.length)
    | some .rRxPlWid => if data.length = 1 then .ok .rRxPlWid else .error (.badLength b data.length)
    | some .rRxPayload => if data.length ≤ 32 then .ok (.rRxPayload data.length) else .error (.badLength b data.length)
    | some .wTxPayload => if data.length ≤ 32 then .ok (.wTxPayload data) else .error (.badLength b data.length)
    | some .wAckPayload =>
      match pipeField b with
      | none => .error (.notEmitted b)
      | some p => if data.length ≤ 32 then .ok (.wAckPayload p data) else .error (.badLength b data.length)
    | some .flushTx => if data.length = 0 then .ok .flushTx else .error (.badLength b data.length)
    | some .flushRx => if data.length = 0 then .ok .flushRx else .error (.badLength b data.length)
    | some .nop => if data.length = 0 then .ok .nop else .error (.badLength b data.length)

/-- The instruction that is the frame of a command. -/
def Cmd.toInstr : Cmd → Instr
  | .rRegister r n => .frameRRegister r n
  | .wRegister r data => .frameWRegister r data
  | .rRxPlWid => .frameRRxPlWid
  | .rRxPayload w => .frameRRxPayload w
  | .wTxPayload d => .frameWTxPayload d
  | .wAckPayload p d => .frameWAckPayload p d
  | .flushTx => .frameFlushTx
  | .flushRx => .frameFlushRx
  | .nop => .frameNop

/-- The instruction of one CSN window: total on any bytes, rejecting by name. -/
def decode (window : List Byte) : Except DecodeError Instr :=
  match decodeCmd window with
  | .ok c => .ok c.toInstr
  | .error e => .error e

/-- The data phase has the length that the configured address width `W` gives the command: `W` bytes for the three
variable-width registers (rules R62, R156). -/
def Cmd.lengthAt (W : Nat) : Cmd → Bool
  | .rRegister r n => !r.isAddress || n == W
  | .wRegister r data => !r.isAddress || data.length == W
  | .rRxPlWid | .rRxPayload _ | .wTxPayload _ | .wAckPayload _ _ | .flushTx | .flushRx | .nop => true

/-- The passive decoder of a captured window (rule R156): where the address width `W` is known, it also checks that the
length is legal under it. `decode` is the same without that check, for a window whose sender may use any legal width
(rules R105, R233; log entry 38). -/
def decodeCapture (W : Nat) (window : List Byte) : Except DecodeError Instr :=
  match decodeCmd window with
  | .ok c => if c.lengthAt W then .ok c.toInstr else .error (.badLength (window.headD 0) (window.length - 1))
  | .error e => .error e

/-! ## The encoder -/

/-- The command byte (rules R151 to R153). -/
def Cmd.byte : Cmd → Byte
  | .rRegister r _ => r.addr.setWidth 8
  | .wRegister r _ => 0x20#8 ||| r.addr.setWidth 8
  | .rRxPlWid => 0x60
  | .rRxPayload _ => 0x61
  | .wTxPayload _ => 0xA0
  | .wAckPayload p _ => 0xA8#8 ||| BitVec.ofNat 8 p.toNat
  | .flushTx => 0xE1
  | .flushRx => 0xE2
  | .nop => 0xFF

/-- The outgoing data phase: 0x00 for every byte of a read, the operand bytes of a write (rules R150, R154). -/
def Cmd.dataOut : Cmd → List Byte
  | .rRegister _ n => List.replicate n 0
  | .wRegister _ data => data
  | .rRxPlWid => [0]
  | .rRxPayload w => List.replicate w 0
  | .wTxPayload d => d
  | .wAckPayload _ d => d
  | .flushTx => []
  | .flushRx => []
  | .nop => []

/-- The outgoing frame `out = [cmd] ++ d_out` (rule R150), which is the scratch buffer of rule R231. -/
def Cmd.encode (c : Cmd) : List Byte := c.byte :: c.dataOut

/-- `cmd.len()` (rule R101): one command byte and the data phase. -/
def Cmd.len (c : Cmd) : Nat := 1 + c.dataOut.length

/-- The command of a frame instruction; none for a host operation. -/
def Instr.cmd? : Instr → Option Cmd
  | .frameRRegister r n => some (.rRegister r n)
  | .frameWRegister r data => some (.wRegister r data)
  | .frameRRxPlWid => some .rRxPlWid
  | .frameRRxPayload w => some (.rRxPayload w)
  | .frameWTxPayload d => some (.wTxPayload d)
  | .frameWAckPayload p d => some (.wAckPayload p d)
  | .frameFlushTx => some .flushTx
  | .frameFlushRx => some .flushRx
  | .frameNop => some .nop
  | .sendCommand _ | .writeRegister _ _ | .readRegister _ _ | .updateRegister _ _ _ | .updateConfig _ | .ceEnable
  | .ceDisable | .flushRx | .flushTx | .setFrequency _ | .getFrequency | .setRf _ _ | .getAddressWidth
  | .setAddressWidth _ | .setCrc _ | .setInterruptMask _ _ _ | .setPipesRxEnable _ | .getInterrupts | .clearInterrupts
  | .setRxAddr _ _ | .setTxAddr _ | .setPipesRxLengths _ | .setAutoRetransmit _ _ | .getAutoAck | .setAutoAck _
  | .configureRx _ | .configureTx _ | .new _ _ _ | .rx | .tx | .standbyRx | .standbyTx | .powerUp | .powerDown
  | .canRead | .read | .push _ _ | .hasCarrier | .isEmpty | .isFull | .send _ | .canSend | .waitEmpty
  | .observe => none

/-- The bytes of an instruction: the frame of a command; none for a host operation, which has no encoding. -/
def encode (i : Instr) : Option (List Byte) := i.cmd?.map Cmd.encode

/-! ## The opcode table's bit numbering -/

/-- Byte `i` of an instruction whose bits are `w`, bit 0 the least significant bit of the first byte. -/
def tableByte (w i : Nat) : Byte := BitVec.ofNat 8 (w >>> (8 * i))

/-- How many data bytes follow the command byte in the window read from a table word of `nbits` bits: as many as the
command needs (the widest address for an address register), and for a payload command the bytes the word itself has. -/
def tableDataLen (nbits w : Nat) : Nat :=
  match cmdKindOf (tableByte w 0) with
  | some .rRegister | some .wRegister =>
    match regField (tableByte w 0) with
    | some r => if r.isAddress then 5 else 1
    | none => 0
  | some .rRxPlWid => 1
  | some .rRxPayload | some .wTxPayload | some .wAckPayload => nbits / 8 - 1
  | some .flushTx | some .flushRx | some .nop | none => 0

/-- The CSN window of a table word; no byte at all where the table gives the row no bits. -/
def tableWindow (nbits w : Nat) : List Byte :=
  if nbits = 0 then [] else
    (List.range (1 + tableDataLen nbits (w % 2 ^ nbits))).map (tableByte (w % 2 ^ nbits))

/-- The instruction the decoder reads from a table word. -/
def decodeTableWord (nbits w : Nat) : Option Instr :=
  match decode (tableWindow nbits w) with
  | .ok i => some i
  | .error _ => none

end Sys2Proof
end

