-- ==== Sys2Proof/Machine/State.lean ====
section
/-! DEFINITION. The state: the block's record `B = {mode, ce, csn, shadow, fault, seq}` (rules R30 to R36), the HOST
port, the peripheral, the environment's coming moves, the port trace, the draw counter and the peripheral's parameters;
the reasons a step can stop; and the state after reset (rules R450, R451). -/

namespace Sys2Proof.Machine

/-! ## The block -/

/-- `B.mode` (rule R31). -/
inductive Mode where
  | off | standby | rx | tx
  deriving DecidableEq, Repr, Inhabited

/-- The level last driven on a pin: 0, 1 or X (rules R32, R33). -/
inductive Level where
  | low | high | unknown
  deriving DecidableEq, Repr, Inhabited

/-- The contract violations of rule R410. -/
inductive Violation where
  | powerRange | addrWidth | addrLength | rxPwRange | updateRegisterConfig
  deriving DecidableEq, Repr, Inhabited

/-- The hazard marks of rule R411. -/
inductive Hazard where
  | flushInActiveRx | powerToggleWithCe
  deriving DecidableEq, Repr, Inhabited

/-- A reason in `B.fault` (rule R35). -/
inductive FaultReason where
  | violation (v : Violation)
  | hazard (h : Hazard)
  deriving DecidableEq, Repr, Inhabited

/-- `B.fault`, a set of reasons: one member flag per reason, so that equal sets are equal data (rule R35). -/
structure FaultSet where
  powerRange : Bool
  addrWidth : Bool
  addrLength : Bool
  rxPwRange : Bool
  updateRegisterConfig : Bool
  flushInActiveRx : Bool
  powerToggleWithCe : Bool
  deriving DecidableEq, Repr, Inhabited

/-- The empty set. -/
def FaultSet.empty : FaultSet := ⟨false, false, false, false, false, false, false⟩

/-! ## The HOST port -/

/-- Which port failed (rule R400). -/
inductive BusSource where
  | spi | csnPin | cePin
  deriving DecidableEq, Repr, Inhabited

/-- The error kinds of rule R400. -/
inductive ErrKind where
  | busError (src : BusSource)
  | notConnected
  | queueFull
  | payloadTooLarge
  | invalidPipe (p : Byte)
  | maxRetransmitsExceeded
  deriving DecidableEq, Repr, Inhabited

/-- `Payload` (rule R72): a store of 32 bytes and the length of its meaningful part. -/
structure Payload where
  len : Nat
  data : List Byte
  deriving DecidableEq, Repr, Inhabited

/-- The typed response of a command (rule R155). -/
inductive Response where
  | statusOnly
  | reg (v : RegVal)
  | width (w : Byte)
  | payload (p : Payload)
  deriving DecidableEq, Repr, Inhabited

/-- The value an operation returns (the result column of rule R170). -/
inductive Value where
  | unit
  | bool (b : Bool)
  | u8 (b : Byte)
  | status (st : Status)
  | frame (st : Status) (r : Response)
  | regRead (st : Status) (v : RegVal)
  | token (t : List Byte)                     -- the `T` of rules R234, R235
  | interrupts (rxDr txDs maxRt : Bool)
  | pipes (b : Six Bool)
  | pipe (p : Option (BitVec 3))
  | payload (p : Payload)
  | counts (lost retransmits : BitVec 4)
  deriving DecidableEq, Repr, Inhabited

/-- What the result port carries (rule R38). -/
inductive OpResult where
  | ok (v : Value)
  | err (e : ErrKind)
  deriving DecidableEq, Repr, Inhabited

/-- A typed call at the HOST port (rules R16, R170): an operation or command with operands of its types. Rule R170 gives
the arguments their types, so a term that is not well formed is no call (log entry 30). -/
structure Call where
  instr : Instr
  typed : instr.wellFormed = true
  deriving DecidableEq, Repr

/-- What waits at the HOST port: a call, or the bytes of one command frame. -/
inductive Request where
  | op (c : Call)
  | window (bytes : List Byte)
  deriving DecidableEq, Repr, Inhabited

/-! ## The environment -/

/-- An event of the peripheral's radio (rules R110 to R114), between or inside frames (rules R108, R109). -/
inductive RadioEvent where
  /-- a packet of any length arrives on a pipe, whatever its RX_PW and DYNPD say (log entry 40), different from the
  one before it; `ackUse` says whether an ACK payload for a pipe
  that lacks auto-ack or dynamic length is used all the same, which rule R205 leaves open -/
  | received (p : Pipe) (d : List Byte) (ackUse : Bool)
  /-- the packet last received on the pipe arrives again (rule R114). No rule says whether a retransmission enters the
  RX FIFO: `again` is its bytes if this one does, none if the peripheral drops it (log entry 16); `ackUse` as in
  `received` -/
  | repeated (p : Pipe) (again : Option (List Byte)) (ackUse : Bool)
  /-- the head packet was sent after `arc` retransmissions, with an ACK payload from the peer or none (rule R111);
  the payload enters the RX FIFO under the pipe named here, enabled in EN_RXADDR or not (log entry 39) -/
  | sent (arc : BitVec 4) (ack : Option (Pipe × List Byte))
  /-- the head packet used up its retransmissions (rule R112) -/
  | maxRetries
  /-- the diagnostic counters change (rule R48) -/
  | counters (plos arc : BitVec 4)
  /-- the carrier bit changes (rule R49) -/
  | carrier (on : Bool)
  deriving DecidableEq, Repr, Inhabited

/-- How the platform answers one port primitive (rule R15). -/
inductive PortOutcome where
  /-- it succeeds and the peripheral keeps its contract -/
  | ok
  /-- it returns `err` -/
  | fails
  /-- an `Xfer` that succeeds with these received bytes whatever the peripheral holds: no peripheral drives the line, or
  a host duty of rules R457, R462 is broken. For a pin write it is a success. -/
  | answers (bytes : List Byte)
  deriving DecidableEq, Repr, Inhabited

/-- What the world does at one port primitive: the radio events before it, those inside the frame's data phase
(rule R108; a pin write takes them as before it), and its outcome. -/
structure EnvMove where
  events : List RadioEvent
  during : List RadioEvent
  outcome : PortOutcome
  deriving DecidableEq, Repr, Inhabited

/-- Nothing happens and the primitive succeeds. -/
def EnvMove.calm : EnvMove := { events := [], during := [], outcome := .ok }

/-! ## The observable trace (rules R161, R420) -/

/-- An output line of the block (rule R9). -/
inductive Line where
  | ce | csn
  deriving DecidableEq, Repr, Inhabited

/-- One port primitive as seen from outside: a pin write, or a transfer with the received bytes if it succeeded. -/
inductive PortEvent where
  | pin (line : Line) (level : Bool) (ok : Bool)
  | xfer (out : List Byte) (inp : Option (List Byte))
  deriving DecidableEq, Repr, Inhabited

/-- A port event and the `B.seq` point at which it happened. -/
structure TraceEntry where
  point : Nat
  event : PortEvent
  deriving DecidableEq, Repr, Inhabited

/-! ## The state -/

/-- Where a stretch of an operation began: at its acceptance, or at a loop head (rules R36, R316, R373). It is kept while
the operation is under way, because the local variables of an operation are no state (rule R30) and follow from the
state it began in: a step runs the operation again from here, one program point further than the step before. `point`
is the point here, `upTo` the point the block is at. The model's own (log entry 1). -/
structure Stretch where
  mode : Mode
  ce : Level
  csn : Level
  shadow : Option Byte
  fault : FaultSet
  periph : Periph
  env : List EnvMove
  trace : List TraceEntry
  draws : Nat
  point : Nat
  upTo : Nat
  deriving DecidableEq, Repr, Inhabited

/-- `B.seq` (rule R36): idle, or in the operation `op` with `k` program points (pin writes, frames and local
computations) done since its start, a pass going back to the loop head's point; `lost` is the loop flag of rule R373,
which is local to the operation (rule R30). `began` is where the stretch of it that is under way began; none where
nothing but `lost` is live: at a loop head. -/
inductive SeqPos where
  | idle
  | busy (op : Instr) (k : Nat) (lost : Bool) (began : Option Stretch)
  deriving DecidableEq, Repr, Inhabited

structure State where
  mode : Mode
  ce : Level
  csn : Level
  shadow : Option Byte
  fault : FaultSet
  seq : SeqPos
  requests : List Request
  result : Option OpResult
  periph : Periph
  env : List EnvMove
  trace : List TraceEntry
  draws : Nat
  params : Params
  deriving DecidableEq, Repr, Inhabited

/-- Why the machine stops with a fault. -/
inductive Fault where
  /-- `update_config` found the shadow invalid. Rule R34: such a read "cannot occur, because only `new` runs in `Off`";
  no state a run from reset reaches raises it. Safe: the machine stops. -/
  | shadowInvalid
  deriving DecidableEq, Repr

/-- Why a request has no meaning. -/
inductive Refusal where
  /-- an arm of exec that has no meaning yet; no arm is left so. Safe. -/
  | notModelled (mnemonic : String)
  /-- the refusal mark of rule R171: a host operation called in a mode where it is not legal. Raised by every host
  operation. Safe: the call has no meaning in the spec either. -/
  | notLegalInMode (m : Mode)
  /-- a new operation while `B.seq` is not idle (rule R36: accepted "only in `Idle`"). Raised by every operation; step
  goes on with the operation under way, so no run from reset reaches it. Safe. -/
  | seqBusy
  /-- the window is no command frame of the block (rules R157, R158). Raised by step. Safe. -/
  | undecodable (e : DecodeError)
  deriving DecidableEq, Repr

/-- The state after reset (rules R450, R451): the block as created, a peripheral at its power-on values, no request
waiting, no port event yet, and an environment with nothing in store. -/
def State.reset : State where
  mode := .off
  ce := .unknown
  csn := .unknown
  shadow := none
  fault := FaultSet.empty
  seq := .idle
  requests := []
  result := none
  periph := Periph.reset Params.reference.variant
  env := []
  trace := []
  draws := 0
  params := Params.reference

end Sys2Proof.Machine
end

