-- ==== Sys2Proof/Machine/Flags.lean ====
section
/-! DEFINITION. Every flag the spec computes: the STATUS and FIFO_STATUS bytes as views of the peripheral (rules R40,
R55, R64 to R66), the interrupt line and its masks (rules R413, R414), the power states (rule R421), the fault set
(rule R35) and the error codes (rule R400). -/

namespace Sys2Proof.Machine

/-! ## STATUS and FIFO_STATUS -/

/-- STATUS.RX_P_NO: the pipe of the head packet, 0b111 when the RX FIFO is empty (rule R65). -/
def Radio.rxPNo (r : Radio) : BitVec 3 :=
  match r.rxFifo with
  | [] => 0b111
  | h :: _ => h.pipe

/-- The TX FIFO holds `TX_FIFO_DEPTH` entries (rule R64). -/
def Radio.txFull (r : Radio) : Bool := Config.txFifoDepth ≤ r.txFifo.length

/-- The decoded STATUS register (rule R40). -/
def Radio.status (r : Radio) : Status :=
  { rxDr := r.rxDr, txDs := r.txDs, maxRt := r.maxRt, rxPNo := r.rxPNo, txFull := r.txFull }

/-- The STATUS byte. -/
def Radio.statusByte (r : Radio) : Byte := r.status.encode ||| bitAt 7 r.statusBit7

/-- The decoded FIFO_STATUS register (rule R55). -/
def Radio.fifoStatus (par : Params) (r : Radio) : FifoStatus :=
  { txReuse := r.txReuse, txFull := r.txFull, txEmpty := r.txFifo.isEmpty,
    rxFull := par.rxFifoDepth ≤ r.rxFifo.length, rxEmpty := r.rxFifo.isEmpty }

/-- The FIFO_STATUS byte. -/
def Radio.fifoStatusByte (par : Params) (r : Radio) : Byte :=
  (r.fifoStatus par).encode ||| bitAt 7 r.fifoBit7 ||| fieldAt 2 r.fifoBits32

/-! ## Interrupts -/

/-- The peripheral drives its IRQ line: some flag of rule R413 is pending and not suppressed by its CONFIG mask bit
(rule R414). The line goes to the host, never to the block (rule R412). -/
def Periph.irqAsserted (p : Periph) : Bool :=
  let c := ConfigReg.decode p.regs.config
  (p.radio.rxDr && !c.maskRxDr) || (p.radio.txDs && !c.maskTxDs) || (p.radio.maxRt && !c.maskMaxRt)

/-- The level of the peripheral's IRQ pin, which is active low (rule R413). -/
def Periph.irqPin (p : Periph) : Level := if p.irqAsserted then .low else .high

/-! ## Power states (rule R421) -/

inductive PowerState where
  | powerDown | standby | activeRx | activeTx
  deriving DecidableEq, Repr, Inhabited

/-- The peripheral's power state from PWR_UP, CE and PRIM_RX; an unknown CE level counts as possibly high. -/
def powerState (regs : Regs) (ce : Level) : PowerState :=
  let c := ConfigReg.decode regs.config
  if c.pwrUp then
    if ce = .low then .standby else if c.primRx then .activeRx else .activeTx
  else .powerDown

/-! ## The fault set -/

/-- Add a reason; no step removes one (rule R35). -/
def FaultSet.add (f : FaultSet) : FaultReason → FaultSet
  | .violation .powerRange => { f with powerRange := true }
  | .violation .addrWidth => { f with addrWidth := true }
  | .violation .addrLength => { f with addrLength := true }
  | .violation .rxPwRange => { f with rxPwRange := true }
  | .violation .updateRegisterConfig => { f with updateRegisterConfig := true }
  | .hazard .flushInActiveRx => { f with flushInActiveRx := true }
  | .hazard .powerToggleWithCe => { f with powerToggleWithCe := true }

/-- Membership. -/
def FaultSet.has (f : FaultSet) : FaultReason → Bool
  | .violation .powerRange => f.powerRange
  | .violation .addrWidth => f.addrWidth
  | .violation .addrLength => f.addrLength
  | .violation .rxPwRange => f.rxPwRange
  | .violation .updateRegisterConfig => f.updateRegisterConfig
  | .hazard .flushInActiveRx => f.flushInActiveRx
  | .hazard .powerToggleWithCe => f.powerToggleWithCe

/-! ## Error codes (rule R400) -/

def ErrKind.code : ErrKind → Nat
  | .busError _ => 1
  | .notConnected => 2
  | .queueFull => 3
  | .payloadTooLarge => 4
  | .invalidPipe _ => 5
  | .maxRetransmitsExceeded => 6

end Sys2Proof.Machine
end

