-- ==== Sys2Proof/Machine/Contract.lean ====
section
/-! DEFINITION. The peripheral contract (20_memory.md): the radio events of rules R110 to R114, the answer and the effect
of each command (rules R102, R107, R201 to R209), and the draws where the spec leaves the peripheral open. -/

namespace Sys2Proof.Machine

/-! ## Radio events -/

/-- An ACK payload for the pipe is sent only with auto-ack and dynamic length on it, and EN_DPL and EN_ACK_PAY set
(rules R205, R342). -/
def Regs.ackEnabled (regs : Regs) (p : Pipe) : Bool :=
  (toBools regs.enAa).get p && (toBools regs.dynpd).get p && (Feature.decode regs.feature).enDpl &&
    (Feature.decode regs.feature).enAckPay

/-- The oldest ACK payload of the pipe goes out as the ACK of the packet that just arrived, new or repeated
(rules R114, R205); one that has already gone out goes out again. -/
def attachAck (p : Pipe) : List TxEntry → List TxEntry
  | [] => []
  | .data d :: rest => .data d :: attachAck p rest
  | .ack q d a :: rest => if q = p then .ack q d true :: rest else .ack q d a :: attachAck p rest

/-- A different packet arrives on the pipe (rule R114): an ACK payload that had already gone out leaves the TX FIFO, and
the next one of the pipe goes out. -/
def advanceAck (p : Pipe) : List TxEntry → List TxEntry
  | [] => []
  | .data d :: rest => .data d :: advanceAck p rest
  | .ack q d a :: rest =>
    if q = p then
      if a then attachAck p rest else .ack q d true :: rest
    else .ack q d a :: advanceAck p rest

/-- Add a packet to the RX FIFO if there is room, and set RX_DR (rule R110). -/
def Radio.accept (par : Params) (r : Radio) (pkt : RxPacket) : Radio :=
  if r.rxFifo.length < par.rxFifoDepth then { r with rxFifo := r.rxFifo ++ [pkt], rxDr := true } else r

/-- One more lost packet; the counter stays at 15 (rule R48). -/
def satIncr (n : BitVec 4) : BitVec 4 := if n = 15 then 15 else n + 1

/-- One radio event. An event the contract does not allow in this state changes nothing. While MAX_RT is set no ACK
payload goes out and none leaves the TX FIFO (rules R112, R460).
The spec is silent on whether a retransmission enters the RX FIFO and sets RX_DR; the event says so. It is silent too on
a retransmission in Rx while the RX FIFO is full; the model's choice is that the packet is dropped without RX_DR, even
if the event says that it enters, and that the pipe's ACK payload still goes out (log entry 16).
The spec is silent on an ACK payload that arrives in Tx while the RX FIFO is full; the model's choice is that it is
dropped without RX_DR and that the packet still counts as sent, its `Data` entry removed and TX_DS set (log entry 16).
It is silent as well on whether such an ACK payload needs its pipe enabled in EN_RXADDR, and on which pipe it is stored
under; the model's choice is that it enters under the pipe the event names, enabled or not (log entry 39).
No test is made of a received packet's length against RX_PW and DYNPD, so a static pipe takes a packet of any length,
with RX_PW 0 or above 32 too (rules R54, R276): the model's choice (log entry 40). Nor is EN_AA or ARC tested where a
packet is sent or uses up its retransmissions: the model's choice too (log entry 41). -/
def Radio.event (par : Params) (regs : Regs) (ce : Level) (r : Radio) : RadioEvent → Radio
  | .received p d ackUse =>
    if powerState regs ce = .activeRx && (toBools regs.enRxaddr).get p && decide (r.rxFifo.length < par.rxFifoDepth) then
      let r := r.accept par { pipe := BitVec.ofNat 3 p.toNat, data := d }
      if !r.maxRt && (regs.ackEnabled p || ackUse) then { r with txFifo := advanceAck p r.txFifo } else r
    else r
  | .repeated p again ackUse =>
    if powerState regs ce = .activeRx && (toBools regs.enRxaddr).get p then
      let r := match again with
        | none => r
        | some d => r.accept par { pipe := BitVec.ofNat 3 p.toNat, data := d }
      if !r.maxRt && (regs.ackEnabled p || ackUse) then { r with txFifo := attachAck p r.txFifo } else r
    else r
  | .sent arc ack =>
    if powerState regs ce = .activeTx && !r.maxRt then
      match r.txFifo with
      | .data _ :: rest =>
        let r := { r with txFifo := rest, txDs := true, arcCnt := arc }
        match ack with
        | none => r
        | some (p, d) => r.accept par { pipe := BitVec.ofNat 3 p.toNat, data := d }
      | _ => r
    else r
  | .maxRetries =>
    if powerState regs ce = .activeTx && !r.maxRt then
      match r.txFifo with
      | .data _ :: _ =>
        { r with maxRt := true, plosCnt := satIncr r.plosCnt, arcCnt := (SetupRetr.decode regs.setupRetr).arc }
      | _ => r
    else r
  | .counters plos arc => { r with plosCnt := plos, arcCnt := arc }
  | .carrier on => { r with cd := (r.cd &&& ~~~(1#8)) ||| bitAt 0 on }

/-- A list of radio events, in order. -/
def Radio.events (par : Params) (regs : Regs) (ce : Level) (r : Radio) (evs : List RadioEvent) : Radio :=
  evs.foldl (Radio.event par regs ce) r

/-! ## Register reads -/

/-- CONFIG as read: with auto-ack on some pipe and EN_CRC written 0, the EN_CRC bit is open (rule R268). -/
def Regs.configRead (regs : Regs) (n : Nat) : Byte :=
  if (toBools regs.enAa).any && !(ConfigReg.decode regs.config).enCrc then
    regs.config ||| bitAt 3 (Config.freeBit n 3)
  else regs.config

/-- The stored bytes of a variable-width address, if they were written with the width they are read with; a mixed-width
read has no stored answer (rule R105). -/
def addrRead (stored : List Byte) (n : Nat) : List Byte := if stored.length = n then stored else []

/-- The data bytes of a register read of `len` bytes; `n` is the draw. -/
def Periph.readReg (par : Params) (n : Nat) (p : Periph) (r : Reg) (len : Nat) : List Byte :=
  match r with
  | .config => [p.regs.configRead n]
  | .enAa => [p.regs.enAa]
  | .enRxaddr => [p.regs.enRxaddr]
  | .setupAw => [p.regs.setupAw]
  | .setupRetr => [p.regs.setupRetr]
  | .rfCh => [p.regs.rfCh]
  | .rfSetup => [p.regs.rfSetup]
  | .status => [p.radio.statusByte]
  | .observeTx => [ObserveTx.encode { plosCnt := p.radio.plosCnt, arcCnt := p.radio.arcCnt }]
  | .cd => [p.radio.cd]
  | .rxAddrP0 => addrRead p.regs.rxAddrP0 len
  | .rxAddrP1 => addrRead p.regs.rxAddrP1 len
  | .rxAddrP2 => [p.regs.rxAddrP2]
  | .rxAddrP3 => [p.regs.rxAddrP3]
  | .rxAddrP4 => [p.regs.rxAddrP4]
  | .rxAddrP5 => [p.regs.rxAddrP5]
  | .txAddr => addrRead p.regs.txAddr len
  | .rxPw q => [p.regs.rxPw.get q]
  | .fifoStatus => [p.radio.fifoStatusByte par]
  | .dynpd => [p.regs.dynpd]
  | .feature => [p.regs.feature]

/-! ## Register writes -/

/-- The bits of `old` outside `mask` are kept; those inside come from `new` (rule R202). -/
def mergeBits (mask old new : Byte) : Byte := (old &&& ~~~mask) ||| (new &&& mask)

/-- The effect of a register write on the written registers (rules R107, R202): the RW bits of the tables of rules R41
to R58 take the new value. -/
def Regs.write (regs : Regs) (r : Reg) (data : List Byte) : Regs :=
  match r with
  | .config => { regs with config := mergeBits 0x7F regs.config (data.headD 0) }
  | .enAa => { regs with enAa := mergeBits 0x3F regs.enAa (data.headD 0) }
  | .enRxaddr => { regs with enRxaddr := mergeBits 0x3F regs.enRxaddr (data.headD 0) }
  | .setupAw => { regs with setupAw := mergeBits 0x03 regs.setupAw (data.headD 0) }
  | .setupRetr => { regs with setupRetr := data.headD 0 }
  | .rfCh => { regs with rfCh := mergeBits 0x7F regs.rfCh (data.headD 0) }
  | .rfSetup => { regs with rfSetup := mergeBits 0xBF regs.rfSetup (data.headD 0) }
  | .rxAddrP0 => { regs with rxAddrP0 := data }
  | .rxAddrP1 => { regs with rxAddrP1 := data }
  | .rxAddrP2 => { regs with rxAddrP2 := data.headD 0 }
  | .rxAddrP3 => { regs with rxAddrP3 := data.headD 0 }
  | .rxAddrP4 => { regs with rxAddrP4 := data.headD 0 }
  | .rxAddrP5 => { regs with rxAddrP5 := data.headD 0 }
  | .txAddr => { regs with txAddr := data }
  | .rxPw q => { regs with rxPw := regs.rxPw.set q (mergeBits 0x3F (regs.rxPw.get q) (data.headD 0)) }
  | .dynpd => { regs with dynpd := mergeBits 0x3F regs.dynpd (data.headD 0) }
  | .feature => { regs with feature := mergeBits 0x07 regs.feature (data.headD 0) }
  | .status | .observeTx | .cd | .fifoStatus => regs

/-- The effect of a register write on the flags and counters: STATUS bits 6 to 4 written as 1 are cleared (rule R107),
and a write to RF_CH resets the lost-packet count (rule R48). -/
def Radio.write (radio : Radio) (r : Reg) (data : List Byte) : Radio :=
  match r with
  | .status =>
    let w := Status.decode (data.headD 0)
    { radio with rxDr := radio.rxDr && !w.rxDr, txDs := radio.txDs && !w.txDs, maxRt := radio.maxRt && !w.maxRt }
  | .rfCh => { radio with plosCnt := 0 }
  | _ => radio

def Periph.write (p : Periph) (r : Reg) (data : List Byte) : Periph :=
  { regs := p.regs.write r data, radio := p.radio.write r data }

/-! ## Draws of the peripheral's state -/

/-- The TX FIFO of a draw, within its bound (rule R64). -/
def freeTxFifo (n : Nat) : List TxEntry := (Config.freePeriph n).radio.txFifo.take Config.txFifoDepth

/-- The radio state of a draw, within the FIFO bounds (rules R64, R65). -/
def freeRadio (par : Params) (n : Nat) : Radio :=
  { (Config.freePeriph n).radio with
    txFifo := freeTxFifo n
    rxFifo := (Config.freePeriph n).radio.rxFifo.take par.rxFifoDepth }

/-- The whole peripheral of a draw (rule R462). -/
def freePeripheral (par : Params) (n : Nat) : Periph :=
  { regs := (Config.freePeriph n).regs, radio := freeRadio par n }

/-- The registers with `r` as it is in `free`; the four registers the radio keeps are `Radio.takeReg`'s. -/
def Regs.takeReg (regs free : Regs) : Reg → Regs
  | .config => { regs with config := free.config }
  | .enAa => { regs with enAa := free.enAa }
  | .enRxaddr => { regs with enRxaddr := free.enRxaddr }
  | .setupAw => { regs with setupAw := free.setupAw }
  | .setupRetr => { regs with setupRetr := free.setupRetr }
  | .rfCh => { regs with rfCh := free.rfCh }
  | .rfSetup => { regs with rfSetup := free.rfSetup }
  | .rxAddrP0 => { regs with rxAddrP0 := free.rxAddrP0 }
  | .rxAddrP1 => { regs with rxAddrP1 := free.rxAddrP1 }
  | .rxAddrP2 => { regs with rxAddrP2 := free.rxAddrP2 }
  | .rxAddrP3 => { regs with rxAddrP3 := free.rxAddrP3 }
  | .rxAddrP4 => { regs with rxAddrP4 := free.rxAddrP4 }
  | .rxAddrP5 => { regs with rxAddrP5 := free.rxAddrP5 }
  | .txAddr => { regs with txAddr := free.txAddr }
  | .rxPw q => { regs with rxPw := regs.rxPw.set q (free.rxPw.get q) }
  | .dynpd => { regs with dynpd := free.dynpd }
  | .feature => { regs with feature := free.feature }
  | .status | .observeTx | .cd | .fifoStatus => regs

/-- The radio's part of the register `r` as it is in `free`: STATUS's own bits, the counters and the carrier. The bits
of STATUS that show a FIFO stay with it, since the write does not touch it (U24), and earlier steps keep their effect
(rule R404). FIFO_STATUS is drawn whole, and its bits are views of both FIFOs (log entry 9). A write to RF_CH also resets
the lost-packet count. -/
def Radio.takeReg (radio free : Radio) : Reg → Radio
  | .status => { radio with
      rxDr := free.rxDr, txDs := free.txDs, maxRt := free.maxRt, statusBit7 := free.statusBit7 }
  | .observeTx => { radio with plosCnt := free.plosCnt, arcCnt := free.arcCnt }
  | .cd => { radio with cd := free.cd }
  | .fifoStatus => { radio with
      txFifo := free.txFifo, rxFifo := free.rxFifo, txReuse := free.txReuse, fifoBit7 := free.fifoBit7
      fifoBits32 := free.fifoBits32 }
  | .rfCh => { radio with plosCnt := free.plosCnt }
  | .config | .enAa | .enRxaddr | .setupAw | .setupRetr | .rfSetup | .rxAddrP0 | .rxAddrP1 | .rxAddrP2 | .rxAddrP3
  | .rxAddrP4 | .rxAddrP5 | .txAddr | .rxPw _ | .dynpd | .feature => radio

/-- The registers after a frame of the command that failed: the one it writes is as in `free` (rule R200, U24). -/
def Regs.lose (regs free : Regs) : Cmd → Regs
  | .wRegister r _ => regs.takeReg free r
  | .rRegister _ _ | .rRxPlWid | .rRxPayload _ | .wTxPayload _ | .wAckPayload _ _ | .flushTx | .flushRx | .nop => regs

/-- The flags, counters and FIFOs after a frame of the command that failed: what the command touches is as in `free`
(rule R200, U24). -/
def Radio.lose (radio free : Radio) : Cmd → Radio
  | .wRegister r _ => radio.takeReg free r
  | .rRxPayload _ | .flushRx => { radio with rxFifo := free.rxFifo }
  | .wTxPayload _ | .wAckPayload _ _ | .flushTx => { radio with txFifo := free.txFifo }
  | .rRegister _ _ | .rRxPlWid | .nop => radio

/-- The peripheral after a frame that failed: a draw of the registers and FIFOs the frame touches and of nothing else
(rules R200, R404; U24, U25); after a hazard mark, of all flags, counters and FIFOs (rule R411); and a draw of everything
if its transfer did not conform (rule R462). Which of the two governs a broken transfer whose CSN-high write then fails
is log entry 10's choice. -/
def Periph.lose (par : Params) (n : Nat) (flagged conforming : Bool) (p : Periph) (c : Cmd) : Periph :=
  if conforming then
    { regs := p.regs.lose (Config.freePeriph n).regs c
      radio := if flagged then freeRadio par n else p.radio.lose (freeRadio par n) c }
  else freePeripheral par n

/-! ## The commands -/

/-- The interpreted data bytes the peripheral answers; the frame's other data bytes are draws (rule R117). -/
def Periph.answer (par : Params) (n : Nat) (p : Periph) : Cmd → List Byte
  | .rRegister r len => p.readReg par n r len
  | .rRxPlWid =>
    match p.radio.rxFifo with
    | [] => []
    | h :: _ => [BitVec.ofNat 8 h.data.length]
  | .rRxPayload w =>
    match p.radio.rxFifo with
    | [] => []
    | h :: _ => h.data.take w
  | .wRegister _ _ | .wTxPayload _ | .wAckPayload _ _ | .flushTx | .flushRx | .nop => []

/-- A payload write (rules R204, R205): the entry goes to the tail of the TX FIFO; the FIFO is a draw where the payload
is empty (decision D34) or the FIFO was full (rule R115). -/
def Radio.enqueue (n : Nat) (r : Radio) (d : List Byte) (e : TxEntry) : Radio :=
  if d.isEmpty || r.txFull then { r with txFifo := freeTxFifo n } else { r with txFifo := r.txFifo ++ [e] }

/-- The effect of a command, complete when CSN rises (rules R107, R109). -/
def Periph.commit (n : Nat) (p : Periph) : Cmd → Periph
  | .rRegister _ _ => p
  | .wRegister r data => p.write r data
  | .rRxPlWid => p
  | .rRxPayload _ => { p with radio := { p.radio with rxFifo := p.radio.rxFifo.tail } }
  | .wTxPayload d => { p with radio := p.radio.enqueue n d (.data d) }
  | .wAckPayload q d => { p with radio := p.radio.enqueue n d (.ack q d false) }
  | .flushTx => { p with radio := { p.radio with txFifo := [] } }
  | .flushRx => { p with radio := { p.radio with rxFifo := [] } }
  | .nop => p

/-- `len` bytes that begin with `bs` and go on with bytes of draw `n`. -/
def fillTo (len : Nat) (bs : List Byte) (n : Nat) : List Byte :=
  bs.take len ++ (List.range (len - bs.length)).map (Config.freeByte n)

end Sys2Proof.Machine
end

