-- ==== Sys2Proof/Machine/Ops.lean ====
section
/-! DEFINITION. The primitives of rule R15 over the state (PinWrite, Xfer, raise, fault, hazard), the transaction framer
`Frame` of rule R230, the CE line, error delivery (rules R404, R405, R410), and the acceptance of an operation at the
HOST port (rules R36, R171). -/

namespace Sys2Proof.Machine

/-- How an operation ends other than by returning a value. -/
inductive Stop where
  | err (e : ErrKind)          -- `raise` (rule R404)
  | fault (v : Violation)      -- `fault` (rule R410)
  | stuck (f : Fault)          -- the spec gives no effect
  | pause                      -- this step's program point is done
  deriving DecidableEq, Repr

/-- A piece of an operation: it reads and changes the state and returns a value or ends the operation. What it did to
the state before ending stays (rule R404: no rollback). -/
abbrev Op (α : Type) := EStateM Stop State α

/-- `raise E` (rules R15, R404). -/
def raise {α : Type} (e : ErrKind) : Op α := throw (.err e)

/-- `fault ContractViolation(v)` (rules R15, R410). -/
def violate {α : Type} (v : Violation) : Op α := throw (.fault v)

/-! ## State updates -/

def State.withMode (s : State) (m : Mode) : State := { s with mode := m }
def State.withCe (s : State) (l : Level) : State := { s with ce := l }
def State.withCsn (s : State) (l : Level) : State := { s with csn := l }
def State.withShadow (s : State) (b : Byte) : State := { s with shadow := some b }
def State.withSeq (s : State) (q : SeqPos) : State := { s with seq := q }
def State.withResult (s : State) (r : Option OpResult) : State := { s with result := r }
def State.withPeriph (s : State) (p : Periph) : State := { s with periph := p }
def State.addFault (s : State) (r : FaultReason) : State := { s with fault := s.fault.add r }

/-- One move of the world is used up. -/
def State.dropMove (s : State) : State := { s with env := s.env.tail }

/-- One draw is used up. -/
def State.nextDraw (s : State) : State := { s with draws := s.draws + 1 }

/-! ## The sequencer (rule R36) -/

/-- The point of `B.seq`. -/
def SeqPos.point : SeqPos → Nat
  | .idle => 0
  | .busy _ k _ _ => k

/-- The loop flag of `B.seq`. -/
def SeqPos.lost : SeqPos → Bool
  | .idle => false
  | .busy _ _ lost _ => lost

/-- The stretch under way, which names the point this step goes to; none where the operation runs whole. -/
def SeqPos.began : SeqPos → Option Stretch
  | .idle => none
  | .busy _ _ _ b => b

/-- `B.seq` after one more program point. -/
def SeqPos.next : SeqPos → SeqPos
  | .idle => .idle
  | .busy op k lost b => .busy op (k + 1) lost b

/-- The point this step goes to is reached. -/
def SeqPos.reached (q : SeqPos) : Bool := q.began.any (·.upTo ≤ q.point)

/-- `B.seq` moves on by one program point. -/
def State.advance (s : State) : State := s.withSeq s.seq.next

/-- No further program point begins once the point this step goes to is reached. -/
def gate : Op Unit := do
  if (← get).seq.reached then throw .pause

/-- One program point (rule R36): a primitive event `x`, after which `B.seq` moves on. -/
def primitive {α : Type} (x : Op α) : Op α := do
  gate
  let a ← x
  modify (·.advance)
  return a

/-- A local computation that leaves the state: a test, or an assignment to a local variable. -/
def tick : Op Unit := primitive (return ())

/-- A test that may end the operation: a local computation. -/
def check (c : Prop) [Decidable c] (stop : Op Unit) : Op Unit := do
  tick
  if c then stop

/-! ## Block state writes: each a local computation, but for the CSN bookkeeping inside a frame -/

/-- `hazard H` (rules R15, R411): mark and go on. -/
def hazard (h : Hazard) : Op Unit := primitive (modify (·.addFault (.hazard h)))

def setMode (m : Mode) : Op Unit := primitive (modify (·.withMode m))
def setCe (l : Level) : Op Unit := primitive (modify (·.withCe l))
def setShadow (b : Byte) : Op Unit := primitive (modify (·.withShadow b))
def setCsn (l : Level) : Op Unit := modify (·.withCsn l)

/-! ## The environment -/

/-- The state after some radio events. -/
def State.afterEvents (s : State) (evs : List RadioEvent) : State :=
  s.withPeriph { s.periph with radio := s.periph.radio.events s.params s.periph.regs s.ce evs }

/-- Let radio events happen (rule R108). -/
def radioEvents (evs : List RadioEvent) : Op Unit := modify (·.afterEvents evs)

/-- The world's next move; a world with nothing in store is calm. -/
def takeMove : Op EnvMove :=
  modifyGet fun s => (s.env.headD EnvMove.calm, s.dropMove)

/-- A fresh draw number. -/
def freshDraw : Op Nat := modifyGet fun s => (s.draws, s.nextDraw)

/-- A port event at the current point of `B.seq` joins the trace (rule R420). -/
def State.record (s : State) (e : PortEvent) : State :=
  { s with trace := s.trace ++ [{ point := s.seq.point, event := e }] }

/-- Record a port event. -/
def note (e : PortEvent) : Op Unit := modify (·.record e)

/-- A frame of `c` failed: what it touches on the peripheral becomes a draw (rules R200, R404; U24), and everything if
its transfer did not conform (rule R462; log entry 10). -/
def losePeriph (flagged conforming : Bool) (c : Cmd) : Op Unit := do
  let n ← freshDraw
  modify fun s => s.withPeriph (s.periph.lose s.params n flagged conforming c)

/-! ## Pins -/

/-- A pin write succeeds unless the platform returns `err`. -/
def PortOutcome.pinOk : PortOutcome → Bool
  | .fails => false
  | .ok | .answers _ => true

/-- `PinWrite(line, level)` (rule R15); true is `ok`. -/
def pinWrite (line : Line) (level : Bool) : Op Bool := do
  let m ← takeMove
  radioEvents (m.events ++ m.during)
  note (.pin line level m.outcome.pinOk)
  return m.outcome.pinOk

/-- `ce_enable` and `ce_disable` (rules R236, R237): the write is never cached. `landed` is what a write that succeeded
does to the peripheral. -/
def ceWriteWith (landed : Op Unit) (level : Bool) : Op Unit := do
  let ok ← primitive do
    let ok ← pinWrite .ce level
    if ok then landed
    return ok
  setCe (if ok then (if level then .high else .low) else .unknown)
  if !ok then raise (.busError .cePin)

def ceEnable : Op Unit := ceWriteWith (return ()) true
def ceDisable : Op Unit := ceWriteWith (return ()) false

/-! ## Transfers and frames -/

/-- The received bytes of a successful transfer, and whether the peripheral kept its contract in it. -/
structure Transfer where
  inp : List Byte
  conforming : Bool
  deriving DecidableEq, Repr

/-- `Xfer(out)` for the frame of `c` (rules R15, R102, R108): the status byte is STATUS before the data phase, the data
bytes are the peripheral's after it. Rule R108 is followed here over decision D49, which calls a frame one snapshot
(log entry 7). `flagged` frames carry a hazard mark: their response is a draw (rule R411). -/
def xfer (flagged : Bool) (c : Cmd) : Op (Option Transfer) := do
  let m ← takeMove
  radioEvents m.events
  let st := (← get).periph.radio.statusByte
  radioEvents m.during
  let n ← freshDraw
  match m.outcome with
  | .fails =>
    note (.xfer c.encode none)
    return none
  | .answers bs =>
    let inp := fillTo c.len bs n
    note (.xfer c.encode (some inp))
    return some { inp := inp, conforming := false }
  | .ok =>
    let s ← get
    let inp := if flagged then fillTo c.len [] n else st :: fillTo (c.len - 1) (s.periph.answer s.params n c) n
    note (.xfer c.encode (some inp))
    return some { inp := inp, conforming := true }

/-- The peripheral after a completed frame (rules R109, R411, R462): the command's effect; a draw of everything if the
transfer broke the contract; and a draw of everything but the written registers if the frame is flagged (rule R113). -/
def settle (flagged conforming : Bool) (c : Cmd) : Op Unit := do
  let n ← freshDraw
  if conforming then
    modify fun s =>
      let p := s.periph.commit n c
      s.withPeriph (if flagged then { p with radio := freeRadio s.params n } else p)
  else
    modify fun s => s.withPeriph (freePeripheral s.params n)

/-- CSN could not be driven low (rule R230): no transfer; CSN is raised again; `BusError(csn_pin)`. -/
def csnLowFailed {α : Type} (flagged : Bool) (c : Cmd) : Op α := do
  setCsn .unknown
  losePeriph flagged true c
  let hi ← pinWrite .csn true
  if hi then setCsn .high
  raise (.busError .csnPin)

/-- The end of a frame once CSN has been driven back (rules R230, R409): the transfer's error comes first. -/
def frameEnd (flagged : Bool) (c : Cmd) (t : Option Transfer) (raised : Bool) : Op (Status × List Byte) :=
  match t, raised with
  | none, _ => do
    losePeriph flagged true c
    raise (.busError .spi)
  | some t, false => do
    losePeriph flagged t.conforming c
    raise (.busError .csnPin)
  | some t, true => do
    settle flagged t.conforming c
    return (Status.decode (t.inp.headD 0), t.inp.tail)

/-- The port events of a frame (rule R230): CSN low, one transfer of all bytes, CSN high, always. -/
def frameBody (flagged : Bool) (c : Cmd) : Op (Status × List Byte) := do
  if ← pinWrite .csn false then
    setCsn .low
    let t ← xfer flagged c
    let raised ← pinWrite .csn true
    setCsn (if raised then .high else .unknown)
    frameEnd flagged c t raised
  else
    csnLowFailed flagged c

/-- `Frame(cmd)` (rule R230), one program point. It returns the status and the data bytes received. -/
def frameWith (flagged : Bool) (c : Cmd) : Op (Status × List Byte) := primitive (frameBody flagged c)

/-- A frame whose response is no draw. -/
def frame (c : Cmd) : Op (Status × List Byte) := frameWith false c

/-! ## Register access (rules R232 to R235) -/

/-- `read_register(R, w)` (rule R233). -/
def readReg {α : Type} (R : RegType α) (w : Nat) : Op (Status × α) := do
  tick  -- R in {RX_ADDR_P0, RX_ADDR_P1, TX_ADDR}
  if R.reg.isAddress then check (!legalWidth w) (violate .addrWidth)
  tick  -- n
  let (st, d) ← frame (.rRegister R.reg (if R.reg.isAddress then w else 1))
  return (st, R.decode d)

/-- `write_register(R, v)` (rule R232): unconditional; a CONFIG write that succeeded sets the shadow. -/
def writeReg {α : Type} (R : RegType α) (v : α) : Op Status := do
  check (R.reg.isAddress && !legalWidth (R.encode v).length) (violate .addrWidth)
  let (st, _) ← frame (.wRegister R.reg (R.encode v))
  tick
  if R.reg = .config then setShadow ((R.encode v).headD 0)
  return st

/-- `update_register(R, f, w)` (rule R234): a read, and a write only if the value changed. -/
def updateReg {α β : Type} [DecidableEq α] (R : RegType α) (w : Nat) (f : α → α × β) : Op β := do
  check (R.reg = .config) (violate .updateRegisterConfig)
  let (_, old) ← readReg R w
  tick  -- (new, t)
  tick
  if (f old).1 ≠ old then
    let _ ← writeReg R (f old).1
  return (f old).2

/-- `update_config(f)` (rule R235): from the shadow, without a read; a frame only if the value changed. Where none is
sent nothing reaches the peripheral, so it stays as it was even if a hazard was marked (log entry 8). -/
def updateConfigWith {β : Type} (flagged : Bool) (f : ConfigReg → ConfigReg × β) : Op β := do
  match (← get).shadow with
  | none => throw (.stuck .shadowInvalid)
  | some b =>
    tick  -- old
    let old := ConfigReg.decode b
    tick  -- (new, t)
    tick
    if (f old).1 ≠ old then
      let _ ← frameWith flagged (.wRegister .config [(f old).1.encode])
      setShadow (f old).1.encode
    return (f old).2

/-- `update_config` for a caller with no result of its own. -/
def updateConfig (f : ConfigReg → ConfigReg) : Op Unit := updateConfigWith false fun c => (f c, ())

/-- Run `body` for each pipe of a list, in order. -/
def forPipes (body : Pipe → Op Unit) : List Pipe → Op Unit
  | [] => return ()
  | p :: ps => do
    body p
    forPipes body ps

/-- A test of each pipe in order, the first that holds ending the operation (rules R276, R282): a point a pipe. -/
def checkPipes (bad : Six Bool) (stop : Op Unit) : Op Unit :=
  forPipes (fun p => check (bad.get p) stop) Pipe.all

/-! ## Acceptance and delivery -/

/-- The end of an operation (rules R38, R404, R410): `B.seq` returns to idle; the result port carries `Ok` or `Err`; a
fault adds its reason to `B.fault` and carries no result. Nothing is saved and nothing is rolled back, so there is no
return operation (rule R405). An operation that paused goes on from where it stands in the next step. -/
def deliver : EStateM.Result Stop State Value → Host.Outcome State Fault Refusal
  | .ok v s => .next ((s.withSeq .idle).withResult (some (.ok v)))
  | .error (.err e) s => .next ((s.withSeq .idle).withResult (some (.err e)))
  | .error (.fault v) s => .next (((s.withSeq .idle).withResult none).addFault (.violation v))
  | .error (.stuck f) _ => .fault f
  | .error .pause s => .next s

/-- The state in which the operation `i` begins. -/
def State.start (s : State) (i : Instr) : State := (s.withSeq (.busy i 0 false none)).withResult none

/-- The stretch of an operation that begins in this state, at the point `k`. -/
def State.stretch (s : State) (k : Nat) : Stretch where
  mode := s.mode
  ce := s.ce
  csn := s.csn
  shadow := s.shadow
  fault := s.fault
  periph := s.periph
  env := s.env
  trace := s.trace
  draws := s.draws
  point := k
  upTo := k

/-- The state a stretch of `op` began in, with `B.seq` as given; what waits at the HOST port is as it is now. -/
def State.backTo (s : State) (b : Stretch) (q : SeqPos) : State where
  mode := b.mode
  ce := b.ce
  csn := b.csn
  shadow := b.shadow
  fault := b.fault
  seq := q
  requests := s.requests
  result := none
  periph := b.periph
  env := b.env
  trace := b.trace
  draws := b.draws
  params := s.params

/-- The start of a stretch, to be run to the program point after the one `k` the block is at. -/
def State.goOn (s : State) (op : Instr) (k : Nat) (lost : Bool) (b : Stretch) : State :=
  s.backTo b (.busy op b.point lost (some { b with upTo := k + 1 }))

/-- Where `i` runs from (rule R36): a new operation starts only when `B.seq` is idle, and the one under way goes on. -/
def State.entry (s : State) (i : Instr) : Option State :=
  match s.seq with
  | .idle => some (s.start i)
  | .busy op k lost (some b) => if op = i then some (s.goOn op k lost b) else none
  | .busy _ _ _ none => none

/-- A command frame as an instruction: the frame primitive itself, in every mode (rules R200, R230). -/
def frameOp (i : Instr) (body : Op Value) (s : State) : Host.Outcome State Fault Refusal :=
  match s.entry i with
  | some s0 => deliver (body s0)
  | none => .refused .seqBusy

/-- A host operation: accepted only when idle (rule R36) and only in its legal modes (rule R171). With `B.seq` idle it
runs whole; while it is under way its next program point runs. -/
def hostOp (i : Instr) (legal : Mode → Bool) (body : Op Value) (s : State) : Host.Outcome State Fault Refusal :=
  match s.entry i with
  | some s0 => if legal s0.mode then deliver (body s0) else .refused (.notLegalInMode s0.mode)
  | none => .refused .seqBusy

/-- The point of the loop head L of rule R373, after `lost <- false`. -/
def loopHead : Nat := 1

/-- The end of one pass of a looping operation: `some lost` goes back to the loop head with that flag. -/
def deliverPass (i : Instr) : EStateM.Result Stop State (Option Bool) → Host.Outcome State Fault Refusal
  | .ok none s => deliver (.ok .unit s)
  | .ok (some lost) s => .next (s.withSeq (.busy i loopHead lost none))
  | .error e s => deliver (.error e s)

/-- Where the looping operation `i` runs from: at its loop head the state is itself the start of a stretch. -/
def State.loopEntry (s : State) (i : Instr) : Option State :=
  match s.seq with
  | .busy op k _ none => if op = i ∧ k = loopHead then some (s.withResult none) else none
  | .idle | .busy _ _ _ (some _) => s.entry i

/-- A stretch of a looping operation (rules R316, R373): from its start with `lost <- false` first, then one pass from
the loop head. -/
def loopStretch (pass : Bool → Op (Option Bool)) : Op (Option Bool) := do
  let q := (← get).seq
  if q.point = 0 then
    tick
    pass false
  else
    pass q.lost

/-- A host operation that loops (rules R316, R373). With `B.seq` idle or at its loop head one whole pass runs; inside a
pass its next program point runs. -/
def loopOp (i : Instr) (legal : Mode → Bool) (pass : Bool → Op (Option Bool)) (s : State) :
    Host.Outcome State Fault Refusal :=
  match s.loopEntry i with
  | some s0 => if legal s0.mode then deliverPass i (loopStretch pass s0) else .refused (.notLegalInMode s0.mode)
  | none => .refused .seqBusy

/-! ## Legal modes (rule R170) -/

def inLive : Mode → Bool
  | .standby | .rx | .tx => true
  | .off => false

def inOff (m : Mode) : Bool := m == .off
def inStandby (m : Mode) : Bool := m == .standby
def inRx (m : Mode) : Bool := m == .rx
def inTx (m : Mode) : Bool := m == .tx
def inStandbyOrRx (m : Mode) : Bool := m == .standby || m == .rx

end Sys2Proof.Machine
end

