-- ==== Sys2Proof/Machine/Operands.lean ====
section
/-! DEFINITION. The operand forms of the host operations: a caller's function (rules R234, R235), payloads (rules R72,
R73), responses (rule R155), and the clamps and code tables of rules R263, R265, R268, R269 and R277. -/

namespace Sys2Proof.Machine

/-! ## A caller's function -/

/-- `f : R -> (R, T)` of an update operation (rule R234). -/
def applyFn (r : Reg) (f : RegFn) (x : RegVal) : RegVal × List Byte :=
  match f with
  | .keep t => (x, t)
  | .put v t => (v, t)
  | .bits clear set t => (RegVal.decode r (x.encode.map fun b => (b &&& ~~~clear) ||| set), t)
  | .graph rows =>
    match rows.find? (fun row => row.1 == x) with
    | some row => row.2
    | none => (x, [])

/-- The same over the decoded CONFIG (rule R235). -/
def applyConfigFn (f : RegFn) (c : ConfigReg) : ConfigReg × List Byte :=
  match applyFn .config f (.config c) with
  | (.config c', t) => (c', t)
  | (_, t) => (c, t)

/-! ## Payloads and responses -/

/-- `Payload.new` (rule R73): the first 32 bytes, and zeros beyond them (decision D46). -/
def Payload.ofBytes (s : List Byte) : Payload :=
  { len := min s.length Config.payloadMax
    data := s.take Config.payloadMax ++ List.replicate (Config.payloadMax - s.length) 0 }

/-- The empty payload (rule R341). -/
def Payload.empty : Payload := Payload.ofBytes []

/-- Equality of payloads: the lengths and the meaningful bytes (rule R72). -/
def Payload.same (p q : Payload) : Bool := p.len == q.len && p.data.take p.len == q.data.take q.len

/-- The response decoder of each command (rule R155). -/
def decodeResponse (c : Cmd) (d : List Byte) : Response :=
  match c with
  | .rRegister r _ => .reg (RegVal.decode r d)
  | .rRxPlWid => .width (d.headD 0)
  | .rRxPayload _ => .payload (Payload.ofBytes d)
  | .wRegister _ _ | .wTxPayload _ | .wAckPayload _ _ | .flushTx | .flushRx | .nop => .statusOnly

/-- In Rx with CE not low (rules R411, R458). -/
def State.activeRx (s : State) : Bool := s.mode = .rx && s.ce ≠ .low

/-- A flush in active Rx: the peripheral's response is a draw (rule R458). -/
def State.drawsFor (s : State) (c : Cmd) : Bool := (c = .flushTx || c = .flushRx) && s.activeRx

/-- `(status, response)` of a frame the host asks for (rules R200, R458). Only `flush_rx` and `flush_tx` mark (rules R261,
R262), so none is marked here. -/
def runFrame (c : Cmd) : Op Value := do
  let flagged := (← get).drawsFor c
  let (st, d) ← frameWith flagged c
  return .frame st (decodeResponse c d)

/-! ## Clamps and code tables -/

/-- `min(ch, 125)` (rule R263). -/
def clampChannel (ch : Byte) : BitVec 7 := if ch.toNat ≤ Config.rfChMax then ch.setWidth 7 else 125

/-- `min(v, 15)` (rule R277). -/
def clampRetr (v : Byte) : BitVec 4 := if v.toNat ≤ Config.retrMax then v.setWidth 4 else 15

/-- (RF_DR_LOW, RF_DR_HIGH) of a data rate (rule R265). -/
def rateBits : DataRate → Bool × Bool
  | .r250Kbps => (true, false)
  | .r1Mbps => (false, false)
  | .r2Mbps => (false, true)

/-- (EN_CRC, CRCO) of a CRC mode (rule R268). -/
def crcBits : CrcMode → Bool × Bool
  | .disabled => (false, false)
  | .oneByte => (true, false)
  | .twoBytes => (true, true)

/-- The names of the power codes (rule R269, decision D24). -/
inductive PaName where
  | min | low | high | max
  deriving DecidableEq, Repr

/-- The power code of a name (rule R269). -/
def PaName.code : PaName → Byte
  | .min => 0 | .low => 1 | .high => 2 | .max => 3

end Sys2Proof.Machine
end

