-- ==== Sys2Proof/Machine/Configuration.lean ====
section
/-! DEFINITION. The configuration operations (43_configuration.md, rules R260 to R284): each rule's sequence as an
operation other rules can call, and its meaning at the HOST port, legal in Standby, Rx and Tx. -/

namespace Sys2Proof.Machine

/-! ## The operations -/

/-- The hazard of a flush in active Rx (rules R261, R262, R411): it marks and says whether it did. -/
def markFlush : Op Bool := do
  let s ← get
  tick
  if s.activeRx then
    hazard .flushInActiveRx
    return true
  else return false

/-- `flush_rx()` (rule R261). -/
def flushRx : Op Unit := do
  let flagged ← markFlush
  let _ ← frameWith flagged .flushRx

/-- `flush_tx()` (rule R262). -/
def flushTx : Op Unit := do
  let flagged ← markFlush
  let _ ← frameWith flagged .flushTx

/-- `set_frequency(ch)` (rule R263). -/
def setFrequency (ch : Byte) : Op Unit := do
  tick  -- c
  updateReg rfChReg 1 fun _ => (clampChannel ch, ())

/-- `get_frequency()` (rule R264). -/
def getFrequency : Op Byte := do
  let (_, x) ← readReg rfChReg 1
  return x.setWidth 8

/-- The new RF_SETUP of `set_rf` (rule R265). -/
def withRf (rate : DataRate) (power : Byte) (x : RfSetup) : RfSetup :=
  { x with rfDrLow := (rateBits rate).1, rfDrHigh := (rateBits rate).2, rfPwr := power.setWidth 2 }

/-- `set_rf(rate, power)` (rule R265). -/
def setRf (rate : DataRate) (power : Byte) : Op Unit := do
  check (Config.rfPwrLimit ≤ power.toNat) (violate .powerRange)
  tick  -- (lo, hi)
  updateReg rfSetupReg 1 fun x => (withRf rate power x, ())

/-- `get_address_width()` (rule R266): `2 + aw`, 2 to 5. -/
def getAddressWidth : Op Nat := do
  let (_, aw) ← readReg setupAwReg 1
  return 2 + aw.toNat

/-- `set_address_width(w)` (rule R267). -/
def setAddressWidth (w : Byte) : Op Unit := do
  check (!legalWidth w.toNat) (violate .addrWidth)
  updateReg setupAwReg 1 fun _ => ((w - 2).setWidth 2, ())

/-- `set_crc(mode)` (rule R268). -/
def setCrc (mode : CrcMode) : Op Unit := do
  tick  -- (e, o)
  updateConfig fun c => { c with enCrc := (crcBits mode).1, crco := (crcBits mode).2 }

/-- `set_interrupt_mask(rx_dr, tx_ds, max_rt)` (rule R270). -/
def setInterruptMask (a b c : Bool) : Op Unit :=
  updateConfig fun x => { x with maskRxDr := a, maskTxDs := b, maskMaxRt := c }

/-- `set_pipes_rx_enable(b)` (rule R271). -/
def setPipesRxEnable (b : Six Bool) : Op Unit := updateReg enRxaddrReg 1 fun _ => (b, ())

/-- `get_interrupts()` (rule R272): the status byte of a NOP. -/
def getInterrupts : Op Status := do
  let (st, _) ← frame .nop
  return st

/-- The three interrupt flags written as 1: the byte 0x70 (rule R273). -/
def allFlags : Status := { rxDr := true, txDs := true, maxRt := true, rxPNo := 0, txFull := false }

/-- `clear_interrupts()` (rule R273). -/
def clearInterrupts : Op Unit := do
  let _ ← writeReg statusReg allFlags

/-- The register write of `set_rx_addr` (rule R274): pipes 0 and 1 take the whole address, pipes 2 to 5 its least
significant byte, `addr[0]`. -/
def writeRxAddr (p : Pipe) (addr : List Byte) : Op Status :=
  match p with
  | .p0 => writeReg rxAddrP0Reg addr
  | .p1 => writeReg rxAddrP1Reg addr
  | .p2 => writeReg rxAddrP2Reg (addr.headD 0)
  | .p3 => writeReg rxAddrP3Reg (addr.headD 0)
  | .p4 => writeReg rxAddrP4Reg (addr.headD 0)
  | .p5 => writeReg rxAddrP5Reg (addr.headD 0)

/-- `set_rx_addr` for a checked pipe (rule R274). -/
def setPipeAddr (p : Pipe) (addr : List Byte) : Op Unit := do
  let w ← getAddressWidth
  check (!legalWidth w || addr.length ≠ w) (violate .addrLength)
  tick  -- pipe <= 1
  let _ ← writeRxAddr p addr

/-- `set_rx_addr(pipe, addr)` (rule R274). -/
def setRxAddr (pipe : Byte) (addr : List Byte) : Op Unit := do
  tick
  match Pipe.ofNat? pipe.toNat with
  | none => raise (.invalidPipe pipe)
  | some p => setPipeAddr p addr

/-- `set_tx_addr(addr)` (rule R275). -/
def setTxAddr (addr : List Byte) : Op Unit := do
  let w ← getAddressWidth
  check (!legalWidth w || addr.length ≠ w) (violate .addrLength)
  let _ ← writeReg txAddrReg addr

/-- A static length the RX_PW registers cannot hold (rule R276). -/
def lengthTooLong (l : Option Byte) : Bool :=
  match l with
  | some n => Config.rxPwLimit ≤ n.toNat
  | none => false

/-- The RX_PW step of `set_pipes_rx_lengths` for one pipe (rule R276): a dynamic pipe's register is not touched. -/
def setPipeLength (l : Six (Option Byte)) (p : Pipe) : Op Unit := do
  tick
  match l.get p with
  | some n => updateReg (rxPwReg p) 1 fun _ => (n.setWidth 6, ())
  | none => return ()

/-- `set_pipes_rx_lengths(l)` (rule R276). -/
def setPipesRxLengths (l : Six (Option Byte)) : Op Unit := do
  checkPipes (l.map lengthTooLong) (violate .rxPwRange)
  tick  -- dyn
  let dyn := l.map (·.isNone)
  updateReg featureReg 1 fun x => ({ x with enDpl := dyn.any, enAckPay := dyn.any }, ())
  updateReg dynpdReg 1 fun _ => (dyn, ())
  forPipes (setPipeLength l) Pipe.all

/-- `set_auto_retransmit(delay, count)` (rule R277). -/
def setAutoRetransmit (delay count : Byte) : Op Unit :=
  updateReg setupRetrReg 1 fun _ => ({ ard := clampRetr delay, arc := clampRetr count }, ())

/-- `get_auto_ack()` (rule R278). -/
def getAutoAck : Op (Six Bool) := do
  let (_, x) ← readReg enAaReg 1
  return x

/-- `set_auto_ack(b)` (rule R279). -/
def setAutoAck (b : Six Bool) : Op Unit := updateReg enAaReg 1 fun _ => (b, ())

/-- An address of a record whose length is not the record's width (rules R282, R283). -/
def lengthDiffers (w : Byte) (a : Option (List Byte)) : Bool :=
  match a with
  | some a => a.length != w.toNat
  | none => false

/-- The address step of `configure_rx` for one pipe (rule R282). -/
def setConfiguredAddr (a : Six (Option (List Byte))) (p : Pipe) : Op Unit := do
  tick
  match a.get p with
  | some addr => setRxAddr (BitVec.ofNat 8 p.toNat) addr
  | none => return ()

/-- `configure_rx(c)` (rule R282): every check before any bus activity, then the steps in order. -/
def configureRx (c : RxConfig) : Op Unit := do
  check (Config.rfPwrLimit ≤ c.paLevel.toNat) (violate .powerRange)
  check (!legalWidth c.addressWidth.toNat) (violate .addrWidth)
  checkPipes (c.pipeAddresses.map (lengthDiffers c.addressWidth)) (violate .addrLength)
  checkPipes (c.pipeLengths.map lengthTooLong) (violate .rxPwRange)
  setFrequency c.channel
  setRf c.dataRate c.paLevel
  setAddressWidth c.addressWidth
  setCrc c.crcMode
  forPipes (setConfiguredAddr c.pipeAddresses) Pipe.all
  setPipesRxEnable (c.pipeAddresses.map (·.isSome))
  setAutoAck c.pipeAutoAck
  setPipesRxLengths c.pipeLengths

/-- `configure_tx(c)` (rule R283). -/
def configureTx (c : TxConfig) : Op Unit := do
  check (Config.rfPwrLimit ≤ c.paLevel.toNat) (violate .powerRange)
  check (!legalWidth c.addressWidth.toNat || c.pipe0Address.length != c.addressWidth.toNat) (violate .addrLength)
  check (lengthTooLong c.pipe0Length) (violate .rxPwRange)
  setFrequency c.channel
  setRf c.dataRate c.paLevel
  setAddressWidth c.addressWidth
  setCrc c.crcMode
  setAutoRetransmit c.retryDelay c.maxRetries
  setTxAddr c.pipe0Address
  setRxAddr 0 c.pipe0Address
  setPipesRxEnable ⟨true, false, false, false, false, false⟩
  setAutoAck ⟨c.pipe0AutoAck, false, false, false, false, false⟩
  setPipesRxLengths ⟨c.pipe0Length, some 0, some 0, some 0, some 0, some 0⟩

/-! ## The meanings -/

/-- An operation with result `()`. -/
def returningUnit (x : Op Unit) : Op Value := do
  x
  return .unit

/-- Rule R261. -/
def execFlushRx (s : State) : Host.Outcome State Fault Refusal :=
  hostOp .flushRx inLive (returningUnit flushRx) s

/-- Rule R262. -/
def execFlushTx (s : State) : Host.Outcome State Fault Refusal :=
  hostOp .flushTx inLive (returningUnit flushTx) s

/-- Rule R263. -/
def execSetFrequency (ch : Byte) (s : State) : Host.Outcome State Fault Refusal :=
  hostOp (.setFrequency ch) inLive (returningUnit (setFrequency ch)) s

/-- Rule R264. -/
def execGetFrequency (s : State) : Host.Outcome State Fault Refusal :=
  hostOp .getFrequency inLive (do
    let ch ← getFrequency
    return .u8 ch) s

/-- Rule R265. -/
def execSetRf (rate : DataRate) (power : Byte) (s : State) : Host.Outcome State Fault Refusal :=
  hostOp (.setRf rate power) inLive (returningUnit (setRf rate power)) s

/-- Rule R266. -/
def execGetAddressWidth (s : State) : Host.Outcome State Fault Refusal :=
  hostOp .getAddressWidth inLive (do
    let w ← getAddressWidth
    return .u8 (BitVec.ofNat 8 w)) s

/-- Rule R267. -/
def execSetAddressWidth (w : Byte) (s : State) : Host.Outcome State Fault Refusal :=
  hostOp (.setAddressWidth w) inLive (returningUnit (setAddressWidth w)) s

/-- Rule R268. -/
def execSetCrc (mode : CrcMode) (s : State) : Host.Outcome State Fault Refusal :=
  hostOp (.setCrc mode) inLive (returningUnit (setCrc mode)) s

/-- Rule R270. -/
def execSetInterruptMask (a b c : Bool) (s : State) : Host.Outcome State Fault Refusal :=
  hostOp (.setInterruptMask a b c) inLive (returningUnit (setInterruptMask a b c)) s

/-- Rule R271. -/
def execSetPipesRxEnable (b : Six Bool) (s : State) : Host.Outcome State Fault Refusal :=
  hostOp (.setPipesRxEnable b) inLive (returningUnit (setPipesRxEnable b)) s

/-- Rule R272. -/
def execGetInterrupts (s : State) : Host.Outcome State Fault Refusal :=
  hostOp .getInterrupts inLive (do
    let st ← getInterrupts
    return .interrupts st.rxDr st.txDs st.maxRt) s

/-- Rule R273. -/
def execClearInterrupts (s : State) : Host.Outcome State Fault Refusal :=
  hostOp .clearInterrupts inLive (returningUnit clearInterrupts) s

/-- Rule R274. -/
def execSetRxAddr (pipe : Byte) (addr : List Byte) (s : State) : Host.Outcome State Fault Refusal :=
  hostOp (.setRxAddr pipe addr) inLive (returningUnit (setRxAddr pipe addr)) s

/-- Rule R275. -/
def execSetTxAddr (addr : List Byte) (s : State) : Host.Outcome State Fault Refusal :=
  hostOp (.setTxAddr addr) inLive (returningUnit (setTxAddr addr)) s

/-- Rule R276. -/
def execSetPipesRxLengths (l : Six (Option Byte)) (s : State) : Host.Outcome State Fault Refusal :=
  hostOp (.setPipesRxLengths l) inLive (returningUnit (setPipesRxLengths l)) s

/-- Rule R277. -/
def execSetAutoRetransmit (delay count : Byte) (s : State) : Host.Outcome State Fault Refusal :=
  hostOp (.setAutoRetransmit delay count) inLive (returningUnit (setAutoRetransmit delay count)) s

/-- Rule R278. -/
def execGetAutoAck (s : State) : Host.Outcome State Fault Refusal :=
  hostOp .getAutoAck inLive (do
    let b ← getAutoAck
    return .pipes b) s

/-- Rule R279. -/
def execSetAutoAck (b : Six Bool) (s : State) : Host.Outcome State Fault Refusal :=
  hostOp (.setAutoAck b) inLive (returningUnit (setAutoAck b)) s

/-- Rule R282. -/
def execConfigureRx (c : RxConfig) (s : State) : Host.Outcome State Fault Refusal :=
  hostOp (.configureRx c) inLive (returningUnit (configureRx c)) s

/-- Rule R283. -/
def execConfigureTx (c : TxConfig) (s : State) : Host.Outcome State Fault Refusal :=
  hostOp (.configureTx c) inLive (returningUnit (configureTx c)) s

end Sys2Proof.Machine
end

