-- ==== Sys2Proof/Machine/Frames.lean ====
section
/-! DEFINITION. The nine command frames as instructions (41_spi_commands.md, rules R201 to R209). -/

namespace Sys2Proof.Machine

/-- R_REGISTER (rule R201). -/
def execFrameRRegister (r : Reg) (n : Nat) (s : State) : Host.Outcome State Fault Refusal :=
  frameOp (.frameRRegister r n) (runFrame (.rRegister r n)) s

/-- W_REGISTER (rule R202); the shadow is not touched (rule R200). -/
def execFrameWRegister (r : Reg) (data : List Byte) (s : State) : Host.Outcome State Fault Refusal :=
  frameOp (.frameWRegister r data) (runFrame (.wRegister r data)) s

/-- R_RX_PL_WID (rule R206). -/
def execFrameRRxPlWid (s : State) : Host.Outcome State Fault Refusal :=
  frameOp .frameRRxPlWid (runFrame .rRxPlWid) s

/-- R_RX_PAYLOAD (rule R203). -/
def execFrameRRxPayload (w : Nat) (s : State) : Host.Outcome State Fault Refusal :=
  frameOp (.frameRRxPayload w) (runFrame (.rRxPayload w)) s

/-- W_TX_PAYLOAD (rule R204). -/
def execFrameWTxPayload (d : List Byte) (s : State) : Host.Outcome State Fault Refusal :=
  frameOp (.frameWTxPayload d) (runFrame (.wTxPayload d)) s

/-- W_ACK_PAYLOAD (rule R205). -/
def execFrameWAckPayload (p : Pipe) (d : List Byte) (s : State) : Host.Outcome State Fault Refusal :=
  frameOp (.frameWAckPayload p d) (runFrame (.wAckPayload p d)) s

/-- FLUSH_TX (rule R207); in active Rx the peripheral's response is a draw (rule R458). -/
def execFrameFlushTx (s : State) : Host.Outcome State Fault Refusal :=
  frameOp .frameFlushTx (runFrame .flushTx) s

/-- FLUSH_RX (rule R208); in active Rx the peripheral's response is a draw (rule R458). -/
def execFrameFlushRx (s : State) : Host.Outcome State Fault Refusal :=
  frameOp .frameFlushRx (runFrame .flushRx) s

/-- NOP (rule R209). -/
def execFrameNop (s : State) : Host.Outcome State Fault Refusal :=
  frameOp .frameNop (runFrame .nop) s

end Sys2Proof.Machine
end

