-- ==== Sys2Proof/Machine/Transmit.lean ====
section
/-! DEFINITION. The transmit operations (46_transmit.md, rules R370 to R375): admission into the TX FIFO and the drain
loop with MAX_RT recovery. -/

namespace Sys2Proof.Machine

/-- FIFO_STATUS read by one frame, with that frame's status byte. -/
def readFifo : Op (Status × FifoStatus) := readReg fifoStatusReg 1

/-- `send(d)` (rule R370). -/
def send (d : List Byte) : Op Unit := do
  check (Config.payloadMax < d.length) (raise .payloadTooLarge)
  let (_, fs) ← readFifo
  check fs.txFull (raise .queueFull)
  let _ ← frame (.wTxPayload d)
  ceEnable

/-- TX_DS and MAX_RT written as 1: the byte 0x30 (rule R373). -/
def txFlags : Status := { rxDr := false, txDs := true, maxRt := true, rxPNo := 0, txFull := false }

/-- One pass of `wait_empty` from its loop head (rule R373): none is the return `Ok`, `some lost` goes back to the loop
head. -/
def waitPass (lost : Bool) : Op (Option Bool) := do
  let (st, fs) ← readFifo
  tick
  if fs.txEmpty then
    ceDisable
    check lost (raise .maxRetransmitsExceeded)
    return none
  else
    tick
    if st.maxRt then
      let _ ← frame .flushTx
      let _ ← writeReg statusReg txFlags
      tick  -- lost
      return some true
    else
      ceEnable
      return some lost

/-- Rule R370. -/
def execSend (d : List Byte) (s : State) : Host.Outcome State Fault Refusal :=
  hostOp (.send d) inTx (returningUnit (send d)) s

/-- `can_send()` (rule R371). -/
def execCanSend (s : State) : Host.Outcome State Fault Refusal :=
  hostOp .canSend inTx (do
    let (_, fs) ← readFifo
    return .bool !fs.txFull) s

/-- `wait_empty()` (rule R373). Decision D51 leaves the hypothesis PERIPHERAL_PROGRESS (U30) to the
model; it is not assumed, so a run may go on at the loop head for ever (log entry 37). -/
def execWaitEmpty (s : State) : Host.Outcome State Fault Refusal :=
  loopOp .waitEmpty inTx waitPass s

/-- `observe()` (rule R375). -/
def execObserve (s : State) : Host.Outcome State Fault Refusal :=
  hostOp .observe inTx (do
    let (_, x) ← readReg observeTxReg 1
    return .counts x.plosCnt x.arcCnt) s

end Sys2Proof.Machine
end

