-- ==== Sys2Proof/Machine/ModeFsm.lean ====
section
/-! DEFINITION. The mode state machine (44_mode_fsm.md, rules R310 to R319), the only writer of `B.mode`. -/

namespace Sys2Proof.Machine

/-- The default CONFIG of `new` (rule R311). -/
def defaultConfig (a b c : Bool) : ConfigReg :=
  { maskRxDr := a, maskTxDs := b, maskMaxRt := c, enCrc := true, crco := false, pwrUp := false, primRx := false }

/-- `new` raises CSN (rule R310). No frame is under way, so a failure leaves the peripheral as it was, although U24
calls its state after a failed CSN write any value (log entry 9). -/
def raiseCsn : Op Unit := do
  let ok ← primitive (pinWrite .csn true)
  primitive (setCsn (if ok then .high else .unknown))
  if !ok then raise (.busError .csnPin)

/-- `new(mask_rx_dr, mask_tx_ds, mask_max_rt)` (rule R310). -/
def construct (a b c : Bool) : Op Unit := do
  ceDisable
  raiseCsn
  tick  -- cfg
  let _ ← writeReg configReg (defaultConfig a b c)
  let w ← getAddressWidth
  check (!legalWidth w) (raise .notConnected)
  updateConfig fun x => { x with pwrUp := true }
  setMode .standby

/-- `rx()` (rule R313). -/
def enterRx : Op Unit := do
  updateConfig fun x => { x with primRx := true }
  ceEnable
  setMode .rx

/-- `tx()` (rule R314): CE is not written. -/
def enterTx : Op Unit := do
  updateConfig fun x => { x with primRx := false }
  setMode .tx

/-- `standby()` in Rx (rule R315). -/
def leaveRx : Op Unit := do
  ceDisable
  setMode .standby

/-- One pass of `standby()` in Tx (rule R316): a pass of `wait_empty`, and after its return CE is lowered again. -/
def leaveTxPass (lost : Bool) : Op (Option Bool) := do
  match ← waitPass lost with
  | some lost' => return some lost'
  | none =>
    ceDisable
    setMode .standby
    return none

/-- The hazard of a power change with CE not low (rules R317, R318, R411): it marks and says whether it did. -/
def markPower : Op Bool := do
  let s ← get
  tick
  if s.ce ≠ .low then
    hazard .powerToggleWithCe
    return true
  else return false

/-- `power_up()` and `power_down()` (rules R317, R318). With CE not low the hazard is marked even when PWR_UP already
has the value; no frame is sent then, and the peripheral stays as it was (log entry 8). -/
def setPower (up : Bool) : Op Unit := do
  let flagged ← markPower
  updateConfigWith flagged fun x => ({ x with pwrUp := up }, ())

/-- Rule R310, legal in `Off` only. -/
def execNew (a b c : Bool) (s : State) : Host.Outcome State Fault Refusal :=
  hostOp (.new a b c) inOff (returningUnit (construct a b c)) s

/-- Rule R313. -/
def execRx (s : State) : Host.Outcome State Fault Refusal :=
  hostOp .rx inStandby (returningUnit enterRx) s

/-- Rule R314. -/
def execTx (s : State) : Host.Outcome State Fault Refusal :=
  hostOp .tx inStandby (returningUnit enterTx) s

/-- Rule R315. -/
def execStandbyRx (s : State) : Host.Outcome State Fault Refusal :=
  hostOp .standbyRx inRx (returningUnit leaveRx) s

/-- Rule R316. -/
def execStandbyTx (s : State) : Host.Outcome State Fault Refusal :=
  loopOp .standbyTx inTx leaveTxPass s

/-- Rule R317. -/
def execPowerUp (s : State) : Host.Outcome State Fault Refusal :=
  hostOp .powerUp inLive (returningUnit (setPower true)) s

/-- Rule R318. -/
def execPowerDown (s : State) : Host.Outcome State Fault Refusal :=
  hostOp .powerDown inLive (returningUnit (setPower false)) s

end Sys2Proof.Machine
end

