-- ==== Sys2Proof/Machine/Receive.lean ====
section
/-! DEFINITION. The receive operations (45_receive.md, rules R340 to R345). -/

namespace Sys2Proof.Machine

/-- `can_read()` (rule R340): clear the three flags, then read FIFO_STATUS; RX_P_NO comes raw from that frame's status
byte. -/
def canRead : Op (Option (BitVec 3)) := do
  clearInterrupts
  let (st, fs) ← readFifo
  tick
  return if fs.rxEmpty then none else some st.rxPNo

/-- The RX FIFO of a packet reported 0 bytes wide may be anything after `read` (U12), within its depth. -/
def openRxFifo : Op Unit := do
  let n ← freshDraw
  modify fun s => s.withPeriph { s.periph with radio :=
    { s.periph.radio with rxFifo := (freeRadio s.params n).rxFifo } }

/-- `read()` (rule R341). With width 0 it sends no payload frame, so it removes nothing itself; what the chip then does
with the packet is open (U12, log entry 25). -/
def readPayload : Op Payload := do
  let (_, d) ← frame .rRxPlWid
  let w := (d.headD 0).toNat
  tick
  if Config.payloadMax < w then
    let _ ← frame .flushRx
    return Payload.empty
  else
    tick
    if w = 0 then
      openRxFifo
      return Payload.empty
    else
      let (_, bytes) ← frame (.rRxPayload w)
      return Payload.ofBytes bytes

/-- `push` for a checked pipe (rule R342). -/
def pushTo (p : Pipe) (d : List Byte) : Op Unit := do
  check (Config.payloadMax < d.length) (raise .payloadTooLarge)
  let (_, fs) ← readFifo
  check fs.txFull (raise .queueFull)
  let _ ← frame (.wAckPayload p d)

/-- `push(pipe, d)` (rule R342). -/
def push (pipe : Byte) (d : List Byte) : Op Unit := do
  tick
  match Pipe.ofNat? pipe.toNat with
  | none => raise (.invalidPipe pipe)
  | some p => pushTo p d

/-- Rule R340. -/
def execCanRead (s : State) : Host.Outcome State Fault Refusal :=
  hostOp .canRead inRx (do
    let p ← canRead
    return .pipe p) s

/-- Rule R341. -/
def execRead (s : State) : Host.Outcome State Fault Refusal :=
  hostOp .read inRx (do
    let p ← readPayload
    return .payload p) s

/-- Rule R342. -/
def execPush (pipe : Byte) (d : List Byte) (s : State) : Host.Outcome State Fault Refusal :=
  hostOp (.push pipe d) inStandbyOrRx (returningUnit (push pipe d)) s

/-- `has_carrier()` (rule R343). -/
def execHasCarrier (s : State) : Host.Outcome State Fault Refusal :=
  hostOp .hasCarrier inRx (do
    let (_, on) ← readReg cdReg 1
    return .bool on) s

/-- `is_empty()` (rule R344): the RX FIFO. -/
def execIsEmpty (s : State) : Host.Outcome State Fault Refusal :=
  hostOp .isEmpty inRx (do
    let (_, fs) ← readFifo
    return .bool fs.rxEmpty) s

/-- `is_full()` (rule R345): the RX FIFO. -/
def execIsFull (s : State) : Host.Outcome State Fault Refusal :=
  hostOp .isFull inRx (do
    let (_, fs) ← readFifo
    return .bool fs.rxFull) s

end Sys2Proof.Machine
end

