-- ==== Sys2Proof/Machine/Transport.lean ====
section
/-! DEFINITION. The transport operations at the HOST port (42_transport.md, rules R230 to R237). -/

namespace Sys2Proof.Machine

/-- `send_command(cmd)` (rule R230). A CONFIG write this way bypasses the shadow (rule R461), and the response to a flush
in active Rx is a draw (rule R458). -/
def execSendCommand (c : Cmd) (s : State) : Host.Outcome State Fault Refusal :=
  hostOp (.sendCommand c) inLive (runFrame c) s

/-- `write_register(R, v)` (rule R232). -/
def execWriteRegister (r : Reg) (v : RegVal) (s : State) : Host.Outcome State Fault Refusal :=
  hostOp (.writeRegister r v) inLive (do
    let st ← writeReg (valReg r) v
    return .status st) s

/-- `read_register(R, w)` (rule R233). -/
def execReadRegister (r : Reg) (w : Nat) (s : State) : Host.Outcome State Fault Refusal :=
  hostOp (.readRegister r w) inLive (do
    let (st, v) ← readReg (valReg r) w
    return .regRead st v) s

/-- `update_register(R, f, w)` (rule R234). -/
def execUpdateRegister (r : Reg) (w : Nat) (f : RegFn) (s : State) : Host.Outcome State Fault Refusal :=
  hostOp (.updateRegister r w f) inLive (do
    let t ← updateReg (valReg r) w (applyFn r f)
    return .token t) s

/-- `update_config(f)` (rule R235). -/
def execUpdateConfig (f : RegFn) (s : State) : Host.Outcome State Fault Refusal :=
  hostOp (.updateConfig f) inLive (do
    let t ← updateConfigWith false (applyConfigFn f)
    return .token t) s

/-- `ce_enable()` (rule R236). -/
def execCeEnable (s : State) : Host.Outcome State Fault Refusal :=
  hostOp .ceEnable inLive (do
    ceEnable
    return .unit) s

/-- A packet is in flight when the host lowers CE (rule R459): in Tx, with CE not low and a packet waiting; with MAX_RT set
nothing is in flight (rules R112, R460). -/
def State.inFlight (s : State) : Bool :=
  s.mode = .tx && s.ce ≠ .low && s.periph.radio.txFifo ≠ [] && !s.periph.radio.maxRt

/-- The packet in flight when the host lowers CE in Tx: it may leave the queue or stay, and its flags may be set
(rule R459). -/
def abortInFlight : Op Unit := do
  if (← get).inFlight then
    let n ← freshDraw
    modify fun s =>
      let r := s.periph.radio
      s.withPeriph { s.periph with radio :=
        { r with txFifo := if Config.freeBit n 0 then r.txFifo.tail else r.txFifo
                 txDs := r.txDs || Config.freeBit n 1
                 maxRt := r.maxRt || Config.freeBit n 2 } }

/-- `ce_disable()` (rule R237); called by the host in Tx it leaves the packet in flight a draw (rule R459). -/
def execCeDisable (s : State) : Host.Outcome State Fault Refusal :=
  hostOp .ceDisable inLive (do
    ceWriteWith abortInFlight false
    return .unit) s

end Sys2Proof.Machine
end

