-- ==== Sys2Proof/Machine/Dispatch.lean ====
section
/-! DEFINITION. `exec`: one arm per instruction, each one call of its meaning. -/

namespace Sys2Proof.Machine

def exec (i : Instr) (s : State) : Host.Outcome State Fault Refusal :=
  match i with
  | .frameRRegister r n => Sys2Proof.Machine.execFrameRRegister r n s
  | .frameWRegister r data => Sys2Proof.Machine.execFrameWRegister r data s
  | .frameRRxPlWid => Sys2Proof.Machine.execFrameRRxPlWid s
  | .frameRRxPayload w => Sys2Proof.Machine.execFrameRRxPayload w s
  | .frameWTxPayload d => Sys2Proof.Machine.execFrameWTxPayload d s
  | .frameWAckPayload p d => Sys2Proof.Machine.execFrameWAckPayload p d s
  | .frameFlushTx => Sys2Proof.Machine.execFrameFlushTx s
  | .frameFlushRx => Sys2Proof.Machine.execFrameFlushRx s
  | .frameNop => Sys2Proof.Machine.execFrameNop s
  | .sendCommand c => Sys2Proof.Machine.execSendCommand c s
  | .writeRegister r v => Sys2Proof.Machine.execWriteRegister r v s
  | .readRegister r w => Sys2Proof.Machine.execReadRegister r w s
  | .updateRegister r w f => Sys2Proof.Machine.execUpdateRegister r w f s
  | .updateConfig f => Sys2Proof.Machine.execUpdateConfig f s
  | .ceEnable => Sys2Proof.Machine.execCeEnable s
  | .ceDisable => Sys2Proof.Machine.execCeDisable s
  | .flushRx => Sys2Proof.Machine.execFlushRx s
  | .flushTx => Sys2Proof.Machine.execFlushTx s
  | .setFrequency ch => Sys2Proof.Machine.execSetFrequency ch s
  | .getFrequency => Sys2Proof.Machine.execGetFrequency s
  | .setRf rate power => Sys2Proof.Machine.execSetRf rate power s
  | .getAddressWidth => Sys2Proof.Machine.execGetAddressWidth s
  | .setAddressWidth w => Sys2Proof.Machine.execSetAddressWidth w s
  | .setCrc mode => Sys2Proof.Machine.execSetCrc mode s
  | .setInterruptMask rxDr txDs maxRt => Sys2Proof.Machine.execSetInterruptMask rxDr txDs maxRt s
  | .setPipesRxEnable b => Sys2Proof.Machine.execSetPipesRxEnable b s
  | .getInterrupts => Sys2Proof.Machine.execGetInterrupts s
  | .clearInterrupts => Sys2Proof.Machine.execClearInterrupts s
  | .setRxAddr pipe addr => Sys2Proof.Machine.execSetRxAddr pipe addr s
  | .setTxAddr addr => Sys2Proof.Machine.execSetTxAddr addr s
  | .setPipesRxLengths l => Sys2Proof.Machine.execSetPipesRxLengths l s
  | .setAutoRetransmit delay count => Sys2Proof.Machine.execSetAutoRetransmit delay count s
  | .getAutoAck => Sys2Proof.Machine.execGetAutoAck s
  | .setAutoAck b => Sys2Proof.Machine.execSetAutoAck b s
  | .configureRx c => Sys2Proof.Machine.execConfigureRx c s
  | .configureTx c => Sys2Proof.Machine.execConfigureTx c s
  | .new maskRxDr maskTxDs maskMaxRt => Sys2Proof.Machine.execNew maskRxDr maskTxDs maskMaxRt s
  | .rx => Sys2Proof.Machine.execRx s
  | .tx => Sys2Proof.Machine.execTx s
  | .standbyRx => Sys2Proof.Machine.execStandbyRx s
  | .standbyTx => Sys2Proof.Machine.execStandbyTx s
  | .powerUp => Sys2Proof.Machine.execPowerUp s
  | .powerDown => Sys2Proof.Machine.execPowerDown s
  | .canRead => Sys2Proof.Machine.execCanRead s
  | .read => Sys2Proof.Machine.execRead s
  | .push pipe d => Sys2Proof.Machine.execPush pipe d s
  | .hasCarrier => Sys2Proof.Machine.execHasCarrier s
  | .isEmpty => Sys2Proof.Machine.execIsEmpty s
  | .isFull => Sys2Proof.Machine.execIsFull s
  | .send d => Sys2Proof.Machine.execSend d s
  | .canSend => Sys2Proof.Machine.execCanSend s
  | .waitEmpty => Sys2Proof.Machine.execWaitEmpty s
  | .observe => Sys2Proof.Machine.execObserve s

end Sys2Proof.Machine
end

