-- ==== Sys2Proof/Machine/Step.lean ====
section
/-! DEFINITION. `step`: the next program point of the operation under way, or the first of the next request of the HOST
port, run by `exec`; and `withFetchWord`. -/

namespace Sys2Proof.Machine

/-- The instruction of a request: a call as it is, a window through the decoder. -/
def Request.instr : Request → Except DecodeError Instr
  | .op c => .ok c.instr
  | .window bytes => decode bytes

/-- A stretch of `op` begins in this state, at the point `k`; `exec` then runs its first program point. -/
def State.beginAt (s : State) (op : Instr) (k : Nat) (lost : Bool) : State :=
  s.withSeq (.busy op k lost (some (s.stretch k)))

/-- One step is one program point (rules R36, R109). While `B.seq` is busy the operation under way goes on; when it is
idle the oldest request is taken from the HOST port and begun; with no request the block waits. -/
def step (s : State) : Host.Outcome State Fault Refusal :=
  match s.seq with
  | .busy op _ _ (some _) => exec op s
  | .busy op k lost none => exec op (s.beginAt op k lost)
  | .idle =>
    match s.requests with
    | [] => .next s
    | r :: rest =>
      match r.instr with
      | .error e => .refused (.undecodable e)
      | .ok i => exec i (State.beginAt { s with requests := rest } i 0 false)

/-- `s` with the frame of an opcode-table word as the next request of an idle block. -/
def State.withFetchWord (s : State) (nbits w : Nat) : State :=
  { s with seq := .idle, requests := .window (tableWindow nbits w) :: s.requests }

end Sys2Proof.Machine
end

