-- ==== Sys2Proof/Safety.lean ====
section
/-! DEFINITION. The terms claims are stated in: what a run shows at its ports, the environments a claim assumes, what
stays the same across a step, and the invariants of a safe run. -/

namespace Sys2Proof

/-! ## Registers -/

/-- The bits of each one-byte register that are not reserved (rules R40 to R58). -/
def Reg.fieldMask : Reg → Byte
  | .config | .status | .rfCh => 0x7F
  | .enAa | .enRxaddr | .dynpd | .rxPw _ => 0x3F
  | .setupAw => 0x03
  | .setupRetr | .observeTx => 0xFF
  | .rfSetup => 0xBF
  | .cd => 0x01
  | .fifoStatus => 0x73
  | .feature => 0x07
  | .rxAddrP0 | .rxAddrP1 | .rxAddrP2 | .rxAddrP3 | .rxAddrP4 | .rxAddrP5 | .txAddr => 0xFF

/-- RX_ADDR_P0 to RX_ADDR_P5 (rule R39). -/
def Pipe.addrReg : Pipe → Reg
  | .p0 => .rxAddrP0 | .p1 => .rxAddrP1 | .p2 => .rxAddrP2 | .p3 => .rxAddrP3 | .p4 => .rxAddrP4 | .p5 => .rxAddrP5

/-- What `set_rx_addr` writes there (rule R274). -/
def Pipe.addrBytes (p : Pipe) (addr : List Byte) : List Byte :=
  match p with
  | .p0 | .p1 => addr
  | .p2 | .p3 | .p4 | .p5 => [addr.headD 0]

end Sys2Proof

namespace Sys2Proof.Machine

/-! ## What a run shows -/

/-- The port events so far, oldest first (rule R420). -/
def State.events (s : State) : List PortEvent := s.trace.map (·.event)

/-- The port events of one successful frame (rule R230): CSN low, one transfer, CSN high. -/
def frameEvents (c : Cmd) (inp : List Byte) : List PortEvent :=
  [.pin .csn false true, .xfer c.encode (some inp), .pin .csn true true]

/-- A successful CE write (rules R236, R237). -/
def ceEvent (level : Bool) : PortEvent := .pin .ce level true

/-! ## Environments -/

/-- Every coming port primitive succeeds and the peripheral keeps its contract; its radio may do anything rules R110 to
R114 allow, between and inside frames. -/
def PortsOk (s : State) : Prop := ∀ m ∈ s.env, m.outcome = .ok

/-- Every coming primitive succeeds and nothing happens on the radio. -/
def Quiet (s : State) : Prop := ∀ m ∈ s.env, m = EnvMove.calm

/-- The block is ready for a host operation: idle, live, with a valid shadow (rules R34, R36). -/
structure Ready (s : State) : Prop where
  idle : s.seq = .idle
  ports : PortsOk s
  live : s.mode ≠ .off
  shadow : s.shadow ≠ none

/-! ## What stays the same -/

/-- Everything of the block but CSN and `B.seq`, the HOST port's waiting requests and the parameters. -/
structure SameBlock (s t : State) : Prop where
  mode : t.mode = s.mode
  ce : t.ce = s.ce
  shadow : t.shadow = s.shadow
  fault : t.fault = s.fault
  requests : t.requests = s.requests
  params : t.params = s.params

/-- An operation that returned `Ok(v)`, left the block idle, and changed nothing else of the block but CSN. -/
structure Returned (s t : State) (v : Value) : Prop where
  result : t.result = some (.ok v)
  idle : t.seq = .idle
  same : SameBlock s t

/-- An operation that raised `Err(e)`, left the block idle, and changed nothing else of the block but CSN. -/
structure Raised (s t : State) (e : ErrKind) : Prop where
  result : t.result = some (.err e)
  idle : t.seq = .idle
  same : SameBlock s t

/-- An operation that faulted with `ContractViolation(v)` (rule R410): no result, the block idle, the reason added to
`B.fault`, and nothing else of the block changed but CSN. -/
structure Faulted (s t : State) (v : Violation) : Prop where
  result : t.result = none
  idle : t.seq = .idle
  mode : t.mode = s.mode
  ce : t.ce = s.ce
  shadow : t.shadow = s.shadow
  fault : t.fault = s.fault.add (.violation v)
  requests : t.requests = s.requests
  params : t.params = s.params

/-! ## What a register update leaves -/

/-- The frames of an `update_register` of the one-byte register `r` that read `old` (rule R234): the read alone when
`new` is what the fields already hold, else the read and then the write. -/
def UpdateFrames (r : Reg) (old new : Byte) (s t : State) : Prop :=
  ∃ st : Byte,
    if new = old &&& r.fieldMask then t.events = s.events ++ frameEvents (.rRegister r 1) [st, old]
    else ∃ inp, t.events = s.events ++ frameEvents (.rRegister r 1) [st, old] ++ frameEvents (.wRegister r [new]) inp

/-- An `update_register` of the one-byte register `r` that returned `Ok(())`: its frames, and the flags, counters and
FIFOs as they were when nothing happens on the radio. The register's new value is the claim's own. -/
structure Updated (r : Reg) (old new : Byte) (s t : State) : Prop where
  returned : Returned s t .unit
  csn : t.csn = .high
  frames : UpdateFrames r old new s t
  radio : Quiet s → r ≠ .rfCh → t.periph.radio = s.periph.radio

/-- An `update_config` that found `b` in the shadow and asked for the byte `new` (rule R235): nothing at all when the
fields already hold it, else one write frame, after which the shadow and the peripheral's CONFIG hold `new`. -/
structure ConfigUpdated (b new : Byte) (s t : State) : Prop where
  mode : t.mode = s.mode
  ce : t.ce = s.ce
  requests : t.requests = s.requests
  params : t.params = s.params
  idle : t.seq = .idle
  suppressed : new = b &&& 0x7F#8 →
    t.events = s.events ∧ t.shadow = s.shadow ∧ t.periph = s.periph ∧ t.csn = s.csn
  written : new ≠ b &&& 0x7F#8 →
    (∃ inp, t.events = s.events ++ frameEvents (.wRegister .config [new]) inp) ∧ t.shadow = some new ∧ t.csn = .high ∧
      t.periph.regs = { s.periph.regs with config := (s.periph.regs.config &&& 0x80#8) ||| new }

/-! ## The register file as bytes -/

/-- The stored bytes of a register that only a write changes; none for the four registers the radio keeps. -/
def Regs.stored (regs : Regs) : Reg → List Byte
  | .config => [regs.config]
  | .enAa => [regs.enAa]
  | .enRxaddr => [regs.enRxaddr]
  | .setupAw => [regs.setupAw]
  | .setupRetr => [regs.setupRetr]
  | .rfCh => [regs.rfCh]
  | .rfSetup => [regs.rfSetup]
  | .rxAddrP0 => regs.rxAddrP0
  | .rxAddrP1 => regs.rxAddrP1
  | .rxAddrP2 => [regs.rxAddrP2]
  | .rxAddrP3 => [regs.rxAddrP3]
  | .rxAddrP4 => [regs.rxAddrP4]
  | .rxAddrP5 => [regs.rxAddrP5]
  | .txAddr => regs.txAddr
  | .rxPw p => [regs.rxPw.get p]
  | .dynpd => [regs.dynpd]
  | .feature => [regs.feature]
  | .status | .observeTx | .cd | .fifoStatus => []

/-- The command bytes of the transfers in a trace, oldest first. -/
def commandBytes : List PortEvent → List Byte
  | [] => []
  | .xfer (b :: _) _ :: rest => b :: commandBytes rest
  | _ :: rest => commandBytes rest

/-! ## Tables of the spec used by claims -/

/-- The column "legal in" of rule R170; a command frame is the framer's own primitive and runs in every mode. -/
def legalIn : Instr → Mode → Bool
  | .frameRRegister _ _, _ | .frameWRegister _ _, _ | .frameRRxPlWid, _ | .frameRRxPayload _, _
  | .frameWTxPayload _, _ | .frameWAckPayload _ _, _ | .frameFlushTx, _ | .frameFlushRx, _ | .frameNop, _ => true
  | .new _ _ _, m => m = .off
  | .rx, m | .tx, m => m = .standby
  | .standbyRx, m | .canRead, m | .read, m | .hasCarrier, m | .isEmpty, m | .isFull, m => m = .rx
  | .standbyTx, m | .send _, m | .canSend, m | .waitEmpty, m | .observe, m => m = .tx
  | .push _ _, m => m = .standby || m = .rx
  | .sendCommand _, m | .writeRegister _ _, m | .readRegister _ _, m | .updateRegister _ _ _, m | .updateConfig _, m
  | .ceEnable, m | .ceDisable, m | .flushRx, m | .flushTx, m | .setFrequency _, m | .getFrequency, m | .setRf _ _, m
  | .getAddressWidth, m | .setAddressWidth _, m | .setCrc _, m | .setInterruptMask _ _ _, m | .setPipesRxEnable _, m
  | .getInterrupts, m | .clearInterrupts, m | .setRxAddr _ _, m | .setTxAddr _, m | .setPipesRxLengths _, m
  | .setAutoRetransmit _ _, m | .getAutoAck, m | .setAutoAck _, m | .configureRx _, m | .configureTx _, m
  | .powerUp, m | .powerDown, m => m ≠ .off

/-! ## Safe traces -/

/-- Every transfer stands alone between a successful CSN-low write and a CSN-high write, and a failed CSN-low write is
followed by a CSN-high write: no line is left held low (rules R101, R230). -/
def bracketed : List PortEvent → Bool
  | [] => true
  | .pin .csn false true :: .xfer _ _ :: .pin .csn true _ :: rest => bracketed rest
  | .pin .csn false false :: .pin .csn true _ :: rest => bracketed rest
  | .pin .csn true _ :: rest => bracketed rest
  | .pin .ce _ _ :: rest => bracketed rest
  | _ => false

/-- The bytes are a frame of the block's vocabulary (rule R160): the encoding of a well-formed command. -/
def emitted (out : List Byte) : Bool :=
  match decodeCmd out with
  | .ok c => c.wellFormed && c.encode == out
  | .error _ => false

/-- A port event shifts out nothing outside the vocabulary. -/
def PortEvent.emitted : PortEvent → Bool
  | .pin _ _ _ => true
  | .xfer out _ => Machine.emitted out

/-! ## Program points -/

/-- Where the stretch of the operation under way began (rule R36); the state itself when none is under way. -/
def State.origin (s : State) : State :=
  match s.seq with
  | .busy op _ lost (some b) => s.backTo b (if b.point = 0 then .idle else .busy op loopHead lost none)
  | .idle | .busy _ _ _ none => s

/-- The port events of one program point: none for a local computation, one pin write, or one frame (rules R36, R230). -/
def OnePrimitive (evs : List PortEvent) : Prop :=
  evs = [] ∨ (∃ line level ok, evs = [.pin line level ok]) ∨ (∃ ok, evs = [.pin .csn false false, .pin .csn true ok]) ∨
    ∃ out inp ok, evs = [.pin .csn false true, .xfer out inp, .pin .csn true ok]

/-- The port events of the point `k` in a piece of the trace. -/
def eventsAt (k : Nat) (new : List TraceEntry) : List PortEvent := (new.filter (·.point == k)).map (·.event)

/-- `n` steps lead from one state to the other. -/
def Steps : Nat → State → State → Prop
  | 0, s, t => t = s
  | n + 1, s, t => ∃ u, step s = .next u ∧ Steps n u t

/-- The steps of `i` from `s` to `t`, `B.seq` beginning at the point `k`: they go to its program points one after the
other, and each adds to the trace the port events of its point, at most those of one primitive. -/
structure PointByPoint (i : Instr) (k : Nat) (lost : Bool) (s t : State) (n : Nat) (new : List TraceEntry) : Prop where
  pos : 1 ≤ n
  steps : Steps n s t
  trace : t.trace = s.trace ++ new
  points : ∀ e ∈ new, k ≤ e.point ∧ e.point < k + n
  one : ∀ p, OnePrimitive (eventsAt p new)
  between : ∀ j, 0 < j → j < n → ∃ u b, Steps j s u ∧ u.seq = .busy i (k + j) lost (some b) ∧
    u.trace = s.trace ++ new.filter (·.point < k + j)

/-! ## Invariants -/

/-- The operations that loop (rules R316, R373). -/
def isLoop : Instr → Bool
  | .waitEmpty | .standbyTx => true
  | _ => false

/-- The block is about to run a pass of the looping operation `op` with loop flag `lost`: a new call, or its loop head. -/
def AtPass (op : Instr) (lost : Bool) (s : State) : Prop :=
  (s.seq = .idle ∧ lost = false) ∨ s.seq = .busy op loopHead lost none

/-- `B.seq` where a stretch of an operation begins: idle, or at the loop head of an operation of Tx. -/
def seqWf (s : State) : Bool :=
  match s.seq with
  | .idle => true
  | .busy op k _ none => isLoop op && k == loopHead && s.mode == .tx
  | .busy _ _ _ (some _) => false

/-- What holds at every program point. -/
structure Sound (s : State) : Prop where
  /-- CSN is low only during a transfer (rule R230). -/
  csnNotLow : s.csn ≠ .low
  /-- A live block has a shadow (rule R319). -/
  shadowValid : s.mode ≠ .off → s.shadow ≠ none
  /-- The TX FIFO holds at most 3 entries (rule R64). -/
  txBound : s.periph.radio.txFifo.length ≤ Config.txFifoDepth
  /-- The RX FIFO holds at most its depth (rule R65). -/
  rxBound : s.periph.radio.rxFifo.length ≤ s.params.rxFifoDepth
  /-- Only the block's vocabulary has been emitted (rule R160). -/
  vocabulary : ∀ e ∈ s.events, e.emitted = true
  /-- Every transfer so far stood alone between CSN low and CSN high, and no line was left held low (rule R230). -/
  brackets : bracketed s.events = true

/-- What every step keeps. -/
structure Inv (s : State) : Prop where
  here : Sound s
  /-- The stretch under way began in a sound state. -/
  began : Sound s.origin
  /-- It began idle or at a loop head (rule R36). -/
  seqWf : seqWf s.origin = true
  /-- The mode changes only as an operation returns (rule R312). -/
  mode : s.mode = s.origin.mode
  /-- The operation under way came as a typed call or a decoded frame (rules R36, R170). -/
  typed : ∀ op k lost b, s.seq = .busy op k lost b → op.wellFormed = true

/-- PRIM_RX of the shadow. -/
def State.primRx (s : State) : Bool :=
  match s.shadow with
  | some b => (ConfigReg.decode b).primRx
  | none => false

/-- The mode invariants of rule R319. -/
structure ModeInv (s : State) : Prop where
  standbyCe : s.mode = .standby → s.ce = .low
  rxCe : s.mode = .rx → s.ce = .high
  rxPrim : s.mode = .rx → s.primRx = true
  txPrim : s.mode = .tx → s.primRx = false
  liveCsn : s.mode ≠ .off → s.csn = .high
  liveShadow : s.mode ≠ .off → s.shadow ≠ none
  seqWf : seqWf s = true

/-- The host's own operations that can change CONFIG.PRIM_RX or CE (the proviso of rule R319). -/
def changesModePins : Instr → Bool
  | .sendCommand _ | .ceEnable | .ceDisable | .updateConfig _ => true
  | .writeRegister r _ => r = .config
  | _ => false

/-- The shadow shows the peripheral's CONFIG (rule R122). -/
def Coherent (s : State) : Prop :=
  s.mode ≠ .off → ∃ b, s.shadow = some b ∧ ConfigReg.decode b = ConfigReg.decode s.periph.regs.config

/-- A CONFIG write that goes past the shadow (rule R461). -/
def bypassesShadow : Instr → Bool
  | .frameWRegister r _ => r = .config
  | .sendCommand (.wRegister r _) => r = .config
  | _ => false

/-- The instruction the next step runs, if it runs one. -/
def State.nextInstr (s : State) : Option Instr :=
  match s.seq with
  | .busy op _ _ _ => some op
  | .idle =>
    match s.requests with
    | [] => none
    | r :: _ =>
      match r.instr with
      | .ok i => some i
      | .error _ => none

end Sys2Proof.Machine
end

