-- ==== Sys2Proof/Certificates/Slice0/Obligations.lean ====
section
/-! DEFINITION. The statements for the provers, from the numbered rules of the spec: encodings, the register model, each
instruction's result and frame, errors, faults and hazards, and the promises every step keeps. -/

section

open Sys2Proof Sys2Proof.Machine

/-! ## Encoding and the register model -/

/-- Rules R150 to R157: decoding the encoding of a well-formed instruction gives it back, every command has an encoding,
and exactly the host operations have none (decision D1). -/
def Obligations.DecodeOfEncode : Prop :=
  (∀ (i : Instr) (out : List Byte), i.wellFormed = true → encode i = some out → decode out = .ok i) ∧
  (∀ c : Cmd, encode c.toInstr = some c.encode) ∧
  (∀ i : Instr, encode i = none ↔ ∀ c : Cmd, i ≠ c.toInstr)

/-- Rules R150, R156, R157: a window that decodes is as long as the encoding of what it decodes to and begins with the
same command byte; where the command sends its operand bytes, it is that encoding. The passive decoder that knows the
address width W takes just those windows whose data phase is W bytes for RX_ADDR_P0, RX_ADDR_P1 and TX_ADDR.
That step itself decodes without W is log entry 38. -/
def Obligations.EncodeOfDecode : Prop :=
  (∀ (window : List Byte) (i : Instr), decode window = .ok i →
    ∃ out, encode i = some out ∧ out.length = window.length ∧ out.head? = window.head? ∧
      ((∀ r n, i ≠ .frameRRegister r n) → i ≠ .frameRRxPlWid → (∀ w, i ≠ .frameRRxPayload w) → out = window)) ∧
  (∀ (W : Nat) (window : List Byte) (i : Instr), decodeCapture W window = .ok i ↔
    decode window = .ok i ∧
      ∀ r : Reg, r.isAddress = true → ((∃ n, i = .frameRRegister r n) ∨ ∃ data, i = .frameWRegister r data) →
        window.length = 1 + W)

/-- Rules R151 to R153, R157: no two rows of the command table overlap, and a command byte is `NotEmitted` exactly when
it is outside the emitted set of rule R160. -/
def Obligations.CommandBytesDisjoint : Prop :=
  cmdTable.Pairwise (fun x y => ∀ b : Byte, ¬ (b &&& x.mask = x.value ∧ b &&& y.mask = y.value)) ∧
  (∀ b : Byte, decode [b] = .error (.notEmitted b) ↔
    ¬ ((b.toNat ≤ 0x17 ∨ b = 0x1C ∨ b = 0x1D) ∨ (0x20 ≤ b.toNat ∧ b.toNat ≤ 0x37 ∨ b = 0x3C ∨ b = 0x3D) ∨
       b = 0x60 ∨ b = 0x61 ∨ b = 0xA0 ∨ (0xA8 ≤ b.toNat ∧ b.toNat ≤ 0xAD) ∨ b = 0xE1 ∨ b = 0xE2 ∨ b = 0xFF))

/-- Rules R150, R151: some words written out from the encoding tables decode to the commands they stand for. -/
def Obligations.SpecWordsDecode : Prop :=
  decode [0b00000101, 0x00] = .ok (.frameRRegister .rfCh 1) ∧
  decode [0b00100101, 0x6C] = .ok (.frameWRegister .rfCh [0x6C]) ∧
  decode [0b01100000, 0x00] = .ok .frameRRxPlWid ∧
  decode [0b01100001, 0x00, 0x00] = .ok (.frameRRxPayload 2) ∧
  decode [0b10100000, 0x68, 0x69] = .ok (.frameWTxPayload [0x68, 0x69]) ∧
  decode [0b10101011, 0x01] = .ok (.frameWAckPayload .p3 [0x01]) ∧
  decode [0b11100001] = .ok .frameFlushTx ∧
  decode [0b11100010] = .ok .frameFlushRx ∧
  decode [0b11111111] = .ok .frameNop

/-- Rule R60: `decode(encode(x)) = x` for every value of every register; for a one-byte register `encode(decode(b))` is
`b` with its reserved bits cleared; both are the identity on an address register. -/
def Obligations.RegisterRoundTrip : Prop :=
  (∀ (r : Reg) (v : RegVal), v.fits r = true → RegVal.decode r v.encode = v) ∧
  (∀ (r : Reg) (b : Byte), r.isAddress = false → (RegVal.decode r [b]).encode = [b &&& r.fieldMask]) ∧
  (∀ (r : Reg) (a : List Byte), r.isAddress = true → RegVal.decode r a = .addr a ∧ (RegVal.addr a).encode = a)

/-- Rule R61: EN_AA, EN_RXADDR and DYNPD convert by `from_bools` and `to_bools`: bit p of `from_bools(b)` is `b[p]` and its
bits 7 and 6 are 0; `to_bools(x)` lists bits 0 to 5. -/
def Obligations.PipeBools : Prop :=
  (∀ (b : Six Bool) (p : Pipe), (fromBools b).getLsbD p.toNat = b.get p) ∧
  (∀ b : Six Bool, (fromBools b).getLsbD 7 = false ∧ (fromBools b).getLsbD 6 = false) ∧
  (∀ (x : Byte) (p : Pipe), (toBools x).get p = x.getLsbD p.toNat) ∧
  (∀ (r : Reg) (x : Byte) (b : Six Bool), r = .enAa ∨ r = .enRxaddr ∨ r = .dynpd →
    RegVal.decode r [x] = .pipes (toBools x) ∧ (RegVal.pipes b).encode = [fromBools b])

/-- Rule R73: construction keeps the first 32 bytes, and `send` and `push` reject more than 32 before any bus activity. -/
def Obligations.PayloadConstruction : Prop :=
  (∀ d : List Byte, (Payload.ofBytes d).len = min d.length 32) ∧
  (∀ (d : List Byte) (k : Nat), k < (Payload.ofBytes d).len → (Payload.ofBytes d).data[k]? = d[k]?) ∧
  (∀ (s : State) (d : List Byte), s.seq = .idle → 32 < d.length →
    (s.mode = .tx → exec (.send d) s = .next { s with result := some (.err .payloadTooLarge) }) ∧
    (s.mode = .standby ∨ s.mode = .rx → ∀ pipe : Byte, pipe.toNat ≤ 5 →
      exec (.push pipe d) s = .next { s with result := some (.err .payloadTooLarge) }))

/-! ## The command frames -/

/-- Rules R101, R150, R200, R230: with the ports succeeding, every command frame completes in any mode as CSN low, one
transfer of all its bytes, CSN high, returns the status byte and the response decoded from the bytes received, and
changes nothing of the block but CSN.
That a frame runs in every mode is the model's reading (log entry 2). -/
def Obligations.FramesComplete : Prop :=
  ∀ (c : Cmd) (s : State), s.seq = .idle → PortsOk s →
    ∃ t st d, exec c.toInstr s = .next t ∧ t.events = s.events ++ frameEvents c (st :: d) ∧ d.length + 1 = c.len ∧
      Returned s t (.frame (Status.decode st) (decodeResponse c d)) ∧ t.csn = .high

/-- Rule R201: what a register read answers, and that it changes nothing of the peripheral.
That only the EN_CRC bit of CONFIG can be open, and when, is log entry 13; equal widths only is log entry 12. -/
def Obligations.RegisterReadFrame : Prop :=
  ∀ (r : Reg) (n : Nat) (s : State), r.legalLen n = true → s.seq = .idle → Quiet s →
    ∃ t d, exec (.frameRRegister r n) s = .next t ∧
      Returned s t (.frame s.periph.radio.status (.reg (RegVal.decode r d))) ∧ d.length = n ∧ t.periph = s.periph ∧
      (∀ b, s.periph.regs.stored r = [b] → r ≠ .config → r.isAddress = false → d = [b]) ∧
      (r = .config → ∃ b, d = [b] ∧ b &&& 0xF7#8 = s.periph.regs.config &&& 0xF7#8 ∧
        (s.periph.regs.enAa &&& 0x3F#8 = 0 ∨ s.periph.regs.config.getLsbD 3 = true → b = s.periph.regs.config)) ∧
      (r.isAddress = true → (s.periph.regs.stored r).length = n → d = s.periph.regs.stored r) ∧
      (r = .status → d = [s.periph.radio.statusByte]) ∧
      (r = .fifoStatus → d = [s.periph.radio.fifoStatusByte s.params]) ∧
      (r = .observeTx → ∃ b, d = [b] ∧ fieldOf b 4 4 = s.periph.radio.plosCnt ∧ fieldOf b 0 4 = s.periph.radio.arcCnt) ∧
      (r = .cd → d = [s.periph.radio.cd])

/-- Rules R107, R202: a register write gives the named register's fields the written value and touches no other register;
on STATUS it clears each of bits 6 to 4 written as 1; reserved bits, whatever is written there, read-only registers and
the FIFOs stay.
That reserved bits keep their value is the model's choice (log entry 14); a window with reserved bits set is log
entry 30. -/
def Obligations.RegisterWriteFrame : Prop :=
  ∀ (r : Reg) (data : List Byte) (s : State), r.legalLen data.length = true → s.seq = .idle → Quiet s →
    ∃ t, exec (.frameWRegister r data) s = .next t ∧ Returned s t (.frame s.periph.radio.status .statusOnly) ∧
      (∀ q, q ≠ r → t.periph.regs.stored q = s.periph.regs.stored q) ∧
      (r.isAddress = true → t.periph.regs.stored r = data) ∧
      (∀ old new, r.isAddress = false → s.periph.regs.stored r = [old] → data = [new] →
        t.periph.regs.stored r = [(old &&& ~~~r.fieldMask) ||| (new &&& r.fieldMask)]) ∧
      (∀ new, r = .status → data = [new] → t.periph.radio = { s.periph.radio with
        rxDr := s.periph.radio.rxDr && !new.getLsbD 6, txDs := s.periph.radio.txDs && !new.getLsbD 5,
        maxRt := s.periph.radio.maxRt && !new.getLsbD 4 }) ∧
      (r = .rfCh → t.periph.radio = { s.periph.radio with plosCnt := 0 }) ∧
      (r ≠ .status → r ≠ .rfCh → t.periph.radio = s.periph.radio)

/-- Rules R64, R204, R205: a payload write appends one entry at the tail of the TX FIFO and changes nothing else of the
peripheral; where its effect is open (an empty payload, a full FIFO) the FIFO still holds at most 3 entries.
That an empty or overfull write leaves nothing but the TX FIFO open is the model's choice (log entry 11). -/
def Obligations.PayloadWriteFrames : Prop :=
  ∀ (c : Cmd) (d : List Byte) (e : TxEntry) (s : State),
    (c = .wTxPayload d ∧ e = .data d ∨ ∃ p, c = .wAckPayload p d ∧ e = .ack p d false) → s.seq = .idle → Quiet s →
    ∃ t, exec c.toInstr s = .next t ∧ Returned s t (.frame s.periph.radio.status .statusOnly) ∧
      t.periph.regs = s.periph.regs ∧
      t.periph.radio = { s.periph.radio with txFifo := t.periph.radio.txFifo } ∧
      (d ≠ [] → s.periph.radio.txFifo.length < 3 → t.periph.radio.txFifo = s.periph.radio.txFifo ++ [e]) ∧
      t.periph.radio.txFifo.length ≤ 3

/-- Rules R65, R203, R206: a width read reports the head packet's length and removes nothing; a payload read of any width
removes the head packet, the rest of a longer one being lost, and gives a payload of that width: the packet's first
bytes where it is long enough, in a buffer of 32 bytes whose rest is 0 (decision D46). On an empty FIFO both complete
and leave it empty.
What a read beyond the packet or of the empty FIFO answers is open (log entry 6); that a payload frame of width 0 or
above 32 runs and removes the head packet is the model's choice (log entry 36). -/
def Obligations.PayloadReadFrames : Prop :=
  (∀ d : List Byte, (Payload.ofBytes d).data.length = 32 ∧
    ∀ k, d.length ≤ k → k < 32 → (Payload.ofBytes d).data[k]? = some 0) ∧
  ∀ (s : State), s.seq = .idle → Quiet s →
    (∀ (pkt : RxPacket) (rest : List RxPacket), s.periph.radio.rxFifo = pkt :: rest → pkt.data.length ≤ 32 →
      (∃ t, exec .frameRRxPlWid s = .next t ∧ t.periph = s.periph ∧
        Returned s t (.frame s.periph.radio.status (.width (BitVec.ofNat 8 pkt.data.length)))) ∧
      (∀ n : Nat, ∃ t d, exec (.frameRRxPayload n) s = .next t ∧
        t.periph = { s.periph with radio := { s.periph.radio with rxFifo := rest } } ∧
        Returned s t (.frame s.periph.radio.status (.payload (Payload.ofBytes d))) ∧ d.length = n ∧
        (n ≤ pkt.data.length → d = pkt.data.take n))) ∧
    (s.periph.radio.rxFifo = [] →
      (∃ t w, exec .frameRRxPlWid s = .next t ∧ t.periph = s.periph ∧
        Returned s t (.frame s.periph.radio.status (.width w))) ∧
      (∀ n, ∃ t p, exec (.frameRRxPayload n) s = .next t ∧ t.periph = s.periph ∧
        Returned s t (.frame s.periph.radio.status (.payload p))))

/-- Rules R207 to R209: FLUSH_TX empties the TX FIFO, FLUSH_RX the RX FIFO, NOP nothing; nothing else changes, the
interrupt flags included, and after FLUSH_RX the status shows RX_P_NO = 7. In Rx with CE not low a flush frame completes
too and leaves every register, and the peripheral's flags and FIFOs are then open (rule R458).
That an unknown CE counts as not low, and that the registers stay, is the model's reading (log entry 8). -/
def Obligations.FlushAndNopFrames : Prop :=
  ∀ (s : State), s.seq = .idle → Quiet s →
    (¬ (s.mode = .rx ∧ s.ce ≠ .low) →
      (∃ t, exec .frameFlushTx s = .next t ∧ Returned s t (.frame s.periph.radio.status .statusOnly) ∧
        t.periph = { s.periph with radio := { s.periph.radio with txFifo := [] } }) ∧
      (∃ t, exec .frameFlushRx s = .next t ∧ Returned s t (.frame s.periph.radio.status .statusOnly) ∧
        t.periph = { s.periph with radio := { s.periph.radio with rxFifo := [] } } ∧ t.periph.radio.rxPNo = 7)) ∧
    (s.mode = .rx ∧ s.ce ≠ .low → ∀ i : Instr, i = .frameFlushTx ∨ i = .frameFlushRx →
      ∃ t st, exec i s = .next t ∧ Returned s t (.frame st .statusOnly) ∧ t.periph.regs = s.periph.regs) ∧
    (∃ t, exec .frameNop s = .next t ∧ Returned s t (.frame s.periph.radio.status .statusOnly) ∧ t.periph = s.periph)

/-- Rules R230, R409: how a frame fails. CSN low failing: no transfer, one attempt to raise CSN, `BusError(csn_pin)`. The
transfer failing: CSN is raised all the same, and `BusError(spi)` is reported even when that fails too. CSN high
failing after the transfer: `BusError(csn_pin)`. The level of a line whose write failed is unknown. Every register the
frame does not write keeps its stored bytes (U24), unless the transfer was one in which a host duty was broken (rule
R462).
The order of the two attempts is decision D14; what a failed frame loses is the model's reading (log
entries 9, 10). -/
def Obligations.FrameFailures : Prop :=
  ∀ (c : Cmd) (s : State) (m1 m2 m3 : EnvMove) (rest : List EnvMove), s.seq = .idle → s.env = m1 :: m2 :: m3 :: rest →
    (m1.outcome = .fails →
      ∃ t, exec c.toInstr s = .next t ∧ Raised s t (.busError .csnPin) ∧
        (∀ q, (∀ data, c ≠ .wRegister q data) → t.periph.regs.stored q = s.periph.regs.stored q) ∧
        t.events = s.events ++ [.pin .csn false false, .pin .csn true m2.outcome.pinOk] ∧
        t.csn = if m2.outcome.pinOk then .high else .unknown) ∧
    (m1.outcome = .ok → m2.outcome = .fails →
      ∃ t, exec c.toInstr s = .next t ∧ Raised s t (.busError .spi) ∧
        (∀ q, (∀ data, c ≠ .wRegister q data) → t.periph.regs.stored q = s.periph.regs.stored q) ∧
        t.events = s.events ++ [.pin .csn false true, .xfer c.encode none, .pin .csn true m3.outcome.pinOk] ∧
        t.csn = if m3.outcome.pinOk then .high else .unknown) ∧
    (m1.outcome = .ok → m2.outcome ≠ .fails → m3.outcome = .fails →
      ∃ t inp, exec c.toInstr s = .next t ∧ Raised s t (.busError .csnPin) ∧
        (m2.outcome = .ok → ∀ q, (∀ data, c ≠ .wRegister q data) → t.periph.regs.stored q = s.periph.regs.stored q) ∧
        t.events = s.events ++ [.pin .csn false true, .xfer c.encode (some inp), .pin .csn true false] ∧
        t.csn = .unknown)

/-! ## Transport -/

/-- Rule R230: in a live mode `send_command(cmd)` is the frame of the command, whatever the ports do; with the ports
succeeding it returns the decoded status and response.
The frame as an instruction of its own is log entry 2. -/
def Obligations.SendCommandIsTheFrame : Prop :=
  ∀ (c : Cmd) (s : State), s.seq = .idle → s.mode ≠ .off →
    exec (.sendCommand c) s = exec c.toInstr s ∧
    (PortsOk s → ∃ t st d, exec (.sendCommand c) s = .next t ∧ t.events = s.events ++ frameEvents c (st :: d) ∧
      Returned s t (.frame (Status.decode st) (decodeResponse c d)) ∧ t.csn = .high)

/-- Rule R232: `write_register` sends one write frame, without a comparison, returns its status, and keeps CONFIG's
value in the shadow. A failing address width is a contract fault before any bus activity (rule R410). When a primitive
of the frame fails it raises `BusError` and the shadow keeps its value (rule R122).
That a fault is a next state is the model's reading (log entry 4). -/
def Obligations.WriteRegisterReturns : Prop :=
  (∀ (r : Reg) (v : RegVal) (s : State), Ready s → v.fits r = true →
    (r.legalLen v.encode.length = true →
      ∃ t st d, exec (.writeRegister r v) s = .next t ∧ t.result = some (.ok (.status (Status.decode st))) ∧
        t.events = s.events ++ frameEvents (.wRegister r v.encode) (st :: d) ∧
        t.shadow = (if r = .config then some (v.encode.headD 0) else s.shadow) ∧
        t.periph.regs = s.periph.regs.write r v.encode ∧
        t.mode = s.mode ∧ t.ce = s.ce ∧ t.csn = .high ∧ t.fault = s.fault ∧ t.seq = .idle ∧ t.requests = s.requests ∧
        (Quiet s → t.periph.radio = s.periph.radio.write r v.encode)) ∧
    (r.isAddress = true → legalWidth v.encode.length = false →
      exec (.writeRegister r v) s =
        .next { s with result := none, fault := s.fault.add (.violation .addrWidth) })) ∧
  (∀ (r : Reg) (v : RegVal) (s : State) (m1 m2 m3 : EnvMove) (rest : List EnvMove), s.seq = .idle → s.mode ≠ .off →
    v.fits r = true → r.legalLen v.encode.length = true → s.env = m1 :: m2 :: m3 :: rest →
    m1.outcome = .fails ∨ m2.outcome = .fails ∨ m3.outcome = .fails →
    ∃ t src, exec (.writeRegister r v) s = .next t ∧ Raised s t (.busError src) ∧ t.shadow = s.shadow)

/-- Rule R233: `read_register` sends one read frame of 1 byte, or of `w` bytes for an address register, returns the
status and the decoded value, and changes no register, the shadow included. A width outside 3 to 5 is a contract
fault before any bus activity (rule R410).
That a fault is a next state is the model's reading (log entry 4). -/
def Obligations.ReadRegisterReturns : Prop :=
  ∀ (r : Reg) (w : Nat) (s : State), Ready s →
    (r.isAddress = false ∨ legalWidth w = true →
      ∃ t st d, exec (.readRegister r w) s = .next t ∧
        Returned s t (.regRead (Status.decode st) (RegVal.decode r d)) ∧
        d.length = (if r.isAddress then w else 1) ∧
        t.events = s.events ++ frameEvents (.rRegister r (if r.isAddress then w else 1)) (st :: d) ∧
        t.csn = .high ∧ t.periph.regs = s.periph.regs ∧ (Quiet s → t.periph = s.periph) ∧
        (r ≠ .config → r.isAddress = false → s.periph.regs.stored r ≠ [] → d = s.periph.regs.stored r) ∧
        (r.isAddress = true → (s.periph.regs.stored r).length = w → d = s.periph.regs.stored r)) ∧
    (r.isAddress = true → legalWidth w = false →
      exec (.readRegister r w) s = .next { s with result := none, fault := s.fault.add (.violation .addrWidth) })

/-- Rule R234: `update_register` reads (1 byte, or `w` bytes of an address register), applies `f` to the value read, writes
back only a changed value, and returns `f`'s token. A changed address of illegal width is a contract fault after the
read; an illegal `w`, and CONFIG, are contract faults before any bus activity (rule R410).
The data form of `f` is the model's choice (log entry 21); that a fault is a next state is its reading (log
entry 4). -/
def Obligations.UpdateRegisterReturns : Prop :=
  ∀ (r : Reg) (w : Nat) (f : RegFn) (s : State), Ready s → f.fits r = true →
    (r ≠ .config → (r.isAddress = true → legalWidth w = true) →
      ∃ t st d, exec (.updateRegister r w f) s = .next t ∧ d.length = (if r.isAddress then w else 1) ∧
        (s.periph.regs.stored r ≠ [] → (r.isAddress = true → (s.periph.regs.stored r).length = w) →
          d = s.periph.regs.stored r) ∧
        (let read := frameEvents (.rRegister r (if r.isAddress then w else 1)) (st :: d)
         let new := (applyFn r f (RegVal.decode r d)).1
         let tok := (applyFn r f (RegVal.decode r d)).2
         (new = RegVal.decode r d →
           Returned s t (.token tok) ∧ t.csn = .high ∧ t.events = s.events ++ read ∧ t.periph.regs = s.periph.regs ∧
           (Quiet s → t.periph = s.periph)) ∧
         (new ≠ RegVal.decode r d → (r.isAddress = true → legalWidth new.encode.length = true) →
           Returned s t (.token tok) ∧ t.csn = .high ∧
           (∃ inp, t.events = s.events ++ read ++ frameEvents (.wRegister r new.encode) inp) ∧
           t.periph.regs = s.periph.regs.write r new.encode ∧
           (Quiet s → t.periph.radio = s.periph.radio.write r new.encode)) ∧
         (new ≠ RegVal.decode r d → r.isAddress = true → legalWidth new.encode.length = false →
           Faulted s t .addrWidth ∧ t.events = s.events ++ read ∧ t.periph.regs = s.periph.regs))) ∧
    (r.isAddress = true → legalWidth w = false → exec (.updateRegister r w f) s =
      .next { s with result := none, fault := s.fault.add (.violation .addrWidth) }) ∧
    (r = .config → exec (.updateRegister r w f) s =
      .next { s with result := none, fault := s.fault.add (.violation .updateRegisterConfig) })

/-- Rule R235: `update_config` applies `f` to the shadow without a read; it writes one frame and then the shadow only if
the value changed, and returns `f`'s token. When a primitive of that frame fails it raises `BusError` and the shadow
keeps the old value (rule R122).
The data form of `f` is the model's choice (log entry 21). -/
def Obligations.UpdateConfigReturns : Prop :=
  (∀ (f : RegFn) (b : Byte) (s : State), Ready s → s.shadow = some b → f.fits .config = true →
    ∃ (t : State) (c : ConfigReg), exec (.updateConfig f) s = .next t ∧
      (applyFn .config f (.config (ConfigReg.decode b))).1 = .config c ∧
      t.result = some (.ok (.token (applyFn .config f (.config (ConfigReg.decode b))).2)) ∧
      ConfigUpdated b c.encode s t ∧ t.fault = s.fault ∧ (Quiet s → t.periph.radio = s.periph.radio)) ∧
  (∀ (f : RegFn) (b : Byte) (s : State) (m1 m2 m3 : EnvMove) (rest : List EnvMove), s.seq = .idle → s.mode ≠ .off →
    s.shadow = some b → f.fits .config = true → s.env = m1 :: m2 :: m3 :: rest →
    m1.outcome = .fails ∨ m2.outcome = .fails ∨ m3.outcome = .fails →
    (applyFn .config f (.config (ConfigReg.decode b))).1 ≠ .config (ConfigReg.decode b) →
    ∃ t src, exec (.updateConfig f) s = .next t ∧ Raised s t (.busError src) ∧ t.shadow = some b)

/-- Rules R236, R237: a CE operation always writes the pin, whatever level it had; on success CE is at that level, on
failure it is unknown and `BusError(ce_pin)` is raised. No register changes. Lowering CE in Tx with a packet waiting leaves
that packet's fate open (rule R459), and no other packet's; with MAX_RT set nothing is in flight and nothing changes
(rules R112, R460).
What an abort can touch is the model's choice (log entry 15); that a failed CE write leaves the registers is its reading
of U24 (log entry 9). -/
def Obligations.CeOperations : Prop :=
  ∀ (up : Bool) (s : State), s.seq = .idle → s.mode ≠ .off →
    ((s.env.headD EnvMove.calm).outcome ≠ .fails →
      ∃ t, exec (if up then .ceEnable else .ceDisable) s = .next t ∧ t.result = some (.ok .unit) ∧ t.seq = .idle ∧
        t.events = s.events ++ [.pin .ce up true] ∧ t.ce = (if up then .high else .low) ∧ t.mode = s.mode ∧
        t.csn = s.csn ∧ t.shadow = s.shadow ∧ t.fault = s.fault ∧ t.periph.regs = s.periph.regs ∧
        (Quiet s → (up = true ∨ s.mode ≠ .tx ∨ s.ce = .low ∨ s.periph.radio.txFifo = [] ∨
          s.periph.radio.maxRt = true) →
          t.periph.radio = s.periph.radio) ∧
        (Quiet s → t.periph.radio.rxFifo = s.periph.radio.rxFifo ∧
          (t.periph.radio.txFifo = s.periph.radio.txFifo ∨ t.periph.radio.txFifo = s.periph.radio.txFifo.tail))) ∧
    ((s.env.headD EnvMove.calm).outcome = .fails →
      ∃ t, exec (if up then .ceEnable else .ceDisable) s = .next t ∧ t.result = some (.err (.busError .cePin)) ∧
        t.seq = .idle ∧ t.events = s.events ++ [.pin .ce up false] ∧ t.ce = .unknown ∧ t.mode = s.mode ∧
        t.csn = s.csn ∧ t.shadow = s.shadow ∧ t.fault = s.fault ∧ t.periph.regs = s.periph.regs)

/-! ## Configuration -/

/-- Rules R261, R262, R411: the flush operations send their one frame in every live mode and empty their FIFO; in Rx with
CE not low they also mark `FlushInActiveRx`, and the peripheral's flags and FIFOs are then open (rule R458).
That a marked frame leaves the registers is the model's reading (log entry 8). -/
def Obligations.FlushOperations : Prop :=
  ∀ (tx : Bool) (s : State), Ready s →
    ∃ t inp, exec (if tx then .flushTx else .flushRx) s = .next t ∧ t.result = some (.ok .unit) ∧ t.seq = .idle ∧
      t.events = s.events ++ frameEvents (if tx then .flushTx else .flushRx) inp ∧
      t.mode = s.mode ∧ t.ce = s.ce ∧ t.csn = .high ∧ t.shadow = s.shadow ∧ t.periph.regs = s.periph.regs ∧
      t.fault = (if s.mode = .rx ∧ s.ce ≠ .low then s.fault.add (.hazard .flushInActiveRx) else s.fault) ∧
      (¬ (s.mode = .rx ∧ s.ce ≠ .low) → Quiet s →
        t.periph.radio = if tx then { s.periph.radio with txFifo := [] } else { s.periph.radio with rxFifo := [] })

/-- Rule R263: `set_frequency` gives RF_CH the channel capped at 125; a write also resets the lost-packet count. -/
def Obligations.SetFrequency : Prop :=
  ∀ (ch : Byte) (s : State), Ready s →
    ∃ t, exec (.setFrequency ch) s = .next t ∧
      Updated .rfCh s.periph.regs.rfCh (BitVec.ofNat 8 (min ch.toNat 125)) s t ∧
      t.periph.regs = { s.periph.regs with
        rfCh := (s.periph.regs.rfCh &&& 0x80#8) ||| BitVec.ofNat 8 (min ch.toNat 125) } ∧
      (Quiet s → t.periph.radio =
        if BitVec.ofNat 8 (min ch.toNat 125) = s.periph.regs.rfCh &&& 0x7F#8 then s.periph.radio
        else { s.periph.radio with plosCnt := 0 })

/-- Rule R265: `set_rf` gives RF_SETUP the data-rate pair at bits 5 and 3 and the power at bits 2 to 1, and keeps its
other bits. -/
def Obligations.SetRf : Prop :=
  ∀ (rate : DataRate) (power : Byte) (s : State), Ready s → power.toNat < 4 →
    ∃ t, exec (.setRf rate power) s = .next t ∧
      (let fields : Byte := (match rate with | .r250Kbps => 0x20 | .r1Mbps => 0x00 | .r2Mbps => 0x08) ||| (power <<< 1)
       Updated .rfSetup s.periph.regs.rfSetup ((s.periph.regs.rfSetup &&& 0x91#8) ||| fields) s t ∧
       t.periph.regs = { s.periph.regs with rfSetup := (s.periph.regs.rfSetup &&& 0xD1#8) ||| fields })

/-- Rules R267, R277: `set_address_width` gives SETUP_AW the width minus 2 and rewrites no address register;
`set_auto_retransmit` gives SETUP_RETR the delay in bits 7 to 4 and the count in bits 3 to 0, both clamped to 15. -/
def Obligations.SetWidthAndRetransmit : Prop :=
  ∀ s : State, Ready s →
    (∀ w : Byte, legalWidth w.toNat = true →
      ∃ t, exec (.setAddressWidth w) s = .next t ∧ Updated .setupAw s.periph.regs.setupAw (w - 2) s t ∧
        t.periph.regs = { s.periph.regs with setupAw := (s.periph.regs.setupAw &&& 0xFC#8) ||| (w - 2) }) ∧
    (∀ delay count : Byte,
      ∃ t, exec (.setAutoRetransmit delay count) s = .next t ∧
        Updated .setupRetr s.periph.regs.setupRetr (BitVec.ofNat 8 (16 * min delay.toNat 15 + min count.toNat 15)) s t ∧
        t.periph.regs = { s.periph.regs with
          setupRetr := BitVec.ofNat 8 (16 * min delay.toNat 15 + min count.toNat 15) })

/-- Rules R268, R270: `set_crc` and `set_interrupt_mask` change their CONFIG fields through the shadow and keep the
others. -/
def Obligations.SetCrcAndInterruptMask : Prop :=
  ∀ (b : Byte) (s : State), Ready s → s.shadow = some b →
    (∀ mode : CrcMode, ∃ t, exec (.setCrc mode) s = .next t ∧ t.result = some (.ok .unit) ∧ t.fault = s.fault ∧
      ConfigUpdated b ((b &&& 0x73#8) ||| (match mode with | .disabled => 0x00 | .oneByte => 0x08 | .twoBytes => 0x0C)) s t ∧
      (Quiet s → t.periph.radio = s.periph.radio)) ∧
    (∀ rxDr txDs maxRt : Bool, ∃ t, exec (.setInterruptMask rxDr txDs maxRt) s = .next t ∧ t.result = some (.ok .unit) ∧
      t.fault = s.fault ∧
      ConfigUpdated b ((b &&& 0x0F#8) ||| (if rxDr then 0x40#8 else 0) ||| (if txDs then 0x20#8 else 0) |||
        (if maxRt then 0x10#8 else 0)) s t ∧
      (Quiet s → t.periph.radio = s.periph.radio))

/-- Rules R271, R279: `set_pipes_rx_enable` writes EN_RXADDR and `set_auto_ack` writes EN_AA, pipe p at bit p. -/
def Obligations.SetPipeSwitches : Prop :=
  ∀ (b : Six Bool) (s : State), Ready s →
    (∃ t, exec (.setPipesRxEnable b) s = .next t ∧ Updated .enRxaddr s.periph.regs.enRxaddr (fromBools b) s t ∧
      t.periph.regs = { s.periph.regs with enRxaddr := (s.periph.regs.enRxaddr &&& 0xC0#8) ||| fromBools b }) ∧
    (∃ t, exec (.setAutoAck b) s = .next t ∧ Updated .enAa s.periph.regs.enAa (fromBools b) s t ∧
      t.periph.regs = { s.periph.regs with enAa := (s.periph.regs.enAa &&& 0xC0#8) ||| fromBools b })

/-- Rules R264, R266, R272, R278: the getters send one frame, return the value the peripheral holds, and change
nothing. -/
def Obligations.ConfigurationGetters : Prop :=
  ∀ s : State, Ready s →
    (∃ t st, exec .getFrequency s = .next t ∧ Returned s t (.u8 (s.periph.regs.rfCh &&& 0x7F#8)) ∧
      t.events = s.events ++ frameEvents (.rRegister .rfCh 1) [st, s.periph.regs.rfCh] ∧
      t.csn = .high ∧ t.periph.regs = s.periph.regs ∧ (Quiet s → t.periph = s.periph)) ∧
    (∃ t st, exec .getAddressWidth s = .next t ∧ Returned s t (.u8 ((s.periph.regs.setupAw &&& 0x03#8) + 2)) ∧
      t.events = s.events ++ frameEvents (.rRegister .setupAw 1) [st, s.periph.regs.setupAw] ∧
      t.csn = .high ∧ t.periph.regs = s.periph.regs ∧ (Quiet s → t.periph = s.periph)) ∧
    (∃ t st, exec .getAutoAck s = .next t ∧ Returned s t (.pipes (toBools s.periph.regs.enAa)) ∧
      t.events = s.events ++ frameEvents (.rRegister .enAa 1) [st, s.periph.regs.enAa] ∧
      t.csn = .high ∧ t.periph.regs = s.periph.regs ∧ (Quiet s → t.periph = s.periph)) ∧
    (∃ t st, exec .getInterrupts s = .next t ∧
      Returned s t (.interrupts (st.getLsbD 6) (st.getLsbD 5) (st.getLsbD 4)) ∧
      t.events = s.events ++ frameEvents .nop [st] ∧ t.csn = .high ∧ t.periph.regs = s.periph.regs ∧
      (Quiet s → st = s.periph.radio.statusByte ∧ t.periph = s.periph))

/-- Rules R273, R413: `clear_interrupts` writes the byte 0x70 to STATUS, which clears RX_DR, TX_DS and MAX_RT and nothing
else; the IRQ pin, which is active low, is then high. -/
def Obligations.ClearInterrupts : Prop :=
  ∀ s : State, Ready s →
    ∃ t inp, exec .clearInterrupts s = .next t ∧ Returned s t .unit ∧ t.csn = .high ∧
      t.events = s.events ++ frameEvents (.wRegister .status [0x70]) inp ∧ t.periph.regs = s.periph.regs ∧
      (Quiet s → t.periph.radio = { s.periph.radio with rxDr := false, txDs := false, maxRt := false } ∧
        t.periph.irqPin = .high)

/-- Rules R274, R275: with an address as long as the configured width, `set_rx_addr` and `set_tx_addr` read SETUP_AW and
then write the address, byte 0 first; pipes 2 to 5 take byte 0 alone; no other register changes. -/
def Obligations.AddressSetters : Prop :=
  ∀ (addr : List Byte) (s : State), Ready s → s.periph.regs.setupAw &&& 0x03#8 ≠ 0 →
    addr.length = 2 + (s.periph.regs.setupAw &&& 0x03#8).toNat →
    (∀ p : Pipe, ∃ t st inp, exec (.setRxAddr (BitVec.ofNat 8 p.toNat) addr) s = .next t ∧ Returned s t .unit ∧
      t.csn = .high ∧
      t.events = s.events ++ frameEvents (.rRegister .setupAw 1) [st, s.periph.regs.setupAw] ++
        frameEvents (.wRegister p.addrReg (p.addrBytes addr)) inp ∧
      (∀ q, t.periph.regs.stored q = if q = p.addrReg then p.addrBytes addr else s.periph.regs.stored q) ∧
      (Quiet s → t.periph.radio = s.periph.radio)) ∧
    (∃ t st inp, exec (.setTxAddr addr) s = .next t ∧ Returned s t .unit ∧ t.csn = .high ∧
      t.events = s.events ++ frameEvents (.rRegister .setupAw 1) [st, s.periph.regs.setupAw] ++
        frameEvents (.wRegister .txAddr addr) inp ∧
      t.periph.regs = { s.periph.regs with txAddr := addr } ∧ (Quiet s → t.periph.radio = s.periph.radio))

/-- Rules R274, R275, R402, R410: a pipe above 5 raises `InvalidPipe` before any bus activity; an address whose length is
not the configured width faults after the one SETUP_AW read, and no register is written.
That a fault is a next state is the model's reading (log entry 4). -/
def Obligations.AddressErrors : Prop :=
  ∀ (addr : List Byte) (s : State), Ready s →
    (∀ pipe : Byte, 5 < pipe.toNat →
      exec (.setRxAddr pipe addr) s = .next { s with result := some (.err (.invalidPipe pipe)) }) ∧
    (s.periph.regs.setupAw &&& 0x03#8 = 0 ∨ addr.length ≠ 2 + (s.periph.regs.setupAw &&& 0x03#8).toNat →
      ∀ i : Instr, (i = .setTxAddr addr ∨ ∃ p : Pipe, i = .setRxAddr (BitVec.ofNat 8 p.toNat) addr) →
      ∃ t st, exec i s = .next t ∧ Faulted s t .addrLength ∧
        t.events = s.events ++ frameEvents (.rRegister .setupAw 1) [st, s.periph.regs.setupAw] ∧
        t.periph.regs = s.periph.regs)

/-- Rule R276: `set_pipes_rx_lengths` sets EN_DPL and EN_ACK_PAY exactly when some pipe is dynamic, sets DYNPD for the
dynamic pipes and clears it for the static ones, writes the static lengths, leaves a dynamic pipe's RX_PW, and touches
FEATURE, DYNPD and RX_PW in this order. -/
def Obligations.SetPipesRxLengths : Prop :=
  ∀ (l : Six (Option Byte)) (s : State), Ready s → (∀ p n, l.get p = some n → n.toNat < 64) →
    ∃ t evs, exec (.setPipesRxLengths l) s = .next t ∧ Returned s t .unit ∧ t.csn = .high ∧
      t.events = s.events ++ evs ∧
      (commandBytes evs).Sublist ([0x1D, 0x3D, 0x1C, 0x3C] ++
        Pipe.all.flatMap fun p => [0x11#8 + BitVec.ofNat 8 p.toNat, 0x31#8 + BitVec.ofNat 8 p.toNat]) ∧
      (commandBytes evs).filter (· < 0x20#8) =
        [0x1D, 0x1C] ++ (Pipe.all.filter fun p => (l.get p).isSome).map (fun p => 0x11#8 + BitVec.ofNat 8 p.toNat) ∧
      (let dyn := l.map (·.isNone)
       let length : Pipe → Byte := fun p =>
         match l.get p with
         | some n => (s.periph.regs.rxPw.get p &&& 0xC0#8) ||| n
         | none => s.periph.regs.rxPw.get p
       t.periph.regs = { s.periph.regs with
         feature := (s.periph.regs.feature &&& 0xF9#8) ||| (if dyn.any then 0x06#8 else 0)
         dynpd := (s.periph.regs.dynpd &&& 0xC0#8) ||| fromBools dyn
         rxPw := ⟨length .p0, length .p1, length .p2, length .p3, length .p4, length .p5⟩ }) ∧
      (Quiet s → t.periph.radio = s.periph.radio)

/-- Rules R280, R282: `configure_rx` with a valid record applies its steps in order and leaves every register they cover
at the record's value, the other written registers as they were, and the mode and CE unchanged; while nothing happens on
the radio, the flags, counters and FIFOs stay too, but for the lost-packet count, which a write of RF_CH resets (rule
R263). -/
def Obligations.ConfigureRx : Prop :=
  ∀ (c : RxConfig) (b : Byte) (s : State), Ready s → s.shadow = some b → c.paLevel.toNat < 4 →
    legalWidth c.addressWidth.toNat = true → (∀ p a, c.pipeAddresses.get p = some a → a.length = c.addressWidth.toNat) →
    (∀ p n, c.pipeLengths.get p = some n → n.toNat < 64) →
    ∃ t evs, exec (.configureRx c) s = .next t ∧ t.result = some (.ok .unit) ∧ t.seq = .idle ∧ t.mode = s.mode ∧
      t.ce = s.ce ∧ t.csn = .high ∧ t.fault = s.fault ∧ t.requests = s.requests ∧ t.events = s.events ++ evs ∧
      (commandBytes evs).Sublist ([0x05, 0x25, 0x06, 0x26, 0x03, 0x23, 0x20] ++
        (Pipe.all.flatMap fun p => [0x03#8, 0x2A#8 + BitVec.ofNat 8 p.toNat]) ++
        [0x02, 0x22, 0x01, 0x21, 0x1D, 0x3D, 0x1C, 0x3C] ++
        Pipe.all.flatMap fun p => [0x11#8 + BitVec.ofNat 8 p.toNat, 0x31#8 + BitVec.ofNat 8 p.toNat]) ∧
      (Quiet s → t.periph.radio =
        if BitVec.ofNat 8 (min c.channel.toNat 125) = s.periph.regs.rfCh &&& 0x7F#8 then s.periph.radio
        else { s.periph.radio with plosCnt := 0 }) ∧
      (let old := s.periph.regs
       let crc : Byte := (b &&& 0x73#8) ||| (match c.crcMode with | .disabled => 0x00 | .oneByte => 0x08 | .twoBytes => 0x0C)
       let dyn := c.pipeLengths.map (·.isNone)
       let low : Pipe → Byte → Byte := fun p x =>
         match c.pipeAddresses.get p with
         | some a => a.headD 0
         | none => x
       let length : Pipe → Byte := fun p =>
         match c.pipeLengths.get p with
         | some n => (old.rxPw.get p &&& 0xC0#8) ||| n
         | none => old.rxPw.get p
       t.shadow = some (if crc = b &&& 0x7F#8 then b else crc) ∧
       t.periph.regs = { old with
         rfCh := (old.rfCh &&& 0x80#8) ||| BitVec.ofNat 8 (min c.channel.toNat 125)
         rfSetup := (old.rfSetup &&& 0xD1#8) |||
           (match c.dataRate with | .r250Kbps => 0x20 | .r1Mbps => 0x00 | .r2Mbps => 0x08) ||| (c.paLevel <<< 1)
         setupAw := (old.setupAw &&& 0xFC#8) ||| (c.addressWidth - 2)
         config := if crc = b &&& 0x7F#8 then old.config else (old.config &&& 0x80#8) ||| crc
         rxAddrP0 := (c.pipeAddresses.get .p0).getD old.rxAddrP0
         rxAddrP1 := (c.pipeAddresses.get .p1).getD old.rxAddrP1
         rxAddrP2 := low .p2 old.rxAddrP2
         rxAddrP3 := low .p3 old.rxAddrP3
         rxAddrP4 := low .p4 old.rxAddrP4
         rxAddrP5 := low .p5 old.rxAddrP5
         enRxaddr := (old.enRxaddr &&& 0xC0#8) ||| fromBools (c.pipeAddresses.map (·.isSome))
         enAa := (old.enAa &&& 0xC0#8) ||| fromBools c.pipeAutoAck
         feature := (old.feature &&& 0xF9#8) ||| (if dyn.any then 0x06#8 else 0)
         dynpd := (old.dynpd &&& 0xC0#8) ||| fromBools dyn
         rxPw := ⟨length .p0, length .p1, length .p2, length .p3, length .p4, length .p5⟩ })

/-- Rules R281, R283: `configure_tx` with a valid record applies its steps in order and leaves every register they cover
at the record's value, the other written registers as they were, and the mode and CE unchanged; while nothing happens on
the radio, the flags, counters and FIFOs stay too, but for the lost-packet count, which a write of RF_CH resets (rule
R263). -/
def Obligations.ConfigureTx : Prop :=
  ∀ (c : TxConfig) (b : Byte) (s : State), Ready s → s.shadow = some b → c.paLevel.toNat < 4 →
    legalWidth c.addressWidth.toNat = true → c.pipe0Address.length = c.addressWidth.toNat →
    (∀ n, c.pipe0Length = some n → n.toNat < 64) →
    ∃ t evs, exec (.configureTx c) s = .next t ∧ t.result = some (.ok .unit) ∧ t.seq = .idle ∧ t.mode = s.mode ∧
      t.ce = s.ce ∧ t.csn = .high ∧ t.fault = s.fault ∧ t.requests = s.requests ∧ t.events = s.events ++ evs ∧
      (commandBytes evs).Sublist ([0x05, 0x25, 0x06, 0x26, 0x03, 0x23, 0x20, 0x04, 0x24, 0x03, 0x30, 0x03, 0x2A,
        0x02, 0x22, 0x01, 0x21, 0x1D, 0x3D, 0x1C, 0x3C] ++
        Pipe.all.flatMap fun p => [0x11#8 + BitVec.ofNat 8 p.toNat, 0x31#8 + BitVec.ofNat 8 p.toNat]) ∧
      (Quiet s → t.periph.radio =
        if BitVec.ofNat 8 (min c.channel.toNat 125) = s.periph.regs.rfCh &&& 0x7F#8 then s.periph.radio
        else { s.periph.radio with plosCnt := 0 }) ∧
      (let old := s.periph.regs
       let crc : Byte := (b &&& 0x73#8) ||| (match c.crcMode with | .disabled => 0x00 | .oneByte => 0x08 | .twoBytes => 0x0C)
       t.shadow = some (if crc = b &&& 0x7F#8 then b else crc) ∧
       t.periph.regs = { old with
         rfCh := (old.rfCh &&& 0x80#8) ||| BitVec.ofNat 8 (min c.channel.toNat 125)
         rfSetup := (old.rfSetup &&& 0xD1#8) |||
           (match c.dataRate with | .r250Kbps => 0x20 | .r1Mbps => 0x00 | .r2Mbps => 0x08) ||| (c.paLevel <<< 1)
         setupAw := (old.setupAw &&& 0xFC#8) ||| (c.addressWidth - 2)
         config := if crc = b &&& 0x7F#8 then old.config else (old.config &&& 0x80#8) ||| crc
         setupRetr := BitVec.ofNat 8 (16 * min c.retryDelay.toNat 15 + min c.maxRetries.toNat 15)
         txAddr := c.pipe0Address
         rxAddrP0 := c.pipe0Address
         enRxaddr := (old.enRxaddr &&& 0xC0#8) ||| 0x01#8
         enAa := (old.enAa &&& 0xC0#8) ||| (if c.pipe0AutoAck then 0x01#8 else 0)
         feature := (old.feature &&& 0xF9#8) ||| (if c.pipe0Length.isNone then 0x06#8 else 0)
         dynpd := (old.dynpd &&& 0xC0#8) ||| (if c.pipe0Length.isNone then 0x01#8 else 0)
         rxPw := ⟨match c.pipe0Length with
           | some n => (old.rxPw.p0 &&& 0xC0#8) ||| n
           | none => old.rxPw.p0, old.rxPw.p1 &&& 0xC0#8, old.rxPw.p2 &&& 0xC0#8, old.rxPw.p3 &&& 0xC0#8,
           old.rxPw.p4 &&& 0xC0#8, old.rxPw.p5 &&& 0xC0#8⟩ })

/-- Rules R265, R267, R276, R282, R283, R410: an argument outside its contract faults before any bus activity: the reason
joins `B.fault`, there is no result, and nothing else changes. Of several violations in a record the first listed is
reported.
That a fault is a next state is the model's reading (log entry 4). -/
def Obligations.ContractViolations : Prop :=
  ∀ s : State, s.seq = .idle → s.mode ≠ .off →
    (let faulted : Violation → Host.Outcome State Fault Refusal := fun v =>
       .next { s with result := none, fault := s.fault.add (.violation v) }
     (∀ rate (power : Byte), 4 ≤ power.toNat → exec (.setRf rate power) s = faulted .powerRange) ∧
     (∀ w : Byte, legalWidth w.toNat = false → exec (.setAddressWidth w) s = faulted .addrWidth) ∧
     (∀ (l : Six (Option Byte)) p n, l.get p = some n → 64 ≤ n.toNat →
       exec (.setPipesRxLengths l) s = faulted .rxPwRange) ∧
     (∀ c : RxConfig, 4 ≤ c.paLevel.toNat → exec (.configureRx c) s = faulted .powerRange) ∧
     (∀ c : RxConfig, c.paLevel.toNat < 4 → legalWidth c.addressWidth.toNat = false →
       exec (.configureRx c) s = faulted .addrWidth) ∧
     (∀ (c : RxConfig) p a, c.paLevel.toNat < 4 → legalWidth c.addressWidth.toNat = true →
       c.pipeAddresses.get p = some a → a.length ≠ c.addressWidth.toNat →
       exec (.configureRx c) s = faulted .addrLength) ∧
     (∀ (c : RxConfig) p n, c.paLevel.toNat < 4 → legalWidth c.addressWidth.toNat = true →
       (∀ q a, c.pipeAddresses.get q = some a → a.length = c.addressWidth.toNat) →
       c.pipeLengths.get p = some n → 64 ≤ n.toNat → exec (.configureRx c) s = faulted .rxPwRange) ∧
     (∀ c : TxConfig, 4 ≤ c.paLevel.toNat → exec (.configureTx c) s = faulted .powerRange) ∧
     (∀ c : TxConfig, c.paLevel.toNat < 4 →
       (legalWidth c.addressWidth.toNat = false ∨ c.pipe0Address.length ≠ c.addressWidth.toNat) →
       exec (.configureTx c) s = faulted .addrLength) ∧
     (∀ (c : TxConfig) n, c.paLevel.toNat < 4 → legalWidth c.addressWidth.toNat = true →
       c.pipe0Address.length = c.addressWidth.toNat → c.pipe0Length = some n → 64 ≤ n.toNat →
       exec (.configureTx c) s = faulted .rxPwRange))

/-! ## The mode state machine -/

/-- Rules R310, R311: in `Off`, with the ports succeeding and a peripheral whose address width field is not 0, `new`
lowers CE, raises CSN, writes the default CONFIG `0x08 | a<<6 | b<<5 | c<<4`, reads SETUP_AW, powers up and enters
Standby. -/
def Obligations.NewSucceeds : Prop :=
  ∀ (a b c : Bool) (s : State), s.seq = .idle → PortsOk s → s.mode = .off → s.periph.regs.setupAw &&& 0x03#8 ≠ 0 →
    ∃ t i1 st i2, exec (.new a b c) s = .next t ∧ t.result = some (.ok .unit) ∧ t.seq = .idle ∧ t.mode = .standby ∧
      t.ce = .low ∧ t.csn = .high ∧ t.fault = s.fault ∧ t.requests = s.requests ∧
      (let d := 0x08#8 ||| (if a then 0x40#8 else 0) ||| (if b then 0x20#8 else 0) ||| (if c then 0x10#8 else 0)
       t.shadow = some (d ||| 0x02#8) ∧
       t.events = s.events ++ [.pin .ce false true, .pin .csn true true] ++ frameEvents (.wRegister .config [d]) i1 ++
         frameEvents (.rRegister .setupAw 1) [st, s.periph.regs.setupAw] ++
         frameEvents (.wRegister .config [d ||| 0x02#8]) i2 ∧
       t.periph.regs = { s.periph.regs with config := (s.periph.regs.config &&& 0x80#8) ||| d ||| 0x02#8 }) ∧
      (Quiet s → t.periph.radio = s.periph.radio)

/-- Rules R310 to R312, R402: a peripheral whose address width field is 0 makes `new` raise `NotConnected` after the CONFIG
write and the SETUP_AW read; the mode stays `Off`, what was done stays, and PWR_UP is not written. -/
def Obligations.NewNotConnected : Prop :=
  ∀ (a b c : Bool) (s : State), s.seq = .idle → PortsOk s → s.mode = .off → s.periph.regs.setupAw &&& 0x03#8 = 0 →
    ∃ t i1 st, exec (.new a b c) s = .next t ∧ t.result = some (.err .notConnected) ∧ t.seq = .idle ∧ t.mode = .off ∧
      t.ce = .low ∧ t.csn = .high ∧ t.fault = s.fault ∧
      (let d := 0x08#8 ||| (if a then 0x40#8 else 0) ||| (if b then 0x20#8 else 0) ||| (if c then 0x10#8 else 0)
       t.shadow = some d ∧
       t.events = s.events ++ [.pin .ce false true, .pin .csn true true] ++ frameEvents (.wRegister .config [d]) i1 ++
         frameEvents (.rRegister .setupAw 1) [st, s.periph.regs.setupAw] ∧
       t.periph.regs = { s.periph.regs with config := (s.periph.regs.config &&& 0x80#8) ||| d })

/-- Rules R313, R314: `rx` sets PRIM_RX through the shadow, then raises CE and enters Rx; `tx` clears PRIM_RX through the
shadow and enters Tx without a CE write. A PRIM_RX that already has the value costs no frame. -/
def Obligations.EnterRxAndTx : Prop :=
  ∀ (b : Byte) (s : State), Ready s → s.mode = .standby → s.shadow = some b →
    (∃ t evs, exec .rx s = .next t ∧ t.result = some (.ok .unit) ∧ t.seq = .idle ∧ t.mode = .rx ∧ t.ce = .high ∧
      t.fault = s.fault ∧ t.events = s.events ++ evs ++ [.pin .ce true true] ∧
      (b.getLsbD 0 = true → evs = [] ∧ t.shadow = some b ∧ t.periph.regs = s.periph.regs) ∧
      (b.getLsbD 0 = false → (∃ inp, evs = frameEvents (.wRegister .config [(b &&& 0x7F#8) ||| 1#8]) inp) ∧
        t.shadow = some ((b &&& 0x7F#8) ||| 1#8) ∧ t.periph.regs = { s.periph.regs with
          config := (s.periph.regs.config &&& 0x80#8) ||| ((b &&& 0x7F#8) ||| 1#8) }) ∧
      (Quiet s → t.periph.radio = s.periph.radio)) ∧
    (∃ t evs, exec .tx s = .next t ∧ t.result = some (.ok .unit) ∧ t.seq = .idle ∧ t.mode = .tx ∧ t.ce = s.ce ∧
      t.fault = s.fault ∧ t.events = s.events ++ evs ∧
      (b.getLsbD 0 = false → evs = [] ∧ t.shadow = some b ∧ t.periph.regs = s.periph.regs) ∧
      (b.getLsbD 0 = true → (∃ inp, evs = frameEvents (.wRegister .config [b &&& 0x7E#8]) inp) ∧
        t.shadow = some (b &&& 0x7E#8) ∧ t.periph.regs = { s.periph.regs with
          config := (s.periph.regs.config &&& 0x80#8) ||| (b &&& 0x7E#8) }) ∧
      (Quiet s → t.periph.radio = s.periph.radio))

/-- Rule R315: `standby` in Rx lowers CE and enters Standby; CONFIG, the shadow and the RX FIFO stay. -/
def Obligations.StandbyFromRx : Prop :=
  ∀ s : State, Ready s → s.mode = .rx →
    ∃ t, exec .standbyRx s = .next t ∧ t.result = some (.ok .unit) ∧ t.seq = .idle ∧ t.mode = .standby ∧ t.ce = .low ∧
      t.events = s.events ++ [.pin .ce false true] ∧ t.csn = s.csn ∧ t.shadow = s.shadow ∧ t.fault = s.fault ∧
      t.periph.regs = s.periph.regs ∧ (Quiet s → t.periph = s.periph)

/-- Rules R317, R318, R411: `power_up` sets PWR_UP and `power_down` clears it through the shadow, in every live mode; with
CE not low they also mark `PowerToggleWithCe`, and after the marked frame the peripheral's flags and FIFOs are open.
That a marked frame leaves the other registers, and that a write suppressed because PWR_UP has its value leaves the
whole peripheral, mark or not, is the model's reading (log entry 8). -/
def Obligations.PowerOperations : Prop :=
  ∀ (up : Bool) (b : Byte) (s : State), Ready s → s.shadow = some b →
    ∃ t, exec (if up then .powerUp else .powerDown) s = .next t ∧ t.result = some (.ok .unit) ∧
      ConfigUpdated b ((b &&& 0x7D#8) ||| (if up then 0x02#8 else 0)) s t ∧
      t.fault = (if s.ce = .low then s.fault else s.fault.add (.hazard .powerToggleWithCe)) ∧
      (s.ce = .low → Quiet s → t.periph.radio = s.periph.radio)

/-! ## Receive -/

/-- Rule R340: `can_read` clears the three flags by one write of 0x70, reads FIFO_STATUS, and returns the pipe number of
that frame's status byte, or none when RX_EMPTY is set; it removes no packet. -/
def Obligations.CanReadReturns : Prop :=
  ∀ s : State, Ready s → s.mode = .rx →
    ∃ t i1 st fs, exec .canRead s = .next t ∧ t.csn = .high ∧
      Returned s t (.pipe (if fs.getLsbD 0 then none else some (fieldOf st 1 3))) ∧
      t.events = s.events ++ frameEvents (.wRegister .status [0x70]) i1 ++
        frameEvents (.rRegister .fifoStatus 1) [st, fs] ∧
      t.periph.regs = s.periph.regs ∧
      (Quiet s → t.periph.radio = { s.periph.radio with rxDr := false, txDs := false, maxRt := false } ∧
        t.result = some (.ok (.pipe (s.periph.radio.rxFifo.head?.map (·.pipe)))))

/-- Rule R341: `read` of a head packet of 1 to 32 bytes returns it and removes it; of an empty packet returns the empty
payload with one frame, after which the RX FIFO alone may be anything within its depth (U12); a reported width above 32
flushes the RX FIFO and returns the empty payload; and on an empty FIFO it still returns a payload and leaves everything
but the RX FIFO.
How rule R341 and U12 are read together is log entry 25; the width byte is log entry 22. -/
def Obligations.ReadReturns : Prop :=
  ∀ s : State, Ready s → s.mode = .rx → Quiet s →
    (∀ (pkt : RxPacket) (rest : List RxPacket), s.periph.radio.rxFifo = pkt :: rest →
      (1 ≤ pkt.data.length → pkt.data.length ≤ 32 →
        ∃ t st i2, exec .read s = .next t ∧ Returned s t (.payload (Payload.ofBytes pkt.data)) ∧ t.csn = .high ∧
          t.periph = { s.periph with radio := { s.periph.radio with rxFifo := rest } } ∧
          t.events = s.events ++ frameEvents .rRxPlWid [st, BitVec.ofNat 8 pkt.data.length] ++
            frameEvents (.rRxPayload pkt.data.length) i2) ∧
      (pkt.data.length = 0 →
        ∃ t st, exec .read s = .next t ∧ Returned s t (.payload Payload.empty) ∧ t.csn = .high ∧
          t.periph = { s.periph with radio := { s.periph.radio with rxFifo := t.periph.radio.rxFifo } } ∧
          t.periph.radio.rxFifo.length ≤ s.params.rxFifoDepth ∧
          t.events = s.events ++ frameEvents .rRxPlWid [st, 0]) ∧
      (32 < pkt.data.length → pkt.data.length < 256 →
        ∃ t st i2, exec .read s = .next t ∧ Returned s t (.payload Payload.empty) ∧ t.csn = .high ∧
          t.periph = { s.periph with radio := { s.periph.radio with rxFifo := [] } } ∧
          t.events = s.events ++ frameEvents .rRxPlWid [st, BitVec.ofNat 8 pkt.data.length] ++
            frameEvents .flushRx i2)) ∧
    (s.periph.radio.rxFifo = [] → ∃ t p, exec .read s = .next t ∧ Returned s t (.payload p) ∧ t.csn = .high ∧
      t.periph = { s.periph with radio := { s.periph.radio with rxFifo := t.periph.radio.rxFifo } } ∧
      t.periph.radio.rxFifo.length ≤ s.params.rxFifoDepth)

/-- Rule R342: `push` with room in the TX FIFO reads FIFO_STATUS, writes the ACK payload, appends the entry, and touches
neither CE nor a register; a zero-length payload completes too.
What an empty payload leaves is the model's choice (log entry 11). -/
def Obligations.PushQueues : Prop :=
  ∀ (p : Pipe) (d : List Byte) (s : State), Ready s → s.mode = .standby ∨ s.mode = .rx → Quiet s → d.length ≤ 32 →
    s.periph.radio.txFifo.length < 3 →
    ∃ t st fs i2, exec (.push (BitVec.ofNat 8 p.toNat) d) s = .next t ∧ Returned s t .unit ∧ t.csn = .high ∧
      t.periph.regs = s.periph.regs ∧
      t.events = s.events ++ frameEvents (.rRegister .fifoStatus 1) [st, fs] ++ frameEvents (.wAckPayload p d) i2 ∧
      (d ≠ [] → t.periph.radio = { s.periph.radio with txFifo := s.periph.radio.txFifo ++ [.ack p d false] }) ∧
      (d = [] → t.periph.radio = { s.periph.radio with txFifo := t.periph.radio.txFifo } ∧
        t.periph.radio.txFifo.length ≤ 3)

/-- Rules R64, R342, R370, R402, R409: `InvalidPipe` comes first and before any bus activity; a full TX FIFO is found by
one FIFO_STATUS read, raises `QueueFull`, and leaves CE and the peripheral as they were. -/
def Obligations.QueueErrors : Prop :=
  ∀ (d : List Byte) (s : State), Ready s →
    (s.mode = .standby ∨ s.mode = .rx → ∀ pipe : Byte, 5 < pipe.toNat →
      exec (.push pipe d) s = .next { s with result := some (.err (.invalidPipe pipe)) }) ∧
    (Quiet s → d.length ≤ 32 → 3 ≤ s.periph.radio.txFifo.length →
      ∀ i : Instr, (i = .send d ∧ s.mode = .tx ∨
        (∃ p : Pipe, i = .push (BitVec.ofNat 8 p.toNat) d) ∧ (s.mode = .standby ∨ s.mode = .rx)) →
      ∃ t st fs, exec i s = .next t ∧ Raised s t .queueFull ∧ t.csn = .high ∧ t.periph = s.periph ∧
        t.events = s.events ++ frameEvents (.rRegister .fifoStatus 1) [st, fs])

/-- Rules R343 to R345: `has_carrier`, `is_empty` and `is_full` return the carrier bit, RX_EMPTY and RX_FULL of one read
frame and change nothing. -/
def Obligations.ReceiveQueries : Prop :=
  ∀ s : State, Ready s → s.mode = .rx →
    (∃ t st x, exec .hasCarrier s = .next t ∧ Returned s t (.bool (x.getLsbD 0)) ∧ t.csn = .high ∧
      t.events = s.events ++ frameEvents (.rRegister .cd 1) [st, x] ∧ t.periph.regs = s.periph.regs ∧
      (Quiet s → x = s.periph.radio.cd ∧ t.periph = s.periph)) ∧
    (∃ t st x, exec .isEmpty s = .next t ∧ Returned s t (.bool (x.getLsbD 0)) ∧ t.csn = .high ∧
      t.events = s.events ++ frameEvents (.rRegister .fifoStatus 1) [st, x] ∧ t.periph.regs = s.periph.regs ∧
      (Quiet s → x.getLsbD 0 = s.periph.radio.rxFifo.isEmpty ∧ t.periph = s.periph)) ∧
    (∃ t st x, exec .isFull s = .next t ∧ Returned s t (.bool (x.getLsbD 1)) ∧ t.csn = .high ∧
      t.events = s.events ++ frameEvents (.rRegister .fifoStatus 1) [st, x] ∧ t.periph.regs = s.periph.regs ∧
      (Quiet s → x.getLsbD 1 = decide (s.params.rxFifoDepth ≤ s.periph.radio.rxFifo.length) ∧ t.periph = s.periph))

/-! ## Transmit -/

/-- Rule R370: `send` with room in the TX FIFO reads FIFO_STATUS, writes the payload, appends the entry, and raises CE; a
zero-length payload completes too.
What an empty payload leaves is the model's choice (log entry 11). -/
def Obligations.SendQueues : Prop :=
  ∀ (d : List Byte) (s : State), Ready s → s.mode = .tx → Quiet s → d.length ≤ 32 → s.periph.radio.txFifo.length < 3 →
    ∃ t st fs i2, exec (.send d) s = .next t ∧ t.result = some (.ok .unit) ∧ t.seq = .idle ∧ t.mode = .tx ∧
      t.ce = .high ∧ t.csn = .high ∧ t.shadow = s.shadow ∧ t.fault = s.fault ∧ t.periph.regs = s.periph.regs ∧
      t.events = s.events ++ frameEvents (.rRegister .fifoStatus 1) [st, fs] ++ frameEvents (.wTxPayload d) i2 ++
        [.pin .ce true true] ∧
      (d ≠ [] → t.periph.radio = { s.periph.radio with txFifo := s.periph.radio.txFifo ++ [.data d] }) ∧
      (d = [] → t.periph.radio = { s.periph.radio with txFifo := t.periph.radio.txFifo } ∧
        t.periph.radio.txFifo.length ≤ 3)

/-- Rules R371, R375: `can_send` returns the negation of TX_FULL and `observe` the two counters, each from one read
frame, and they change nothing. -/
def Obligations.TransmitQueries : Prop :=
  ∀ s : State, Ready s → s.mode = .tx →
    (∃ t st x, exec .canSend s = .next t ∧ Returned s t (.bool (!x.getLsbD 5)) ∧ t.csn = .high ∧
      t.events = s.events ++ frameEvents (.rRegister .fifoStatus 1) [st, x] ∧ t.periph.regs = s.periph.regs ∧
      (Quiet s → x.getLsbD 5 = decide (3 ≤ s.periph.radio.txFifo.length) ∧ t.periph = s.periph)) ∧
    (∃ t st x, exec .observe s = .next t ∧ Returned s t (.counts (fieldOf x 4 4) (fieldOf x 0 4)) ∧ t.csn = .high ∧
      t.events = s.events ++ frameEvents (.rRegister .observeTx 1) [st, x] ∧ t.periph.regs = s.periph.regs ∧
      (Quiet s → fieldOf x 4 4 = s.periph.radio.plosCnt ∧ fieldOf x 0 4 = s.periph.radio.arcCnt ∧ t.periph = s.periph))

/-- Rules R316, R373: on an empty TX FIFO `wait_empty` and Tx `standby` read FIFO_STATUS and lower CE. If an earlier pass
flushed, both then raise `MaxRetransmitsExceeded` and stay in Tx; else `wait_empty` returns, and `standby` lowers CE
once more and enters Standby. The TX_EMPTY test comes before the MAX_RT test.
That `exec` runs one pass is the model's choice (log entry 1). -/
def Obligations.DrainEnds : Prop :=
  ∀ (op : Instr) (lost : Bool) (s : State), op = .waitEmpty ∨ op = .standbyTx → s.mode = .tx → AtPass op lost s →
    Quiet s → s.periph.radio.txFifo = [] →
    ∃ t st fs, exec op s = .next t ∧
      t.result = some (if lost then .err .maxRetransmitsExceeded else .ok .unit) ∧ t.seq = .idle ∧
      t.mode = (if op = .standbyTx ∧ lost = false then .standby else .tx) ∧ t.ce = .low ∧ t.csn = .high ∧
      t.shadow = s.shadow ∧ t.fault = s.fault ∧ t.periph = s.periph ∧
      t.events = s.events ++ frameEvents (.rRegister .fifoStatus 1) [st, fs] ++ [.pin .ce false true] ++
        (if op = .standbyTx ∧ lost = false then [.pin .ce false true] else [])

/-- Rules R316, R373: with a packet waiting, a pass of `wait_empty` or of Tx `standby` either keeps CE asserted by a pin
write, or, with MAX_RT set, flushes the TX FIFO, clears TX_DS and MAX_RT by the byte 0x30 and remembers the loss; then it is
at the loop head again.
That `exec` runs one pass is the model's choice (log entry 1). -/
def Obligations.DrainPass : Prop :=
  ∀ (op : Instr) (lost : Bool) (s : State), op = .waitEmpty ∨ op = .standbyTx → s.mode = .tx → AtPass op lost s →
    Quiet s → s.periph.radio.txFifo ≠ [] →
    (s.periph.radio.maxRt = false → ∃ t st fs, exec op s = .next t ∧ t.seq = .busy op loopHead lost none ∧ t.mode = .tx ∧
      t.ce = .high ∧ t.csn = .high ∧ t.shadow = s.shadow ∧ t.fault = s.fault ∧ t.periph = s.periph ∧
      t.events = s.events ++ frameEvents (.rRegister .fifoStatus 1) [st, fs] ++ [.pin .ce true true]) ∧
    (s.periph.radio.maxRt = true → ∃ t st fs i2 i3, exec op s = .next t ∧ t.seq = .busy op loopHead true none ∧ t.mode = .tx ∧
      t.ce = s.ce ∧ t.csn = .high ∧ t.shadow = s.shadow ∧ t.fault = s.fault ∧ t.periph.regs = s.periph.regs ∧
      t.periph.radio = { s.periph.radio with txFifo := [], txDs := false, maxRt := false } ∧
      t.events = s.events ++ frameEvents (.rRegister .fifoStatus 1) [st, fs] ++ frameEvents .flushTx i2 ++
        frameEvents (.wRegister .status [0x30]) i3)

/-- Rules R48, R49, R110 to R112, R114, R373, R374, R460. The radio: a reception in active Rx with room appends the packet
and sets RX_DR; a retransmission that enters does the same if there is room, and one that does not, or finds none,
leaves the RX FIFO and RX_DR; a sent packet leaves the TX FIFO and sets TX_DS, and its ACK payload is received if there
is room; used up retransmissions set MAX_RT and keep the packet; outside these power states none of it happens; the
counters and the carrier bit change by themselves; an ACK payload stays in the TX FIFO across repeated packets and
leaves it when a different packet arrives after it went out; and while MAX_RT is set nothing the radio does changes the
TX FIFO or clears MAX_RT. The recovery: with MAX_RT set and a packet waiting, two passes end `wait_empty`, the first
flushing, the second finding the FIFO empty, lowering CE and raising `MaxRetransmitsExceeded`.
An unknown CE counts as possibly high (log entry 9), what a retransmission does at a full RX FIFO, where its ACK payload
still goes out, is log entry 16, that an ACK payload received in Tx enters under the pipe its event names, enabled in
EN_RXADDR or not, is log entry 39, that a reception does not depend on RX_PW and DYNPD is log entry 40, that sending does
not depend on EN_AA and ARC is log entry 41, which packet counts as different is said by the event (log entry 17), and
one pass a run of `exec` is log entry 1: the model's choices. -/
def Obligations.RadioEventsAndMaxRtRecovery : Prop :=
  (∀ (par : Params) (regs : Regs) (ce : Level) (r : Radio),
    (∀ (p : Pipe) (d : List Byte) (use : Bool), powerState regs ce = .activeRx →
      (toBools regs.enRxaddr).get p = true → r.rxFifo.length < par.rxFifoDepth →
      (r.event par regs ce (.received p d use)).rxFifo = r.rxFifo ++ [⟨BitVec.ofNat 3 p.toNat, d⟩] ∧
      (r.event par regs ce (.received p d use)).rxDr = true ∧
      (r.event par regs ce (.received p d use)).txDs = r.txDs ∧
      (r.event par regs ce (.received p d use)).maxRt = r.maxRt) ∧
    (∀ (p : Pipe) (again : Option (List Byte)) (use : Bool), powerState regs ce = .activeRx →
      (toBools regs.enRxaddr).get p = true →
      (∀ d, again = some d → r.rxFifo.length < par.rxFifoDepth →
        (r.event par regs ce (.repeated p again use)).rxFifo = r.rxFifo ++ [⟨BitVec.ofNat 3 p.toNat, d⟩] ∧
        (r.event par regs ce (.repeated p again use)).rxDr = true) ∧
      (again = none ∨ par.rxFifoDepth ≤ r.rxFifo.length →
        (r.event par regs ce (.repeated p again use)).rxFifo = r.rxFifo ∧
        (r.event par regs ce (.repeated p again use)).rxDr = r.rxDr) ∧
      (r.event par regs ce (.repeated p again use)).txDs = r.txDs ∧
      (r.event par regs ce (.repeated p again use)).maxRt = r.maxRt) ∧
    (∀ plos arc : BitVec 4, r.event par regs ce (.counters plos arc) = { r with plosCnt := plos, arcCnt := arc }) ∧
    (∀ on : Bool, r.event par regs ce (.carrier on) =
      { r with cd := (r.cd &&& 0xFE#8) ||| (if on then 0x01#8 else 0x00#8) }) ∧
    (∀ (p : Pipe) (d : List Byte) (again : Option (List Byte)) (use : Bool), powerState regs ce ≠ .activeRx →
      r.event par regs ce (.received p d use) = r ∧ r.event par regs ce (.repeated p again use) = r) ∧
    (∀ (x : List Byte) (rest : List TxEntry) (arc : BitVec 4), powerState regs ce = .activeTx → r.maxRt = false →
      r.txFifo = .data x :: rest →
      r.event par regs ce (.sent arc none) = { r with txFifo := rest, txDs := true, arcCnt := arc } ∧
      (∀ (p : Pipe) (d : List Byte), r.rxFifo.length < par.rxFifoDepth →
        r.event par regs ce (.sent arc (some (p, d))) =
          { r with
            txFifo := rest, txDs := true, arcCnt := arc
            rxFifo := r.rxFifo ++ [⟨BitVec.ofNat 3 p.toNat, d⟩], rxDr := true }) ∧
      (r.event par regs ce .maxRetries).maxRt = true ∧ (r.event par regs ce .maxRetries).txFifo = r.txFifo ∧
      (r.event par regs ce .maxRetries).txDs = r.txDs) ∧
    (∀ (arc : BitVec 4) (ack : Option (Pipe × List Byte)), powerState regs ce ≠ .activeTx →
      r.event par regs ce (.sent arc ack) = r ∧ r.event par regs ce .maxRetries = r) ∧
    (∀ (p : Pipe) (x : List Byte) (gone : Bool) (pre post : List TxEntry), powerState regs ce = .activeRx →
      (toBools regs.enRxaddr).get p = true → regs.ackEnabled p = true → r.maxRt = false →
      r.txFifo = pre ++ .ack p x gone :: post → (∀ y b, .ack p y b ∉ pre) →
      (∀ (again : Option (List Byte)) (use : Bool),
        (r.event par regs ce (.repeated p again use)).txFifo = pre ++ .ack p x true :: post) ∧
      (∀ (d : List Byte) (use : Bool), r.rxFifo.length < par.rxFifoDepth →
        (r.event par regs ce (.received p d use)).txFifo =
          if gone then pre ++ attachAck p post else pre ++ .ack p x true :: post)) ∧
    (∀ evs : List RadioEvent, r.maxRt = true →
      (r.events par regs ce evs).txFifo = r.txFifo ∧ (r.events par regs ce evs).maxRt = true)) ∧
  ∀ s : State, s.seq = .idle → s.mode = .tx → Quiet s → s.periph.radio.txFifo ≠ [] → s.periph.radio.maxRt = true →
    ∃ t u, exec .waitEmpty s = .next t ∧ exec .waitEmpty t = .next u ∧
      u.result = some (.err .maxRetransmitsExceeded) ∧ u.seq = .idle ∧ u.mode = .tx ∧ u.ce = .low ∧
      u.periph.radio.txFifo = [] ∧ u.periph.radio.maxRt = false ∧ u.periph.regs = s.periph.regs

/-! ## The whole machine -/

/-- Rule R171: an idle block refuses an operation that is not legal in its mode (the column of rule R170): no next state,
so nothing is emitted, changed or returned.
Modes gate host operations only; a frame runs in every mode (log entries 2, 3). -/
def Obligations.IllegalModeRefused : Prop :=
  ∀ (i : Instr) (s : State), s.seq = .idle → legalIn i s.mode = false → exec i s = .refused (.notLegalInMode s.mode)

/-- Rules R36, R38, R170: an idle block whose shadow is valid answers every legal request with a next state, whatever the
ports and the peripheral do; run whole, only a looping operation can leave it busy, and then at its loop head.
That `exec` runs one pass of a loop is the model's choice (log entry 1). So is it that a contract fault is such a next
state, where the table of `93_implementation_defined.md` lets a model stop (log entry 4), and that a command frame is
legal in every mode, `Off` included (log entry 2). -/
def Obligations.LegalRequestAnswered : Prop :=
  ∀ (i : Instr) (s : State), s.seq = .idle → legalIn i s.mode = true → (s.mode ≠ .off → s.shadow ≠ none) →
    ∃ t, exec i s = .next t ∧ (t.seq = .idle ∨ isLoop i = true ∧ ∃ lost, t.seq = .busy i loopHead lost none)

/-- Rules R450, R451: the block's values after reset, and the peripheral's for the reference variant nRF24L01+, with the
one value that differs on nRF24L01.
The spec marks the peripheral's values as general knowledge (log entries 19, 31). -/
def Obligations.ResetValues : Prop :=
  State.reset.mode = .off ∧ State.reset.ce = .unknown ∧ State.reset.csn = .unknown ∧ State.reset.shadow = none ∧
  (∀ r : FaultReason, State.reset.fault.has r = false) ∧ State.reset.seq = .idle ∧
  let p := State.reset.periph
  p.regs.stored .config = [0x08] ∧ p.regs.stored .enAa = [0x3F] ∧ p.regs.stored .enRxaddr = [0x03] ∧
  p.regs.stored .setupAw = [0x03] ∧ p.regs.stored .setupRetr = [0x03] ∧ p.regs.stored .rfCh = [0x02] ∧
  p.regs.stored .rfSetup = [0x0E] ∧ p.radio.statusByte = 0x0E ∧ p.radio.fifoStatusByte State.reset.params = 0x11 ∧
  p.radio.plosCnt = 0 ∧ p.radio.arcCnt = 0 ∧ p.radio.cd = 0x00 ∧
  p.regs.stored .rxAddrP0 = [0xE7, 0xE7, 0xE7, 0xE7, 0xE7] ∧ p.regs.stored .rxAddrP1 = [0xC2, 0xC2, 0xC2, 0xC2, 0xC2] ∧
  p.regs.stored .rxAddrP2 = [0xC3] ∧ p.regs.stored .rxAddrP3 = [0xC4] ∧ p.regs.stored .rxAddrP4 = [0xC5] ∧
  p.regs.stored .rxAddrP5 = [0xC6] ∧ p.regs.stored .txAddr = [0xE7, 0xE7, 0xE7, 0xE7, 0xE7] ∧
  (∀ q, p.regs.stored (.rxPw q) = [0x00]) ∧ p.regs.stored .dynpd = [0x00] ∧ p.regs.stored .feature = [0x00] ∧
  p.radio.txFifo = [] ∧ p.radio.rxFifo = [] ∧
  (Regs.reset .nRF24L01).rfSetup = 0x0F

/-- Rules R36, R109, R157: a step takes the oldest request of an idle block and runs the instruction it is or decodes to:
a frame whole, since it is one program point, and an operation up to its first point. In a busy block the operation under
way goes on from where it stands, or from its loop head; with no request the block waits.
The queue of requests and the waiting step are the model's choice (log entry 23). -/
def Obligations.StepRunsDecoded : Prop :=
  ∀ s : State,
    (∀ window rest i, s.seq = .idle → s.requests = .window window :: rest → decode window = .ok i →
      step s = exec i { s with requests := rest }) ∧
    (∀ (c : Call) rest, s.seq = .idle → s.requests = .op c :: rest →
      step s = exec c.instr (State.beginAt { s with requests := rest } c.instr 0 false)) ∧
    (∀ op k lost b, s.seq = .busy op k lost (some b) → step s = exec op s) ∧
    (∀ op k lost, s.seq = .busy op k lost none → step s = exec op (s.beginAt op k lost)) ∧
    (s.seq = .idle → s.requests = [] → step s = .next s) ∧
    (∀ nbits w i, decodeTableWord nbits w = some i → step (s.withFetchWord nbits w) = exec i { s with seq := .idle })

/-- Every step keeps the invariant `Inv`, in every environment. At every program point CSN is not left low, a live block
has a shadow, the FIFOs keep their bounds, only the block's vocabulary has been emitted, and every transfer stands
between CSN low and CSN high; and the stretch of the operation under way began in such a state, idle or at a loop head,
in the mode the block is still in (rules R36, R64, R65, R160, R230, R312).
What `B.seq` keeps of that beginning is the model's own (log entry 1). -/
def Obligations.InvKept : Prop :=
  ∀ s t : State, Inv s → step s = .next t → Inv t

/-- The state after reset has the three invariants.
The empty trace at reset is the model's own (log entry 27). -/
def Obligations.InvariantsAtReset : Prop :=
  Inv State.reset ∧ ModeInv State.reset ∧ Coherent State.reset

/-- Rule R319: while every port succeeds, every step keeps the mode invariants, the host's own `send_command`,
`update_config`, CONFIG writes and CE operations apart. They hold where no operation is under way, and so of the state
in which the one under way began (`State.origin`, log entry 1). -/
def Obligations.ModeInvariantsKept : Prop :=
  ∀ s t : State, ModeInv s.origin → PortsOk s.origin → (∀ i, s.nextInstr = some i → changesModePins i = false) →
    step s = .next t → ModeInv t.origin

/-- Rule R122: while every port succeeds, every step keeps the shadow equal to the peripheral's CONFIG where no operation
is under way, and so in the state in which the one under way began (`State.origin`, log entry 1), a CONFIG write that
goes past the shadow apart (rule R461). `Inv` rules out a loop position outside Tx, which no run reaches.
That the stored EN_CRC stays as written while auto-ack is on is the model's reading of R268 and U23 (log entry 13), and
that CONFIG keeps the written value after a marked power write is its reading of R411 (log entry 8). -/
def Obligations.ShadowCoherent : Prop :=
  ∀ s t : State, Coherent s.origin → Inv s → PortsOk s.origin →
    (∀ i, s.nextInstr = some i → bypassesShadow i = false) → step s = .next t → Coherent t.origin

/-- Rules R31, R312, R319: only the five transitions change the mode, each only on `Ok(())`, so on any error or fault the
mode is what it was. `Inv` rules out a position of `B.seq` that no run reaches. -/
def Obligations.OnlyTransitionsChangeMode : Prop :=
  ∀ s t : State, Inv s → step s = .next t → t.mode ≠ s.mode →
    t.result = some (.ok .unit) ∧ t.seq = .idle ∧
    ((∃ a b c, s.nextInstr = some (.new a b c) ∧ s.mode = .off ∧ t.mode = .standby) ∨
     (s.nextInstr = some .rx ∧ s.mode = .standby ∧ t.mode = .rx) ∨
     (s.nextInstr = some .tx ∧ s.mode = .standby ∧ t.mode = .tx) ∨
     (s.nextInstr = some .standbyRx ∧ s.mode = .rx ∧ t.mode = .standby) ∨
     (s.nextInstr = some .standbyTx ∧ s.mode = .tx ∧ t.mode = .standby))

/-- Rules R35, R101, R109, R160: whatever steps do at the ports from where an operation begins, each of their transfers is
one whole frame of the block's vocabulary, alone between CSN low and CSN high: `cmd.len()` bytes out, as many in, and a
command byte of the emitted set. No reason leaves `B.fault`, no port event is taken back, and the peripheral's
parameters stay.
The trace and the parameters are the model's own fields, so that the one only grows and the others stay is the model's
choice (log entries 28, 19). -/
def Obligations.FramesStandAlone : Prop :=
  ∀ (n : Nat) (s t : State), seqWf s = true → Steps n s t →
    (∃ evs, t.events = s.events ++ evs ∧ bracketed evs = true ∧
      ∀ out inp, .xfer out inp ∈ evs →
        (∃ c : Cmd, c.wellFormed = true ∧ out = c.encode ∧ out.length = c.len ∧
          ∀ bytes, inp = some bytes → bytes.length = c.len) ∧
        ∃ b, out.head? = some b ∧
          ((b.toNat ≤ 0x17 ∨ b = 0x1C ∨ b = 0x1D) ∨ (0x20 ≤ b.toNat ∧ b.toNat ≤ 0x37 ∨ b = 0x3C ∨ b = 0x3D) ∨
            b = 0x60 ∨ b = 0x61 ∨ b = 0xA0 ∨ (0xA8 ≤ b.toNat ∧ b.toNat ≤ 0xAD) ∨ b = 0xE1 ∨ b = 0xE2 ∨ b = 0xFF)) ∧
    (∀ r : FaultReason, s.fault.has r = true → t.fault.has r = true) ∧ t.params = s.params

/-- Rules R36, R109: from an idle block with a request, and from a loop head, the steps go to the program points of the
operation, or of the loop's next pass, one after the other, `B.seq` counting them, and the last one leaves the state that
`exec` gives for the whole. The step of a point adds the port events of that point alone: none, one pin write, or one
frame.
Which local computations are points is the model's reading (log entry 1). -/
def Obligations.StepsGoPointByPoint : Prop :=
  (∀ (s t : State) (r : Request) (rest : List Request) (i : Instr), s.seq = .idle → s.requests = r :: rest →
    r.instr = .ok i → exec i { s with requests := rest } = .next t →
    ∃ n new, PointByPoint i 0 false s t n new) ∧
  (∀ (s t : State) (i : Instr) (lost : Bool), isLoop i = true → s.seq = .busy i loopHead lost none →
    exec i s = .next t → ∃ n new, PointByPoint i loopHead lost s t n new)

end
end

