-- ==== Sys2Proof/Laws/State.lean ====
section
/-! SUPPORT. The state updates of Ops.lean: one lemma per field per update, and the run of each primitive write. -/

namespace Sys2Proof.Machine

/-! ## One lemma per field per update -/

@[simp] theorem withMode_mode (s : State) (m) : (s.withMode m).mode = m := rfl
@[simp] theorem withMode_ce (s : State) (m) : (s.withMode m).ce = s.ce := rfl
@[simp] theorem withMode_csn (s : State) (m) : (s.withMode m).csn = s.csn := rfl
@[simp] theorem withMode_shadow (s : State) (m) : (s.withMode m).shadow = s.shadow := rfl
@[simp] theorem withMode_fault (s : State) (m) : (s.withMode m).fault = s.fault := rfl
@[simp] theorem withMode_seq (s : State) (m) : (s.withMode m).seq = s.seq := rfl
@[simp] theorem withMode_requests (s : State) (m) : (s.withMode m).requests = s.requests := rfl
@[simp] theorem withMode_result (s : State) (m) : (s.withMode m).result = s.result := rfl
@[simp] theorem withMode_periph (s : State) (m) : (s.withMode m).periph = s.periph := rfl
@[simp] theorem withMode_env (s : State) (m) : (s.withMode m).env = s.env := rfl
@[simp] theorem withMode_trace (s : State) (m) : (s.withMode m).trace = s.trace := rfl
@[simp] theorem withMode_draws (s : State) (m) : (s.withMode m).draws = s.draws := rfl
@[simp] theorem withMode_params (s : State) (m) : (s.withMode m).params = s.params := rfl
@[simp] theorem withMode_events (s : State) (m) : (s.withMode m).events = s.events := rfl

@[simp] theorem withCe_mode (s : State) (l) : (s.withCe l).mode = s.mode := rfl
@[simp] theorem withCe_ce (s : State) (l) : (s.withCe l).ce = l := rfl
@[simp] theorem withCe_csn (s : State) (l) : (s.withCe l).csn = s.csn := rfl
@[simp] theorem withCe_shadow (s : State) (l) : (s.withCe l).shadow = s.shadow := rfl
@[simp] theorem withCe_fault (s : State) (l) : (s.withCe l).fault = s.fault := rfl
@[simp] theorem withCe_seq (s : State) (l) : (s.withCe l).seq = s.seq := rfl
@[simp] theorem withCe_requests (s : State) (l) : (s.withCe l).requests = s.requests := rfl
@[simp] theorem withCe_result (s : State) (l) : (s.withCe l).result = s.result := rfl
@[simp] theorem withCe_periph (s : State) (l) : (s.withCe l).periph = s.periph := rfl
@[simp] theorem withCe_env (s : State) (l) : (s.withCe l).env = s.env := rfl
@[simp] theorem withCe_trace (s : State) (l) : (s.withCe l).trace = s.trace := rfl
@[simp] theorem withCe_draws (s : State) (l) : (s.withCe l).draws = s.draws := rfl
@[simp] theorem withCe_params (s : State) (l) : (s.withCe l).params = s.params := rfl
@[simp] theorem withCe_events (s : State) (l) : (s.withCe l).events = s.events := rfl

@[simp] theorem withCsn_mode (s : State) (l) : (s.withCsn l).mode = s.mode := rfl
@[simp] theorem withCsn_ce (s : State) (l) : (s.withCsn l).ce = s.ce := rfl
@[simp] theorem withCsn_csn (s : State) (l) : (s.withCsn l).csn = l := rfl
@[simp] theorem withCsn_shadow (s : State) (l) : (s.withCsn l).shadow = s.shadow := rfl
@[simp] theorem withCsn_fault (s : State) (l) : (s.withCsn l).fault = s.fault := rfl
@[simp] theorem withCsn_seq (s : State) (l) : (s.withCsn l).seq = s.seq := rfl
@[simp] theorem withCsn_requests (s : State) (l) : (s.withCsn l).requests = s.requests := rfl
@[simp] theorem withCsn_result (s : State) (l) : (s.withCsn l).result = s.result := rfl
@[simp] theorem withCsn_periph (s : State) (l) : (s.withCsn l).periph = s.periph := rfl
@[simp] theorem withCsn_env (s : State) (l) : (s.withCsn l).env = s.env := rfl
@[simp] theorem withCsn_trace (s : State) (l) : (s.withCsn l).trace = s.trace := rfl
@[simp] theorem withCsn_draws (s : State) (l) : (s.withCsn l).draws = s.draws := rfl
@[simp] theorem withCsn_params (s : State) (l) : (s.withCsn l).params = s.params := rfl
@[simp] theorem withCsn_events (s : State) (l) : (s.withCsn l).events = s.events := rfl

@[simp] theorem withShadow_mode (s : State) (b) : (s.withShadow b).mode = s.mode := rfl
@[simp] theorem withShadow_ce (s : State) (b) : (s.withShadow b).ce = s.ce := rfl
@[simp] theorem withShadow_csn (s : State) (b) : (s.withShadow b).csn = s.csn := rfl
@[simp] theorem withShadow_shadow (s : State) (b) : (s.withShadow b).shadow = some b := rfl
@[simp] theorem withShadow_fault (s : State) (b) : (s.withShadow b).fault = s.fault := rfl
@[simp] theorem withShadow_seq (s : State) (b) : (s.withShadow b).seq = s.seq := rfl
@[simp] theorem withShadow_requests (s : State) (b) : (s.withShadow b).requests = s.requests := rfl
@[simp] theorem withShadow_result (s : State) (b) : (s.withShadow b).result = s.result := rfl
@[simp] theorem withShadow_periph (s : State) (b) : (s.withShadow b).periph = s.periph := rfl
@[simp] theorem withShadow_env (s : State) (b) : (s.withShadow b).env = s.env := rfl
@[simp] theorem withShadow_trace (s : State) (b) : (s.withShadow b).trace = s.trace := rfl
@[simp] theorem withShadow_draws (s : State) (b) : (s.withShadow b).draws = s.draws := rfl
@[simp] theorem withShadow_params (s : State) (b) : (s.withShadow b).params = s.params := rfl
@[simp] theorem withShadow_events (s : State) (b) : (s.withShadow b).events = s.events := rfl

@[simp] theorem withSeq_mode (s : State) (q) : (s.withSeq q).mode = s.mode := rfl
@[simp] theorem withSeq_ce (s : State) (q) : (s.withSeq q).ce = s.ce := rfl
@[simp] theorem withSeq_csn (s : State) (q) : (s.withSeq q).csn = s.csn := rfl
@[simp] theorem withSeq_shadow (s : State) (q) : (s.withSeq q).shadow = s.shadow := rfl
@[simp] theorem withSeq_fault (s : State) (q) : (s.withSeq q).fault = s.fault := rfl
@[simp] theorem withSeq_seq (s : State) (q) : (s.withSeq q).seq = q := rfl
@[simp] theorem withSeq_requests (s : State) (q) : (s.withSeq q).requests = s.requests := rfl
@[simp] theorem withSeq_result (s : State) (q) : (s.withSeq q).result = s.result := rfl
@[simp] theorem withSeq_periph (s : State) (q) : (s.withSeq q).periph = s.periph := rfl
@[simp] theorem withSeq_env (s : State) (q) : (s.withSeq q).env = s.env := rfl
@[simp] theorem withSeq_trace (s : State) (q) : (s.withSeq q).trace = s.trace := rfl
@[simp] theorem withSeq_draws (s : State) (q) : (s.withSeq q).draws = s.draws := rfl
@[simp] theorem withSeq_params (s : State) (q) : (s.withSeq q).params = s.params := rfl
@[simp] theorem withSeq_events (s : State) (q) : (s.withSeq q).events = s.events := rfl

@[simp] theorem withResult_mode (s : State) (r) : (s.withResult r).mode = s.mode := rfl
@[simp] theorem withResult_ce (s : State) (r) : (s.withResult r).ce = s.ce := rfl
@[simp] theorem withResult_csn (s : State) (r) : (s.withResult r).csn = s.csn := rfl
@[simp] theorem withResult_shadow (s : State) (r) : (s.withResult r).shadow = s.shadow := rfl
@[simp] theorem withResult_fault (s : State) (r) : (s.withResult r).fault = s.fault := rfl
@[simp] theorem withResult_seq (s : State) (r) : (s.withResult r).seq = s.seq := rfl
@[simp] theorem withResult_requests (s : State) (r) : (s.withResult r).requests = s.requests := rfl
@[simp] theorem withResult_result (s : State) (r) : (s.withResult r).result = r := rfl
@[simp] theorem withResult_periph (s : State) (r) : (s.withResult r).periph = s.periph := rfl
@[simp] theorem withResult_env (s : State) (r) : (s.withResult r).env = s.env := rfl
@[simp] theorem withResult_trace (s : State) (r) : (s.withResult r).trace = s.trace := rfl
@[simp] theorem withResult_draws (s : State) (r) : (s.withResult r).draws = s.draws := rfl
@[simp] theorem withResult_params (s : State) (r) : (s.withResult r).params = s.params := rfl
@[simp] theorem withResult_events (s : State) (r) : (s.withResult r).events = s.events := rfl

@[simp] theorem withPeriph_mode (s : State) (p) : (s.withPeriph p).mode = s.mode := rfl
@[simp] theorem withPeriph_ce (s : State) (p) : (s.withPeriph p).ce = s.ce := rfl
@[simp] theorem withPeriph_csn (s : State) (p) : (s.withPeriph p).csn = s.csn := rfl
@[simp] theorem withPeriph_shadow (s : State) (p) : (s.withPeriph p).shadow = s.shadow := rfl
@[simp] theorem withPeriph_fault (s : State) (p) : (s.withPeriph p).fault = s.fault := rfl
@[simp] theorem withPeriph_seq (s : State) (p) : (s.withPeriph p).seq = s.seq := rfl
@[simp] theorem withPeriph_requests (s : State) (p) : (s.withPeriph p).requests = s.requests := rfl
@[simp] theorem withPeriph_result (s : State) (p) : (s.withPeriph p).result = s.result := rfl
@[simp] theorem withPeriph_periph (s : State) (p) : (s.withPeriph p).periph = p := rfl
@[simp] theorem withPeriph_env (s : State) (p) : (s.withPeriph p).env = s.env := rfl
@[simp] theorem withPeriph_trace (s : State) (p) : (s.withPeriph p).trace = s.trace := rfl
@[simp] theorem withPeriph_draws (s : State) (p) : (s.withPeriph p).draws = s.draws := rfl
@[simp] theorem withPeriph_params (s : State) (p) : (s.withPeriph p).params = s.params := rfl
@[simp] theorem withPeriph_events (s : State) (p) : (s.withPeriph p).events = s.events := rfl

@[simp] theorem addFault_mode (s : State) (r) : (s.addFault r).mode = s.mode := rfl
@[simp] theorem addFault_ce (s : State) (r) : (s.addFault r).ce = s.ce := rfl
@[simp] theorem addFault_csn (s : State) (r) : (s.addFault r).csn = s.csn := rfl
@[simp] theorem addFault_shadow (s : State) (r) : (s.addFault r).shadow = s.shadow := rfl
@[simp] theorem addFault_fault (s : State) (r) : (s.addFault r).fault = s.fault.add r := rfl
@[simp] theorem addFault_seq (s : State) (r) : (s.addFault r).seq = s.seq := rfl
@[simp] theorem addFault_requests (s : State) (r) : (s.addFault r).requests = s.requests := rfl
@[simp] theorem addFault_result (s : State) (r) : (s.addFault r).result = s.result := rfl
@[simp] theorem addFault_periph (s : State) (r) : (s.addFault r).periph = s.periph := rfl
@[simp] theorem addFault_env (s : State) (r) : (s.addFault r).env = s.env := rfl
@[simp] theorem addFault_trace (s : State) (r) : (s.addFault r).trace = s.trace := rfl
@[simp] theorem addFault_draws (s : State) (r) : (s.addFault r).draws = s.draws := rfl
@[simp] theorem addFault_params (s : State) (r) : (s.addFault r).params = s.params := rfl
@[simp] theorem addFault_events (s : State) (r) : (s.addFault r).events = s.events := rfl

@[simp] theorem dropMove_mode (s : State) : (s.dropMove).mode = s.mode := rfl
@[simp] theorem dropMove_ce (s : State) : (s.dropMove).ce = s.ce := rfl
@[simp] theorem dropMove_csn (s : State) : (s.dropMove).csn = s.csn := rfl
@[simp] theorem dropMove_shadow (s : State) : (s.dropMove).shadow = s.shadow := rfl
@[simp] theorem dropMove_fault (s : State) : (s.dropMove).fault = s.fault := rfl
@[simp] theorem dropMove_seq (s : State) : (s.dropMove).seq = s.seq := rfl
@[simp] theorem dropMove_requests (s : State) : (s.dropMove).requests = s.requests := rfl
@[simp] theorem dropMove_result (s : State) : (s.dropMove).result = s.result := rfl
@[simp] theorem dropMove_periph (s : State) : (s.dropMove).periph = s.periph := rfl
@[simp] theorem dropMove_env (s : State) : (s.dropMove).env = s.env.tail := rfl
@[simp] theorem dropMove_trace (s : State) : (s.dropMove).trace = s.trace := rfl
@[simp] theorem dropMove_draws (s : State) : (s.dropMove).draws = s.draws := rfl
@[simp] theorem dropMove_params (s : State) : (s.dropMove).params = s.params := rfl
@[simp] theorem dropMove_events (s : State) : (s.dropMove).events = s.events := rfl

@[simp] theorem nextDraw_mode (s : State) : (s.nextDraw).mode = s.mode := rfl
@[simp] theorem nextDraw_ce (s : State) : (s.nextDraw).ce = s.ce := rfl
@[simp] theorem nextDraw_csn (s : State) : (s.nextDraw).csn = s.csn := rfl
@[simp] theorem nextDraw_shadow (s : State) : (s.nextDraw).shadow = s.shadow := rfl
@[simp] theorem nextDraw_fault (s : State) : (s.nextDraw).fault = s.fault := rfl
@[simp] theorem nextDraw_seq (s : State) : (s.nextDraw).seq = s.seq := rfl
@[simp] theorem nextDraw_requests (s : State) : (s.nextDraw).requests = s.requests := rfl
@[simp] theorem nextDraw_result (s : State) : (s.nextDraw).result = s.result := rfl
@[simp] theorem nextDraw_periph (s : State) : (s.nextDraw).periph = s.periph := rfl
@[simp] theorem nextDraw_env (s : State) : (s.nextDraw).env = s.env := rfl
@[simp] theorem nextDraw_trace (s : State) : (s.nextDraw).trace = s.trace := rfl
@[simp] theorem nextDraw_draws (s : State) : (s.nextDraw).draws = s.draws + 1 := rfl
@[simp] theorem nextDraw_params (s : State) : (s.nextDraw).params = s.params := rfl
@[simp] theorem nextDraw_events (s : State) : (s.nextDraw).events = s.events := rfl

@[simp] theorem record_mode (s : State) (e) : (s.record e).mode = s.mode := rfl
@[simp] theorem record_ce (s : State) (e) : (s.record e).ce = s.ce := rfl
@[simp] theorem record_csn (s : State) (e) : (s.record e).csn = s.csn := rfl
@[simp] theorem record_shadow (s : State) (e) : (s.record e).shadow = s.shadow := rfl
@[simp] theorem record_fault (s : State) (e) : (s.record e).fault = s.fault := rfl
@[simp] theorem record_seq (s : State) (e) : (s.record e).seq = s.seq := rfl
@[simp] theorem record_requests (s : State) (e) : (s.record e).requests = s.requests := rfl
@[simp] theorem record_result (s : State) (e) : (s.record e).result = s.result := rfl
@[simp] theorem record_periph (s : State) (e) : (s.record e).periph = s.periph := rfl
@[simp] theorem record_env (s : State) (e) : (s.record e).env = s.env := rfl
@[simp] theorem record_trace (s : State) (e) : (s.record e).trace = s.trace ++ [{ point := s.seq.point, event := e }] := rfl
@[simp] theorem record_draws (s : State) (e) : (s.record e).draws = s.draws := rfl
@[simp] theorem record_params (s : State) (e) : (s.record e).params = s.params := rfl
@[simp] theorem record_events (s : State) (e) : (s.record e).events = s.events ++ [e] := by simp [State.events]

@[simp] theorem afterEvents_mode (s : State) (evs) : (s.afterEvents evs).mode = s.mode := rfl
@[simp] theorem afterEvents_ce (s : State) (evs) : (s.afterEvents evs).ce = s.ce := rfl
@[simp] theorem afterEvents_csn (s : State) (evs) : (s.afterEvents evs).csn = s.csn := rfl
@[simp] theorem afterEvents_shadow (s : State) (evs) : (s.afterEvents evs).shadow = s.shadow := rfl
@[simp] theorem afterEvents_fault (s : State) (evs) : (s.afterEvents evs).fault = s.fault := rfl
@[simp] theorem afterEvents_seq (s : State) (evs) : (s.afterEvents evs).seq = s.seq := rfl
@[simp] theorem afterEvents_requests (s : State) (evs) : (s.afterEvents evs).requests = s.requests := rfl
@[simp] theorem afterEvents_result (s : State) (evs) : (s.afterEvents evs).result = s.result := rfl
@[simp] theorem afterEvents_periph (s : State) (evs) : (s.afterEvents evs).periph = { s.periph with radio := s.periph.radio.events s.params s.periph.regs s.ce evs } := rfl
@[simp] theorem afterEvents_env (s : State) (evs) : (s.afterEvents evs).env = s.env := rfl
@[simp] theorem afterEvents_trace (s : State) (evs) : (s.afterEvents evs).trace = s.trace := rfl
@[simp] theorem afterEvents_draws (s : State) (evs) : (s.afterEvents evs).draws = s.draws := rfl
@[simp] theorem afterEvents_params (s : State) (evs) : (s.afterEvents evs).params = s.params := rfl
@[simp] theorem afterEvents_events (s : State) (evs) : (s.afterEvents evs).events = s.events := rfl

@[simp] theorem start_mode (s : State) (i) : (s.start i).mode = s.mode := rfl
@[simp] theorem start_ce (s : State) (i) : (s.start i).ce = s.ce := rfl
@[simp] theorem start_csn (s : State) (i) : (s.start i).csn = s.csn := rfl
@[simp] theorem start_shadow (s : State) (i) : (s.start i).shadow = s.shadow := rfl
@[simp] theorem start_fault (s : State) (i) : (s.start i).fault = s.fault := rfl
@[simp] theorem start_seq (s : State) (i) : (s.start i).seq = .busy i 0 false none := rfl
@[simp] theorem start_requests (s : State) (i) : (s.start i).requests = s.requests := rfl
@[simp] theorem start_result (s : State) (i) : (s.start i).result = none := rfl
@[simp] theorem start_periph (s : State) (i) : (s.start i).periph = s.periph := rfl
@[simp] theorem start_env (s : State) (i) : (s.start i).env = s.env := rfl
@[simp] theorem start_trace (s : State) (i) : (s.start i).trace = s.trace := rfl
@[simp] theorem start_draws (s : State) (i) : (s.start i).draws = s.draws := rfl
@[simp] theorem start_params (s : State) (i) : (s.start i).params = s.params := rfl
@[simp] theorem start_events (s : State) (i) : (s.start i).events = s.events := rfl

@[simp] theorem advance_mode (s : State) : s.advance.mode = s.mode := rfl
@[simp] theorem advance_ce (s : State) : s.advance.ce = s.ce := rfl
@[simp] theorem advance_csn (s : State) : s.advance.csn = s.csn := rfl
@[simp] theorem advance_shadow (s : State) : s.advance.shadow = s.shadow := rfl
@[simp] theorem advance_fault (s : State) : s.advance.fault = s.fault := rfl
@[simp] theorem advance_requests (s : State) : s.advance.requests = s.requests := rfl
@[simp] theorem advance_result (s : State) : s.advance.result = s.result := rfl
@[simp] theorem advance_periph (s : State) : s.advance.periph = s.periph := rfl
@[simp] theorem advance_env (s : State) : s.advance.env = s.env := rfl
@[simp] theorem advance_trace (s : State) : s.advance.trace = s.trace := rfl
@[simp] theorem advance_draws (s : State) : s.advance.draws = s.draws := rfl
@[simp] theorem advance_params (s : State) : s.advance.params = s.params := rfl
@[simp] theorem advance_events (s : State) : s.advance.events = s.events := rfl
@[simp] theorem advance_seq (s : State) : s.advance.seq = s.seq.next := rfl
@[simp] theorem advance_withSeq (s : State) (q) : s.advance.withSeq q = s.withSeq q := rfl

@[simp] theorem idle_began : SeqPos.idle.began = none := rfl
@[simp] theorem busy_began (op k lost b) : (SeqPos.busy op k lost b).began = b := rfl
@[simp] theorem next_began (q : SeqPos) : q.next.began = q.began := by cases q <;> rfl
@[simp] theorem busy_next (op k lost b) : (SeqPos.busy op k lost b).next = .busy op (k + 1) lost b := rfl

/-! ## The small operations, run -/

@[simp] theorem run_setCsn (l) (s : State) : setCsn l s = .ok () (s.withCsn l) := rfl
@[simp] theorem run_note (e) (s : State) : note e s = .ok () (s.record e) := rfl
@[simp] theorem run_radioEvents (evs) (s : State) : radioEvents evs s = .ok () (s.afterEvents evs) := rfl
@[simp] theorem run_freshDraw (s : State) : freshDraw s = .ok s.draws s.nextDraw := rfl
@[simp] theorem run_takeMove (s : State) : takeMove s = .ok (s.env.headD EnvMove.calm) s.dropMove := rfl

/-! ## The fault set -/

/-- Adding a reason makes it a member. -/
theorem has_add_self (f : FaultSet) (r : FaultReason) : (f.add r).has r = true := by
  rcases r with (v | h)
  · cases v <;> rfl
  · cases h <;> rfl

/-- Adding a reason removes none. -/
theorem has_add_of_has (f : FaultSet) (r q : FaultReason) (h : f.has q = true) : (f.add r).has q = true := by
  rcases r with (v | v) <;> rcases q with (w | w) <;> cases v <;> cases w <;> simp_all [FaultSet.add, FaultSet.has]

/-- A member after adding was a member before, or is the added one. -/
theorem has_of_has_add (f : FaultSet) (r q : FaultReason) (h : (f.add r).has q = true) : f.has q = true ∨ q = r := by
  rcases r with (v | v) <;> rcases q with (w | w) <;> cases v <;> cases w <;> simp_all [FaultSet.add, FaultSet.has]

end Sys2Proof.Machine
end

