-- ==== Sys2Proof/Laws/Ops.lean ====
section
/-! SUPPORT. The shared operations, said once: how a sequence of operations runs, what a pin write, a CE write and a
frame do when the ports succeed, and what the register accesses and the CONFIG path built on them do. -/

namespace Sys2Proof.Machine

variable {α β : Type}

/-! ## Running a sequence -/

theorem run_bind (x : Op α) (f : α → Op β) (s : State) :
    (x >>= f) s = match x s with | .ok a s' => f a s' | .error e s' => .error e s' := by
  simp only [Bind.bind, EStateM.bind]
  cases x s <;> rfl

theorem run_map (f : α → β) (x : Op α) (s : State) :
    (f <$> x) s = match x s with | .ok a s' => .ok (f a) s' | .error e s' => .error e s' := by
  simp only [Functor.map, EStateM.map]
  cases x s <;> rfl

@[simp] theorem run_pure (a : α) (s : State) : (pure a : Op α) s = .ok a s := rfl
@[simp] theorem run_get (s : State) : (get : Op State) s = .ok s s := rfl
@[simp] theorem run_modify (f : State → State) (s : State) : (modify f : Op Unit) s = .ok () (f s) := rfl
@[simp] theorem run_raise (e : ErrKind) (s : State) : (raise e : Op α) s = .error (.err e) s := rfl
@[simp] theorem run_violate (v : Violation) (s : State) : (violate v : Op α) s = .error (.fault v) s := rfl
@[simp] theorem run_throw (e : Stop) (s : State) : (throw e : Op α) s = .error e s := rfl

@[simp] theorem run_ite (c : Prop) [Decidable c] (x y : Op α) (s : State) :
    (if c then x else y) s = if c then x s else y s := by
  split <;> rfl

/-- A sequence goes on from the value and state of a first part that succeeds. -/
theorem bind_of_ok {x : Op α} {f : α → Op β} {s s' : State} {a : α} (h : x s = .ok a s') : (x >>= f) s = f a s' := by
  simp [run_bind, h]

/-- A sequence ends where its first part ends it. -/
theorem bind_of_error {x : Op α} {f : α → Op β} {s s' : State} {e : Stop} (h : x s = .error e s') :
    (x >>= f) s = .error e s' := by
  simp [run_bind, h]

@[simp] theorem run_losePeriph (flagged conforming : Bool) (c : Cmd) (s : State) :
    losePeriph flagged conforming c s =
      .ok () (s.nextDraw.withPeriph (s.periph.lose s.params s.draws flagged conforming c)) := rfl

@[simp] theorem run_openRxFifo (s : State) : openRxFifo s = .ok () (s.nextDraw.withPeriph { s.periph with
    radio := { s.periph.radio with rxFifo := (freeRadio s.params s.draws).rxFifo } }) := rfl

/-! ## Program points -/

theorem run_gate (s : State) : gate s = if s.seq.reached then .error .pause s else .ok () s := by
  simp only [gate, run_bind, run_get, run_ite, run_throw, run_pure]

/-- A program point: nothing if the point this step goes to is reached, else the primitive event and `B.seq` moves on. -/
theorem run_primitive (x : Op α) (s : State) :
    primitive x s = if s.seq.reached then .error .pause s else
      match x s with | .ok a s' => .ok a s'.advance | .error e s' => .error e s' := by
  rw [primitive, run_bind, run_gate]
  cases s.seq.reached
  · simp only [Bool.false_eq_true, if_false, run_bind]
    cases x s <;> rfl
  · rfl

theorem reached_whole {q : SeqPos} (h : q.began = none) : q.reached = false := by simp [SeqPos.reached, h]

/-- Where the operation runs whole, a program point that succeeds is its primitive event. -/
theorem primitive_ok {x : Op α} {s s' : State} {a : α} (h : s.seq.began = none) (hx : x s = .ok a s') :
    primitive x s = .ok a s'.advance := by
  simp [run_primitive, reached_whole h, hx]

/-- Where the operation runs whole, a program point that ends the operation is its primitive event. -/
theorem primitive_error {x : Op α} {s s' : State} {e : Stop} (h : s.seq.began = none) (hx : x s = .error e s') :
    primitive x s = .error e s' := by
  simp [run_primitive, reached_whole h, hx]

@[simp] theorem run_tick {s : State} (h : s.seq.began = none) : tick s = .ok () s.advance := primitive_ok h rfl
@[simp] theorem run_setMode (m) {s : State} (h : s.seq.began = none) : setMode m s = .ok () (s.withMode m).advance :=
  primitive_ok h rfl
@[simp] theorem run_setCe (l) {s : State} (h : s.seq.began = none) : setCe l s = .ok () (s.withCe l).advance :=
  primitive_ok h rfl
@[simp] theorem run_setShadow (b) {s : State} (h : s.seq.began = none) :
    setShadow b s = .ok () (s.withShadow b).advance := primitive_ok h rfl
@[simp] theorem run_hazard (k) {s : State} (h : s.seq.began = none) :
    hazard k s = .ok () (s.addFault (.hazard k)).advance := primitive_ok h rfl

/-- A test is one program point; where it holds the stop runs. -/
@[simp] theorem run_check (c : Prop) [Decidable c] (stop : Op Unit) {s : State} (h : s.seq.began = none) :
    check c stop s = if c then stop s.advance else .ok () s.advance := by
  simp only [check, run_bind, run_tick h, run_ite]; rfl

/-- Tests of all pipes that fail are six program points. -/
theorem run_checkPipes {bad : Six Bool} (h : bad.any = false) (stop : Op Unit) {s : State} (hs : s.seq.began = none) :
    checkPipes bad stop s = .ok () s.advance.advance.advance.advance.advance.advance := by
  simp only [Six.any, Bool.or_eq_false_iff] at h
  simp [checkPipes, Pipe.all, forPipes, run_bind, Six.get, h, hs]

/-- Where some pipe's test holds the operation ends there, and only `B.seq` has moved. -/
theorem checkPipes_stops {bad : Six Bool} (h : bad.any = true) (v : Violation) {s : State} (hs : s.seq.began = none) :
    ∃ q, checkPipes bad (violate v) s = .error (.fault v) (s.withSeq q) := by
  obtain ⟨b0, b1, b2, b3, b4, b5⟩ := bad
  cases b0 <;> cases b1 <;> cases b2 <;> cases b3 <;> cases b4 <;> cases b5 <;>
    first
    | (exact absurd h (by decide))
    | exact ⟨_, by simp [checkPipes, Pipe.all, forPipes, run_bind, Six.get, hs]; rfl⟩

/-! ## Environments -/

theorem PortsOk.head {s : State} (h : PortsOk s) : (s.env.headD EnvMove.calm).outcome = .ok := by
  unfold PortsOk at h
  cases he : s.env with
  | nil => rfl
  | cons m ms => exact h m (by simp [he])

theorem Quiet.head {s : State} (h : Quiet s) : s.env.headD EnvMove.calm = EnvMove.calm := by
  unfold Quiet at h
  cases he : s.env with
  | nil => rfl
  | cons m ms => exact h m (by simp [he])

/-- The ports go on succeeding in any state with the moves that are left. -/
theorem PortsOk.of_env {s t : State} (h : PortsOk s) (he : t.env = s.env ∨ t.env = s.env.tail) : PortsOk t := by
  intro m hm
  rcases he with he | he <;> rw [he] at hm
  · exact h m hm
  · exact h m (List.mem_of_mem_tail hm)

theorem Quiet.of_env {s t : State} (h : Quiet s) (he : t.env = s.env ∨ t.env = s.env.tail) : Quiet t := by
  intro m hm
  rcases he with he | he <;> rw [he] at hm
  · exact h m hm
  · exact h m (List.mem_of_mem_tail hm)

/-- A quiet environment lets every port succeed. -/
theorem Quiet.portsOk {s : State} (h : Quiet s) : PortsOk s := fun m hm => by rw [h m hm]; rfl

@[simp] theorem events_nil (par : Params) (regs : Regs) (ce : Level) (r : Radio) : r.events par regs ce [] = r := rfl

theorem events_append (par : Params) (regs : Regs) (ce : Level) (r : Radio) (xs ys : List RadioEvent) :
    r.events par regs ce (xs ++ ys) = (r.events par regs ce xs).events par regs ce ys := by
  simp [Radio.events, List.foldl_append]

/-! ## Pins -/

/-- The state after a port primitive took the world's next move and left its event in the trace. -/
def State.moved (s : State) (evs : List RadioEvent) (e : PortEvent) : State :=
  ((s.dropMove).afterEvents evs).record e

/-- The radio events of the world's next move, as a pin write sees them. -/
def State.pinEvents (s : State) : List RadioEvent :=
  (s.env.headD EnvMove.calm).events ++ (s.env.headD EnvMove.calm).during

/-- A pin write takes the world's next move, records its event, and answers the move's outcome. -/
theorem run_pinWrite (line : Line) (level : Bool) (s : State) :
    pinWrite line level s =
      .ok (s.env.headD EnvMove.calm).outcome.pinOk
        (s.moved s.pinEvents (.pin line level (s.env.headD EnvMove.calm).outcome.pinOk)) := rfl

theorem run_pinWrite_ok {line : Line} {level : Bool} {s : State} (h : PortsOk s) :
    pinWrite line level s = .ok true (s.moved s.pinEvents (.pin line level true)) := by
  rw [run_pinWrite, h.head]; rfl

@[simp] theorem moved_events (s : State) (evs) (e) : (s.moved evs e).events = s.events ++ [e] := by
  simp [State.moved]
@[simp] theorem moved_env (s : State) (evs) (e) : (s.moved evs e).env = s.env.tail := rfl
@[simp] theorem moved_mode (s : State) (evs) (e) : (s.moved evs e).mode = s.mode := rfl
@[simp] theorem moved_ce (s : State) (evs) (e) : (s.moved evs e).ce = s.ce := rfl
@[simp] theorem moved_csn (s : State) (evs) (e) : (s.moved evs e).csn = s.csn := rfl
@[simp] theorem moved_shadow (s : State) (evs) (e) : (s.moved evs e).shadow = s.shadow := rfl
@[simp] theorem moved_fault (s : State) (evs) (e) : (s.moved evs e).fault = s.fault := rfl
@[simp] theorem moved_seq (s : State) (evs) (e) : (s.moved evs e).seq = s.seq := rfl
@[simp] theorem moved_requests (s : State) (evs) (e) : (s.moved evs e).requests = s.requests := rfl
@[simp] theorem moved_result (s : State) (evs) (e) : (s.moved evs e).result = s.result := rfl
@[simp] theorem moved_params (s : State) (evs) (e) : (s.moved evs e).params = s.params := rfl
@[simp] theorem moved_draws (s : State) (evs) (e) : (s.moved evs e).draws = s.draws := rfl
@[simp] theorem moved_periph (s : State) (evs) (e) : (s.moved evs e).periph =
    { regs := s.periph.regs, radio := s.periph.radio.events s.params s.periph.regs s.ce evs } := rfl

theorem Quiet.pinEvents {s : State} (h : Quiet s) : s.pinEvents = [] := by
  unfold State.pinEvents; rw [h.head]; rfl

/-! ## Whole runs -/

/-- The ports succeed and the operation runs whole. -/
structure Clear (s : State) : Prop where
  ports : PortsOk s
  whole : s.seq.began = none

theorem Clear.advance {s : State} (h : Clear s) : Clear s.advance := ⟨h.ports, by simpa using h.whole⟩

/-! ## A CE write -/

/-- What a successful CE write does. -/
structure CeWritten (level : Bool) (s s' : State) : Prop where
  clear : Clear s'
  quiet : Quiet s → Quiet s'
  events : s'.events = s.events ++ [ceEvent level]
  ce : s'.ce = if level then .high else .low
  mode : s'.mode = s.mode
  csn : s'.csn = s.csn
  shadow : s'.shadow = s.shadow
  fault : s'.fault = s.fault
  requests : s'.requests = s.requests
  result : s'.result = s.result
  params : s'.params = s.params
  regs : s'.periph.regs = s.periph.regs
  radio : ∃ e, s'.periph.radio = s.periph.radio.events s.params s.periph.regs s.ce e
  quietRadio : Quiet s → s'.periph.radio = s.periph.radio

/-- A CE write whose pin write succeeded: what landed, then `B.ce`. -/
theorem ceWriteWith_ok {landed : Op Unit} (level : Bool) {s s' : State} (h : Clear s)
    (hl : landed (s.moved s.pinEvents (.pin .ce level true)) = .ok () s') (hq : s'.seq.began = none) :
    ceWriteWith landed level s = .ok () ((s'.advance.withCe (if level then .high else .low)).advance) := by
  have hp : primitive (do
      let ok ← pinWrite .ce level
      if ok then landed
      return ok) s = .ok true s'.advance :=
    primitive_ok h.whole (by simp only [run_bind, run_pinWrite_ok h.ports, if_true, hl, run_pure])
  have hq' : s'.advance.seq.began = none := by simpa using hq
  simp only [ceWriteWith, run_bind, hp, if_true, run_setCe _ hq', Bool.not_true, Bool.false_eq_true, if_false, run_pure]

/-- With the ports succeeding, a CE write succeeds. -/
theorem ceWrite_ok (level : Bool) {s : State} (h : Clear s) :
    ∃ s', ceWriteWith (return ()) level s = .ok () s' ∧ CeWritten level s s' := by
  have hw := h.whole
  refine ⟨_, ceWriteWith_ok level h rfl hw, ?_⟩
  constructor <;> try rfl
  · exact ⟨h.ports.of_env (.inr rfl), by simpa using hw⟩
  · exact fun hq => hq.of_env (.inr rfl)
  · simp [ceEvent]
  · exact ⟨_, rfl⟩
  · intro hq; simp [hq.pinEvents]

/-! ## A frame -/

/-- What a successful frame does (rules R200, R230). -/
structure Framed (c : Cmd) (inp : List Byte) (s s' : State) : Prop where
  clear : Clear s'
  quiet : Quiet s → Quiet s'
  events : s'.events = s.events ++ frameEvents c inp
  len : inp.length = c.len
  mode : s'.mode = s.mode
  ce : s'.ce = s.ce
  csn : s'.csn = .high
  shadow : s'.shadow = s.shadow
  fault : s'.fault = s.fault
  requests : s'.requests = s.requests
  result : s'.result = s.result
  params : s'.params = s.params
  /-- the radio events before the status byte, between status byte and data, and before CSN rises -/
  periph : ∃ (e1 e2 e3 : List RadioEvent) (n m : Nat),
    let r1 := s.periph.radio.events s.params s.periph.regs s.ce e1
    let r2 := r1.events s.params s.periph.regs s.ce e2
    let r3 := r2.events s.params s.periph.regs s.ce e3
    inp = r1.statusByte :: fillTo (c.len - 1) (Periph.answer s.params n ⟨s.periph.regs, r2⟩ c) n ∧
    s'.periph = Periph.commit m ⟨s.periph.regs, r3⟩ c
  quietPeriph : Quiet s → ∃ n m : Nat,
    inp = s.periph.radio.statusByte :: fillTo (c.len - 1) (Periph.answer s.params n s.periph c) n ∧
    s'.periph = Periph.commit m s.periph c

theorem fillTo_length (len : Nat) (bs : List Byte) (n : Nat) : (fillTo len bs n).length = len := by
  simp [fillTo]; omega

/-- A data phase the peripheral answers whole has no draw in it. -/
theorem fillTo_self {len : Nat} {bs : List Byte} (n : Nat) (h : bs.length = len) : fillTo len bs n = bs := by
  subst h; simp [fillTo]

theorem run_xfer_ok (c : Cmd) {s : State} (h : PortsOk s) :
    ∃ e1 e2 inp, (Quiet s → e1 = [] ∧ e2 = []) ∧
      xfer false c s = .ok (some ⟨inp, true⟩) (s.moved (e1 ++ e2) (.xfer c.encode (some inp))).nextDraw ∧
      (let r1 := s.periph.radio.events s.params s.periph.regs s.ce e1
       let r2 := r1.events s.params s.periph.regs s.ce e2
       inp = r1.statusByte :: fillTo (c.len - 1) (Periph.answer s.params s.draws ⟨s.periph.regs, r2⟩ c) s.draws) := by
  refine ⟨(s.env.headD EnvMove.calm).events, (s.env.headD EnvMove.calm).during, _, ?_, ?_, rfl⟩
  · intro hq; rw [hq.head]; exact ⟨rfl, rfl⟩
  · have hh := h.head
    simp only [xfer, run_bind, run_takeMove, run_radioEvents, run_get, run_freshDraw, hh, run_note, run_pure]
    simp [State.moved, State.afterEvents, events_append, State.dropMove, State.nextDraw, State.record, State.withPeriph]

/-- The state after a frame that succeeded. -/
def State.framed (s : State) (c : Cmd) (e1 e2 e3 : List RadioEvent) (inp : List Byte) : State :=
  let s1 := (s.moved e1 (.pin .csn false true)).withCsn .low
  let s2 := (s1.moved e2 (.xfer c.encode (some inp))).nextDraw
  let s3 := ((s2.moved e3 (.pin .csn true true)).withCsn .high).nextDraw
  s3.withPeriph (s3.periph.commit (s2.draws) c)

theorem run_frameBody_ok (c : Cmd) {s : State} (h : PortsOk s) :
    ∃ e1 e2 e2' e3 inp, (Quiet s → e1 = [] ∧ e2 = [] ∧ e2' = [] ∧ e3 = []) ∧
      frameBody false c s = .ok (Status.decode (inp.headD 0), inp.tail) (s.framed c e1 (e2 ++ e2') e3 inp) ∧
      (let r1 := s.periph.radio.events s.params s.periph.regs s.ce (e1 ++ e2)
       let r2 := r1.events s.params s.periph.regs s.ce e2'
       inp = r1.statusByte :: fillTo (c.len - 1) (Periph.answer s.params s.draws ⟨s.periph.regs, r2⟩ c) s.draws) := by
  have h1 : PortsOk ((s.moved s.pinEvents (.pin .csn false true)).withCsn .low) := h.of_env (.inr rfl)
  obtain ⟨e1, e2, inp, hq1, hx, hinp⟩ := run_xfer_ok c h1
  have h2 : PortsOk ((((s.moved s.pinEvents (.pin .csn false true)).withCsn .low).moved (e1 ++ e2)
      (.xfer c.encode (some inp))).nextDraw) := h1.of_env (.inr (by simp))
  refine ⟨s.pinEvents, e1, e2, State.pinEvents ((((s.moved s.pinEvents (.pin .csn false true)).withCsn .low).moved
      (e1 ++ e2) (.xfer c.encode (some inp))).nextDraw), inp, fun hq => ?_, ?_, ?_⟩
  · have hq1' : Quiet ((s.moved s.pinEvents (.pin .csn false true)).withCsn .low) := hq.of_env (.inr (by simp))
    have hq2 : Quiet ((((s.moved s.pinEvents (.pin .csn false true)).withCsn .low).moved (e1 ++ e2)
      (.xfer c.encode (some inp))).nextDraw) := hq1'.of_env (.inr (by simp))
    exact ⟨hq.pinEvents, (hq1 hq1').1, (hq1 hq1').2, hq2.pinEvents⟩
  · simp only [frameBody, run_bind, run_pinWrite_ok h, if_true, run_setCsn, hx, run_pinWrite_ok h2, frameEnd,
      settle, run_freshDraw, run_modify, run_pure, Bool.false_eq_true, if_false]
    simp [State.framed]
  · rw [hinp]; simp [events_append]

@[simp] theorem framed_events (s : State) (c e1 e2 e3 inp) :
    (s.framed c e1 e2 e3 inp).events = s.events ++ frameEvents c inp := by simp [State.framed, frameEvents]
@[simp] theorem framed_env (s : State) (c e1 e2 e3 inp) : (s.framed c e1 e2 e3 inp).env = s.env.tail.tail.tail := by
  simp [State.framed]
@[simp] theorem framed_mode (s : State) (c e1 e2 e3 inp) : (s.framed c e1 e2 e3 inp).mode = s.mode := by
  simp [State.framed]
@[simp] theorem framed_ce (s : State) (c e1 e2 e3 inp) : (s.framed c e1 e2 e3 inp).ce = s.ce := by
  simp [State.framed]
@[simp] theorem framed_csn (s : State) (c e1 e2 e3 inp) : (s.framed c e1 e2 e3 inp).csn = .high := by
  simp [State.framed]
@[simp] theorem framed_shadow (s : State) (c e1 e2 e3 inp) : (s.framed c e1 e2 e3 inp).shadow = s.shadow := by
  simp [State.framed]
@[simp] theorem framed_fault (s : State) (c e1 e2 e3 inp) : (s.framed c e1 e2 e3 inp).fault = s.fault := by
  simp [State.framed]
@[simp] theorem framed_requests (s : State) (c e1 e2 e3 inp) : (s.framed c e1 e2 e3 inp).requests = s.requests := by
  simp [State.framed]
@[simp] theorem framed_result (s : State) (c e1 e2 e3 inp) : (s.framed c e1 e2 e3 inp).result = s.result := by
  simp [State.framed]
@[simp] theorem framed_params (s : State) (c e1 e2 e3 inp) : (s.framed c e1 e2 e3 inp).params = s.params := by
  simp [State.framed]
@[simp] theorem framed_periph (s : State) (c e1 e2 e3 inp) : (s.framed c e1 e2 e3 inp).periph =
    Periph.commit (s.draws + 1)
      ⟨s.periph.regs, s.periph.radio.events s.params s.periph.regs s.ce (e1 ++ e2 ++ e3)⟩ c := by
  simp [State.framed, events_append]

@[simp] theorem framed_seq (s : State) (c e1 e2 e3 inp) : (s.framed c e1 e2 e3 inp).seq = s.seq := by
  simp [State.framed]

/-- With the ports succeeding, a frame succeeds. -/
theorem frame_ok (c : Cmd) {s : State} (h : Clear s) :
    ∃ inp s', frame c s = .ok (Status.decode (inp.headD 0), inp.tail) s' ∧ Framed c inp s s' := by
  obtain ⟨e1, e2, e2', e3, inp, hq, hrun, hinp⟩ := run_frameBody_ok c h.ports
  refine ⟨inp, _, primitive_ok h.whole hrun, ?_⟩
  have tails : ∀ {P : EnvMove → Prop}, (∀ m ∈ s.env, P m) →
      ∀ m ∈ (s.framed c e1 (e2 ++ e2') e3 inp).advance.env, P m := fun hs m hm =>
    hs m (List.mem_of_mem_tail (List.mem_of_mem_tail (List.mem_of_mem_tail (by simpa using hm))))
  refine ⟨⟨tails h.ports, by simpa using h.whole⟩, fun hs => tails hs, by simp, ?_, by simp, by simp, by simp, by simp,
    by simp, by simp, by simp, by simp, ⟨e1 ++ e2, e2', e3, s.draws, s.draws + 1, hinp, ?_⟩, fun hs => ?_⟩
  · rw [hinp]; simp [fillTo_length, Cmd.len]; omega
  · simp [events_append]
  · obtain ⟨rfl, rfl, rfl, rfl⟩ := hq hs
    exact ⟨s.draws, s.draws + 1, by simpa using hinp, by simp⟩

/-! ## Program points: only `B.seq` moves, so what a frame did is the same seen from them -/

theorem Framed.before {c : Cmd} {inp : List Byte} {s s' : State} (h : Framed c inp s.advance s') : Framed c inp s s' :=
  ⟨h.clear, h.quiet, h.events, h.len, h.mode, h.ce, h.csn, h.shadow, h.fault, h.requests, h.result, h.params, h.periph,
    h.quietPeriph⟩

theorem Framed.after {c : Cmd} {inp : List Byte} {s s' : State} (h : Framed c inp s s') : Framed c inp s s'.advance :=
  ⟨h.clear.advance, h.quiet, h.events, h.len, h.mode, h.ce, h.csn, h.shadow, h.fault, h.requests, h.result, h.params,
    h.periph, h.quietPeriph⟩

theorem PortsOk.advance {s : State} (h : PortsOk s) : PortsOk s.advance := h

end Sys2Proof.Machine
end

