-- ==== Sys2Proof/Laws/Registers.lean ====
section
/-! SUPPORT. The codec of each register type: its `decode` undoes its `encode`, and its `encode` after its `decode` clears
the reserved bits (rule R60). -/

namespace Sys2Proof

theorem status_decode_encode (v : Status) : Status.decode v.encode = v := by
  obtain ⟨a, b, c, n, e⟩ := v; revert a b c n e; decide

theorem config_decode_encode (v : ConfigReg) : ConfigReg.decode v.encode = v := by
  obtain ⟨a, b, c, d, e, f, g⟩ := v; revert a b c d e f g; decide

theorem pipes_decode_encode (v : Six Bool) : toBools (fromBools v) = v := by
  obtain ⟨a, b, c, d, e, f⟩ := v; revert a b c d e f; decide

theorem rfSetup_decode_encode (v : RfSetup) : RfSetup.decode v.encode = v := by
  obtain ⟨a, b, c, d, n, f⟩ := v; revert a b c d n f; decide

theorem fifoStatus_decode_encode (v : FifoStatus) : FifoStatus.decode v.encode = v := by
  obtain ⟨a, b, c, d, e⟩ := v; revert a b c d e; decide

theorem feature_decode_encode (v : Feature) : Feature.decode v.encode = v := by
  obtain ⟨a, b, c⟩ := v; revert a b c; decide

theorem setupRetr_decode_encode (v : SetupRetr) : SetupRetr.decode v.encode = v := by
  obtain ⟨a, b⟩ := v; revert a b; decide

theorem observeTx_decode_encode (v : ObserveTx) : ObserveTx.decode v.encode = v := by
  obtain ⟨a, b⟩ := v; revert a b; decide

theorem aw_decode_encode : ∀ v : BitVec 2, fieldOf (fieldAt 0 v) 0 2 = v := by decide
theorem rxPw_decode_encode : ∀ v : BitVec 6, fieldOf (fieldAt 0 v) 0 6 = v := by decide
theorem rfCh_decode_encode : ∀ v : BitVec 7, fieldOf (fieldAt 0 v) 0 7 = v := by decide
theorem cd_decode_encode : ∀ v : Bool, (bitAt 0 v).getLsbD 0 = v := by decide

theorem status_encode_decode : ∀ b : BitVec 8, (Status.decode b).encode = b &&& 0x7F#8 := by decide
theorem config_encode_decode : ∀ b : BitVec 8, (ConfigReg.decode b).encode = b &&& 0x7F#8 := by decide
theorem pipes_encode_decode : ∀ b : BitVec 8, fromBools (toBools b) = b &&& 0x3F#8 := by decide
theorem rfSetup_encode_decode : ∀ b : BitVec 8, (RfSetup.decode b).encode = b &&& 0xBF#8 := by decide
theorem fifoStatus_encode_decode : ∀ b : BitVec 8, (FifoStatus.decode b).encode = b &&& 0x73#8 := by decide
theorem feature_encode_decode : ∀ b : BitVec 8, (Feature.decode b).encode = b &&& 0x07#8 := by decide
theorem setupRetr_encode_decode : ∀ b : BitVec 8, (SetupRetr.decode b).encode = b &&& 0xFF#8 := by decide
theorem observeTx_encode_decode : ∀ b : BitVec 8, (ObserveTx.decode b).encode = b &&& 0xFF#8 := by decide
theorem aw_encode_decode : ∀ b : BitVec 8, fieldAt 0 (fieldOf b 0 2) = b &&& 0x03#8 := by decide
theorem rxPw_encode_decode : ∀ b : BitVec 8, fieldAt 0 (fieldOf b 0 6) = b &&& 0x3F#8 := by decide
theorem rfCh_encode_decode : ∀ b : BitVec 8, fieldAt 0 (fieldOf b 0 7) = b &&& 0x7F#8 := by decide
theorem cd_encode_decode : ∀ b : BitVec 8, bitAt 0 (b.getLsbD 0) = b &&& 0x01#8 := by decide

end Sys2Proof
end

