-- ==== Sys2Proof/Laws/Access.lean ====
section
/-! SUPPORT. What follows from a frame that succeeded: the registers and the data bytes, and the register accesses and
the CONFIG path built on frames, each said once for a port that succeeds. -/

namespace Sys2Proof.Machine

variable {α β : Type}

/-! ## Registers and data after a frame -/

/-- The written registers after a command. -/
def Cmd.regsAfter (c : Cmd) (regs : Regs) : Regs :=
  match c with
  | .wRegister r data => regs.write r data
  | _ => regs

theorem commit_regs (n : Nat) (p : Periph) (c : Cmd) : (p.commit n c).regs = Cmd.regsAfter c p.regs := by
  cases c <;> rfl

/-- No radio event changes a written register. -/
theorem Framed.regs {c : Cmd} {inp : List Byte} {s s' : State} (h : Framed c inp s s') :
    s'.periph.regs = Cmd.regsAfter c s.periph.regs := by
  obtain ⟨e1, e2, e3, n, m, -, hp⟩ := h.periph
  rw [hp, commit_regs]

/-- The data bytes of a frame whose answer does not depend on the radio or on a draw. -/
theorem Framed.data {c : Cmd} {inp : List Byte} {s s' : State} {d : List Byte} (h : Framed c inp s s')
    (hd : ∀ n radio, Periph.answer s.params n ⟨s.periph.regs, radio⟩ c = d) (hl : d.length + 1 = c.len) :
    inp = inp.headD 0 :: d := by
  obtain ⟨e1, e2, e3, n, m, hi, -⟩ := h.periph
  rw [hd, fillTo_self n (by omega)] at hi
  rw [hi]; rfl

theorem Framed.cons {c : Cmd} {inp : List Byte} {s s' : State} (h : Framed c inp s s') :
    inp = inp.headD 0 :: inp.tail := by
  cases inp with
  | nil => have := h.len; simp [Cmd.len] at this; omega
  | cons a l => rfl

theorem Framed.tail_length {c : Cmd} {inp : List Byte} {s s' : State} (h : Framed c inp s s') :
    inp.tail.length + 1 = c.len := by
  have := h.len; rw [h.cons] at this; simpa using this

/-- The stored bytes are what a read of a register that only writes change answers. -/
theorem readReg_stored (par : Params) (n : Nat) (p : Periph) (r : Reg) (len : Nat) (hc : r ≠ .config)
    (hs : p.regs.stored r ≠ []) (hl : r.isAddress = true → (p.regs.stored r).length = len) :
    p.readReg par n r len = p.regs.stored r := by
  cases r <;> simp_all [Periph.readReg, Regs.stored, addrRead, Reg.isAddress]

theorem stored_length_one (regs : Regs) (r : Reg) (ha : r.isAddress = false) (hs : regs.stored r ≠ []) :
    (regs.stored r).length = 1 := by
  cases r <;> simp_all [Regs.stored, Reg.isAddress]

@[simp] theorem len_rRegister (r : Reg) (n : Nat) : (Cmd.rRegister r n).len = 1 + n := by simp [Cmd.len, Cmd.dataOut]
@[simp] theorem len_wRegister (r : Reg) (d : List Byte) : (Cmd.wRegister r d).len = 1 + d.length := rfl
@[simp] theorem len_rRxPlWid : Cmd.rRxPlWid.len = 2 := rfl
@[simp] theorem len_nop : Cmd.nop.len = 1 := rfl
@[simp] theorem len_flushTx : Cmd.flushTx.len = 1 := rfl
@[simp] theorem len_flushRx : Cmd.flushRx.len = 1 := rfl
@[simp] theorem len_rRxPayload (n : Nat) : (Cmd.rRxPayload n).len = 1 + n := by simp [Cmd.len, Cmd.dataOut]
@[simp] theorem len_wTxPayload (d : List Byte) : (Cmd.wTxPayload d).len = 1 + d.length := rfl
@[simp] theorem len_wAckPayload (p : Pipe) (d : List Byte) : (Cmd.wAckPayload p d).len = 1 + d.length := rfl

/-- A read frame of a register that only writes change brings its stored bytes. -/
theorem Framed.stored {r : Reg} {n : Nat} {inp : List Byte} {s s' : State} (h : Framed (.rRegister r n) inp s s')
    (hc : r ≠ .config) (hs : s.periph.regs.stored r ≠ []) (hl : (s.periph.regs.stored r).length = n) :
    inp = inp.headD 0 :: s.periph.regs.stored r :=
  h.data (fun k radio => readReg_stored s.params k ⟨s.periph.regs, radio⟩ r n hc hs (fun _ => hl)) (by simp [hl]; omega)

/-! ## Reads and writes -/

theorem readReg_ok (R : RegType α) (w : Nat) {s : State} (h : Clear s) (hw : R.reg.isAddress = true → legalWidth w = true) :
    ∃ inp s', readReg R w s = .ok (Status.decode (inp.headD 0), R.decode inp.tail) s' ∧
      Framed (.rRegister R.reg (if R.reg.isAddress then w else 1)) inp s s' := by
  cases hA : R.reg.isAddress with
  | false =>
    obtain ⟨inp, s', hf, hF⟩ := frame_ok (.rRegister R.reg 1) h.advance.advance
    refine ⟨inp, s', ?_, hF.before.before⟩
    simp only [readReg, hA, Bool.false_eq_true, run_tick h.whole, run_tick h.advance.whole, if_false, run_bind, run_pure,
      hf]
  | true =>
    obtain ⟨inp, s', hf, hF⟩ := frame_ok (.rRegister R.reg w) h.advance.advance.advance
    refine ⟨inp, s', ?_, hF.before.before.before⟩
    simp only [readReg, hA, hw hA, Bool.not_true, Bool.false_eq_true, run_check _ _ h.advance.whole, run_tick h.whole,
      run_tick h.advance.advance.whole, if_false, if_true, run_bind, run_pure, hf]

theorem readReg_violates (R : RegType α) {w : Nat} {s : State} (hs : s.seq.began = none) (ha : R.reg.isAddress = true)
    (hw : legalWidth w = false) : readReg R w s = .error (.fault .addrWidth) s.advance.advance := by
  simp [readReg, ha, hw, run_bind, hs]

theorem writeReg_ok (R : RegType α) (v : α) {s : State} (h : Clear s)
    (hw : R.reg.isAddress = true → legalWidth (R.encode v).length = true) :
    ∃ inp s' s'', Framed (.wRegister R.reg (R.encode v)) inp s s' ∧
      writeReg R v s = .ok (Status.decode (inp.headD 0)) s'' ∧
      s'' = if R.reg = .config then (s'.withShadow ((R.encode v).headD 0)).advance else s' := by
  obtain ⟨inp, s', hf, hF⟩ := frame_ok (.wRegister R.reg (R.encode v)) h.advance
  refine ⟨inp, s'.advance, _, hF.before.after, ?_, rfl⟩
  have hw' := hF.clear.whole
  have hw2 := hF.clear.advance.whole
  have hg : (R.reg.isAddress && !legalWidth (R.encode v).length) = false := by
    cases hA : R.reg.isAddress <;> simp_all
  by_cases hc : R.reg = .config
  · simp only [writeReg, hg, Bool.false_eq_true, run_check _ _ h.whole, run_tick hw', if_false, run_bind, hf, if_pos hc,
      run_setShadow _ hw2, run_pure]
  · simp only [writeReg, hg, Bool.false_eq_true, run_check _ _ h.whole, run_tick hw', if_false, run_bind, hf, if_neg hc,
      run_pure]

theorem writeReg_violates (R : RegType α) {v : α} {s : State} (hs : s.seq.began = none)
    (ha : R.reg.isAddress = true) (hw : legalWidth (R.encode v).length = false) : writeReg R v s = .error (.fault .addrWidth) s.advance := by
  simp [writeReg, ha, hw, run_bind, hs]

/-- A write of a register other than CONFIG is its frame. -/
theorem writeReg_frame (R : RegType α) (v : α) {s : State} (h : Clear s) (hc : R.reg ≠ .config)
    (hw : R.reg.isAddress = true → legalWidth (R.encode v).length = true) :
    ∃ inp s', Framed (.wRegister R.reg (R.encode v)) inp s s' ∧ writeReg R v s = .ok (Status.decode (inp.headD 0)) s' := by
  obtain ⟨inp, s', s'', hF, hr, rfl⟩ := writeReg_ok R v h hw
  exact ⟨inp, s', hF, by simpa [hc] using hr⟩

/-! ## Read-modify-write -/

theorem updateReg_ok [DecidableEq α] (R : RegType α) (w : Nat) (f : α → α × β) {s : State} (h : Clear s)
    (hc : R.reg ≠ .config) (hw : R.reg.isAddress = true → legalWidth w = true) :
    ∃ inp s1, Framed (.rRegister R.reg (if R.reg.isAddress then w else 1)) inp s s1 ∧
      ((f (R.decode inp.tail)).1 = R.decode inp.tail →
        updateReg R w f s = .ok (f (R.decode inp.tail)).2 s1) ∧
      ((f (R.decode inp.tail)).1 ≠ R.decode inp.tail →
        (R.reg.isAddress = true → legalWidth (R.encode (f (R.decode inp.tail)).1).length = true) →
        ∃ i2 s2, Framed (.wRegister R.reg (R.encode (f (R.decode inp.tail)).1)) i2 s1 s2 ∧
          updateReg R w f s = .ok (f (R.decode inp.tail)).2 s2) ∧
      ((f (R.decode inp.tail)).1 ≠ R.decode inp.tail → R.reg.isAddress = true →
        legalWidth (R.encode (f (R.decode inp.tail)).1).length = false →
        updateReg R w f s = .error (.fault .addrWidth) s1.advance) := by
  obtain ⟨inp, s1, hr, hF⟩ := readReg_ok R w h.advance hw
  have hs1 := hF.clear.whole
  have hs2 := hF.clear.advance.whole
  refine ⟨inp, s1.advance.advance, hF.before.after.after, fun he => ?_, fun hne hl => ?_, fun hne ha hl => ?_⟩
  · simp only [updateReg, run_check _ _ h.whole, run_tick hs1, run_tick hs2, if_neg hc, run_bind, hr, he, ne_eq,
      not_true_eq_false, if_false, run_pure]
  · obtain ⟨i2, s2, hF2, hr2⟩ := writeReg_frame R (f (R.decode inp.tail)).1 hF.clear.advance.advance hc hl
    refine ⟨i2, s2, hF2, ?_⟩
    simp only [updateReg, run_check _ _ h.whole, run_tick hs1, run_tick hs2, if_neg hc, run_bind, hr, ne_eq, hne,
      not_false_eq_true, if_true, hr2, run_pure]
  · have hv := writeReg_violates R (v := (f (R.decode inp.tail)).1) hF.clear.advance.advance.whole ha hl
    simp only [updateReg, run_check _ _ h.whole, run_tick hs1, run_tick hs2, if_neg hc, run_bind, hr, ne_eq, hne,
      not_false_eq_true, if_true, hv]

/-- `update_config` decodes the shadow, applies `f` and tests for a change (three program points); then it sends one frame
and sets the shadow, or nothing. -/
theorem updateConfig_ok (f : ConfigReg → ConfigReg × β) {s : State} {b : Byte} (h : Clear s) (hb : s.shadow = some b) :
    ((f (ConfigReg.decode b)).1 = ConfigReg.decode b →
      updateConfigWith false f s = .ok (f (ConfigReg.decode b)).2 s.advance.advance.advance) ∧
    ((f (ConfigReg.decode b)).1 ≠ ConfigReg.decode b →
      ∃ inp s1, Framed (.wRegister .config [(f (ConfigReg.decode b)).1.encode]) inp s s1 ∧
        updateConfigWith false f s =
          .ok (f (ConfigReg.decode b)).2 (s1.withShadow (f (ConfigReg.decode b)).1.encode).advance) := by
  have h1 := h.whole
  have h2 := h.advance.whole
  have h3 := h.advance.advance.whole
  refine ⟨fun he => ?_, fun hne => ?_⟩
  · simp only [updateConfigWith, run_bind, run_get, run_tick h1, run_tick h2, run_tick h3, hb, he, ne_eq, not_true_eq_false, if_false, run_pure]
  · obtain ⟨inp, s1, hf, hF⟩ :=
      frame_ok (.wRegister .config [(f (ConfigReg.decode b)).1.encode]) h.advance.advance.advance
    refine ⟨inp, s1, hF.before.before.before, ?_⟩
    have hf' : frameWith false (.wRegister .config [(f (ConfigReg.decode b)).1.encode]) s.advance.advance.advance = _ :=
      hf
    simp only [updateConfigWith, run_bind, run_get, run_tick h1, run_tick h2, run_tick h3, hb, ne_eq, hne,
      not_false_eq_true, if_true, hf', run_setShadow _ hF.clear.whole, run_pure]

/-! ## What runs leave alone -/

/-- What every frame leaves as it was. -/
structure Passed (s s' : State) : Prop where
  clear : Clear s'
  quiet : Quiet s → Quiet s'
  mode : s'.mode = s.mode
  ce : s'.ce = s.ce
  shadow : s'.shadow = s.shadow
  fault : s'.fault = s.fault
  requests : s'.requests = s.requests
  result : s'.result = s.result
  params : s'.params = s.params

theorem Framed.passed {c : Cmd} {inp : List Byte} {s s' : State} (h : Framed c inp s s') : Passed s s' :=
  ⟨h.clear, h.quiet, h.mode, h.ce, h.shadow, h.fault, h.requests, h.result, h.params⟩

theorem Passed.trans {s t u : State} (h : Passed s t) (k : Passed t u) : Passed s u :=
  ⟨k.clear, k.quiet ∘ h.quiet, k.mode.trans h.mode, k.ce.trans h.ce, k.shadow.trans h.shadow, k.fault.trans h.fault,
    k.requests.trans h.requests, k.result.trans h.result, k.params.trans h.params⟩

/-! ## One-byte register updates -/

theorem mergeBits_self (m b : Byte) : mergeBits m b (b &&& m) = b := by
  unfold mergeBits
  ext i hi
  simp
  cases b[i] <;> cases m[i] <;> rfl

theorem and_ff (b : Byte) : b &&& 255#8 = b := BitVec.and_allOnes (x := b)

theorem set_get (x : Six α) (p : Pipe) : x.set p (x.get p) = x := by cases p <;> rfl

/-- Writing the fields a register already holds changes nothing. -/
theorem write_same (regs : Regs) (r : Reg) (old : Byte) (ha : r.isAddress = false) (hs : regs.stored r = [old]) :
    regs.write r [old &&& r.fieldMask] = regs := by
  cases r <;> simp_all [Regs.stored, Regs.write, Reg.fieldMask, Reg.isAddress]
  all_goals subst hs
  all_goals simp [mergeBits_self, and_ff, set_get]

/-- What an `update_register` of a one-byte register does. -/
structure RegUpdated (r : Reg) (old new : Byte) (s s' : State) : Prop where
  passed : Passed s s'
  csn : s'.csn = .high
  frames : UpdateFrames r old new s s'
  regs : s'.periph.regs = s.periph.regs.write r [new]
  radio : Quiet s → s'.periph.radio =
    if new = old &&& r.fieldMask then s.periph.radio else s.periph.radio.write r [new]

theorem quiet_read {r : Reg} {n : Nat} {inp : List Byte} {s s' : State} (h : Framed (.rRegister r n) inp s s')
    (hq : Quiet s) : s'.periph = s.periph := by
  obtain ⟨n, m, -, hp⟩ := h.quietPeriph hq
  exact hp

theorem quiet_write {r : Reg} {d : List Byte} {inp : List Byte} {s s' : State} (h : Framed (.wRegister r d) inp s s')
    (hq : Quiet s) : s'.periph = s.periph.write r d := by
  obtain ⟨n, m, -, hp⟩ := h.quietPeriph hq
  exact hp

theorem updateReg_byte [DecidableEq α] (r : Reg) (enc : α → Byte) (dec : Byte → α) (f : α → α × Unit) {s : State}
    {old : Byte} (h : Clear s) (hc : r ≠ .config) (ha : r.isAddress = false) (hs : s.periph.regs.stored r = [old])
    (hde : ∀ v, dec (enc v) = v) (hed : ∀ b, enc (dec b) = b &&& r.fieldMask) :
    ∃ s', updateReg (RegType.byte r enc dec) 1 f s = .ok () s' ∧ RegUpdated r old (enc (f (dec old)).1) s s' := by
  obtain ⟨inp, s1, hF, h1, h2, -⟩ := updateReg_ok (RegType.byte r enc dec) 1 f h hc (by simp [RegType.byte, ha])
  have hn : (if (RegType.byte r enc dec).reg.isAddress then 1 else 1) = 1 := by split <;> rfl
  rw [hn] at hF
  have hF' : Framed (.rRegister r 1) inp s s1 := hF
  have hi := hF'.stored hc (by simp [hs]) (by simp [hs])
  rw [hs] at hi
  have hd : (RegType.byte r enc dec).decode inp.tail = dec old := by rw [hi]; rfl
  rw [hd] at h1 h2
  have hiff : (f (dec old)).1 = dec old ↔ enc (f (dec old)).1 = old &&& r.fieldMask := by
    rw [← hed]
    exact ⟨fun he => by rw [he], fun he => by rw [← hde (f (dec old)).1, he, hde]⟩
  by_cases he : (f (dec old)).1 = dec old
  · refine ⟨s1, h1 he, hF'.passed, hF'.csn, ⟨inp.headD 0, ?_⟩, ?_, fun hq => ?_⟩
    · rw [if_pos (hiff.1 he), hF'.events, ← hi]
    · rw [hiff.1 he, write_same _ _ _ ha hs, hF'.regs]; rfl
    · rw [if_pos (hiff.1 he), quiet_read hF' hq]
  · obtain ⟨i2, s2, hF2, hr⟩ := h2 he (by simp [RegType.byte, ha])
    have hF2' : Framed (.wRegister r [enc (f (dec old)).1]) i2 s1 s2 := hF2
    refine ⟨s2, hr, hF'.passed.trans hF2'.passed, hF2'.csn, ⟨inp.headD 0, ?_⟩, ?_, fun hq => ?_⟩
    · rw [if_neg (fun hh => he (hiff.2 hh))]
      exact ⟨i2, by rw [hF2'.events, hF'.events, ← hi]⟩
    · rw [hF2'.regs, hF'.regs]; rfl
    · rw [if_neg (fun hh => he (hiff.2 hh)), quiet_write hF2' (hF'.quiet hq), quiet_read hF' hq]; rfl

end Sys2Proof.Machine
end

