-- ==== Sys2Proof/Laws/Any.lean ====
section
/-! SUPPORT. Pin writes, transfers and frames in any environment: everything they can do, whether the ports succeed or
not. -/

namespace Sys2Proof.Machine

variable {α β : Type}

/-! ## One port primitive -/

/-- What one port primitive that left the event `e` does to the state. -/
structure Moved (e : PortEvent) (s s' : State) : Prop where
  env : s'.env = s.env.tail
  events : s'.events = s.events ++ [e]
  mode : s'.mode = s.mode
  ce : s'.ce = s.ce
  csn : s'.csn = s.csn
  shadow : s'.shadow = s.shadow
  fault : s'.fault = s.fault
  seq : s'.seq = s.seq
  requests : s'.requests = s.requests
  result : s'.result = s.result
  params : s'.params = s.params
  regs : s'.periph.regs = s.periph.regs
  radio : ∃ evs, s'.periph.radio = s.periph.radio.events s.params s.periph.regs s.ce evs

/-- A pin write in any environment. -/
theorem pinWrite_any (line : Line) (level : Bool) (s : State) :
    ∃ s', pinWrite line level s = .ok (s.env.headD EnvMove.calm).outcome.pinOk s' ∧
      Moved (.pin line level (s.env.headD EnvMove.calm).outcome.pinOk) s s' :=
  ⟨_, run_pinWrite line level s, ⟨rfl, by simp, rfl, rfl, rfl, rfl, rfl, rfl, rfl, rfl, rfl, rfl, ⟨_, rfl⟩⟩⟩

/-- The state after a transfer. -/
def State.transferred (s : State) (c : Cmd) (inp : Option (List Byte)) : State :=
  ((((s.dropMove).afterEvents (s.env.headD EnvMove.calm).events).afterEvents
    (s.env.headD EnvMove.calm).during).nextDraw).record (.xfer c.encode inp)

theorem transferred_moved (s : State) (c : Cmd) (inp : Option (List Byte)) :
    Moved (.xfer c.encode inp) s (s.transferred c inp) := by
  constructor <;> try simp [State.transferred]
  exact ⟨_, (events_append ..).symm⟩

/-- A transfer in any environment: nothing received exactly when the platform fails it, and a conforming peripheral
exactly when the move is a plain success. -/
theorem xfer_any (flagged : Bool) (c : Cmd) (s : State) :
    ∃ t s', xfer flagged c s = .ok t s' ∧ Moved (.xfer c.encode (t.map (·.inp))) s s' ∧
      (t = none ↔ (s.env.headD EnvMove.calm).outcome = .fails) ∧
      (∀ x, t = some x → x.inp.length = c.len ∧ (x.conforming = true ↔ (s.env.headD EnvMove.calm).outcome = .ok)) := by
  suffices h : ∃ t, xfer flagged c s = .ok t (s.transferred c (t.map (·.inp))) ∧
      (t = none ↔ (s.env.headD EnvMove.calm).outcome = .fails) ∧
      (∀ x, t = some x → x.inp.length = c.len ∧ (x.conforming = true ↔ (s.env.headD EnvMove.calm).outcome = .ok)) by
    obtain ⟨t, h1, h2, h3⟩ := h
    exact ⟨t, _, h1, transferred_moved s c _, h2, h3⟩
  cases ho : (s.env.headD EnvMove.calm).outcome with
  | fails =>
    refine ⟨none, ?_, by simp, by simp⟩
    simp only [xfer, run_bind, run_takeMove, run_radioEvents, run_get, run_freshDraw, ho, run_note, run_pure]; rfl
  | answers bs =>
    refine ⟨some ⟨fillTo c.len bs s.draws, false⟩, ?_, by simp, ?_⟩
    · simp only [xfer, run_bind, run_takeMove, run_radioEvents, run_get, run_freshDraw, ho, run_note, run_pure]; rfl
    · rintro x ⟨rfl⟩
      simp [fillTo_length]
  | ok =>
    refine ⟨some ⟨if flagged then fillTo c.len [] s.draws else
      ((s.dropMove).afterEvents (s.env.headD EnvMove.calm).events).periph.radio.statusByte ::
        fillTo (c.len - 1) (Periph.answer s.params s.draws (((s.dropMove).afterEvents
          (s.env.headD EnvMove.calm).events).afterEvents (s.env.headD EnvMove.calm).during).periph c) s.draws, true⟩,
      ?_, by simp, ?_⟩
    · simp only [xfer, run_bind, run_takeMove, run_radioEvents, run_get, run_freshDraw, ho, run_note, run_pure]; rfl
    · rintro x ⟨rfl⟩
      refine ⟨?_, by simp⟩
      dsimp only
      split
      · simp [fillTo_length]
      · simp [fillTo_length, Cmd.len]; omega

/-! ## A frame -/

/-- What a frame that returned does, hazard mark or not. -/
structure FrameOk (flagged : Bool) (c : Cmd) (inp : List Byte) (s s' : State) : Prop where
  env : s'.env = s.env.tail.tail.tail
  events : s'.events = s.events ++ frameEvents c inp
  len : inp.length = c.len
  mode : s'.mode = s.mode
  ce : s'.ce = s.ce
  csn : s'.csn = .high
  shadow : s'.shadow = s.shadow
  fault : s'.fault = s.fault
  seq : s'.seq = s.seq
  requests : s'.requests = s.requests
  result : s'.result = s.result
  params : s'.params = s.params
  periph : ∃ evs n, s'.periph = freePeripheral s.params n ∨
    (let p := Periph.commit n ⟨s.periph.regs, s.periph.radio.events s.params s.periph.regs s.ce evs⟩ c
     s'.periph = if flagged then { p with radio := freeRadio s.params n } else p)
  conforming : PortsOk s → ∃ evs n,
    let p := Periph.commit n ⟨s.periph.regs, s.periph.radio.events s.params s.periph.regs s.ce evs⟩ c
    s'.periph = if flagged then { p with radio := freeRadio s.params n } else p

/-- What a frame that failed with the error `e` does: it left the events `evs` and CSN at the level `l`, and a peripheral
that is lost where the frame touches it, or whole if the transfer did not conform, with radio events before and
after. -/
structure FrameFailed (flagged conf : Bool) (c : Cmd) (e : ErrKind) (evs : List PortEvent) (l : Level) (s s' : State) :
    Prop where
  events : s'.events = s.events ++ evs
  csn : s'.csn = l
  seq : s'.seq = s.seq
  mode : s'.mode = s.mode
  ce : s'.ce = s.ce
  shadow : s'.shadow = s.shadow
  fault : s'.fault = s.fault
  requests : s'.requests = s.requests
  result : s'.result = s.result
  params : s'.params = s.params
  periph : ∃ e1 e2 n,
    let p := Periph.lose s.params n flagged conf ⟨s.periph.regs, s.periph.radio.events s.params s.periph.regs s.ce e1⟩ c
    s'.periph = ⟨p.regs, p.radio.events s.params p.regs s.ce e2⟩

/-- The level of CSN after an attempt to raise it. -/
def raisedLevel (ok : Bool) : Level := if ok then .high else .unknown

/-- CSN could not be driven low: no transfer, one attempt to raise CSN. -/
theorem frameBody_lowFailed (flagged : Bool) (c : Cmd) (s : State)
    (h : (s.env.headD EnvMove.calm).outcome.pinOk = false) :
    ∃ s', frameBody flagged c s = .error (.err (.busError .csnPin)) s' ∧
      FrameFailed flagged true c (.busError .csnPin)
        [.pin .csn false false, .pin .csn true (s.env.tail.headD EnvMove.calm).outcome.pinOk]
        (raisedLevel (s.env.tail.headD EnvMove.calm).outcome.pinOk) s s' := by
  obtain ⟨s1, hr1, h1⟩ := pinWrite_any .csn false s
  rw [h] at hr1 h1
  obtain ⟨s3, hr3, h3⟩ := pinWrite_any .csn true
    (((s1.withCsn .unknown).nextDraw).withPeriph (s1.periph.lose s1.params s1.draws flagged true c))
  have henv : (((s1.withCsn .unknown).nextDraw).withPeriph (s1.periph.lose s1.params s1.draws flagged true c)).env =
      s.env.tail := by simp [h1.env]
  rw [henv] at hr3 h3
  generalize (s.env.tail.headD EnvMove.calm).outcome.pinOk = k at *
  obtain ⟨e1, he1⟩ := h1.radio
  have hp1 : s1.periph = ⟨s.periph.regs, s.periph.radio.events s.params s.periph.regs s.ce e1⟩ := by
    rw [← he1, ← h1.regs]
  refine ⟨if k then s3.withCsn .high else s3, ?_, ?_⟩
  · simp only [frameBody, run_bind, hr1, Bool.false_eq_true, if_false, csnLowFailed, run_setCsn, run_losePeriph,
      withCsn_params, withCsn_draws, withCsn_periph, hr3]
    cases k <;> simp [run_bind]
  · obtain ⟨e2, he2⟩ := h3.radio
    have hr := h3.regs
    simp only [withPeriph_periph, withPeriph_params, withPeriph_ce, nextDraw_params, nextDraw_ce, withCsn_params,
      withCsn_ce, h1.params, h1.ce] at hr he2
    have hp : s3.periph = ⟨s3.periph.regs, s3.periph.radio⟩ := rfl
    rw [hr, he2, hp1] at hp
    cases k <;> constructor <;> simp [h3.events, h1.events, h3.seq, h1.seq, h3.mode, h1.mode, h3.ce, h1.ce, h3.csn, h3.shadow,
      h1.shadow, h3.fault, h1.fault, h3.requests, h1.requests, h3.result, h1.result, h3.params, h1.params,
      raisedLevel] <;> exact ⟨e1, e2, _, hp⟩

/-- The peripheral after three port primitives that left the registers alone. -/
theorem Moved.threePeriph {a b c : PortEvent} {x : Level} {s s1 s2 s3 : State} (h1 : Moved a s s1)
    (m2 : Moved b (s1.withCsn x) s2) (m3 : Moved c s2 s3) : ∃ evs,
    s3.periph = ⟨s.periph.regs, s.periph.radio.events s.params s.periph.regs s.ce evs⟩ := by
  obtain ⟨e1, he1⟩ := h1.radio
  obtain ⟨e2, he2⟩ := m2.radio
  obtain ⟨e3, he3⟩ := m3.radio
  have hregs : s3.periph.regs = s.periph.regs := by simp [m3.regs, m2.regs, h1.regs]
  refine ⟨e1 ++ e2 ++ e3, ?_⟩
  have hradio : s3.periph.radio = s.periph.radio.events s.params s.periph.regs s.ce (e1 ++ e2 ++ e3) := by
    rw [events_append, events_append, ← he1]
    simp only [withCsn_periph, withCsn_params, withCsn_ce, h1.params, h1.regs, h1.ce] at he2
    rw [← he2]
    simp only [m2.params, m2.regs, m2.ce, withCsn_periph, withCsn_params, withCsn_ce, h1.params, h1.regs, h1.ce] at he3
    exact he3
  rw [← hradio, ← hregs]

/-- The transfer failed: CSN is raised all the same. -/
theorem frameBody_transferFailed (flagged : Bool) (c : Cmd) (s : State)
    (h : (s.env.headD EnvMove.calm).outcome.pinOk = true) (h2 : (s.env.tail.headD EnvMove.calm).outcome = .fails) :
    ∃ s', frameBody flagged c s = .error (.err (.busError .spi)) s' ∧
      FrameFailed flagged true c (.busError .spi)
        [.pin .csn false true, .xfer c.encode none, .pin .csn true (s.env.tail.tail.headD EnvMove.calm).outcome.pinOk]
        (raisedLevel (s.env.tail.tail.headD EnvMove.calm).outcome.pinOk) s s' := by
  obtain ⟨s1, hr1, h1⟩ := pinWrite_any .csn false s
  rw [h] at hr1 h1
  obtain ⟨t, s2, hr2, m2, hn, -⟩ := xfer_any flagged c (s1.withCsn .low)
  obtain rfl : t = none := hn.2 (by simpa [h1.env] using h2)
  obtain ⟨s3, hr3, m3⟩ := pinWrite_any .csn true s2
  have henv : s2.env = s.env.tail.tail := by simp [m2.env, h1.env]
  rw [henv] at hr3 m3
  obtain ⟨evs, hp3⟩ := h1.threePeriph m2 m3
  have hparams : s3.params = s.params := by simp [m3.params, m2.params, h1.params]
  generalize (s.env.tail.tail.headD EnvMove.calm).outcome.pinOk = k at *
  refine ⟨((s3.withCsn (raisedLevel k)).nextDraw).withPeriph (s3.periph.lose s3.params s3.draws flagged true c), ?_, ?_⟩
  · simp only [frameBody, run_bind, hr1, if_true, run_setCsn, hr2, hr3, frameEnd, run_losePeriph, run_raise,
      withCsn_params, withCsn_draws, withCsn_periph, raisedLevel]
  · constructor <;> simp [m3.events, m2.events, h1.events, m3.seq, m2.seq, h1.seq, m3.mode, m2.mode, h1.mode, m3.ce, m2.ce, h1.ce, m3.shadow,
      m2.shadow, h1.shadow, m3.fault, m2.fault, h1.fault, m3.requests, m2.requests, h1.requests, m3.result, m2.result,
      h1.result, m3.params, m2.params, h1.params]
    exact ⟨evs, [], s3.draws, by rw [hp3]; rfl⟩

/-- CSN could not be driven high after the transfer. -/
theorem frameBody_highFailed (flagged : Bool) (c : Cmd) (s : State)
    (h : (s.env.headD EnvMove.calm).outcome.pinOk = true) (h2 : (s.env.tail.headD EnvMove.calm).outcome ≠ .fails)
    (h3 : (s.env.tail.tail.headD EnvMove.calm).outcome.pinOk = false) :
    ∃ inp conf s', frameBody flagged c s = .error (.err (.busError .csnPin)) s' ∧ inp.length = c.len ∧
      (conf = true ↔ (s.env.tail.headD EnvMove.calm).outcome = .ok) ∧
      FrameFailed flagged conf c (.busError .csnPin) [.pin .csn false true, .xfer c.encode (some inp), .pin .csn true false]
        .unknown s s' := by
  obtain ⟨s1, hr1, h1⟩ := pinWrite_any .csn false s
  rw [h] at hr1 h1
  obtain ⟨t, s2, hr2, m2, hn, hx⟩ := xfer_any flagged c (s1.withCsn .low)
  obtain ⟨x, rfl⟩ : ∃ x, t = some x :=
    Option.ne_none_iff_exists'.1 fun ht => h2 (by simpa [h1.env] using hn.1 ht)
  obtain ⟨s3, hr3, m3⟩ := pinWrite_any .csn true s2
  have henv : s2.env = s.env.tail.tail := by simp [m2.env, h1.env]
  rw [henv, h3] at hr3 m3
  obtain ⟨evs, hp3⟩ := h1.threePeriph m2 m3
  have hparams : s3.params = s.params := by simp [m3.params, m2.params, h1.params]
  refine ⟨x.inp, x.conforming,
    ((s3.withCsn .unknown).nextDraw).withPeriph (s3.periph.lose s3.params s3.draws flagged x.conforming c), ?_,
    (hx x rfl).1, by simpa [h1.env] using (hx x rfl).2, ?_⟩
  · simp only [frameBody, run_bind, hr1, if_true, run_setCsn, hr2, hr3, Bool.false_eq_true, if_false, frameEnd,
      run_losePeriph, run_raise, withCsn_params, withCsn_draws, withCsn_periph]
  · constructor <;> simp [m3.events, m2.events, h1.events, m3.seq, m2.seq, h1.seq, m3.mode, m2.mode, h1.mode, m3.ce, m2.ce, h1.ce, m3.shadow,
      m2.shadow, h1.shadow, m3.fault, m2.fault, h1.fault, m3.requests, m2.requests, h1.requests, m3.result, m2.result,
      h1.result, m3.params, m2.params, h1.params]
    exact ⟨evs, [], s3.draws, by rw [hp3]; rfl⟩

/-- All three primitives succeeded. -/
theorem frameBody_succeeded (flagged : Bool) (c : Cmd) (s : State)
    (h : (s.env.headD EnvMove.calm).outcome.pinOk = true) (h2 : (s.env.tail.headD EnvMove.calm).outcome ≠ .fails)
    (h3 : (s.env.tail.tail.headD EnvMove.calm).outcome.pinOk = true) :
    ∃ inp s', frameBody flagged c s = .ok (Status.decode (inp.headD 0), inp.tail) s' ∧ FrameOk flagged c inp s s' := by
  obtain ⟨s1, hr1, h1⟩ := pinWrite_any .csn false s
  rw [h] at hr1 h1
  obtain ⟨t, s2, hr2, m2, hn, hx⟩ := xfer_any flagged c (s1.withCsn .low)
  obtain ⟨x, rfl⟩ : ∃ x, t = some x :=
    Option.ne_none_iff_exists'.1 fun ht => h2 (by simpa [h1.env] using hn.1 ht)
  obtain ⟨hlen, hconf⟩ := hx x rfl
  obtain ⟨s3, hr3, m3⟩ := pinWrite_any .csn true s2
  have henv : s2.env = s.env.tail.tail := by simp [m2.env, h1.env]
  rw [henv, h3] at hr3 m3
  obtain ⟨evs, hp3⟩ := h1.threePeriph m2 m3
  have hparams : s3.params = s.params := by simp [m3.params, m2.params, h1.params]
  let p' : Periph := if x.conforming then
      (if flagged then { s3.periph.commit s3.draws c with radio := freeRadio s3.params s3.draws }
        else s3.periph.commit s3.draws c)
    else freePeripheral s3.params s3.draws
  refine ⟨x.inp, (((s3.withCsn .high).nextDraw).withPeriph p'), ?_, ?_⟩
  · simp only [frameBody, run_bind, hr1, if_true, run_setCsn, hr2, hr3, frameEnd, settle, run_freshDraw, withCsn_draws,
      p']
    cases x.conforming <;> simp
  · constructor <;> simp [m3.env, m2.env, h1.env, m3.events, m2.events, h1.events, m3.mode, m2.mode, h1.mode, m3.ce,
      m2.ce, h1.ce, m3.shadow, m2.shadow, h1.shadow, m3.fault, m2.fault, h1.fault, m3.seq, m2.seq, h1.seq, m3.requests,
      m2.requests, h1.requests, m3.result, m2.result, h1.result, m3.params, m2.params, h1.params, frameEvents, hlen]
    · refine ⟨evs, s3.draws, ?_⟩
      simp only [p', hp3, hparams]
      cases x.conforming <;> simp
    · intro hp
      refine ⟨evs, s3.draws, ?_⟩
      have : x.conforming = true := hconf.2 (by
        simpa [h1.env] using (PortsOk.of_env (t := s1) hp (.inr h1.env)).head)
      simp only [p', hp3, hparams, this, if_true]

/-- A frame in any environment either returns or raises a bus error. -/
theorem frameBody_any (flagged : Bool) (c : Cmd) (s : State) :
    (∃ inp s', frameBody flagged c s = .ok (Status.decode (inp.headD 0), inp.tail) s' ∧ FrameOk flagged c inp s s') ∨
    (∃ e evs l conf s', frameBody flagged c s = .error (.err e) s' ∧ FrameFailed flagged conf c e evs l s s' ∧
      (l = .high ∨ l = .unknown) ∧ ¬ PortsOk s ∧
      ((∃ k, evs = [.pin .csn false false, .pin .csn true k]) ∨
        ∃ inp k, evs = [.pin .csn false true, .xfer c.encode inp, .pin .csn true k] ∧
          ∀ bytes, inp = some bytes → bytes.length = c.len)) := by
  have lvl : ∀ k, raisedLevel k = .high ∨ raisedLevel k = .unknown := by decide
  cases h1 : (s.env.headD EnvMove.calm).outcome.pinOk with
  | false =>
    obtain ⟨s', hr, hF⟩ := frameBody_lowFailed flagged c s h1
    refine .inr ⟨_, _, _, _, s', hr, hF, lvl _, fun hp => ?_, .inl ⟨_, rfl⟩⟩
    rw [hp.head] at h1; cases h1
  | true =>
    by_cases h2 : (s.env.tail.headD EnvMove.calm).outcome = .fails
    · obtain ⟨s', hr, hF⟩ := frameBody_transferFailed flagged c s h1 h2
      refine .inr ⟨_, _, _, _, s', hr, hF, lvl _, fun hp => ?_, .inr ⟨_, _, rfl, fun _ h => by cases h⟩⟩
      have := (PortsOk.of_env (t := s.dropMove) hp (.inr rfl)).head
      rw [dropMove_env, h2] at this; cases this
    · cases h3 : (s.env.tail.tail.headD EnvMove.calm).outcome.pinOk with
      | false =>
        obtain ⟨inp, conf, s', hr, hlen, -, hF⟩ := frameBody_highFailed flagged c s h1 h2 h3
        refine .inr ⟨_, _, _, _, s', hr, hF, .inr rfl, fun hp => ?_,
          .inr ⟨_, _, rfl, fun _ h => by rw [← Option.some.inj h]; exact hlen⟩⟩
        have := (PortsOk.of_env (t := s.dropMove.dropMove) (PortsOk.of_env (t := s.dropMove) hp (.inr rfl)) (.inr rfl)).head
        rw [dropMove_env, dropMove_env] at this
        rw [this] at h3; cases h3
      | true =>
        obtain ⟨inp, s', hr, hF⟩ := frameBody_succeeded flagged c s h1 h2 h3
        exact .inl ⟨inp, s', hr, hF⟩

end Sys2Proof.Machine
end

