-- ==== Sys2Proof/Laws/Bounds.lean ====
section
/-! SUPPORT. The FIFO bounds (rules R64, R65): every radio event, every command and every draw keeps them. -/

namespace Sys2Proof.Machine

/-- Both FIFOs are within their depths. -/
def Radio.bounded (par : Params) (r : Radio) : Prop :=
  r.txFifo.length ≤ Config.txFifoDepth ∧ r.rxFifo.length ≤ par.rxFifoDepth

theorem attachAck_length (p : Pipe) (q : List TxEntry) : (attachAck p q).length = q.length := by
  induction q with
  | nil => rfl
  | cons e rest ih =>
    cases e with
    | data d => simp [attachAck, ih]
    | ack q d a =>
      simp only [attachAck]
      split <;> simp [ih]

theorem advanceAck_length (p : Pipe) (q : List TxEntry) : (advanceAck p q).length ≤ q.length := by
  induction q with
  | nil => exact Nat.le_refl _
  | cons e rest ih =>
    cases e with
    | data d => simp [advanceAck, ih]
    | ack q d a =>
      simp only [advanceAck]
      split
      · split <;> simp [attachAck_length]
      · simp [ih]

@[simp] theorem accept_txFifo (par : Params) (r : Radio) (pkt : RxPacket) : (r.accept par pkt).txFifo = r.txFifo := by
  simp only [Radio.accept]; split <;> rfl
@[simp] theorem accept_txDs (par : Params) (r : Radio) (pkt : RxPacket) : (r.accept par pkt).txDs = r.txDs := by
  simp only [Radio.accept]; split <;> rfl
@[simp] theorem accept_maxRt (par : Params) (r : Radio) (pkt : RxPacket) : (r.accept par pkt).maxRt = r.maxRt := by
  simp only [Radio.accept]; split <;> rfl

theorem accept_bounded {par : Params} {r : Radio} (pkt : RxPacket) (h : r.bounded par) :
    (r.accept par pkt).bounded par := by
  simp only [Radio.accept]
  split
  · exact ⟨h.1, by simp; omega⟩
  · exact h

theorem event_bounded {par : Params} {r : Radio} (regs : Regs) (ce : Level) (e : RadioEvent) (h : r.bounded par) :
    (r.event par regs ce e).bounded par := by
  cases e with
  | received p d use =>
    simp only [Radio.event]
    split
    · split
      · exact ⟨Nat.le_trans (advanceAck_length _ _) (accept_bounded _ h).1, (accept_bounded _ h).2⟩
      · exact accept_bounded _ h
    · exact h
  | repeated p again use =>
    have attach : ∀ {r : Radio}, r.bounded par → Radio.bounded par
        (if !r.maxRt && (regs.ackEnabled p || use) then { r with txFifo := attachAck p r.txFifo } else r) := fun hr => by
      split
      · exact ⟨by simpa only [attachAck_length] using hr.1, hr.2⟩
      · exact hr
    simp only [Radio.event]
    split
    · cases again with
      | none => exact attach h
      | some d => exact attach (accept_bounded _ h)
    · exact h
  | sent arc ack =>
    simp only [Radio.event]
    split
    · split
      · rename_i d rest hq
        have h' : Radio.bounded par { r with txFifo := rest, txDs := true, arcCnt := arc } :=
          ⟨by have := h.1; rw [hq] at this; simp at this ⊢; omega, h.2⟩
        split
        · exact h'
        · exact accept_bounded _ h'
      · exact h
    · exact h
  | maxRetries =>
    simp only [Radio.event]
    split
    · split
      · exact h
      · exact h
    · exact h
  | counters plos arc => exact h
  | carrier on => exact h

theorem events_bounded {par : Params} {r : Radio} (regs : Regs) (ce : Level) (evs : List RadioEvent)
    (h : r.bounded par) : (r.events par regs ce evs).bounded par := by
  induction evs generalizing r with
  | nil => exact h
  | cons e rest ih => exact ih (event_bounded regs ce e h)

theorem freeTxFifo_length (n : Nat) : (freeTxFifo n).length ≤ Config.txFifoDepth := by simp [freeTxFifo]

theorem freeRadio_bounded (par : Params) (n : Nat) : (freeRadio par n).bounded par :=
  ⟨freeTxFifo_length n, by simp [freeRadio]⟩

theorem enqueue_bounded {par : Params} {r : Radio} (n : Nat) (d : List Byte) (e : TxEntry) (h : r.bounded par) :
    (r.enqueue n d e).bounded par := by
  simp only [Radio.enqueue]
  split
  · exact ⟨freeTxFifo_length n, h.2⟩
  · rename_i hf
    refine ⟨?_, h.2⟩
    have hlt : ¬ Config.txFifoDepth ≤ r.txFifo.length := fun hle => hf (by simp [Radio.txFull, hle])
    simp only [List.length_append, List.length_singleton]
    omega

theorem commit_bounded {par : Params} {p : Periph} (n : Nat) (c : Cmd) (h : p.radio.bounded par) :
    (p.commit n c).radio.bounded par := by
  cases c with
  | wRegister r data => cases r <;> exact h
  | wTxPayload d => exact enqueue_bounded n d _ h
  | wAckPayload q d => exact enqueue_bounded n d _ h
  | rRxPayload w => exact ⟨h.1, by have := h.2; simp only [Periph.commit, List.length_tail]; omega⟩
  | flushTx => exact ⟨Nat.zero_le _, h.2⟩
  | flushRx => exact ⟨h.1, Nat.zero_le _⟩
  | rRegister r n => exact h
  | rRxPlWid => exact h
  | nop => exact h

/-- A frame that returned keeps the bounds. -/
theorem FrameOk.bounded {flagged : Bool} {c : Cmd} {inp : List Byte} {s s' : State} (h : FrameOk flagged c inp s s')
    (hb : s.periph.radio.bounded s.params) : s'.periph.radio.bounded s'.params := by
  rw [h.params]
  obtain ⟨evs, n, hp | hp⟩ := h.periph
  · rw [hp]; exact freeRadio_bounded _ n
  · rw [hp]
    cases flagged
    · exact commit_bounded n c (events_bounded _ _ evs hb)
    · exact freeRadio_bounded _ n

theorem lose_bounded {par : Params} {p : Periph} (n : Nat) (flagged conf : Bool) (c : Cmd) (h : p.radio.bounded par) :
    (p.lose par n flagged conf c).radio.bounded par := by
  have hf := freeRadio_bounded par n
  cases conf
  · exact hf
  cases flagged
  · cases c with
    | wRegister r data => cases r <;> first | exact h | exact hf
    | wTxPayload d => exact ⟨hf.1, h.2⟩
    | wAckPayload q d => exact ⟨hf.1, h.2⟩
    | flushTx => exact ⟨hf.1, h.2⟩
    | rRxPayload w => exact ⟨h.1, hf.2⟩
    | flushRx => exact ⟨h.1, hf.2⟩
    | rRegister r n => exact h
    | rRxPlWid => exact h
    | nop => exact h
  · exact hf

/-- A frame that failed keeps the bounds. -/
theorem FrameFailed.bounded {flagged conf : Bool} {c : Cmd} {e : ErrKind} {evs : List PortEvent} {l : Level}
    {s s' : State} (h : FrameFailed flagged conf c e evs l s s') (hb : s.periph.radio.bounded s.params) :
    s'.periph.radio.bounded s'.params := by
  rw [h.params]
  obtain ⟨e1, e2, n, hp⟩ := h.periph
  rw [hp]
  exact events_bounded _ _ e2 (lose_bounded n flagged conf c (events_bounded _ _ e1 hb))

/-- The RX FIFO that `read` leaves open keeps the bounds. -/
theorem openRxFifo_bounded {s : State} (h : s.periph.radio.bounded s.params) :
    ∃ s', openRxFifo s = .ok () s' ∧ s'.periph.radio.bounded s'.params :=
  ⟨_, run_openRxFifo s, h.1, (freeRadio_bounded s.params s.draws).2⟩

/-! ## The registers a failed frame leaves (rules R200, R404; U24) -/

theorem takeReg_stored (regs free : Regs) {r q : Reg} (h : q ≠ r) : (regs.takeReg free r).stored q = regs.stored q := by
  cases r <;> cases q <;> first | rfl | exact absurd rfl h | skip
  rename_i p p'
  have : p' ≠ p := fun hp => h (by rw [hp])
  cases p <;> cases p' <;> first | rfl | exact absurd rfl this

/-- A frame that failed leaves every register it does not write, unless its transfer did not conform. -/
theorem FrameFailed.stored {flagged : Bool} {c : Cmd} {e : ErrKind} {evs : List PortEvent} {l : Level} {s s' : State}
    (h : FrameFailed flagged true c e evs l s s') (q : Reg) (hq : ∀ d, c ≠ .wRegister q d) :
    s'.periph.regs.stored q = s.periph.regs.stored q := by
  obtain ⟨e1, e2, n, hp⟩ := h.periph
  rw [hp]
  cases c with
  | wRegister r d => exact takeReg_stored _ _ fun hr => hq d (by rw [hr])
  | _ => rfl

end Sys2Proof.Machine
end

