-- ==== Sys2Proof/Laws/Keeps.lean ====
section
/-! SUPPORT. What whole operations keep: a relation between the state before and after that survives every primitive
survives every operation built from them, however it ends; and how the acceptance of an operation runs. -/

namespace Sys2Proof.Machine

variable {α β : Type} {R : State → State → Prop}

/-! ## Acceptance (rules R36, R171) -/

@[simp] theorem entry_idle {s : State} (hs : s.seq = .idle) (i : Instr) : s.entry i = some (s.start i) := by
  simp [State.entry, hs]

theorem hostOp_runs {i : Instr} {legal : Mode → Bool} {body : Op Value} {s : State} (hs : s.seq = .idle)
    (hl : legal s.mode = true) : hostOp i legal body s = deliver (body (s.start i)) := by
  simp [hostOp, hs, hl]

theorem hostOp_refuses {i : Instr} {legal : Mode → Bool} {body : Op Value} {s : State} (hs : s.seq = .idle)
    (hl : legal s.mode = false) : hostOp i legal body s = .refused (.notLegalInMode s.mode) := by
  simp [hostOp, hs, hl]

theorem frameOp_runs {i : Instr} {body : Op Value} {s : State} (hs : s.seq = .idle) :
    frameOp i body s = deliver (body (s.start i)) := by
  simp [frameOp, hs]

theorem loopOp_starts {i : Instr} {legal : Mode → Bool} {pass : Bool → Op (Option Bool)} {s : State}
    (hs : s.seq = .idle) (hl : legal s.mode = true) :
    loopOp i legal pass s = deliverPass i (pass false (s.start i).advance) := by
  simp [loopOp, State.loopEntry, hs, hl, loopStretch, run_bind, SeqPos.point, run_tick (s := s.start i) rfl]

theorem loopOp_goes_on {i : Instr} {legal : Mode → Bool} {pass : Bool → Op (Option Bool)} {s : State}
    {lost : Bool} (hs : s.seq = .busy i loopHead lost none) (hl : legal s.mode = true) :
    loopOp i legal pass s = deliverPass i (pass lost (s.withResult none)) := by
  simp [loopOp, State.loopEntry, hs, hl, loopStretch, run_bind, SeqPos.point, SeqPos.lost, loopHead]

/-! ## Hazard marks (rule R411) -/

theorem run_markFlush {s : State} (h : s.seq.began = none) : markFlush s =
    if s.activeRx then .ok true (s.advance.addFault (.hazard .flushInActiveRx)).advance
    else .ok false s.advance := by
  simp only [markFlush, run_bind, run_get, run_tick h, run_ite, run_hazard _ (s := s.advance) (by simpa using h), run_pure]

theorem run_markPower {s : State} (h : s.seq.began = none) : markPower s =
    if s.ce ≠ .low then .ok true (s.advance.addFault (.hazard .powerToggleWithCe)).advance
    else .ok false s.advance := by
  simp only [markPower, run_bind, run_get, run_tick h, run_ite, run_hazard _ (s := s.advance) (by simpa using h), run_pure]

/-! ## The width read (rule R266) -/

/-- With the ports succeeding, `get_address_width` reads SETUP_AW and gives its field plus 2. -/
theorem getAddressWidth_ok {s : State} (h : Clear s) :
    ∃ st s', getAddressWidth s = .ok (2 + (s.periph.regs.setupAw &&& 3#8).toNat) s' ∧
      Framed (.rRegister .setupAw 1) [st, s.periph.regs.setupAw] s s' := by
  obtain ⟨inp, s', hr, hF⟩ := readReg_ok setupAwReg 1 h (by decide)
  have hF' : Framed (.rRegister .setupAw 1) inp s s' := hF
  have hi : inp = [inp.headD 0, s.periph.regs.setupAw] :=
    hF'.stored (by decide) (by simp [Regs.stored]) (by simp [Regs.stored])
  rw [hi] at hr hF'
  refine ⟨inp.headD 0, s', ?_, hF'⟩
  have hd : ∀ b : BitVec 8, (setupAwReg.decode [b]).toNat = (b &&& 3#8).toNat := by decide
  simp only [getAddressWidth, run_bind, hr, run_pure, List.tail_cons, hd]

/-! ## Relations an operation keeps -/

/-- `x` relates the state before and after by `R`, however it ends, and every value it returns meets `Q`. -/
def Sat (R : State → State → Prop) (Q : α → Prop) (x : Op α) : Prop :=
  ∀ s, match x s with
    | .ok a s' => R s s' ∧ Q a
    | .error _ s' => R s s'

/-- A relation that survives every primitive the operations are built from. -/
structure Survives (R : State → State → Prop) : Prop where
  refl : ∀ s, R s s
  trans : ∀ {s t u}, R s t → R t u → R s u
  advance : ∀ s : State, R s s.advance
  frame : ∀ flagged c, c.wellFormed = true → Sat R (fun r => r.2.length + 1 = c.len) (frameBody flagged c)
  cePin : ∀ level, Sat R (fun _ => True) (pinWrite .ce level)
  csnPin : Sat R (fun _ => True) (pinWrite .csn true)
  ce : ∀ s l, R s (s.withCe l)
  csn : ∀ s l, l ≠ .low → R s (s.withCsn l)
  shadow : ∀ s b, R s (s.withShadow b)
  hazard : ∀ s h, R s (s.addFault (.hazard h))
  abort : Sat R (fun _ => True) abortInFlight
  openRx : Sat R (fun _ => True) openRxFifo

theorem Sat.bind (hR : Survives R) {Q : α → Prop} {P : β → Prop} {x : Op α} {f : α → Op β} (hx : Sat R Q x)
    (hf : ∀ a, Q a → Sat R P (f a)) : Sat R P (x >>= f) := by
  intro s
  have h := hx s
  rw [run_bind]
  cases hxs : x s with
  | error e s1 => simpa [hxs] using h
  | ok a s1 =>
    rw [hxs] at h
    have k := hf a h.2 s1
    dsimp only
    cases hfs : f a s1 with
    | ok b s2 => rw [hfs] at k; exact ⟨hR.trans h.1 k.1, k.2⟩
    | error e s2 => rw [hfs] at k; exact hR.trans h.1 k

theorem sat_pure (hR : Survives R) {Q : α → Prop} {a : α} (h : Q a) : Sat R Q (pure a : Op α) := fun s => ⟨hR.refl s, h⟩
theorem sat_raise (hR : Survives R) {Q : α → Prop} (e : ErrKind) : Sat R Q (raise e : Op α) := fun s => hR.refl s
theorem sat_violate (hR : Survives R) {Q : α → Prop} (v : Violation) : Sat R Q (violate v : Op α) := fun s => hR.refl s
theorem sat_throw (hR : Survives R) {Q : α → Prop} (e : Stop) : Sat R Q (throw e : Op α) := fun s => hR.refl s
theorem sat_get (hR : Survives R) : Sat R (fun _ => True) (get : Op State) := fun s => ⟨hR.refl s, trivial⟩

theorem sat_modify {f : State → State} (h : ∀ s, R s (f s)) : Sat R (fun _ => True) (modify f : Op Unit) :=
  fun s => ⟨h s, trivial⟩

theorem sat_ite {Q : α → Prop} {c : Prop} [Decidable c] {x y : Op α} (hx : c → Sat R Q x) (hy : ¬ c → Sat R Q y) :
    Sat R Q (if c then x else y) := by
  split
  · exact hx ‹_›
  · exact hy ‹_›

/-! ## Program points -/

/-- A program point keeps what its primitive event keeps. -/
theorem sat_primitive (hR : Survives R) {Q : α → Prop} {x : Op α} (h : Sat R Q x) : Sat R Q (primitive x) := by
  intro s
  rw [run_primitive]
  cases s.seq.reached
  · have := h s
    cases hx : x s with
    | ok a s' => rw [hx] at this; exact ⟨hR.trans this.1 (hR.advance s'), this.2⟩
    | error e s' => rw [hx] at this; exact this
  · exact hR.refl s

theorem sat_tick (hR : Survives R) : Sat R (fun _ => True) tick := sat_primitive hR (sat_pure hR trivial)

theorem sat_setShadow (hR : Survives R) (b : Byte) : Sat R (fun _ => True) (setShadow b) :=
  sat_primitive hR (sat_modify fun s => hR.shadow s b)

theorem sat_hazard (hR : Survives R) (h : Hazard) : Sat R (fun _ => True) (Machine.hazard h) :=
  sat_primitive hR (sat_modify fun s => hR.hazard s h)

theorem sat_frameWith (hR : Survives R) (flagged : Bool) (c : Cmd) (h : c.wellFormed = true) :
    Sat R (fun r => r.2.length + 1 = c.len) (frameWith flagged c) := sat_primitive hR (hR.frame flagged c h)

theorem sat_ceWriteWith (hR : Survives R) {landed : Op Unit} (h : Sat R (fun _ => True) landed) (level : Bool) :
    Sat R (fun _ => True) (ceWriteWith landed level) := by
  refine (sat_primitive hR (Q := fun _ => True) ((hR.cePin level).bind hR fun ok _ => ?_)).bind hR fun ok _ =>
    (sat_primitive hR (sat_modify fun s => hR.ce s _)).bind hR fun _ _ =>
      sat_ite (fun _ => sat_raise hR _) fun _ => sat_pure hR trivial
  exact sat_ite (fun _ => h.bind hR fun _ _ => sat_pure hR trivial) fun _ => sat_pure hR trivial

theorem sat_ce (hR : Survives R) (level : Bool) : Sat R (fun _ => True) (ceWriteWith (return ()) level) :=
  sat_ceWriteWith hR (sat_pure hR trivial) level

theorem sat_raiseCsn (hR : Survives R) : Sat R (fun _ => True) raiseCsn :=
  (sat_primitive hR hR.csnPin).bind hR fun ok _ =>
    (sat_primitive hR (sat_modify fun s => hR.csn s _ (by cases ok <;> decide))).bind hR fun _ _ =>
      sat_ite (fun _ => sat_raise hR _) fun _ => sat_pure hR trivial

/-- What comes after a program point. -/
theorem sat_ticked (hR : Survives R) {Q : α → Prop} {x : Op α} (h : Sat R Q x) : Sat R Q (tick >>= fun _ => x) :=
  (sat_tick hR).bind hR fun _ _ => h

/-- A test that ends the operation if it holds; what comes after may use that it does not. -/
theorem sat_check (hR : Survives R) {Q : α → Prop} {c : Prop} [Decidable c] {e : Stop} {x : Op α}
    (h : ¬ c → Sat R Q x) : Sat R Q (check c (throw e) >>= fun _ => x) := by
  have hc : Sat R (fun _ => ¬ c) (check c (throw e)) :=
    sat_ticked hR (sat_ite (fun _ => sat_throw hR e) fun hn => sat_pure hR hn)
  exact hc.bind hR fun _ hn => h hn

/-! ## The register accesses (rules R232 to R235) -/

theorem read_wellFormed (T : RegType α) (w : Nat) (h : T.reg.isAddress = true → legalWidth w = true) :
    (Cmd.rRegister T.reg (if T.reg.isAddress then w else 1)).wellFormed = true := by
  simp only [Cmd.wellFormed, Reg.legalLen]
  cases hA : T.reg.isAddress <;> simp_all

/-- A read returns the decoding of as many bytes as it asked for. -/
theorem sat_readReg (hR : Survives R) (T : RegType α) (w : Nat) :
    Sat R (fun r => ∃ d, r.2 = T.decode d ∧ d.length = if T.reg.isAddress then w else 1) (readReg T w) := by
  have rest (h : T.reg.isAddress = true → legalWidth w = true) :
      Sat R (fun r => ∃ d, r.2 = T.decode d ∧ d.length = if T.reg.isAddress then w else 1) (do
        tick
        let r ← frame (.rRegister T.reg (if T.reg.isAddress then w else 1))
        return (r.1, T.decode r.2)) :=
    sat_ticked hR <| Sat.bind hR (sat_frameWith hR false _ (read_wellFormed T w h)) fun r hr => sat_pure hR ⟨r.2, rfl, by
      simp only [len_rRegister] at hr; omega⟩
  exact sat_ticked hR (sat_ite (fun _ => sat_check hR fun h => rest fun _ => by simpa using h)
    fun hA => rest fun h => absurd h hA)

theorem sat_writeReg (hR : Survives R) (T : RegType α) (v : α)
    (hT : (T.reg.isAddress = true → legalWidth (T.encode v).length = true) → T.reg.legalLen (T.encode v).length = true) :
    Sat R (fun _ => True) (writeReg T v) := by
  refine sat_check hR fun h => Sat.bind hR (sat_frameWith hR false _ ?_) fun r hr => sat_ticked hR ?_
  · exact hT (by cases hA : T.reg.isAddress <;> simp_all)
  · apply sat_ite
    · exact fun _ => Sat.bind hR (sat_setShadow hR _) fun _ _ => sat_pure hR trivial
    · exact fun _ => Sat.bind hR (sat_pure hR (Q := fun _ => True) trivial) fun _ _ => sat_pure hR trivial

theorem sat_updateReg [DecidableEq α] (hR : Survives R) (T : RegType α) (w : Nat) (f : α → α × β)
    (hT : ∀ d, (T.reg.isAddress = true → legalWidth (T.encode (f (T.decode d)).1).length = true) →
      T.reg.legalLen (T.encode (f (T.decode d)).1).length = true) : Sat R (fun _ => True) (updateReg T w f) := by
  refine sat_check hR fun _ => Sat.bind hR (sat_readReg hR T w) ?_
  rintro ⟨st, v⟩ ⟨d, hd, -⟩
  dsimp only at hd; subst hd
  refine sat_ticked hR (sat_ticked hR (sat_ite (fun _ => ?_) fun _ => sat_pure hR trivial))
  exact Sat.bind hR (sat_writeReg hR T _ (hT d)) fun _ _ => sat_pure hR trivial

theorem config_wellFormed (c : ConfigReg) : (Cmd.wRegister .config [c.encode]).wellFormed = true := rfl

theorem sat_updateConfig (hR : Survives R) (flagged : Bool) (f : ConfigReg → ConfigReg × β) :
    Sat R (fun _ => True) (updateConfigWith flagged f) := by
  refine Sat.bind hR (sat_get hR) fun s _ => ?_
  cases s.shadow with
  | none => exact sat_throw hR _
  | some b =>
    refine sat_ticked hR (sat_ticked hR (sat_ticked hR ?_))
    apply sat_ite
    · exact fun _ => Sat.bind hR (sat_frameWith hR flagged _ (config_wellFormed _)) fun _ _ =>
        Sat.bind hR (sat_setShadow hR _) fun _ _ => sat_pure hR trivial
    · exact fun _ => sat_pure hR trivial

theorem sat_forPipes (hR : Survives R) {body : Pipe → Op Unit} (h : ∀ p, Sat R (fun _ => True) (body p)) :
    ∀ ps, Sat R (fun _ => True) (forPipes body ps)
  | [] => sat_pure hR trivial
  | p :: ps => Sat.bind hR (h p) fun _ _ => sat_forPipes hR h ps

end Sys2Proof.Machine
end

