-- ==== Sys2Proof/Laws/Instructions.lean ====
section
/-! SUPPORT. What every instruction and every step keeps: a relation that survives the primitives holds between the state
before and after any instruction that answers next (`exec_keeps`), and what a step is made of (`step_cases`). -/

namespace Sys2Proof.Machine

variable {α β : Type} {R : State → State → Prop}

/-! ## Register values -/

/-- A value of the register's type with a legal width is a legal data phase of its write frame. -/
theorem fits_legalLen {r : Reg} {v : RegVal} (hf : v.fits r = true)
    (h : r.isAddress = true → legalWidth v.encode.length = true) : r.legalLen v.encode.length = true := by
  cases r <;> simp only [RegVal.fits] at hf <;> (split at hf <;> try simp at hf) <;>
    first | exact h rfl | rfl

theorem decode_fits (r : Reg) (d : List Byte) : (RegVal.decode r d).fits r = true := by cases r <;> rfl

/-- A fitting caller's function keeps the register's type. -/
theorem applyFn_fits {r : Reg} {f : RegFn} (hf : f.fits r = true) {x : RegVal} (hx : x.fits r = true) :
    (applyFn r f x).1.fits r = true := by
  cases f with
  | keep t => exact hx
  | put v t => exact hf
  | bits a b t => exact decode_fits _ _
  | graph rows =>
    simp only [applyFn]
    split
    · rename_i row h
      have := List.mem_of_find?_eq_some h
      simp only [RegFn.fits, List.all_eq_true, Bool.and_eq_true] at hf
      exact (hf row this).2
    · exact hx

/-! ## Pieces that keep a relation, whatever they return -/

/-- `x` keeps `R`, however it ends. -/
abbrev Keeps (R : State → State → Prop) (x : Op α) : Prop := Sat R (fun _ => True) x

theorem Sat.keeps {Q : α → Prop} {x : Op α} (h : Sat R Q x) : Keeps R x := by
  intro s
  have := h s
  cases hx : x s <;> rw [hx] at this
  · exact ⟨this.1, trivial⟩
  · exact this

theorem keeps_bind (hR : Survives R) {x : Op α} {f : α → Op β} (hx : Keeps R x) (hf : ∀ a, Keeps R (f a)) :
    Keeps R (x >>= f) := hx.bind hR fun a _ => hf a

theorem keeps_pure (hR : Survives R) (a : α) : Keeps R (pure a : Op α) := sat_pure hR trivial

theorem keeps_map (hR : Survives R) {x : Op α} {f : α → β} (hx : Keeps R x) : Keeps R (x >>= fun a => pure (f a)) :=
  keeps_bind hR hx fun _ => keeps_pure hR _

theorem keeps_unit (hR : Survives R) {x : Op Unit} (h : Keeps R x) : Keeps R (returningUnit x) := keeps_map hR h

theorem keeps_frameWith (hR : Survives R) (b : Bool) {c : Cmd} (h : c.wellFormed = true) : Keeps R (frameWith b c) :=
  (sat_frameWith hR b c h).keeps

theorem keeps_frame (hR : Survives R) {c : Cmd} (h : c.wellFormed = true) : Keeps R (frame c) := keeps_frameWith hR false h

theorem keeps_runFrame (hR : Survives R) {c : Cmd} (h : c.wellFormed = true) : Keeps R (runFrame c) :=
  keeps_bind hR (sat_get hR) fun _ => keeps_map hR (keeps_frameWith hR _ h)

theorem keeps_readReg (hR : Survives R) (T : RegType α) (w : Nat) : Keeps R (readReg T w) := (sat_readReg hR T w).keeps

/-- What comes after a program point. -/
theorem keeps_ticked (hR : Survives R) {x : Op α} (h : Keeps R x) : Keeps R (tick >>= fun _ => x) := sat_ticked hR h

theorem keeps_violation (hR : Survives R) {c : Prop} [Decidable c] {v : Violation} {x : Op α} (h : Keeps R x) :
    Keeps R (check c (violate v) >>= fun _ => x) := sat_check hR fun _ => h

/-- Tests of all pipes that end the operation if one holds. -/
theorem keeps_checkPipes (hR : Survives R) {bad : Six Bool} {v : Violation} {x : Op α} (h : Keeps R x) :
    Keeps R (checkPipes bad (violate v) >>= fun _ => x) :=
  keeps_bind hR (sat_forPipes hR (fun _ => sat_ticked hR (sat_ite (fun _ => sat_violate hR v) fun _ => sat_pure hR trivial))
    Pipe.all) fun _ => h

/-- An operation that ends in an error if the condition holds. -/
theorem keeps_error (hR : Survives R) {c : Prop} [Decidable c] {e : ErrKind} {x : Op α} (h : ¬ c → Keeps R x) :
    Keeps R (check c (raise e) >>= fun _ => x) := sat_check hR h

/-- A piece that runs under a condition, and what comes after it. -/
theorem keeps_writeReg (hR : Survives R) (T : RegType α) (v : α) (x : RegVal) (hx : x.fits T.reg = true)
    (he : x.encode = T.encode v) : Keeps R (writeReg T v) :=
  sat_writeReg hR T v fun h => he ▸ fits_legalLen hx (he ▸ h)

/-- A register update whose new values are those of fitting register values. -/
theorem keeps_updateReg [DecidableEq α] (hR : Survives R) (T : RegType α) (w : Nat) (f : α → α × β) (val : α → RegVal)
    (hx : ∀ v, (val v).fits T.reg = true) (he : ∀ v, (val v).encode = T.encode v) : Keeps R (updateReg T w f) :=
  sat_updateReg hR T w f fun d h => he (f (T.decode d)).1 ▸ fits_legalLen (hx _) (he (f (T.decode d)).1 ▸ h)

/-! ## The configuration operations -/

theorem keeps_markFlush (hR : Survives R) : Keeps R markFlush :=
  keeps_bind hR (sat_get hR) fun _ => keeps_ticked hR <|
    sat_ite (fun _ => keeps_bind hR (sat_hazard hR _) fun _ => keeps_pure hR _) (fun _ => keeps_pure hR _)

theorem keeps_flushRx (hR : Survives R) : Keeps R flushRx :=
  keeps_bind hR (keeps_markFlush hR) fun _ => keeps_map hR (keeps_frameWith hR _ rfl)

theorem keeps_flushTx (hR : Survives R) : Keeps R flushTx :=
  keeps_bind hR (keeps_markFlush hR) fun _ => keeps_map hR (keeps_frameWith hR _ rfl)

theorem keeps_setFrequency (hR : Survives R) (ch : Byte) : Keeps R (setFrequency ch) :=
  keeps_ticked hR (keeps_updateReg hR rfChReg 1 _ .rfCh (fun _ => rfl) (fun _ => rfl))

theorem keeps_setRf (hR : Survives R) (rate : DataRate) (power : Byte) : Keeps R (setRf rate power) :=
  keeps_violation hR <| keeps_ticked hR (keeps_updateReg hR rfSetupReg 1 _ .rfSetup (fun _ => rfl) (fun _ => rfl))

theorem keeps_getAddressWidth (hR : Survives R) : Keeps R getAddressWidth := keeps_map hR (keeps_readReg hR _ _)

theorem keeps_setAddressWidth (hR : Survives R) (w : Byte) : Keeps R (setAddressWidth w) :=
  keeps_violation hR (keeps_updateReg hR setupAwReg 1 _ .setupAw (fun _ => rfl) (fun _ => rfl))

theorem keeps_updateConfig (hR : Survives R) (f : ConfigReg → ConfigReg) : Keeps R (updateConfig f) :=
  sat_updateConfig hR _ _

theorem keeps_setCrc (hR : Survives R) (mode : CrcMode) : Keeps R (setCrc mode) :=
  keeps_ticked hR (keeps_updateConfig hR _)

theorem keeps_setPipesRxEnable (hR : Survives R) (b : Six Bool) : Keeps R (setPipesRxEnable b) :=
  keeps_updateReg hR enRxaddrReg 1 _ .pipes (fun _ => rfl) (fun _ => rfl)

theorem keeps_setAutoAck (hR : Survives R) (b : Six Bool) : Keeps R (setAutoAck b) :=
  keeps_updateReg hR enAaReg 1 _ .pipes (fun _ => rfl) (fun _ => rfl)

theorem keeps_setAutoRetransmit (hR : Survives R) (a b : Byte) : Keeps R (setAutoRetransmit a b) :=
  keeps_updateReg hR setupRetrReg 1 _ .setupRetr (fun _ => rfl) (fun _ => rfl)

theorem keeps_writeStatus (hR : Survives R) (v : Status) : Keeps R (writeReg statusReg v) :=
  keeps_writeReg hR statusReg v (.status v) rfl rfl

theorem keeps_clearInterrupts (hR : Survives R) : Keeps R clearInterrupts := keeps_map hR (keeps_writeStatus hR _)

theorem keeps_writeRxAddr (hR : Survives R) (p : Pipe) (a : List Byte) : Keeps R (writeRxAddr p a) := by
  cases p
  · exact keeps_writeReg hR rxAddrP0Reg a (.addr a) rfl rfl
  · exact keeps_writeReg hR rxAddrP1Reg a (.addr a) rfl rfl
  · exact keeps_writeReg hR rxAddrP2Reg _ (.addrLow (a.headD 0)) rfl rfl
  · exact keeps_writeReg hR rxAddrP3Reg _ (.addrLow (a.headD 0)) rfl rfl
  · exact keeps_writeReg hR rxAddrP4Reg _ (.addrLow (a.headD 0)) rfl rfl
  · exact keeps_writeReg hR rxAddrP5Reg _ (.addrLow (a.headD 0)) rfl rfl

theorem keeps_setPipeAddr (hR : Survives R) (p : Pipe) (a : List Byte) : Keeps R (setPipeAddr p a) :=
  keeps_bind hR (keeps_getAddressWidth hR) fun _ => keeps_violation hR <|
    keeps_ticked hR (keeps_map hR (keeps_writeRxAddr hR p a))

theorem keeps_setRxAddr (hR : Survives R) (pipe : Byte) (a : List Byte) : Keeps R (setRxAddr pipe a) := by
  unfold setRxAddr
  refine keeps_ticked hR ?_
  split
  · exact sat_raise hR _
  · exact keeps_setPipeAddr hR _ _

theorem keeps_setTxAddr (hR : Survives R) (a : List Byte) : Keeps R (setTxAddr a) :=
  keeps_bind hR (keeps_getAddressWidth hR) fun _ =>
    keeps_violation hR (keeps_map hR (keeps_writeReg hR txAddrReg a (.addr a) rfl rfl))

theorem keeps_setPipeLength (hR : Survives R) (l : Six (Option Byte)) (p : Pipe) : Keeps R (setPipeLength l p) := by
  unfold setPipeLength
  refine keeps_ticked hR ?_
  split
  · exact keeps_updateReg hR (rxPwReg p) 1 _ .rxPw (fun _ => rfl) (fun _ => rfl)
  · exact keeps_pure hR _

theorem keeps_setPipesRxLengths (hR : Survives R) (l : Six (Option Byte)) : Keeps R (setPipesRxLengths l) :=
  keeps_checkPipes hR <| keeps_ticked hR <|
    keeps_bind hR (keeps_updateReg hR featureReg 1 _ .feature (fun _ => rfl) (fun _ => rfl)) fun _ =>
    keeps_bind hR (keeps_updateReg hR dynpdReg 1 _ .pipes (fun _ => rfl) (fun _ => rfl)) fun _ =>
    sat_forPipes hR (keeps_setPipeLength hR l) Pipe.all

theorem keeps_setConfiguredAddr (hR : Survives R) (a : Six (Option (List Byte))) (p : Pipe) :
    Keeps R (setConfiguredAddr a p) := by
  unfold setConfiguredAddr
  refine keeps_ticked hR ?_
  split
  · exact keeps_setRxAddr hR _ _
  · exact keeps_pure hR _

theorem keeps_configureRx (hR : Survives R) (c : RxConfig) : Keeps R (configureRx c) :=
  keeps_violation hR <| keeps_violation hR <| keeps_checkPipes hR <| keeps_checkPipes hR <|
    keeps_bind hR (keeps_setFrequency hR _) fun _ => keeps_bind hR (keeps_setRf hR _ _) fun _ =>
    keeps_bind hR (keeps_setAddressWidth hR _) fun _ => keeps_bind hR (keeps_setCrc hR _) fun _ =>
    keeps_bind hR (sat_forPipes hR (keeps_setConfiguredAddr hR _) _) fun _ =>
    keeps_bind hR (keeps_setPipesRxEnable hR _) fun _ => keeps_bind hR (keeps_setAutoAck hR _) fun _ =>
    keeps_setPipesRxLengths hR _

theorem keeps_configureTx (hR : Survives R) (c : TxConfig) : Keeps R (configureTx c) :=
  keeps_violation hR <| keeps_violation hR <| keeps_violation hR <|
    keeps_bind hR (keeps_setFrequency hR _) fun _ => keeps_bind hR (keeps_setRf hR _ _) fun _ =>
    keeps_bind hR (keeps_setAddressWidth hR _) fun _ => keeps_bind hR (keeps_setCrc hR _) fun _ =>
    keeps_bind hR (keeps_setAutoRetransmit hR _ _) fun _ => keeps_bind hR (keeps_setTxAddr hR _) fun _ =>
    keeps_bind hR (keeps_setRxAddr hR _ _) fun _ => keeps_bind hR (keeps_setPipesRxEnable hR _) fun _ =>
    keeps_bind hR (keeps_setAutoAck hR _) fun _ => keeps_setPipesRxLengths hR _

/-! ## Receive, transmit and power -/

theorem keeps_readFifo (hR : Survives R) : Keeps R readFifo := keeps_readReg hR _ _

theorem keeps_send (hR : Survives R) (d : List Byte) : Keeps R (send d) :=
  keeps_error hR fun h => keeps_bind hR (keeps_readFifo hR) fun _ => keeps_error hR fun _ =>
    keeps_bind hR (keeps_frame hR (by simp [Cmd.wellFormed, Config.payloadMax] at *; omega)) fun _ => sat_ce hR true

theorem keeps_push (hR : Survives R) (pipe : Byte) (d : List Byte) : Keeps R (push pipe d) := by
  unfold push
  refine keeps_ticked hR ?_
  split
  · exact sat_raise hR _
  · exact keeps_error hR fun h => keeps_bind hR (keeps_readFifo hR) fun _ => keeps_error hR fun _ =>
      keeps_map hR (keeps_frame hR (by simp [Cmd.wellFormed, Config.payloadMax] at *; omega))

theorem keeps_readPayload (hR : Survives R) : Keeps R readPayload := by
  refine keeps_bind hR (keeps_frame hR rfl) fun r => keeps_ticked hR ?_
  refine sat_ite (fun _ => keeps_map hR (keeps_frame hR rfl)) fun h => keeps_ticked hR ?_
  refine sat_ite (fun _ => keeps_map hR hR.openRx) fun _ => ?_
  exact keeps_map hR (keeps_frame hR (by simp [Cmd.wellFormed, Config.payloadMax] at *; omega))

theorem keeps_canRead (hR : Survives R) : Keeps R canRead :=
  keeps_bind hR (keeps_clearInterrupts hR) fun _ => keeps_bind hR (keeps_readFifo hR) fun _ =>
    keeps_ticked hR (keeps_pure hR _)

theorem keeps_waitPass (hR : Survives R) (lost : Bool) : Keeps R (waitPass lost) := by
  refine keeps_bind hR (keeps_readFifo hR) fun r => keeps_ticked hR ?_
  refine sat_ite (fun _ => keeps_bind hR (sat_ce hR false) fun _ => keeps_error hR fun _ => keeps_pure hR _) fun _ =>
    keeps_ticked hR (sat_ite (fun _ => ?_) (fun _ => keeps_map hR (sat_ce hR true)))
  exact keeps_bind hR (keeps_frame hR rfl) fun _ => keeps_bind hR (keeps_writeStatus hR _) fun _ =>
    keeps_ticked hR (keeps_pure hR _)

theorem keeps_setPower (hR : Survives R) (up : Bool) : Keeps R (setPower up) := by
  refine keeps_bind hR (keeps_bind hR (sat_get hR) fun _ => keeps_ticked hR ?_) fun _ => sat_updateConfig hR _ _
  exact sat_ite (fun _ => keeps_bind hR (sat_hazard hR _) fun _ => keeps_pure hR _) (fun _ => keeps_pure hR _)

/-! ## Whole instructions -/

/-- The relation also holds across what acceptance and delivery write. -/
structure Delivers (R : State → State → Prop) : Prop where
  seq : ∀ s q, R s (s.withSeq q)
  result : ∀ s r, R s (s.withResult r)
  fault : ∀ s r, R s (s.addFault r)

variable {s t : State} {i : Instr}

theorem deliver_keeps (hR : Survives R) (hE : Delivers R) {x : Op Value} (hx : Keeps R x)
    (h : deliver (x s) = .next t) : R s t := by
  have := hx s
  cases hxs : x s with
  | ok v s1 =>
    rw [hxs] at h this
    simp only [deliver] at h
    injection h with h
    subst h
    exact hR.trans this.1 (hR.trans (hE.seq _ _) (hE.result _ _))
  | error e s1 =>
    rw [hxs] at h this
    cases e <;> simp only [deliver] at h
    · injection h with h
      subst h
      exact hR.trans this (hR.trans (hE.seq _ _) (hE.result _ _))
    · injection h with h
      subst h
      exact hR.trans this (hR.trans (hE.seq _ _) (hR.trans (hE.result _ _) (hE.fault _ _)))
    · cases h
    · injection h with h
      exact h ▸ this

/-- An instruction that answers next ran from the state its stretch began in, or from the state as it is. -/
theorem loopEntry_origin {s0 : State} (h : s.loopEntry i = some s0) :
    ∃ q r, s0 = (s.origin.withSeq q).withResult r := by
  unfold State.loopEntry State.entry at h
  unfold State.origin
  cases hs : s.seq with
  | idle => simp only [hs] at h; cases h; exact ⟨_, _, rfl⟩
  | busy op k lost b =>
    rw [hs] at h
    cases b with
    | none =>
      dsimp only at h
      split at h <;> cases h
      exact ⟨s.seq, none, rfl⟩
    | some b =>
      dsimp only at h
      split at h <;> cases h
      exact ⟨_, _, rfl⟩

theorem loopEntry_of_entry {s0 : State} (h : s.entry i = some s0) : s.loopEntry i = some s0 := by
  unfold State.loopEntry
  split
  · rename_i hs; simp [State.entry, hs] at h
  · exact h
  · exact h

theorem entry_keeps (hR : Survives R) (hE : Delivers R) {s0 : State} (h : s.loopEntry i = some s0) : R s.origin s0 := by
  obtain ⟨q, r, rfl⟩ := loopEntry_origin h
  exact hR.trans (hE.seq _ _) (hE.result _ _)

theorem hostOp_keeps (hR : Survives R) (hE : Delivers R) {legal : Mode → Bool} {x : Op Value} (hx : Keeps R x)
    (h : hostOp i legal x s = .next t) : R s.origin t := by
  unfold hostOp at h
  split at h
  · rename_i s0 h0
    split at h
    · exact hR.trans (entry_keeps hR hE (loopEntry_of_entry h0)) (deliver_keeps hR hE hx h)
    · cases h
  · cases h

theorem frameOp_keeps (hR : Survives R) (hE : Delivers R) {x : Op Value} (hx : Keeps R x)
    (h : frameOp i x s = .next t) : R s.origin t := by
  unfold frameOp at h
  split at h
  · rename_i s0 h0
    exact hR.trans (entry_keeps hR hE (loopEntry_of_entry h0)) (deliver_keeps hR hE hx h)
  · cases h

theorem deliverPass_keeps (hR : Survives R) (hE : Delivers R) {x : Op (Option Bool)} (hx : Keeps R x)
    (h : deliverPass i (x s) = .next t) : R s t := by
  have hs := hx s
  cases hxs : x s with
  | ok v s1 =>
    rw [hxs] at h hs
    cases v <;> simp only [deliverPass, deliver] at h <;> (injection h with h; subst h)
    · exact hR.trans hs.1 (hR.trans (hE.seq _ _) (hE.result _ _))
    · exact hR.trans hs.1 (hE.seq _ _)
  | error e s1 =>
    apply deliver_keeps hR hE (keeps_map hR hx (f := fun _ => Value.unit))
    rw [run_bind, hxs]
    rw [hxs] at h
    exact h

theorem keeps_loopStretch (hR : Survives R) {x : Bool → Op (Option Bool)} (hx : ∀ b, Keeps R (x b)) :
    Keeps R (loopStretch x) :=
  keeps_bind hR (sat_get hR) fun _ => sat_ite (fun _ => keeps_ticked hR (hx _)) fun _ => hx _

theorem loopOp_keeps (hR : Survives R) (hE : Delivers R) {legal : Mode → Bool} {x : Bool → Op (Option Bool)}
    (hx : ∀ b, Keeps R (x b)) (h : loopOp i legal x s = .next t) : R s.origin t := by
  unfold loopOp at h
  split at h
  · rename_i s0 h0
    split at h
    · exact hR.trans (entry_keeps hR hE h0) (deliverPass_keeps hR hE (keeps_loopStretch hR hx) h)
    · cases h
  · cases h

/-- The five transitions of rule R319. -/
def isTransition : Instr → Bool
  | .new _ _ _ | .rx | .tx | .standbyRx | .standbyTx => true
  | _ => false

/-- An instruction that is no transition keeps a relation that survives the primitives. -/
theorem exec_keeps (hR : Survives R) (hE : Delivers R) (hw : i.wellFormed = true) (ht : isTransition i = false)
    (h : exec i s = .next t) : R s.origin t := by
  cases i <;> first | (cases ht; done) | skip
  case frameRRegister r n => exact frameOp_keeps hR hE (keeps_runFrame hR (c := .rRegister r n) hw) h
  case frameWRegister r d => exact frameOp_keeps hR hE (keeps_runFrame hR (c := .wRegister r d) hw) h
  case frameRRxPlWid => exact frameOp_keeps hR hE (keeps_runFrame hR rfl) h
  case frameRRxPayload w => exact frameOp_keeps hR hE (keeps_runFrame hR (c := .rRxPayload w) hw) h
  case frameWTxPayload d => exact frameOp_keeps hR hE (keeps_runFrame hR (c := .wTxPayload d) hw) h
  case frameWAckPayload p d => exact frameOp_keeps hR hE (keeps_runFrame hR (c := .wAckPayload p d) hw) h
  case frameFlushTx => exact frameOp_keeps hR hE (keeps_runFrame hR rfl) h
  case frameFlushRx => exact frameOp_keeps hR hE (keeps_runFrame hR rfl) h
  case frameNop => exact frameOp_keeps hR hE (keeps_runFrame hR rfl) h
  case sendCommand c => exact hostOp_keeps hR hE (keeps_runFrame hR hw) h
  case writeRegister r v =>
    exact hostOp_keeps hR hE (keeps_map hR (sat_writeReg hR (valReg r) v fun hl => fits_legalLen hw hl)) h
  case readRegister r w => exact hostOp_keeps hR hE (keeps_map hR (keeps_readReg hR _ _)) h
  case updateRegister r w f =>
    exact hostOp_keeps hR hE (keeps_map hR (sat_updateReg hR (valReg r) w _ fun d hl =>
      fits_legalLen (applyFn_fits hw (decode_fits r d)) hl)) h
  case updateConfig f => exact hostOp_keeps hR hE (keeps_map hR (sat_updateConfig hR _ _)) h
  case ceEnable => exact hostOp_keeps hR hE (keeps_map hR (sat_ce hR true)) h
  case ceDisable =>
    exact hostOp_keeps hR hE (keeps_map hR (sat_ceWriteWith hR hR.abort false)) h
  case flushRx => exact hostOp_keeps hR hE (keeps_unit hR (keeps_flushRx hR)) h
  case flushTx => exact hostOp_keeps hR hE (keeps_unit hR (keeps_flushTx hR)) h
  case setFrequency => exact hostOp_keeps hR hE (keeps_unit hR (keeps_setFrequency hR _)) h
  case getFrequency => exact hostOp_keeps hR hE (keeps_map hR (keeps_map hR (keeps_readReg hR _ _))) h
  case setRf => exact hostOp_keeps hR hE (keeps_unit hR (keeps_setRf hR _ _)) h
  case getAddressWidth => exact hostOp_keeps hR hE (keeps_map hR (keeps_getAddressWidth hR)) h
  case setAddressWidth => exact hostOp_keeps hR hE (keeps_unit hR (keeps_setAddressWidth hR _)) h
  case setCrc => exact hostOp_keeps hR hE (keeps_unit hR (keeps_setCrc hR _)) h
  case setInterruptMask => exact hostOp_keeps hR hE (keeps_unit hR (keeps_updateConfig hR _)) h
  case setPipesRxEnable => exact hostOp_keeps hR hE (keeps_unit hR (keeps_setPipesRxEnable hR _)) h
  case getInterrupts => exact hostOp_keeps hR hE (keeps_map hR (keeps_map hR (keeps_frame hR rfl))) h
  case clearInterrupts => exact hostOp_keeps hR hE (keeps_unit hR (keeps_clearInterrupts hR)) h
  case setRxAddr => exact hostOp_keeps hR hE (keeps_unit hR (keeps_setRxAddr hR _ _)) h
  case setTxAddr => exact hostOp_keeps hR hE (keeps_unit hR (keeps_setTxAddr hR _)) h
  case setPipesRxLengths => exact hostOp_keeps hR hE (keeps_unit hR (keeps_setPipesRxLengths hR _)) h
  case setAutoRetransmit => exact hostOp_keeps hR hE (keeps_unit hR (keeps_setAutoRetransmit hR _ _)) h
  case getAutoAck => exact hostOp_keeps hR hE (keeps_map hR (keeps_map hR (keeps_readReg hR _ _))) h
  case setAutoAck => exact hostOp_keeps hR hE (keeps_unit hR (keeps_setAutoAck hR _)) h
  case configureRx => exact hostOp_keeps hR hE (keeps_unit hR (keeps_configureRx hR _)) h
  case configureTx => exact hostOp_keeps hR hE (keeps_unit hR (keeps_configureTx hR _)) h
  case powerUp => exact hostOp_keeps hR hE (keeps_unit hR (keeps_setPower hR _)) h
  case powerDown => exact hostOp_keeps hR hE (keeps_unit hR (keeps_setPower hR _)) h
  case canRead => exact hostOp_keeps hR hE (keeps_map hR (keeps_canRead hR)) h
  case read => exact hostOp_keeps hR hE (keeps_map hR (keeps_readPayload hR)) h
  case push => exact hostOp_keeps hR hE (keeps_unit hR (keeps_push hR _ _)) h
  case hasCarrier => exact hostOp_keeps hR hE (keeps_map hR (keeps_readReg hR _ _)) h
  case isEmpty => exact hostOp_keeps hR hE (keeps_map hR (keeps_readFifo hR)) h
  case isFull => exact hostOp_keeps hR hE (keeps_map hR (keeps_readFifo hR)) h
  case send => exact hostOp_keeps hR hE (keeps_unit hR (keeps_send hR _)) h
  case canSend => exact hostOp_keeps hR hE (keeps_map hR (keeps_readFifo hR)) h
  case waitEmpty => exact loopOp_keeps hR hE (keeps_waitPass hR) h
  case observe => exact hostOp_keeps hR hE (keeps_map hR (keeps_readReg hR _ _)) h

/-- Every instruction keeps a relation that survives the primitives and a change of mode. -/
theorem exec_keeps_mode (hR : Survives R) (hE : Delivers R) (hm : ∀ s m, R s (s.withMode m)) (hw : i.wellFormed = true)
    (h : exec i s = .next t) : R s.origin t := by
  have mode : ∀ m, Keeps R (setMode m) := fun m => sat_primitive hR (sat_modify fun s => hm s m)
  by_cases ht : isTransition i = false
  · exact exec_keeps hR hE hw ht h
  · cases i <;> first | (exact absurd rfl ht) | skip
    case new a b c =>
      exact hostOp_keeps hR hE (keeps_unit hR <| keeps_bind hR (sat_ce hR false) fun _ => keeps_bind hR (sat_raiseCsn hR) fun _ =>
        keeps_ticked hR <| keeps_bind hR (keeps_writeReg hR configReg _ (.config (defaultConfig a b c)) rfl rfl) fun _ =>
        keeps_bind hR (keeps_getAddressWidth hR) fun _ => keeps_error hR fun _ =>
        keeps_bind hR (keeps_updateConfig hR _) fun _ => mode _) h
    case rx =>
      exact hostOp_keeps hR hE (keeps_unit hR <| keeps_bind hR (keeps_updateConfig hR _) fun _ =>
        keeps_bind hR (sat_ce hR true) fun _ => mode _) h
    case tx => exact hostOp_keeps hR hE (keeps_unit hR <| keeps_bind hR (keeps_updateConfig hR _) fun _ => mode _) h
    case standbyRx => exact hostOp_keeps hR hE (keeps_unit hR <| keeps_bind hR (sat_ce hR false) fun _ => mode _) h
    case standbyTx =>
      refine loopOp_keeps hR hE (fun b => keeps_bind hR (keeps_waitPass hR b) fun r => ?_) h
      cases r with
      | none => exact keeps_bind hR (sat_ce hR false) fun _ => keeps_map hR (mode _)
      | some _ => exact keeps_pure hR _

/-! ## Windows -/

/-- Every window that decodes gives a well-formed command. -/
theorem decodeCmd_wellFormed {window : List Byte} {c : Cmd} (h : decodeCmd window = .ok c) : c.wellFormed = true := by
  cases window with
  | nil => cases h
  | cons b d =>
    simp only [decodeCmd] at h
    repeat' split at h
    all_goals cases h
    all_goals simp_all [Cmd.wellFormed]

theorem toInstr_wellFormed (c : Cmd) : c.toInstr.wellFormed = c.wellFormed := by cases c <;> rfl

theorem decode_wellFormed {window : List Byte} {i : Instr} (h : decode window = .ok i) : i.wellFormed = true := by
  unfold decode at h
  split at h
  · rename_i c hc
    injection h with h
    rw [← h, toInstr_wellFormed, decodeCmd_wellFormed hc]
  · cases h

/-- Every request runs a well-formed instruction: a call is typed, and a window decodes to one. -/
theorem request_wellFormed {r : Request} {i : Instr} (h : r.instr = .ok i) : i.wellFormed = true := by
  cases r with
  | op c => injection h with h; exact h ▸ c.typed
  | window bytes => exact decode_wellFormed h

/-! ## Steps -/

@[simp] theorem beginAt_origin (s : State) (op : Instr) (k : Nat) (lost : Bool) :
    (s.beginAt op k lost).origin =
      (s.withSeq (if k = 0 then .idle else .busy op loopHead lost none)).withResult none := rfl

/-- A step that answers next waits, or runs one instruction: the one under way, or that of the request it takes. -/
theorem step_cases (h : step s = .next t) :
    (t = s ∧ s.nextInstr = none) ∨
      ∃ i s0, s.nextInstr = some i ∧ exec i s0 = .next t ∧
        ((s0 = s ∧ ∃ k lost b, s.seq = .busy i k lost (some b)) ∨
          (∃ k lost, s.seq = .busy i k lost none ∧ s0 = s.beginAt i k lost) ∨
          s.seq = .idle ∧ i.wellFormed = true ∧ ∃ rest, s0 = State.beginAt { s with requests := rest } i 0 false) := by
  unfold step at h
  split at h
  · rename_i op k lost b hs
    exact .inr ⟨op, s, by simp [State.nextInstr, hs], h, .inl ⟨rfl, k, lost, b, hs⟩⟩
  · rename_i op k lost hs
    exact .inr ⟨op, _, by simp [State.nextInstr, hs], h, .inr (.inl ⟨k, lost, hs, rfl⟩)⟩
  · rename_i hs
    split at h
    · rename_i hq
      injection h with h
      exact .inl ⟨h.symm, by simp [State.nextInstr, hs, hq]⟩
    · rename_i r rest hq
      split at h
      · cases h
      · rename_i i hi
        exact .inr ⟨i, _, by simp [State.nextInstr, hs, hq, hi], h,
          .inr (.inr ⟨hs, request_wellFormed hi, rest, rfl⟩)⟩

end Sys2Proof.Machine
end

