-- ==== Sys2Proof/Laws/Points.lean ====
section
/-! SUPPORT. Program points (rule R36): an operation run up to a point pauses exactly there, and one run past its last
point ends as the whole operation does (`Paced`, for every instruction). -/

namespace Sys2Proof.Machine

variable {α β : Type}

/-! ## Running up to a point -/

/-- `B.seq` with a stretch, and so a point to stop at. -/
def SeqPos.paced (b : Stretch) : SeqPos → SeqPos
  | .idle => .idle
  | .busy op k lost _ => .busy op k lost (some b)

def State.paced (b : Stretch) (s : State) : State := s.withSeq (s.seq.paced b)

/-- The state an operation ends in. -/
def finalState : EStateM.Result Stop State α → State
  | .ok _ s => s
  | .error _ s => s

/-- A result with its state changed. -/
def mapState (f : State → State) : EStateM.Result Stop State α → EStateM.Result Stop State α
  | .ok a s => .ok a (f s)
  | .error e s => .error e (f s)

@[simp] theorem paced_seq (b : Stretch) (s : State) : (s.paced b).seq = s.seq.paced b := rfl
@[simp] theorem paced_idle (b : Stretch) : SeqPos.idle.paced b = .idle := rfl
@[simp] theorem paced_busy (b : Stretch) (op k lost b') :
    (SeqPos.busy op k lost b').paced b = .busy op k lost (some b) := rfl
@[simp] theorem paced_next (b : Stretch) (q : SeqPos) : q.next.paced b = (q.paced b).next := by cases q <;> rfl
@[simp] theorem paced_point (b : Stretch) (q : SeqPos) : (q.paced b).point = q.point := by cases q <;> rfl
theorem paced_advance (b : Stretch) (s : State) : (s.paced b).advance = s.advance.paced b := by
  simp [State.advance, State.paced, State.withSeq]

/-! ## Pieces of a primitive event -/

/-- A piece that neither moves `B.seq` nor sees where the step is to stop. -/
structure Atomic (x : Op α) : Prop where
  paced : ∀ b s, x (s.paced b) = mapState (·.paced b) (x s)
  pauses : ∀ s t, x s ≠ .error .pause t
  seq : ∀ s, (finalState (x s)).seq = s.seq
  trace : ∀ s, ∃ evs : List PortEvent,
    (finalState (x s)).trace = s.trace ++ evs.map fun e => { point := s.seq.point, event := e }

theorem atomic_pure (a : α) : Atomic (pure a : Op α) :=
  ⟨fun _ _ => rfl, fun _ _ h => (nomatch h), fun _ => rfl, fun _ => ⟨[], (List.append_nil _).symm⟩⟩
theorem atomic_throw {e : Stop} (h : e ≠ .pause) : Atomic (throw e : Op α) :=
  ⟨fun _ _ => rfl, fun _ _ he => h (by injection he), fun _ => rfl, fun _ => ⟨[], (List.append_nil _).symm⟩⟩

theorem atomic_modify {f : State → State} (h : ∀ s q, f (s.withSeq q) = (f s).withSeq q) (hs : ∀ s, (f s).seq = s.seq)
    (ht : ∀ s, (f s).trace = s.trace) : Atomic (modify f : Op Unit) :=
  ⟨fun b s => by simp [State.paced, h, hs, mapState], fun _ _ h => (nomatch h), fun s => hs s,
    fun s => ⟨[], by simpa [finalState] using ht s⟩⟩

theorem atomic_modifyGet {f : State → α × State} (h : ∀ s q, f (s.withSeq q) = ((f s).1, (f s).2.withSeq q))
    (hs : ∀ s, (f s).2.seq = s.seq) (ht : ∀ s, (f s).2.trace = s.trace) : Atomic (modifyGet f : Op α) := by
  refine ⟨fun b s => ?_, fun _ _ h => (nomatch h), fun s => hs s, fun s => ⟨[], by
    rw [List.map_nil, List.append_nil]; exact ht s⟩⟩
  show EStateM.Result.ok (f (s.paced b)).1 (f (s.paced b)).2 = .ok (f s).1 ((f s).2.paced b)
  simp [State.paced, h, hs]

theorem atomic_bind {x : Op α} {f : α → Op β} (hx : Atomic x) (hf : ∀ a, Atomic (f a)) : Atomic (x >>= f) := by
  refine ⟨fun b s => ?_, fun s t => ?_, fun s => ?_, fun s => ?_⟩
  · rw [run_bind, run_bind, hx.paced]
    cases x s with
    | ok a t => exact (hf a).paced b t
    | error e t => rfl
  · rw [run_bind]
    have h := hx.pauses s
    cases hxs : x s with
    | error e u => rw [hxs] at h; exact fun he => h u (by injection he with he; rw [he])
    | ok a u => exact (hf a).pauses u t
  · rw [run_bind]
    have h := hx.seq s
    cases hxs : x s with
    | error e t => rw [hxs] at h; exact h
    | ok a t => rw [hxs] at h; exact ((hf a).seq t).trans h
  · rw [run_bind]
    have hq := hx.seq s
    obtain ⟨e1, h1⟩ := hx.trace s
    cases hxs : x s with
    | error e t => rw [hxs] at h1; exact ⟨e1, h1⟩
    | ok a t =>
      rw [hxs] at h1 hq
      obtain ⟨e2, h2⟩ := (hf a).trace t
      simp only [finalState] at h1 hq
      exact ⟨e1 ++ e2, by rw [h2, h1, hq]; simp⟩

/-- A piece that reads what does not depend on `B.seq`. -/
theorem atomic_get {f : State → Op β} (hg : ∀ s q, f (s.withSeq q) = f s) (hf : ∀ s, Atomic (f s)) :
    Atomic ((get : Op State) >>= f) := by
  refine ⟨fun b s => ?_, fun s => (hf s).pauses s, fun s => (hf s).seq s, fun s => (hf s).trace s⟩
  show f (s.paced b) (s.paced b) = _
  rw [State.paced, hg]
  exact (hf s).paced b s

theorem atomic_ite {c : Prop} [Decidable c] {x y : Op α} (hx : Atomic x) (hy : Atomic y) :
    Atomic (if c then x else y) := by
  split
  · exact hx
  · exact hy

theorem atomic_takeMove : Atomic takeMove := atomic_modifyGet (fun _ _ => rfl) (fun _ => rfl) (fun _ => rfl)
theorem atomic_freshDraw : Atomic freshDraw := atomic_modifyGet (fun _ _ => rfl) (fun _ => rfl) (fun _ => rfl)
theorem atomic_radioEvents (evs : List RadioEvent) : Atomic (radioEvents evs) :=
  atomic_modify (fun _ _ => rfl) (fun _ => rfl) (fun _ => rfl)
theorem atomic_setCsn (l : Level) : Atomic (setCsn l) := atomic_modify (fun _ _ => rfl) (fun _ => rfl) (fun _ => rfl)

theorem atomic_note (e : PortEvent) : Atomic (note e) := by
  refine ⟨fun b s => ?_, fun _ _ h => (nomatch h), fun s => rfl, fun s => ⟨[e], rfl⟩⟩
  show EStateM.Result.ok () ((s.paced b).record e) = .ok () ((s.record e).paced b)
  simp [State.record, State.paced, State.withSeq]

theorem atomic_pinWrite (line : Line) (level : Bool) : Atomic (pinWrite line level) :=
  atomic_bind atomic_takeMove fun _ => atomic_bind (atomic_radioEvents _) fun _ => atomic_bind (atomic_note _) fun _ =>
    atomic_pure _

theorem atomic_losePeriph (flagged conforming : Bool) (c : Cmd) : Atomic (losePeriph flagged conforming c) :=
  atomic_bind atomic_freshDraw fun _ => atomic_modify (fun _ _ => rfl) (fun _ => rfl) (fun _ => rfl)

theorem atomic_xfer (flagged : Bool) (c : Cmd) : Atomic (xfer flagged c) := by
  refine atomic_bind atomic_takeMove fun m => atomic_bind (atomic_radioEvents _) fun _ =>
    atomic_get (fun _ _ => rfl) fun _ =>
      atomic_bind (atomic_radioEvents _) fun _ => atomic_bind atomic_freshDraw fun n => ?_
  cases m.outcome with
  | fails => exact atomic_bind (atomic_note _) fun _ => atomic_pure _
  | answers bs => exact atomic_bind (atomic_note _) fun _ => atomic_pure _
  | ok =>
    exact atomic_get (fun _ _ => rfl) fun _ => atomic_bind (atomic_note _) fun _ => atomic_pure _

theorem atomic_settle (flagged conforming : Bool) (c : Cmd) : Atomic (settle flagged conforming c) :=
  atomic_bind atomic_freshDraw fun _ =>
    atomic_ite (atomic_modify (fun _ _ => rfl) (fun _ => rfl) (fun _ => rfl))
      (atomic_modify (fun _ _ => rfl) (fun _ => rfl) (fun _ => rfl))

theorem atomic_raise (e : ErrKind) : Atomic (raise e : Op α) := atomic_throw (by simp)

theorem atomic_frameEnd (flagged : Bool) (c : Cmd) (t : Option Transfer) (raised : Bool) :
    Atomic (frameEnd flagged c t raised) := by
  cases t with
  | none => exact atomic_bind (atomic_losePeriph _ _ _) fun _ => atomic_raise _
  | some t =>
    cases raised
    · exact atomic_bind (atomic_losePeriph _ _ _) fun _ => atomic_raise _
    · exact atomic_bind (atomic_settle _ _ _) fun _ => atomic_pure _

theorem atomic_csnLowFailed (flagged : Bool) (c : Cmd) : Atomic (csnLowFailed flagged c : Op α) :=
  atomic_bind (atomic_setCsn _) fun _ => atomic_bind (atomic_losePeriph _ _ _) fun _ =>
    atomic_bind (atomic_pinWrite _ _) fun _ =>
      atomic_ite (atomic_bind (atomic_setCsn _) fun _ => atomic_raise _) (atomic_raise _)

theorem atomic_frameBody (flagged : Bool) (c : Cmd) : Atomic (frameBody flagged c) :=
  atomic_bind (atomic_pinWrite _ _) fun _ => atomic_ite
    (atomic_bind (atomic_setCsn _) fun _ => atomic_bind (atomic_xfer _ _) fun _ => atomic_bind (atomic_pinWrite _ _) fun _ =>
      atomic_bind (atomic_setCsn _) fun _ => atomic_frameEnd _ _ _ _)
    (atomic_csnLowFailed _ _)

theorem atomic_openRxFifo : Atomic openRxFifo :=
  atomic_bind atomic_freshDraw fun _ => atomic_modify (fun _ _ => rfl) (fun _ => rfl) (fun _ => rfl)

theorem atomic_abortInFlight : Atomic abortInFlight :=
  atomic_get (fun _ _ => rfl) fun _ =>
    atomic_ite (atomic_bind atomic_freshDraw fun _ => atomic_modify (fun _ _ => rfl) (fun _ => rfl) (fun _ => rfl))
      (atomic_pure _)

theorem atomic_ceLanded {landed : Op Unit} (h : Atomic landed) (level : Bool) : Atomic (do
    let ok ← pinWrite .ce level
    if ok then landed
    return ok) :=
  atomic_bind (atomic_pinWrite _ _) fun _ => atomic_ite (atomic_bind h fun _ => atomic_pure _) (atomic_pure _)

/-- A primitive event: atomic, and its port events are those of one program point. -/
structure Primitive (x : Op α) : Prop extends Atomic x where
  one : ∀ s evs, (finalState (x s)).events = s.events ++ evs → OnePrimitive evs

/-- An atomic piece without port events. -/
structure Silent (x : Op α) : Prop extends Atomic x where
  still : ∀ s, (finalState (x s)).trace = s.trace

theorem Silent.primitive {x : Op α} (h : Silent x) : Primitive x :=
  ⟨h.toAtomic, fun s evs he => .inl (by simpa [State.events, h.still s] using he)⟩

theorem silent_pure (a : α) : Silent (pure a : Op α) := ⟨atomic_pure a, fun _ => rfl⟩
theorem silent_throw {e : Stop} (h : e ≠ .pause) : Silent (throw e : Op α) := ⟨atomic_throw h, fun _ => rfl⟩
theorem silent_modify {f : State → State} (h : ∀ s q, f (s.withSeq q) = (f s).withSeq q) (hs : ∀ s, (f s).seq = s.seq)
    (ht : ∀ s, (f s).trace = s.trace) : Silent (modify f : Op Unit) := ⟨atomic_modify h hs ht, ht⟩
theorem silent_openRxFifo : Silent openRxFifo := ⟨atomic_openRxFifo, fun _ => rfl⟩
theorem silent_abortInFlight : Silent abortInFlight := by
  refine ⟨atomic_abortInFlight, fun s => ?_⟩
  simp only [abortInFlight, run_bind, run_get]
  cases s.inFlight <;> rfl

theorem primitive_ceLanded {landed : Op Unit} (h : Silent landed) (level : Bool) : Primitive (do
    let ok ← pinWrite .ce level
    if ok then landed
    return ok) := by
  refine ⟨atomic_ceLanded h.toAtomic level, fun s evs he => .inr (.inl ⟨.ce, level, (s.env.headD EnvMove.calm).outcome.pinOk, ?_⟩)⟩
  have ht : ∀ u : State, (finalState ((do landed; return true : Op Bool) u)).trace = u.trace := fun u => by
    have := h.still u
    rw [run_bind]
    cases hx : landed u <;> rw [hx] at this <;> exact this
  rw [run_bind, run_pinWrite] at he
  generalize (s.env.headD EnvMove.calm).outcome.pinOk = ok at *
  cases ok
  · simpa [finalState] using he.symm
  · have := ht (s.moved s.pinEvents (.pin .ce level true))
    simp only [if_true, State.events] at he this
    rw [this] at he
    simpa [State.moved, State.events] using he.symm

theorem primitive_csnPin : Primitive (pinWrite .csn true) :=
  ⟨atomic_pinWrite _ _, fun s evs he => .inr (.inl ⟨.csn, true, _, by
    rw [run_pinWrite] at he; simpa [finalState] using he.symm⟩)⟩

theorem primitive_frameBody (flagged : Bool) (c : Cmd) : Primitive (frameBody flagged c) := by
  refine ⟨atomic_frameBody _ _, fun s evs he => ?_⟩
  rcases frameBody_any flagged c s with ⟨inp, s', hr, hF⟩ | ⟨e, evs', l, conf, s', hr, hF, -, -, hev⟩
  · rw [hr] at he
    have : evs = frameEvents c inp := List.append_cancel_left (he.symm.trans hF.events)
    exact .inr (.inr (.inr ⟨_, _, _, this⟩))
  · rw [hr] at he
    have : evs = evs' := List.append_cancel_left (he.symm.trans hF.events)
    subst this
    rcases hev with ⟨k, h⟩ | ⟨inp, k, h, -⟩
    · exact .inr (.inr (.inl ⟨k, h⟩))
    · exact .inr (.inr (.inr ⟨_, _, _, h⟩))

/-! ## Operations point by point -/

/-- What `n` program points of `x`, run from the point `k` of `op` in `s`, are: they leave the entries `new` in the trace,
each at its point and no more than one primitive event a point; run up to a point it has not passed `x` pauses there,
with the entries before it; run up to its last point or further it ends as the whole run does. -/
structure PacedFrom (x : Op α) (s : State) (op : Instr) (k : Nat) (lost : Bool) (n : Nat) (new : List TraceEntry) :
    Prop where
  pauses : ∀ t, x s ≠ .error .pause t
  seq : ∀ a t, x s = .ok a t → t.seq = .busy op (k + n) lost none
  trace : (finalState (x s)).trace = s.trace ++ new
  points : ∀ e ∈ new, k ≤ e.point ∧ e.point < k + n
  one : ∀ p, OnePrimitive (eventsAt p new)
  past : ∀ b : Stretch, k + n ≤ b.upTo → x (s.paced b) = mapState (·.paced b) (x s)
  upTo : ∀ b : Stretch, k ≤ b.upTo → b.upTo < k + n → ∃ u, x (s.paced b) = .error .pause u ∧
    u.seq = .busy op b.upTo lost (some b) ∧ u.trace = s.trace ++ new.filter (·.point < b.upTo)

/-- From any state of a whole run, `x` is some number of program points. -/
def Paced (x : Op α) : Prop :=
  ∀ (s : State) (op : Instr) (k : Nat) (lost : Bool), s.seq = .busy op k lost none →
    ∃ n new, PacedFrom x s op k lost n new

theorem paced_of_silent {x : Op α} (h : Silent x) : Paced x := by
  intro s op k lost hs
  refine ⟨0, [], ⟨h.pauses s, fun a t hx => ?_, by simpa using h.still s, by simp, fun p => .inl rfl,
    fun b _ => h.paced b s, fun b h1 h2 => by omega⟩⟩
  have := h.seq s
  rw [hx] at this
  exact this.trans hs

theorem paced_pure (a : α) : Paced (pure a : Op α) := paced_of_silent (silent_pure a)
theorem paced_raise (e : ErrKind) : Paced (raise e : Op α) := paced_of_silent (silent_throw (by simp))
theorem paced_violate (v : Violation) : Paced (violate v : Op α) := paced_of_silent (silent_throw (by simp))

theorem filter_point_nil {new : List TraceEntry} {P : TraceEntry → Bool} (h : ∀ e ∈ new, P e = false) :
    new.filter P = [] := List.filter_eq_nil_iff.2 fun e he => by simp [h e he]

theorem paced_bind {x : Op α} {f : α → Op β} (hx : Paced x) (hf : ∀ a, Paced (f a)) : Paced (x >>= f) := by
  intro s op k lost hs
  obtain ⟨n, new, h⟩ := hx s op k lost hs
  cases hxs : x s with
  | error e t =>
    have hb : (x >>= f) s = .error e t := by rw [run_bind, hxs]
    have ht := h.trace
    rw [hxs] at ht
    refine ⟨n, new, ⟨fun u hu => ?_, fun a u hu => (nomatch hb.symm.trans hu), by rw [hb]; exact ht, h.points, h.one,
      fun b hn => ?_, fun b h1 h2 => ?_⟩⟩
    · rw [hb] at hu
      exact h.pauses t (by rw [hxs]; injection hu with hu; rw [hu])
    · rw [hb, run_bind, h.past b hn, hxs]; rfl
    · obtain ⟨u, hu, hq⟩ := h.upTo b h1 h2
      exact ⟨u, by rw [run_bind, hu], hq⟩
  | ok a t =>
    obtain ⟨m, new', h'⟩ := hf a t op (k + n) lost (h.seq a t hxs)
    have hb : (x >>= f) s = f a t := by rw [run_bind, hxs]
    have ht := h.trace
    rw [hxs] at ht
    have lo : ∀ e ∈ new, e.point < k + n := fun e he => (h.points e he).2
    have hi : ∀ e ∈ new', k + n ≤ e.point := fun e he => (h'.points e he).1
    refine ⟨n + m, new ++ new', ⟨by rw [hb]; exact h'.pauses, fun c u hu => ?_, ?_, fun e he => ?_, fun p => ?_,
      fun b hn => ?_, fun b h1 h2 => ?_⟩⟩
    · rw [hb] at hu; rw [← Nat.add_assoc]; exact h'.seq c u hu
    · rw [hb, h'.trace, ← List.append_assoc]; exact congrArg (· ++ new') ht
    · rcases List.mem_append.1 he with he | he
      · have := h.points e he; omega
      · have := h'.points e he; omega
    · by_cases hp : p < k + n
      · have : new'.filter (·.point == p) = [] := filter_point_nil fun e he => by
          have := hi e he; simp; omega
        simpa [eventsAt, List.filter_append, this] using h.one p
      · have : new.filter (·.point == p) = [] := filter_point_nil fun e he => by
          have := lo e he; simp; omega
        simpa [eventsAt, List.filter_append, this] using h'.one p
    · rw [hb, run_bind, h.past b (by omega), hxs]
      exact h'.past b (by omega)
    · by_cases hlt : b.upTo < k + n
      · obtain ⟨u, hu, hq, hut⟩ := h.upTo b h1 hlt
        have : new'.filter (·.point < b.upTo) = [] := filter_point_nil fun e he => by
          have := hi e he; simp; omega
        exact ⟨u, by rw [run_bind, hu], hq, by rw [hut, List.filter_append, this, List.append_nil]⟩
      · obtain ⟨u, hu, hq, hut⟩ := h'.upTo b (by omega) (by omega)
        have : new.filter (·.point < b.upTo) = new := List.filter_eq_self.2 fun e he => by
          have := lo e he; simp; omega
        refine ⟨u, by rw [run_bind, h.past b (by omega), hxs]; exact hu, hq, ?_⟩
        rw [hut, List.filter_append, this, ← List.append_assoc]
        exact congrArg (· ++ _) ht

theorem paced_get {f : State → Op β} (hg : ∀ s q, f (s.withSeq q) = f s) (hf : ∀ s, Paced (f s)) :
    Paced ((get : Op State) >>= f) := by
  intro s op k lost hs
  obtain ⟨n, new, h⟩ := hf s s op k lost hs
  have he : ∀ b, ((get : Op State) >>= f) (s.paced b) = f s (s.paced b) := fun b => by
    show f (s.paced b) (s.paced b) = _
    rw [State.paced, hg]
  exact ⟨n, new, ⟨h.pauses, h.seq, h.trace, h.points, h.one, fun b => by rw [he]; exact h.past b,
    fun b => by rw [he]; exact h.upTo b⟩⟩

theorem paced_ite {c : Prop} [Decidable c] {x y : Op α} (hx : c → Paced x) (hy : ¬ c → Paced y) :
    Paced (if c then x else y) := by
  split
  · exact hx ‹_›
  · exact hy ‹_›

/-- A primitive event is one program point. -/
theorem paced_primitive {x : Op α} (h : Primitive x) : Paced (primitive x) := by
  intro s op k lost hs
  have hr : s.seq.reached = false := by rw [hs]; rfl
  have hrb : ∀ b : Stretch, (s.paced b).seq.reached = decide (b.upTo ≤ k) := fun b => by
    rw [paced_seq, hs]; rfl
  obtain ⟨evs, ht⟩ := h.trace s
  have hp : s.seq.point = k := by rw [hs]; rfl
  rw [hp] at ht
  have hone : OnePrimitive evs := h.one s evs (by simp [State.events, ht, Function.comp_def])
  have hfin : (finalState (primitive x s)).trace = (finalState (x s)).trace := by
    rw [run_primitive, hr]; cases x s <;> rfl
  refine ⟨1, evs.map fun e => { point := k, event := e }, ⟨fun t he => ?_, fun a t he => ?_, hfin.trans ht, ?_, fun p => ?_,
    fun b hn => ?_, fun b h1 h2 => ⟨s.paced b, ?_, ?_, ?_⟩⟩⟩
  · rw [run_primitive, hr] at he
    have := h.pauses s
    cases hx : x s with
    | ok a u => rw [hx] at he; cases he
    | error e u => rw [hx] at he this; exact this u (by injection he with he; rw [he])
  · rw [run_primitive, hr] at he
    have hq := h.seq s
    cases hx : x s with
    | ok a' u =>
      rw [hx] at he hq
      injection he with _ he
      rw [← he]
      show u.seq.next = _
      rw [show u.seq = s.seq from hq, hs]; rfl
    | error e u => rw [hx] at he; cases he
  · simp only [List.mem_map]
    rintro e ⟨v, -, rfl⟩
    exact ⟨Nat.le_refl _, Nat.lt_succ_self _⟩
  · by_cases hpk : p = k
    · subst hpk
      have : eventsAt p (evs.map fun e => ⟨p, e⟩) = evs := by
        rw [eventsAt, List.filter_eq_self.2 (by simp)]; simp [Function.comp_def]
      rw [this]; exact hone
    · refine .inl ?_
      rw [eventsAt, filter_point_nil, List.map_nil]
      simp only [List.mem_map]
      rintro e ⟨v, -, rfl⟩
      simpa using fun hh => hpk hh.symm
  · rw [run_primitive, run_primitive, hr, hrb, decide_eq_false (by omega), h.paced]
    cases x s with
    | ok a t => simp [mapState, paced_advance]
    | error e t => rfl
  · rw [run_primitive, hrb, decide_eq_true (by omega)]; rfl
  · rw [paced_seq, hs, paced_busy]
    obtain rfl : k = b.upTo := by omega
    rfl
  · obtain rfl : k = b.upTo := by omega
    rw [filter_point_nil, List.append_nil]; rfl
    simp only [List.mem_map]
    rintro e ⟨v, -, rfl⟩
    simp

theorem paced_tick : Paced tick := paced_primitive (silent_pure _).primitive
theorem paced_frameWith (flagged : Bool) (c : Cmd) : Paced (frameWith flagged c) := paced_primitive (primitive_frameBody _ _)
theorem paced_frame (c : Cmd) : Paced (frame c) := paced_frameWith _ _

theorem paced_update {f : State → State} (h : ∀ s q, f (s.withSeq q) = (f s).withSeq q) (hs : ∀ s, (f s).seq = s.seq)
    (ht : ∀ s, (f s).trace = s.trace) : Paced (primitive (modify f : Op Unit)) :=
  paced_primitive (silent_modify h hs ht).primitive

theorem paced_setMode (m : Mode) : Paced (setMode m) := paced_update (fun _ _ => rfl) (fun _ => rfl) (fun _ => rfl)
theorem paced_setCe (l : Level) : Paced (setCe l) := paced_update (fun _ _ => rfl) (fun _ => rfl) (fun _ => rfl)
theorem paced_setShadow (b : Byte) : Paced (setShadow b) := paced_update (fun _ _ => rfl) (fun _ => rfl) (fun _ => rfl)
theorem paced_hazard (h : Hazard) : Paced (hazard h) := paced_update (fun _ _ => rfl) (fun _ => rfl) (fun _ => rfl)

theorem paced_ticked {x : Op α} (h : Paced x) : Paced (tick >>= fun _ => x) := paced_bind paced_tick fun _ => h
theorem paced_map {x : Op α} {f : α → β} (h : Paced x) : Paced (x >>= fun a => pure (f a)) :=
  paced_bind h fun _ => paced_pure _

theorem paced_check {c : Prop} [Decidable c] {stop : Op Unit} (h : Paced stop) : Paced (check c stop) :=
  paced_ticked (paced_ite (fun _ => h) fun _ => paced_pure _)

theorem paced_violation {c : Prop} [Decidable c] {v : Violation} {x : Op α} (h : Paced x) :
    Paced (check c (violate v) >>= fun _ => x) := paced_bind (paced_check (paced_violate v)) fun _ => h

theorem paced_error {c : Prop} [Decidable c] {e : ErrKind} {x : Op α} (h : Paced x) :
    Paced (check c (raise e) >>= fun _ => x) := paced_bind (paced_check (paced_raise e)) fun _ => h

theorem paced_forPipes {body : Pipe → Op Unit} (h : ∀ p, Paced (body p)) : ∀ ps, Paced (forPipes body ps)
  | [] => paced_pure _
  | p :: ps => paced_bind (h p) fun _ => paced_forPipes h ps

theorem paced_checkPipes {bad : Six Bool} {v : Violation} {x : Op α} (h : Paced x) :
    Paced (checkPipes bad (violate v) >>= fun _ => x) :=
  paced_bind (paced_forPipes (fun _ => paced_check (paced_violate v)) _) fun _ => h

theorem paced_ceWriteWith {landed : Op Unit} (h : Silent landed) (level : Bool) : Paced (ceWriteWith landed level) :=
  paced_bind (paced_primitive (primitive_ceLanded h level)) fun _ => paced_bind (paced_setCe _) fun _ =>
    paced_ite (fun _ => paced_raise _) fun _ => paced_pure _

theorem paced_ce (level : Bool) : Paced (ceWriteWith (return ()) level) := paced_ceWriteWith (silent_pure _) level

/-! ## Register accesses -/

theorem paced_readReg (T : RegType α) (w : Nat) : Paced (readReg T w) := by
  have rest : Paced (do
      tick
      let r ← frame (.rRegister T.reg (if T.reg.isAddress then w else 1))
      return (r.1, T.decode r.2)) := paced_ticked (paced_map (paced_frame _))
  exact paced_ticked (paced_ite (fun _ => paced_violation rest) fun _ => rest)

theorem paced_writeReg (T : RegType α) (v : α) : Paced (writeReg T v) :=
  paced_violation (paced_bind (paced_frame _) fun _ => paced_ticked
    (paced_ite (fun _ => paced_bind (paced_setShadow _) fun _ => paced_pure _) fun _ => paced_pure _))

theorem paced_updateReg [DecidableEq α] (T : RegType α) (w : Nat) (f : α → α × β) : Paced (updateReg T w f) :=
  paced_violation (paced_bind (paced_readReg T w) fun _ => paced_ticked (paced_ticked
    (paced_ite (fun _ => paced_bind (paced_writeReg T _) fun _ => paced_pure _) fun _ => paced_pure _)))

theorem paced_updateConfigWith (flagged : Bool) (f : ConfigReg → ConfigReg × β) : Paced (updateConfigWith flagged f) := by
  refine paced_get (fun _ _ => rfl) fun s => ?_
  cases s.shadow with
  | none => exact paced_of_silent (silent_throw (by simp))
  | some b =>
    exact paced_ticked (paced_ticked (paced_ticked (paced_ite
      (fun _ => paced_bind (paced_frameWith _ _) fun _ => paced_bind (paced_setShadow _) fun _ => paced_pure _)
      fun _ => paced_pure _)))

theorem paced_updateConfig (f : ConfigReg → ConfigReg) : Paced (updateConfig f) := paced_updateConfigWith _ _

/-! ## The operations -/

theorem paced_unit {x : Op Unit} (h : Paced x) : Paced (returningUnit x) := paced_map h

theorem paced_runFrame (c : Cmd) : Paced (runFrame c) :=
  paced_get (fun _ _ => rfl) fun _ => paced_map (paced_frameWith _ _)

theorem paced_markFlush : Paced markFlush :=
  paced_get (fun _ _ => rfl) fun _ => paced_ticked
    (paced_ite (fun _ => paced_bind (paced_hazard _) fun _ => paced_pure _) fun _ => paced_pure _)

theorem paced_flushRx : Paced flushRx := paced_bind paced_markFlush fun _ => paced_map (paced_frameWith _ _)
theorem paced_flushTx : Paced flushTx := paced_bind paced_markFlush fun _ => paced_map (paced_frameWith _ _)
theorem paced_setFrequency (ch : Byte) : Paced (setFrequency ch) := paced_ticked (paced_updateReg _ _ _)
theorem paced_setRf (rate : DataRate) (power : Byte) : Paced (setRf rate power) :=
  paced_violation (paced_ticked (paced_updateReg _ _ _))
theorem paced_getAddressWidth : Paced getAddressWidth := paced_map (paced_readReg _ _)
theorem paced_setAddressWidth (w : Byte) : Paced (setAddressWidth w) := paced_violation (paced_updateReg _ _ _)
theorem paced_setCrc (mode : CrcMode) : Paced (setCrc mode) := paced_ticked (paced_updateConfig _)
theorem paced_clearInterrupts : Paced clearInterrupts := paced_map (paced_writeReg _ _)

theorem paced_writeRxAddr (p : Pipe) (a : List Byte) : Paced (writeRxAddr p a) := by
  cases p <;> exact paced_writeReg _ _

theorem paced_setPipeAddr (p : Pipe) (a : List Byte) : Paced (setPipeAddr p a) :=
  paced_bind paced_getAddressWidth fun _ => paced_violation (paced_ticked (paced_map (paced_writeRxAddr p a)))

theorem paced_setRxAddr (pipe : Byte) (a : List Byte) : Paced (setRxAddr pipe a) := by
  unfold setRxAddr
  refine paced_ticked ?_
  split
  · exact paced_raise _
  · exact paced_setPipeAddr _ _

theorem paced_setTxAddr (a : List Byte) : Paced (setTxAddr a) :=
  paced_bind paced_getAddressWidth fun _ => paced_violation (paced_map (paced_writeReg _ _))

theorem paced_setPipeLength (l : Six (Option Byte)) (p : Pipe) : Paced (setPipeLength l p) := by
  unfold setPipeLength
  refine paced_ticked ?_
  split
  · exact paced_updateReg _ _ _
  · exact paced_pure _

theorem paced_setPipesRxLengths (l : Six (Option Byte)) : Paced (setPipesRxLengths l) :=
  paced_checkPipes <| paced_ticked <| paced_bind (paced_updateReg _ _ _) fun _ => paced_bind (paced_updateReg _ _ _) fun _ =>
    paced_forPipes (paced_setPipeLength l) _

theorem paced_setConfiguredAddr (a : Six (Option (List Byte))) (p : Pipe) : Paced (setConfiguredAddr a p) := by
  unfold setConfiguredAddr
  refine paced_ticked ?_
  split
  · exact paced_setRxAddr _ _
  · exact paced_pure _

theorem paced_configureRx (c : RxConfig) : Paced (configureRx c) :=
  paced_violation <| paced_violation <| paced_checkPipes <| paced_checkPipes <|
    paced_bind (paced_setFrequency _) fun _ => paced_bind (paced_setRf _ _) fun _ =>
    paced_bind (paced_setAddressWidth _) fun _ => paced_bind (paced_setCrc _) fun _ =>
    paced_bind (paced_forPipes (paced_setConfiguredAddr _) _) fun _ => paced_bind (paced_updateReg _ _ _) fun _ =>
    paced_bind (paced_updateReg _ _ _) fun _ => paced_setPipesRxLengths _

theorem paced_configureTx (c : TxConfig) : Paced (configureTx c) :=
  paced_violation <| paced_violation <| paced_violation <|
    paced_bind (paced_setFrequency _) fun _ => paced_bind (paced_setRf _ _) fun _ =>
    paced_bind (paced_setAddressWidth _) fun _ => paced_bind (paced_setCrc _) fun _ =>
    paced_bind (paced_updateReg _ _ _) fun _ => paced_bind (paced_setTxAddr _) fun _ =>
    paced_bind (paced_setRxAddr _ _) fun _ => paced_bind (paced_updateReg _ _ _) fun _ =>
    paced_bind (paced_updateReg _ _ _) fun _ => paced_setPipesRxLengths _

theorem paced_readFifo : Paced readFifo := paced_readReg _ _

theorem paced_send (d : List Byte) : Paced (send d) :=
  paced_error <| paced_bind paced_readFifo fun _ => paced_error <| paced_bind (paced_frame _) fun _ => paced_ce true

theorem paced_push (pipe : Byte) (d : List Byte) : Paced (push pipe d) := by
  unfold push
  refine paced_ticked ?_
  split
  · exact paced_raise _
  · exact paced_error <| paced_bind paced_readFifo fun _ => paced_error <| paced_map (paced_frame _)

theorem paced_canRead : Paced canRead :=
  paced_bind paced_clearInterrupts fun _ => paced_bind paced_readFifo fun _ => paced_ticked (paced_pure _)

theorem paced_readPayload : Paced readPayload :=
  paced_bind (paced_frame _) fun _ => paced_ticked <| paced_ite (fun _ => paced_map (paced_frame _)) fun _ => paced_ticked <|
    paced_ite (fun _ => paced_map (paced_of_silent silent_openRxFifo)) fun _ => paced_map (paced_frame _)

theorem paced_waitPass (lost : Bool) : Paced (waitPass lost) := by
  refine paced_bind paced_readFifo fun r => paced_ticked <| paced_ite
    (fun _ => paced_bind (paced_ce false) fun _ => paced_error (paced_pure _)) fun _ => paced_ticked <| paced_ite (fun _ => ?_)
      fun _ => paced_map (paced_ce true)
  exact paced_bind (paced_frame _) fun _ => paced_bind (paced_writeReg _ _) fun _ => paced_ticked (paced_pure _)

theorem paced_leaveTxPass (lost : Bool) : Paced (leaveTxPass lost) := by
  refine paced_bind (paced_waitPass lost) fun r => ?_
  cases r with
  | none => exact paced_bind (paced_ce false) fun _ => paced_map (paced_setMode _)
  | some _ => exact paced_pure _

theorem paced_setPower (up : Bool) : Paced (setPower up) := by
  refine paced_bind (paced_get (fun _ _ => rfl) fun _ => paced_ticked ?_) fun _ => paced_updateConfigWith _ _
  exact paced_ite (fun _ => paced_bind (paced_hazard _) fun _ => paced_pure _) fun _ => paced_pure _

theorem paced_raiseCsn : Paced raiseCsn :=
  paced_bind (paced_primitive primitive_csnPin) fun _ =>
    paced_bind (paced_update (fun _ _ => rfl) (fun _ => rfl) (fun _ => rfl)) fun _ =>
    paced_ite (fun _ => paced_raise _) fun _ => paced_pure _

theorem paced_construct (a b c : Bool) : Paced (construct a b c) :=
  paced_bind (paced_ce false) fun _ => paced_bind paced_raiseCsn fun _ => paced_ticked <|
    paced_bind (paced_writeReg _ _) fun _ => paced_bind paced_getAddressWidth fun _ => paced_error <|
    paced_bind (paced_updateConfig _) fun _ => paced_setMode _

end Sys2Proof.Machine
end

