-- ==== Sys2Proof/Laws/Steps.lean ====
section
/-! SUPPORT. Steps and whole instructions (rules R36, R109): the steps of an operation go to its program points one after
the other, and the last of them ends as `exec` does. -/

namespace Sys2Proof.Machine

variable {α : Type} {s t : State} {i : Instr}

/-! ## What an instruction is made of -/

/-- As `PacedFrom`, for a run with its delivery. -/
structure RunPaced (run : State → Host.Outcome State Fault Refusal) (s : State) (op : Instr) (k : Nat) (lost : Bool)
    (n : Nat) (new : List TraceEntry) : Prop where
  trace : ∀ t, run s = .next t → t.trace = s.trace ++ new
  points : ∀ e ∈ new, k ≤ e.point ∧ e.point < k + n
  one : ∀ p, OnePrimitive (eventsAt p new)
  past : ∀ b : Stretch, k + n ≤ b.upTo → run (s.paced b) = run s
  upTo : ∀ b : Stretch, k ≤ b.upTo → b.upTo < k + n → ∃ u, run (s.paced b) = .next u ∧
    u.seq = .busy op b.upTo lost (some b) ∧ u.trace = s.trace ++ new.filter (·.point < b.upTo)

def PacedRun (run : State → Host.Outcome State Fault Refusal) : Prop :=
  ∀ (s : State) (op : Instr) (k : Nat) (lost : Bool), s.seq = .busy op k lost none →
    ∃ n new, RunPaced run s op k lost n new

/-- A delivery that hands a pause on, leaves the trace, and does not see where the step is to stop. -/
structure Delivery (d : EStateM.Result Stop State α → Host.Outcome State Fault Refusal) : Prop where
  pause : ∀ u, d (.error .pause u) = .next u
  ok : ∀ b a u, d (.ok a (State.paced b u)) = d (.ok a u)
  error : ∀ b e u, e ≠ .pause → d (.error e (State.paced b u)) = d (.error e u)
  trace : ∀ r t, d r = .next t → t.trace = (finalState r).trace

theorem pacedRun_of {x : Op α} {d : EStateM.Result Stop State α → Host.Outcome State Fault Refusal} (h : Paced x)
    (hd : Delivery d) : PacedRun fun s => d (x s) := by
  intro s op k lost hs
  obtain ⟨n, new, h⟩ := h s op k lost hs
  refine ⟨n, new, ⟨fun t ht => (hd.trace _ _ ht).trans h.trace, h.points, h.one, fun b hn => ?_, fun b h1 h2 => ?_⟩⟩
  · show d (x (s.paced b)) = d (x s)
    rw [h.past b hn]
    cases hx : x s with
    | ok v t => exact hd.ok b v t
    | error e t => exact hd.error b e t fun he => h.pauses t (by rw [hx, he])
  · obtain ⟨u, hu, hq⟩ := h.upTo b h1 h2
    exact ⟨u, by show d (x (s.paced b)) = _; rw [hu, hd.pause], hq⟩

theorem deliver_error_paced (b : Stretch) {e : Stop} (u : State) (h : e ≠ .pause) :
    deliver (.error e (u.paced b)) = deliver (.error e u) := by
  cases e <;> first | rfl | exact absurd rfl h

theorem deliver_trace (r : EStateM.Result Stop State Value) (t : State) (h : deliver r = .next t) :
    t.trace = (finalState r).trace := by
  cases r with
  | ok v s => injection h with h; rw [← h]; rfl
  | error e s => cases e <;> first | (injection h with h; rw [← h]; rfl) | cases h

theorem delivery : Delivery deliver := ⟨fun _ => rfl, fun _ _ _ => rfl, deliver_error_paced, deliver_trace⟩

theorem deliveryPass (i : Instr) : Delivery (deliverPass i) where
  pause _ := rfl
  ok b a u := by cases a <;> rfl
  error b e u he := deliver_error_paced b u he
  trace r t h := by
    cases r with
    | ok v s => cases v <;> (injection h with h; rw [← h]; rfl)
    | error e s => exact deliver_trace (.error e s) t h

/-- An instruction runs from where its stretch begins, in its legal modes, and its run is paced. -/
structure Runs (i : Instr) (legal : Mode → Bool) (run : State → Host.Outcome State Fault Refusal) : Prop where
  entry : ∀ s s0, s.entry i = some s0 → exec i s = if legal s0.mode then run s0 else .refused (.notLegalInMode s0.mode)
  paced : PacedRun run
  head : isLoop i = true → ∀ s lost, s.seq = .busy i loopHead lost none →
    exec i s = if legal s.mode then run (s.withResult none) else .refused (.notLegalInMode s.mode)

theorem runs_hostOp {legal : Mode → Bool} {x : Op Value} (h : Paced x) (hl : isLoop i = false)
    (he : ∀ s, exec i s = hostOp i legal x s) : ∃ legal run, Runs i legal run :=
  ⟨legal, _, fun s s0 h0 => by rw [he, hostOp, h0],
    pacedRun_of h delivery, fun hh => by simp [hl] at hh⟩

theorem runs_frameOp {x : Op Value} (h : Paced x) (hl : isLoop i = false) (he : ∀ s, exec i s = frameOp i x s) :
    ∃ legal run, Runs i legal run :=
  ⟨fun _ => true, _, fun s s0 h0 => by rw [he, frameOp, h0]; rfl,
    pacedRun_of h delivery, fun hh => by simp [hl] at hh⟩

theorem paced_loopStretch {pass : Bool → Op (Option Bool)} (h : ∀ b, Paced (pass b)) : Paced (loopStretch pass) := by
  intro s op k lost hs
  have run : ∀ q : State, q.seq.point = k → q.seq.lost = lost →
      loopStretch pass q = (if k = 0 then tick >>= fun _ => pass false else pass lost) q := fun q hp hl => by
    simp only [loopStretch, run_bind, run_get, hp, hl, run_ite]
  have hx : Paced (if k = 0 then tick >>= fun _ => pass false else pass lost) :=
    paced_ite (fun _ => paced_ticked (h _)) fun _ => h _
  obtain ⟨n, new, h⟩ := hx s op k lost hs
  have h0 := run s (by rw [hs]; rfl) (by rw [hs]; rfl)
  have hb : ∀ b, _ := fun b => run (s.paced b) (by rw [paced_seq, hs]; rfl) (by rw [paced_seq, hs]; rfl)
  exact ⟨n, new, ⟨by rw [h0]; exact h.pauses, by rw [h0]; exact h.seq, by rw [h0]; exact h.trace, h.points, h.one,
    fun b => by rw [h0, hb]; exact h.past b, fun b => by rw [hb]; exact h.upTo b⟩⟩

theorem runs_loopOp {legal : Mode → Bool} {pass : Bool → Op (Option Bool)} (h : ∀ b, Paced (pass b))
    (he : ∀ s, exec i s = loopOp i legal pass s) : ∃ legal run, Runs i legal run := by
  refine ⟨legal, fun s => deliverPass i (loopStretch pass s), fun s s0 h0 => ?_,
    pacedRun_of (paced_loopStretch h) (deliveryPass i), fun _ s lost hs => ?_⟩
  · rw [he, loopOp, loopEntry_of_entry h0]
  · rw [he, loopOp]; simp only [State.loopEntry, hs, and_self, if_true, withResult_mode]; rfl

theorem exec_runs (i : Instr) : ∃ legal run, Runs i legal run := by
  cases i
  case frameRRegister r n => exact runs_frameOp (paced_runFrame _) rfl fun _ => rfl
  case frameWRegister r d => exact runs_frameOp (paced_runFrame _) rfl fun _ => rfl
  case frameRRxPlWid => exact runs_frameOp (paced_runFrame _) rfl fun _ => rfl
  case frameRRxPayload w => exact runs_frameOp (paced_runFrame _) rfl fun _ => rfl
  case frameWTxPayload d => exact runs_frameOp (paced_runFrame _) rfl fun _ => rfl
  case frameWAckPayload p d => exact runs_frameOp (paced_runFrame _) rfl fun _ => rfl
  case frameFlushTx => exact runs_frameOp (paced_runFrame _) rfl fun _ => rfl
  case frameFlushRx => exact runs_frameOp (paced_runFrame _) rfl fun _ => rfl
  case frameNop => exact runs_frameOp (paced_runFrame _) rfl fun _ => rfl
  case sendCommand c => exact runs_hostOp (paced_runFrame _) rfl fun _ => rfl
  case writeRegister r v => exact runs_hostOp (paced_map (paced_writeReg _ _)) rfl fun _ => rfl
  case readRegister r w => exact runs_hostOp (paced_map (paced_readReg _ _)) rfl fun _ => rfl
  case updateRegister r w f => exact runs_hostOp (paced_map (paced_updateReg _ _ _)) rfl fun _ => rfl
  case updateConfig f => exact runs_hostOp (paced_map (paced_updateConfigWith _ _)) rfl fun _ => rfl
  case ceEnable => exact runs_hostOp (paced_map (paced_ce true)) rfl fun _ => rfl
  case ceDisable => exact runs_hostOp (paced_map (paced_ceWriteWith silent_abortInFlight false)) rfl fun _ => rfl
  case flushRx => exact runs_hostOp (paced_unit paced_flushRx) rfl fun _ => rfl
  case flushTx => exact runs_hostOp (paced_unit paced_flushTx) rfl fun _ => rfl
  case setFrequency ch => exact runs_hostOp (paced_unit (paced_setFrequency _)) rfl fun _ => rfl
  case getFrequency => exact runs_hostOp (paced_map (paced_map (paced_readReg _ _))) rfl fun _ => rfl
  case setRf rate power => exact runs_hostOp (paced_unit (paced_setRf _ _)) rfl fun _ => rfl
  case getAddressWidth => exact runs_hostOp (paced_map paced_getAddressWidth) rfl fun _ => rfl
  case setAddressWidth w => exact runs_hostOp (paced_unit (paced_setAddressWidth _)) rfl fun _ => rfl
  case setCrc mode => exact runs_hostOp (paced_unit (paced_setCrc _)) rfl fun _ => rfl
  case setInterruptMask a b c => exact runs_hostOp (paced_unit (paced_updateConfig _)) rfl fun _ => rfl
  case setPipesRxEnable b => exact runs_hostOp (paced_unit (paced_updateReg _ _ _)) rfl fun _ => rfl
  case getInterrupts => exact runs_hostOp (paced_map (paced_map (paced_frame _))) rfl fun _ => rfl
  case clearInterrupts => exact runs_hostOp (paced_unit paced_clearInterrupts) rfl fun _ => rfl
  case setRxAddr p a => exact runs_hostOp (paced_unit (paced_setRxAddr _ _)) rfl fun _ => rfl
  case setTxAddr a => exact runs_hostOp (paced_unit (paced_setTxAddr _)) rfl fun _ => rfl
  case setPipesRxLengths l => exact runs_hostOp (paced_unit (paced_setPipesRxLengths _)) rfl fun _ => rfl
  case setAutoRetransmit a b => exact runs_hostOp (paced_unit (paced_updateReg _ _ _)) rfl fun _ => rfl
  case getAutoAck => exact runs_hostOp (paced_map (paced_map (paced_readReg _ _))) rfl fun _ => rfl
  case setAutoAck b => exact runs_hostOp (paced_unit (paced_updateReg _ _ _)) rfl fun _ => rfl
  case configureRx c => exact runs_hostOp (paced_unit (paced_configureRx _)) rfl fun _ => rfl
  case configureTx c => exact runs_hostOp (paced_unit (paced_configureTx _)) rfl fun _ => rfl
  case new a b c => exact runs_hostOp (paced_unit (paced_construct _ _ _)) rfl fun _ => rfl
  case rx =>
    exact runs_hostOp (paced_unit (paced_bind (paced_updateConfig _) fun _ => paced_bind (paced_ce true) fun _ =>
      paced_setMode _)) rfl fun _ => rfl
  case tx => exact runs_hostOp (paced_unit (paced_bind (paced_updateConfig _) fun _ => paced_setMode _)) rfl fun _ => rfl
  case standbyRx => exact runs_hostOp (paced_unit (paced_bind (paced_ce false) fun _ => paced_setMode _)) rfl fun _ => rfl
  case standbyTx => exact runs_loopOp paced_leaveTxPass fun _ => rfl
  case powerUp => exact runs_hostOp (paced_unit (paced_setPower _)) rfl fun _ => rfl
  case powerDown => exact runs_hostOp (paced_unit (paced_setPower _)) rfl fun _ => rfl
  case canRead => exact runs_hostOp (paced_map paced_canRead) rfl fun _ => rfl
  case read => exact runs_hostOp (paced_map paced_readPayload) rfl fun _ => rfl
  case push p d => exact runs_hostOp (paced_unit (paced_push _ _)) rfl fun _ => rfl
  case hasCarrier => exact runs_hostOp (paced_map (paced_readReg _ _)) rfl fun _ => rfl
  case isEmpty => exact runs_hostOp (paced_map paced_readFifo) rfl fun _ => rfl
  case isFull => exact runs_hostOp (paced_map paced_readFifo) rfl fun _ => rfl
  case send d => exact runs_hostOp (paced_unit (paced_send _)) rfl fun _ => rfl
  case canSend => exact runs_hostOp (paced_map paced_readFifo) rfl fun _ => rfl
  case waitEmpty => exact runs_loopOp paced_waitPass fun _ => rfl
  case observe => exact runs_hostOp (paced_map (paced_readReg _ _)) rfl fun _ => rfl

/-! ## The steps of an operation -/

theorem Steps.snoc {n : Nat} {s u t : State} (h : Steps n s u) (ht : step u = .next t) : Steps (n + 1) s t := by
  induction n generalizing s with
  | zero => obtain rfl : u = s := h; exact ⟨t, ht, rfl⟩
  | succ n ih =>
    obtain ⟨v, hv, hn⟩ := h
    exact ⟨v, hv, ih hn⟩

/-- What waits at the HOST port and the parameters stay. -/
def SamePort (s t : State) : Prop := t.requests = s.requests ∧ t.params = s.params

theorem samePort_survives : Survives SamePort where
  refl _ := ⟨rfl, rfl⟩
  trans h k := ⟨k.1.trans h.1, k.2.trans h.2⟩
  advance _ := ⟨rfl, rfl⟩
  frame flagged c _ s := by
    rcases frameBody_any flagged c s with ⟨inp, s', hr, hF⟩ | ⟨e, evs, l, conf, s', hr, hF, -, -, -⟩
    · rw [hr]
      have hl : inp.tail.length + 1 = c.len := by
        have := hF.len
        cases inp with
        | nil => simp [Cmd.len] at this; omega
        | cons a l => simpa using this
      exact ⟨⟨hF.requests, hF.params⟩, hl⟩
    · rw [hr]; exact ⟨hF.requests, hF.params⟩
  cePin _ _ := ⟨⟨rfl, rfl⟩, trivial⟩
  csnPin _ := ⟨⟨rfl, rfl⟩, trivial⟩
  ce _ _ := ⟨rfl, rfl⟩
  csn _ _ _ := ⟨rfl, rfl⟩
  shadow _ _ := ⟨rfl, rfl⟩
  hazard _ _ := ⟨rfl, rfl⟩
  abort s := by
    simp only [abortInFlight, run_bind, run_get]
    cases s.inFlight <;> exact ⟨⟨rfl, rfl⟩, trivial⟩
  openRx _ := ⟨⟨rfl, rfl⟩, trivial⟩

theorem samePort_exec (hw : i.wellFormed = true) (h : exec i s = .next t) : SamePort s.origin t :=
  exec_keeps_mode samePort_survives ⟨fun _ _ => ⟨rfl, rfl⟩, fun _ _ => ⟨rfl, rfl⟩, fun _ _ => ⟨rfl, rfl⟩⟩
    (fun _ _ => ⟨rfl, rfl⟩) hw h

@[simp] theorem origin_requests (s : State) : s.origin.requests = s.requests := by
  unfold State.origin; split <;> rfl
@[simp] theorem origin_params (s : State) : s.origin.params = s.params := by
  unfold State.origin; split <;> rfl

theorem entry_busy {k : Nat} {lost : Bool} {b : Stretch} (hs : s.seq = .busy i k lost (some b)) :
    s.entry i = some (s.goOn i k lost b) := by
  simp [State.entry, hs]

/-- The start of a stretch at `w`, run up to the `j`th point after it. -/
def upTo (w : State) (i : Instr) (k : Nat) (lost : Bool) (j : Nat) : State :=
  (w.backTo (w.stretch k) (.busy i k lost none)).paced { w.stretch k with upTo := k + j }

theorem goOn_eq {u w : State} (i : Instr) (k : Nat) (lost : Bool) (j m : Nat) (h : SamePort w u) :
    u.goOn i (k + j) lost { w.stretch k with upTo := m } = upTo w i k lost (j + 1) := by
  obtain ⟨h1, h2⟩ := h
  simp only [State.goOn, State.backTo, upTo, State.paced, State.withSeq, SeqPos.paced, h1, h2, State.stretch, Nat.add_assoc]

/-- The steps of a stretch that begins at `w` end as its whole run does. -/
theorem steps_points {legal : Mode → Bool} {run : State → Host.Outcome State Fault Refusal} (hR : Runs i legal run)
    (hw : i.wellFormed = true) {w : State} {k : Nat} {lost : Bool} (hl : legal w.mode = true)
    (hs : step s = exec i (w.beginAt i k lost)) (ht : w.trace = s.trace)
    (hr : run (w.backTo (w.stretch k) (.busy i k lost none)) = .next t) :
    ∃ n new, PointByPoint i k lost s t n new := by
  obtain ⟨n, new, hn⟩ := hR.paced (w.backTo (w.stretch k) (.busy i k lost none)) i k lost rfl
  have first : exec i (w.beginAt i k lost) = run (upTo w i k lost 1) := by
    rw [hR.entry _ ((w.beginAt i k lost).goOn i k lost (w.stretch k)) (entry_busy rfl)]
    have := goOn_eq (u := w.beginAt i k lost) (w := w) i k lost 0 k ⟨rfl, rfl⟩
    rw [show (w.beginAt i k lost).goOn i k lost (w.stretch k) = upTo w i k lost 1 from this]
    exact if_pos hl
  have last : ∀ j, n ≤ j → run (upTo w i k lost j) = .next t := fun j hj => by
    rw [← hr]; exact hn.past { w.stretch k with upTo := k + j } (by simpa using hj)
  have mid : ∀ j, 0 < j → j < n → ∃ u, Steps j s u ∧ run (upTo w i k lost j) = .next u ∧ SamePort w u ∧
      u.seq = .busy i (k + j) lost (some { w.stretch k with upTo := k + j }) ∧
      u.trace = s.trace ++ new.filter (·.point < k + j) := by
    intro j
    induction j with
    | zero => intro h; omega
    | succ j ih =>
      intro _ hj
      obtain ⟨u, hu, hq⟩ := hn.upTo { w.stretch k with upTo := k + (j + 1) } (by simp) (by simpa using hj)
      rw [show (w.backTo (w.stretch k) (.busy i k lost none)).trace = s.trace from ht] at hq
      by_cases h0 : j = 0
      · subst h0
        have he : exec i (w.beginAt i k lost) = .next u := first.trans hu
        exact ⟨u, ⟨u, hs.trans he, rfl⟩, hu, samePort_exec hw he, hq⟩
      · obtain ⟨v, hv, -, hp, hvq, -⟩ := ih (by omega) (by omega)
        have he : exec i v = .next u := by
          rw [hR.entry v _ (entry_busy hvq), goOn_eq i k lost j _ hp]
          exact (if_pos hl).trans hu
        have hp' := samePort_exec hw he
        simp only [SamePort, origin_requests, origin_params] at hp'
        refine ⟨u, hv.snoc ?_, hu, ⟨hp'.1.trans hp.1, hp'.2.trans hp.2⟩, hq⟩
        simpa only [step, hvq] using he
  have htr : t.trace = s.trace ++ new := (hn.trace t hr).trans (congrArg (· ++ new) ht)
  by_cases h1 : n ≤ 1
  · exact ⟨1, new, Nat.le_refl _, ⟨t, by rw [hs, first, last 1 h1], rfl⟩, htr,
      fun e he => by have := hn.points e he; omega, hn.one, fun j h0 hj => by omega⟩
  · refine ⟨n, new, by omega, ?_, htr, hn.points, hn.one, fun j h0 hj => ?_⟩
    · obtain ⟨m, rfl⟩ : ∃ m, n = m + 1 := ⟨n - 1, by omega⟩
      obtain ⟨u, hu, -, hp, hq, -⟩ := mid m (by omega) (by omega)
      refine hu.snoc ?_
      simp only [step, hq]
      rw [hR.entry u _ (entry_busy hq), goOn_eq i k lost m _ hp]
      exact (if_pos hl).trans (last _ (Nat.le_refl _))
    · obtain ⟨u, hu, -, -, hq, hut⟩ := mid j h0 hj
      exact ⟨u, _, hu, hq, hut⟩

/-- From an idle block whose oldest request runs `i`: the steps go through the program points of `i` to what `exec`
answers. -/
theorem steps_request {rest : List Request} (hw : i.wellFormed = true) (hs : s.seq = .idle)
    (hstep : step s = exec i (State.beginAt { s with requests := rest } i 0 false))
    (h : exec i { s with requests := rest } = .next t) :
    ∃ n new, PointByPoint i 0 false s t n new := by
  obtain ⟨legal, run, hR⟩ := exec_runs i
  rw [hR.entry _ _ (entry_idle (s := { s with requests := rest }) hs i)] at h
  split at h
  · rename_i hl
    exact steps_points hR hw (w := { s with requests := rest }) hl hstep rfl h
  · cases h

/-- A frame is one program point. -/
theorem runFrame_paced (c : Cmd) {op : Instr} {k : Nat} {lost : Bool} {b : Stretch} (hs : s.seq = .busy op k lost none)
    (hb : k < b.upTo) : runFrame c (s.paced b) = mapState (·.paced b) (runFrame c s) := by
  have hr : s.seq.reached = false := by rw [hs]; rfl
  have hrb : (s.paced b).seq.reached = false := by rw [paced_seq, hs]; exact decide_eq_false (Nat.not_le_of_lt hb)
  have hd : (s.paced b).drawsFor c = s.drawsFor c := rfl
  simp only [runFrame, run_bind, run_get, hd, frameWith, run_primitive, hr, hrb, (atomic_frameBody _ c).paced]
  cases frameBody (s.drawsFor c) c s with
  | ok a t => simp [mapState, paced_advance]
  | error e t => rfl

/-- The step that begins a frame runs it whole. -/
theorem frame_begun (c : Cmd) {i : Instr} (hs : s.seq = .idle) :
    frameOp i (runFrame c) (s.beginAt i 0 false) = frameOp i (runFrame c) s := by
  have h1 : (s.beginAt i 0 false).entry i = some ((s.start i).paced { s.stretch 0 with upTo := 1 }) := by
    simp [State.entry, State.beginAt, State.withSeq, State.goOn]; rfl
  rw [frameOp, h1, frameOp, entry_idle hs]
  dsimp only
  rw [runFrame_paced c (k := 0) rfl Nat.one_pos]
  obtain ⟨n, new, hp⟩ := paced_runFrame c (s.start i) i 0 false rfl
  cases hx : runFrame c (s.start i) with
  | ok a t => rfl
  | error e t => exact deliver_error_paced _ _ fun he => hp.pauses t (by rw [hx, he])

/-- From a loop head: the steps go through the program points of one pass to what `exec` answers. -/
theorem steps_pass {lost : Bool} (hi : isLoop i = true) (hs : s.seq = .busy i loopHead lost none)
    (h : exec i s = .next t) :
    ∃ n new, PointByPoint i loopHead lost s t n new := by
  have hw : i.wellFormed = true := by cases i <;> first | rfl | cases hi
  obtain ⟨legal, run, hR⟩ := exec_runs i
  rw [hR.head hi s lost hs] at h
  split at h
  · rename_i hl
    refine steps_points hR hw (w := s) (k := loopHead) (lost := lost) hl (by simp [step, hs]) rfl ?_
    rw [← hs]; exact h
  · cases h

end Sys2Proof.Machine
end

