-- ==== Sys2Proof/Tests/Slice0.lean ====
section
/-! SUPPORT. Tests: ill-formed terms refused, words of the spec's encoding tables decoded, one-step vectors of
95_test_vectors.md, and for each statement with hypotheses a witness that meets them. -/

set_option maxRecDepth 8000
set_option Elab.async false

namespace Sys2Proof.Machine.Tests

open Sys2Proof Sys2Proof.Machine

/-! ## Helpers -/

/-- A block in a live mode with shadow and CONFIG `b`, over a peripheral otherwise at reset. -/
def live (m : Mode) (ce : Level) (b : Byte) : State :=
  { State.reset with
    mode := m, ce := ce, csn := .high, shadow := some b
    periph := { State.reset.periph with regs := { State.reset.periph.regs with config := b } } }

def inStandby0 : State := live .standby .low 0x0A
def inRx0 : State := live .rx .high 0x0B
def inTx0 : State := live .tx .high 0x0A

def withTx (s : State) (q : List TxEntry) : State :=
  { s with periph := { s.periph with radio := { s.periph.radio with txFifo := q } } }

def withRx (s : State) (q : List RxPacket) : State :=
  { s with periph := { s.periph with radio := { s.periph.radio with rxFifo := q } } }

def withMaxRt (s : State) : State :=
  { s with periph := { s.periph with radio := { s.periph.radio with maxRt := true } } }

def withOutcomes (s : State) (os : List PortOutcome) : State :=
  { s with env := os.map fun o => { events := [], during := [], outcome := o } }

/-- The next state; the state after reset for a stop. -/
def after : Host.Outcome State Fault Refusal → State
  | .next t => t
  | _ => State.reset

def run (i : Instr) (s : State) : State := after (exec i s)

/-- The bytes shifted out, one list per transfer. -/
def outs (s : State) : List (List Byte) :=
  s.trace.filterMap fun e => match e.event with
    | .xfer out _ => some out
    | .pin _ _ _ => none

/-- The CE writes. -/
def ceWrites (s : State) : List Bool :=
  s.trace.filterMap fun e => match e.event with
    | .pin .ce level _ => some level
    | _ => none

/-- The bytes shifted in by the first transfer. -/
def firstIn (s : State) : Option (List Byte) :=
  s.trace.findSome? fun e => match e.event with
    | .xfer _ inp => inp
    | .pin _ _ _ => none

def abcde : List Byte := [0x61, 0x62, 0x63, 0x64, 0x65]

def noPipes : Six Bool := ⟨false, false, false, false, false, false⟩

def rxConfig : RxConfig :=
  { dataRate := .r1Mbps, crcMode := .twoBytes, channel := 108, paLevel := 3, addressWidth := 5
    pipeAddresses := ⟨some abcde, none, none, none, none, some abcde⟩
    pipeLengths := ⟨none, some 63, none, none, none, none⟩
    pipeAutoAck := ⟨true, false, false, false, false, false⟩ }

def txConfig : TxConfig :=
  { dataRate := .r2Mbps, crcMode := .oneByte, channel := 2, paLevel := 0, addressWidth := 5
    pipe0Address := abcde, pipe0Length := some 0, pipe0AutoAck := true, maxRetries := 3, retryDelay := 0 }

/-! ## Ill-formed terms are refused, one test a check (rules R150, R154, R170) -/

theorem test_refuses_read_length : Instr.wellFormed (.frameRRegister .rfCh 2) = false := by decide +kernel
theorem test_refuses_address_length : Instr.wellFormed (.frameRRegister .txAddr 2) = false := by decide +kernel
theorem test_refuses_write_length : Instr.wellFormed (.frameWRegister .rfCh [0x6C, 0x00]) = false := by decide +kernel
theorem test_refuses_short_address : Instr.wellFormed (.frameWRegister .rxAddrP0 [1, 2]) = false := by decide +kernel
theorem test_refuses_long_read : Instr.wellFormed (.frameRRxPayload 33) = false := by decide +kernel
theorem test_refuses_long_payload : Instr.wellFormed (.frameWTxPayload (List.replicate 33 0)) = false := by decide +kernel
theorem test_refuses_long_ack : Instr.wellFormed (.frameWAckPayload .p0 (List.replicate 33 0)) = false := by decide +kernel
theorem test_refuses_command : Instr.wellFormed (.sendCommand (.rRxPayload 33)) = false := by decide +kernel
theorem test_refuses_value_type : Instr.wellFormed (.writeRegister .rfCh (.cd true)) = false := by decide +kernel
theorem test_refuses_put_type : Instr.wellFormed (.updateRegister .enAa 1 (.put (.cd true) [])) = false := by decide +kernel
theorem test_refuses_address_bits : Instr.wellFormed (.updateRegister .txAddr 5 (.bits 0 0 [])) = false := by decide +kernel
theorem test_refuses_graph_type : Instr.wellFormed (.updateConfig (.graph [(.cd true, .cd true, [])])) = false := by
  decide +kernel
/-- Rule R202: reserved bits are unaffected. -/
theorem test_step_runs_reserved_bits :
    (after (step { State.reset with requests := [.window [0x23, 0xFE]] })).periph.regs.setupAw = 0x02 := by decide +kernel

/-! ## Decoding (rules R150 to R157; the tables of 30_encoding.md and V2) -/

theorem test_decode_r_register : decode [0b000_00111, 0] = .ok (.frameRRegister .status 1) := by decide +kernel
theorem test_decode_r_register_addr : decode [0b000_10000, 0, 0, 0, 0, 0] = .ok (.frameRRegister .txAddr 5) := by decide +kernel
theorem test_decode_w_register : decode [0b001_11101, 0x06] = .ok (.frameWRegister .feature [0x06]) := by decide +kernel
theorem test_decode_w_register_addr :
    decode [0b001_01010, 0x61, 0x62, 0x63] = .ok (.frameWRegister .rxAddrP0 [0x61, 0x62, 0x63]) := by decide +kernel
theorem test_decode_r_rx_pl_wid : decode [0b0110_0000, 0] = .ok .frameRRxPlWid := by decide +kernel
theorem test_decode_r_rx_payload : decode (0b0110_0001 :: List.replicate 32 0) = .ok (.frameRRxPayload 32) := by decide +kernel
theorem test_decode_w_tx_payload : decode [0b1010_0000] = .ok (.frameWTxPayload []) := by decide +kernel
theorem test_decode_w_ack_payload : decode [0b10101_101] = .ok (.frameWAckPayload .p5 []) := by decide +kernel
theorem test_decode_flush_tx : decode [0b1110_0001] = .ok .frameFlushTx := by decide +kernel
theorem test_decode_flush_rx : decode [0b1110_0010] = .ok .frameFlushRx := by decide +kernel
theorem test_decode_nop : decode [0b1111_1111] = .ok .frameNop := by decide +kernel
theorem test_not_emitted_pipe : decode [0xAE] = .error (.notEmitted 0xAE) := by decide +kernel
theorem test_not_emitted_address : decode [0x1A, 0] = .error (.notEmitted 0x1A) := by decide +kernel
theorem test_not_emitted_write_address : decode [0x3F, 0] = .error (.notEmitted 0x3F) := by decide +kernel
theorem test_not_emitted_row : decode [0x50] = .error (.notEmitted 0x50) := by decide +kernel
theorem test_bad_length : decode [0x05] = .error (.badLength 0x05 0) := by decide +kernel
theorem test_capture_width : decodeCapture 5 [0x10, 0, 0, 0] = .error (.badLength 0x10 3) := by decide +kernel
theorem test_capture_width_legal : decodeCapture 3 [0x10, 0, 0, 0] = .ok (.frameRRegister .txAddr 3) := by decide +kernel
theorem test_encode_w_register : encode (.frameWRegister (.rxPw .p0) [0x20]) = some [0x31, 0x20] := by decide +kernel
theorem test_encode_w_ack_payload : encode (.frameWAckPayload .p0 [0xAA]) = some [0xA8, 0xAA] := by decide +kernel
theorem test_table_word : decodeTableWord 16 0x6C25 = some (.frameWRegister .rfCh [0x6C]) := by decide +kernel

/-! ## Registers (V1) -/

theorem test_status_fields :
    Status.decode 0x1E = { rxDr := false, txDs := false, maxRt := true, rxPNo := 7, txFull := false } := by decide +kernel
theorem test_status_reserved : (Status.decode 0xFF).encode = 0x7F := by decide +kernel
theorem test_config_encode : ConfigReg.encode ⟨true, false, false, true, false, false, false⟩ = 0x48 := by decide +kernel
theorem test_from_bools : fromBools ⟨true, false, true, false, false, true⟩ = 0x25 := by decide +kernel
theorem test_to_bools : toBools 0xC1 = ⟨true, false, false, false, false, false⟩ := by decide +kernel
theorem test_setup_retr : SetupRetr.encode ⟨2, 3⟩ = 0x23 := by decide +kernel
theorem test_rf_setup : (withRf .r250Kbps 3 (RfSetup.decode 0)).encode = 0x26 := by decide +kernel
theorem test_rf_setup_bit6 : RfSetup.decode 0x4E = RfSetup.decode 0x0E := by decide +kernel
theorem test_observe_tx : ObserveTx.decode 0x13 = ⟨1, 3⟩ := by decide +kernel
theorem test_fifo_status : FifoStatus.decode 0x21 = ⟨false, true, false, false, true⟩ := by decide +kernel
theorem test_feature : Feature.encode ⟨true, true, false⟩ = 0x06 := by decide +kernel

/-! ## The frames (V9.2, rules R201 to R209) -/

theorem test_read_config : firstIn (run (.frameRRegister .config 1) State.reset) = some [0x0E, 0x08] := by decide +kernel
theorem test_read_rx_addr_p1 :
    firstIn (run (.frameRRegister .rxAddrP1 5) State.reset) = some [0x0E, 0xC2, 0xC2, 0xC2, 0xC2, 0xC2] := by decide +kernel
theorem test_write_rf_ch : (run (.frameWRegister .rfCh [0x6C]) State.reset).periph.regs.rfCh = 0x6C := by decide +kernel
theorem test_write_status_clears :
    (run (.frameWRegister .status [0x10]) (withMaxRt inTx0)).periph.radio.maxRt = false := by decide +kernel
theorem test_read_width :
    (run .frameRRxPlWid (withRx inRx0 [⟨3, [1, 2, 3]⟩])).result = some (.ok (.frame ⟨false, false, false, 3, false⟩
      (.width 3))) := by decide +kernel
theorem test_read_payload_pops :
    (run (.frameRRxPayload 3) (withRx inRx0 [⟨3, [1, 2, 3]⟩])).periph.radio.rxFifo = [] := by decide +kernel
theorem test_write_payload : (run (.frameWTxPayload [0x68, 0x69]) inTx0).periph.radio.txFifo = [.data [0x68, 0x69]] := by
  decide +kernel
theorem test_write_ack :
    (run (.frameWAckPayload .p3 [1]) inRx0).periph.radio.txFifo = [.ack .p3 [1] false] := by decide +kernel
theorem test_flush_tx_frame : (run .frameFlushTx (withTx inTx0 [.data [1]])).periph.radio.txFifo = [] := by decide +kernel
theorem test_flush_rx_frame : (run .frameFlushRx (withRx inStandby0 [⟨1, [1]⟩])).periph.radio.rxPNo = 7 := by decide +kernel
/-- Rule R458: a flush in active Rx leaves the registers, and marks nothing (rules R261, R262). -/
theorem test_flush_active_rx :
    let t := run (.sendCommand .flushTx) inRx0
    outs t = [[0xE1]] ∧ t.periph.regs = inRx0.periph.regs ∧ t.fault = FaultSet.empty := by decide +kernel
theorem test_nop_frame : firstIn (run .frameNop State.reset) = some [0x0E] := by decide +kernel

/-! ## Transport (V3) -/

/-- V3.2. -/
theorem test_csn_low_fails :
    let t := run (.sendCommand .nop) (withOutcomes inStandby0 [.fails, .ok])
    outs t = [] ∧ t.csn = .high ∧ t.result = some (.err (.busError .csnPin)) := by decide +kernel
/-- V3.4. -/
theorem test_xfer_and_csn_fail :
    let t := run (.sendCommand .nop) (withOutcomes inStandby0 [.ok, .fails, .fails])
    t.csn = .unknown ∧ t.result = some (.err (.busError .spi)) := by decide +kernel
/-- V3.5. -/
theorem test_update_suppressed :
    outs (run (.updateRegister .rfCh 1 (.put (.rfCh 2) [])) inStandby0) = [[0x05, 0x00]] := by decide +kernel
/-- V3.6. -/
theorem test_update_written :
    outs (run (.updateRegister .rfCh 1 (.put (.rfCh 108) [])) inStandby0) = [[0x05, 0x00], [0x25, 0x6C]] := by decide +kernel
/-- V3.8. -/
theorem test_update_config_suppressed :
    outs (run (.updateConfig (.bits 0x01 0x00 [])) inStandby0) = [] := by decide +kernel
/-- V3.9. -/
theorem test_update_config_fails :
    let t := run (.updateConfig (.bits 0x00 0x01 [])) (withOutcomes inStandby0 [.ok, .fails, .ok])
    t.result = some (.err (.busError .spi)) ∧ t.shadow = some 0x0A := by decide +kernel
/-- V3.10. -/
theorem test_write_short_address :
    let t := run (.writeRegister .txAddr (.addr [0x01, 0x02])) inStandby0
    outs t = [] ∧ t.fault.addrWidth = true ∧ t.result = none := by decide +kernel
/-- V3.12. -/
theorem test_write_config_shadow :
    (run (.writeRegister .config (.config (ConfigReg.decode 0x0E))) inStandby0).shadow = some 0x0E := by decide +kernel
/-- V3.13. -/
theorem test_read_config_shadow :
    let t := run (.readRegister .config 1) { inStandby0 with periph := (live .standby .low 0x0B).periph }
    t.shadow = some 0x0A ∧ firstIn t = some [0x0E, 0x0B] := by decide +kernel
/-- V3.11. -/
theorem test_ce_not_cached : ceWrites (run .ceEnable (run .ceEnable inStandby0)) = [true, true] := by decide +kernel
theorem test_ce_disable : (run .ceDisable inRx0).ce = .low := by decide +kernel

/-- Rule R36 with the sequences of R313, R235 and R236: three local computations, the frame, the shadow, then CE. -/
theorem test_seq_points : (run .rx inStandby0).trace.map (·.point) = [3, 3, 3, 5] := by decide +kernel
/-- Rule R233: one test for a one-byte register, a nested one for an address register, then `n`, then the frame. -/
theorem test_read_points :
    (run (.readRegister .rfCh 1) inStandby0).trace.map (·.point) = [2, 2, 2] ∧
      (run (.readRegister .txAddr 5) inStandby0).trace.map (·.point) = [3, 3, 3] := by decide +kernel
/-- Rule R373: `lost <- false` is point 0 and the loop head point 1. -/
theorem test_loop_points :
    let t := run .waitEmpty (withTx inTx0 [.data [1]])
    t.seq = .busy .waitEmpty 1 false none ∧ t.trace.map (·.point) = [3, 3, 3, 6] ∧
      (run .waitEmpty t).trace.map (·.point) = [3, 3, 3, 6, 3, 3, 3, 6] := by decide +kernel
/-- The state after some steps. -/
def stepN : Nat → State → State
  | 0, s => s
  | n + 1, s =>
    match step s with
    | .next t => stepN n t
    | .fault _ | .refused _ => s

/-- A call of `rx` waits in Standby. -/
def rxCalled : State := { inStandby0 with requests := [.op ⟨.rx, rfl⟩] }

/-- Rules R36, R313: three local computations, the frame, the shadow, the CE pin, `B.ce`, `B.mode`: a step each. -/
theorem test_step_by_step :
    (stepN 3 rxCalled).seq.point = 3 ∧ outs (stepN 3 rxCalled) = [] ∧ outs (stepN 4 rxCalled) = [[0x20, 0x0B]] ∧
      (stepN 4 rxCalled).shadow = some 0x0A ∧ (stepN 5 rxCalled).shadow = some 0x0B ∧
      ceWrites (stepN 6 rxCalled) = [true] ∧ (stepN 6 rxCalled).ce = .low ∧ (stepN 7 rxCalled).ce = .high ∧
      (stepN 7 rxCalled).mode = .standby ∧ (stepN 7 rxCalled).seq.point = 7 := by decide +kernel
theorem test_steps_end :
    let t := stepN 8 rxCalled
    t.mode = .rx ∧ t.ce = .high ∧ t.seq = .idle ∧ t.result = some (.ok .unit) ∧
      outs t = [[0x20, 0x0B]] ∧ ceWrites t = [true] := by decide +kernel

/-- U24, U25: a failed frame loses only the register it writes. -/
theorem test_failed_frame_keeps :
    let t := run (.frameWRegister .feature [1]) (withOutcomes inStandby0 [.ok, .fails, .ok])
    t.periph.regs.rfCh = 0x02 ∧ t.periph.radio = Radio.reset := by decide +kernel

/-! ## The radio (rules R112 to R114, R205, R413) -/

/-- The peripheral of a receiving block that may send ACK payloads on every pipe. -/
def ackRegs : Regs := { inRx0.periph.regs with dynpd := 0x3F, feature := 0x06, enRxaddr := 0x3F }

/-- A repeated packet takes the ACK payload queued after its first arrival, and a different packet then removes it. -/
theorem test_repeated_attaches :
    let r := { Radio.reset with txFifo := [.ack .p1 [7] false] }
    let r1 := r.event Params.reference ackRegs .high (.repeated .p1 none false)
    r1.txFifo = [.ack .p1 [7] true] ∧
      (r1.event Params.reference ackRegs .high (.received .p1 [1] false)).txFifo = [] := by decide +kernel
/-- Log entry 16: a retransmission enters the RX FIFO only where the event says so. -/
theorem test_repeated_again :
    let r := Radio.reset.event Params.reference ackRegs .high (.repeated .p1 (some [9]) false)
    r.rxFifo = [⟨1, [9]⟩] ∧ r.rxDr = true ∧
      (Radio.reset.event Params.reference ackRegs .high (.repeated .p1 none false)).rxDr = false := by decide +kernel
theorem test_max_rt_holds_fifo :
    let r := { Radio.reset with maxRt := true, txFifo := [.ack .p1 [7] true] }
    (r.event Params.reference ackRegs .high (.received .p1 [1] false)).txFifo = [.ack .p1 [7] true] := by decide +kernel
theorem test_irq_pin :
    (withMaxRt inTx0).periph.irqPin = .low ∧ (withMaxRt (live .tx .high 0x1A)).periph.irqPin = .high := by decide +kernel
theorem test_ce_disable_max_rt :
    (run .ceDisable (withMaxRt (withTx inTx0 [.data [1]]))).periph.radio.txFifo = [.data [1]] := by decide +kernel

/-! ## Configuration (V4) -/

theorem test_set_frequency_clamps :
    outs (run (.setFrequency 200) inStandby0) = [[0x05, 0x00], [0x25, 0x7D]] := by decide +kernel
theorem test_get_frequency : (run .getFrequency inStandby0).result = some (.ok (.u8 2)) := by decide +kernel
theorem test_set_auto_retransmit_clamps :
    outs (run (.setAutoRetransmit 20 255) inStandby0) = [[0x04, 0x00], [0x24, 0xFF]] := by decide +kernel
theorem test_set_rf_slow : outs (run (.setRf .r250Kbps 3) inStandby0) = [[0x06, 0x00], [0x26, 0x26]] := by decide +kernel
theorem test_set_rf_range : (run (.setRf .r1Mbps 4) inStandby0).fault.powerRange = true := by decide +kernel
theorem test_get_address_width : (run .getAddressWidth inStandby0).result = some (.ok (.u8 5)) := by decide +kernel
theorem test_set_address_width : outs (run (.setAddressWidth 3) inStandby0) = [[0x03, 0x00], [0x23, 0x01]] := by decide +kernel
theorem test_set_crc_disabled : outs (run (.setCrc .disabled) (live .standby .low 0x0E)) = [[0x20, 0x02]] := by decide +kernel
theorem test_set_interrupt_mask :
    (run (.setInterruptMask true true true) (live .standby .low 0x0E)).shadow = some 0x7E := by decide +kernel
theorem test_set_pipes_rx_enable :
    outs (run (.setPipesRxEnable noPipes) inStandby0) = [[0x02, 0x00], [0x22, 0x00]] := by decide +kernel
theorem test_set_rx_addr_pipe : (run (.setRxAddr 9 [0x61, 0x62]) inStandby0).result = some (.err (.invalidPipe 9)) := by
  decide +kernel
theorem test_set_rx_addr_length :
    let t := run (.setRxAddr 1 [0x61, 0x62, 0x63]) inStandby0
    outs t = [[0x03, 0x00]] ∧ t.fault.addrLength = true := by decide +kernel
theorem test_set_tx_addr : outs (run (.setTxAddr abcde) inStandby0) = [[0x03, 0x00], 0x30 :: abcde] := by decide +kernel
theorem test_set_pipes_rx_lengths :
    outs (run (.setPipesRxLengths ⟨some 32, some 0, some 0, some 0, some 0, some 0⟩) inStandby0) =
      [[0x1D, 0x00], [0x1C, 0x00], [0x11, 0x00], [0x31, 0x20], [0x12, 0x00], [0x13, 0x00], [0x14, 0x00], [0x15, 0x00],
       [0x16, 0x00]] := by decide +kernel
theorem test_set_pipes_rx_lengths_dynamic :
    outs (run (.setPipesRxLengths ⟨none, none, none, none, none, none⟩) inStandby0) =
      [[0x1D, 0x00], [0x3D, 0x06], [0x1C, 0x00], [0x3C, 0x3F]] := by decide +kernel
theorem test_get_interrupts :
    (run .getInterrupts (withMaxRt inTx0)).result = some (.ok (.interrupts false false true)) := by decide +kernel
theorem test_clear_interrupts : outs (run .clearInterrupts inStandby0) = [[0x27, 0x70]] := by decide +kernel
theorem test_set_auto_ack : outs (run (.setAutoAck noPipes) inStandby0) = [[0x01, 0x00], [0x21, 0x00]] := by decide +kernel
theorem test_get_auto_ack :
    (run .getAutoAck inStandby0).result = some (.ok (.pipes ⟨true, true, true, true, true, true⟩)) := by decide +kernel
theorem test_flush_rx_hazard :
    let t := run .flushRx inRx0
    t.fault.flushInActiveRx = true ∧ outs t = [[0xE2]] := by decide +kernel
theorem test_flush_tx_no_hazard :
    let t := run .flushTx inTx0
    t.fault = FaultSet.empty ∧ outs t = [[0xE1]] := by decide +kernel
theorem test_configure_rx :
    let t := run (.configureRx rxConfig) inStandby0
    t.result = some (.ok .unit) ∧ t.periph.regs.rfCh = 108 ∧ t.periph.regs.rxAddrP5 = 0x61 ∧
      t.periph.regs.dynpd = 0x3D ∧ t.periph.regs.rxPw.p1 = 63 := by decide +kernel
theorem test_configure_tx :
    let t := run (.configureTx txConfig) inStandby0
    t.result = some (.ok .unit) ∧ t.periph.regs.txAddr = abcde ∧ t.periph.regs.enRxaddr = 0x01 := by decide +kernel

/-! ## Modes (V5, P1) -/

/-- P1. -/
theorem test_new :
    let t := run (.new false false false) State.reset
    outs t = [[0x20, 0x08], [0x03, 0x00], [0x20, 0x0A]] ∧ t.mode = .standby ∧ t.shadow = some 0x0A ∧
      t.periph.regs.config = 0x0A := by decide +kernel
/-- V5.3. -/
theorem test_new_absent :
    let t := run (.new false false false) (withOutcomes State.reset
      [.ok, .ok, .ok, .answers [0, 0], .ok, .ok, .answers [0, 0], .ok])
    t.result = some (.err .notConnected) ∧ t.mode = .off ∧ t.shadow = some 0x08 ∧ t.ce = .low := by decide +kernel
/-- V5.5. -/
theorem test_mode_gate : exec (.send [0x68, 0x69]) inStandby0 = .refused (.notLegalInMode .standby) := rfl
theorem test_flush_in_off : exec .flushTx State.reset = .refused (.notLegalInMode .off) := rfl
/-- V5.6. -/
theorem test_rx :
    let t := run .rx inStandby0
    outs t = [[0x20, 0x0B]] ∧ ceWrites t = [true] ∧ t.mode = .rx := by decide +kernel
/-- V5.11. -/
theorem test_rx_ce_fails :
    let t := run .rx (withOutcomes inStandby0 [.ok, .ok, .ok, .fails])
    t.result = some (.err (.busError .cePin)) ∧ t.mode = .standby ∧ t.ce = .unknown ∧ t.shadow = some 0x0B := by decide +kernel
/-- V5.7. -/
theorem test_standby_rx : ceWrites (run .standbyRx inRx0) = [false] := by decide +kernel
/-- V5.8. -/
theorem test_tx :
    let t := run .tx (live .standby .low 0x0B)
    outs t = [[0x20, 0x0A]] ∧ ceWrites t = [] ∧ t.mode = .tx := by decide +kernel
/-- V5.12, the second `standby`. -/
theorem test_standby_tx :
    let t := run .standbyTx inTx0
    outs t = [[0x17, 0x00]] ∧ ceWrites t = [false, false] ∧ t.mode = .standby := by decide +kernel
/-- V5.10. -/
theorem test_power_up :
    let t := run .powerUp (live .standby .low 0x08)
    outs t = [[0x20, 0x0A]] ∧ t.fault = FaultSet.empty := by decide +kernel
/-- V5.9. -/
theorem test_power_down :
    let t := run .powerDown inRx0
    outs t = [[0x20, 0x09]] ∧ t.fault.powerToggleWithCe = true := by decide +kernel

/-! ## Receive (V6) -/

/-- V6.6. -/
theorem test_can_read : (run .canRead (withRx inRx0 [⟨3, [1]⟩])).result = some (.ok (.pipe (some 3))) := by decide +kernel
/-- V6.5. -/
theorem test_can_read_empty : (run .canRead inRx0).result = some (.ok (.pipe none)) := by decide +kernel
/-- V6.1. -/
theorem test_read_empty_packet :
    let t := run .read (withRx inRx0 [⟨3, []⟩])
    outs t = [[0x60, 0x00]] ∧ t.result = some (.ok (.payload Payload.empty)) := by decide +kernel
/-- V6.3. -/
theorem test_read_too_wide :
    outs (run .read (withRx inRx0 [⟨3, List.replicate 33 0⟩])) = [[0x60, 0x00], [0xE2]] := by decide +kernel
/-- V6.7. -/
theorem test_push_pipe_first :
    (run (.push 7 (List.replicate 40 0)) inRx0).result = some (.err (.invalidPipe 7)) := by decide +kernel
theorem test_push_empty : outs (run (.push 5 []) inRx0) = [[0x17, 0x00], [0xAD]] := by decide +kernel
/-- V6.8. -/
theorem test_has_carrier : (run .hasCarrier inRx0).result = some (.ok (.bool false)) := by decide +kernel
/-- V6.9. -/
theorem test_is_empty : (run .isEmpty (withRx inRx0 [⟨0, [1]⟩])).result = some (.ok (.bool false)) := by decide +kernel
theorem test_is_full : (run .isFull inRx0).result = some (.ok (.bool false)) := by decide +kernel

/-! ## Transmit (V7) -/

/-- V7.1. -/
theorem test_send_too_large :
    let t := run (.send (List.replicate 33 0)) inTx0
    outs t = [] ∧ ceWrites t = [] ∧ t.result = some (.err .payloadTooLarge) := by decide +kernel
/-- V7.4. -/
theorem test_send_empty :
    let t := run (.send []) inTx0
    outs t = [[0x17, 0x00], [0xA0]] ∧ ceWrites t = [true] := by decide +kernel
/-- V7.9. -/
theorem test_can_send :
    (run .canSend (withTx inTx0 [.data [1], .data [2], .data [3]])).result = some (.ok (.bool false)) := by decide +kernel
/-- V7.5. -/
theorem test_wait_empty :
    let t := run .waitEmpty inTx0
    outs t = [[0x17, 0x00]] ∧ t.ce = .low ∧ t.result = some (.ok .unit) := by decide +kernel
/-- V7.7. -/
theorem test_wait_empty_flush_fails :
    let t := run .waitEmpty (withOutcomes (withMaxRt (withTx inTx0 [.data [1]])) [.ok, .ok, .ok, .ok, .fails, .ok])
    t.result = some (.err (.busError .spi)) ∧ t.ce = .high := by decide +kernel
/-- V7.10. -/
theorem test_observe :
    let s := { inTx0 with periph := { inTx0.periph with radio := { inTx0.periph.radio with plosCnt := 15 } } }
    (run .observe s).result = some (.ok (.counts 15 0)) := by decide +kernel

/-! ## Witnesses: for each statement with hypotheses, values that meet them -/

/-- Two calm moves ahead. -/
def calmly (s : State) : State := { s with env := [EnvMove.calm, EnvMove.calm] }

/-- A carrier appears before the next primitive, and inside its data phase it goes again; the ports succeed. -/
def lively (s : State) : State :=
  { s with env := [{ events := [.carrier true], during := [.carrier false], outcome := .ok }] }

/-- The address width field at `aw`. -/
def withAw (s : State) (aw : Byte) : State :=
  { s with periph := { s.periph with regs := { s.periph.regs with setupAw := aw } } }

def sixtyThree : Six (Option Byte) := ⟨some 63, none, some 0, none, none, some 63⟩
def sixtyFour : Six (Option Byte) := ⟨none, none, none, none, none, some 64⟩

theorem quiet_calmly (s : State) : Quiet (calmly s) := by simp [Quiet, calmly]
theorem portsOk_lively (s : State) : PortsOk (lively s) := by simp [PortsOk, lively]
theorem ready_standby : Ready (lively inStandby0) := ⟨rfl, portsOk_lively _, by decide, by decide⟩
theorem ready_rx : Ready (lively inRx0) := ⟨rfl, portsOk_lively _, by decide, by decide⟩
theorem ready_tx : Ready (lively inTx0) := ⟨rfl, portsOk_lively _, by decide, by decide⟩
theorem ready_calm (s : State) (h : s.seq = .idle ∧ s.mode ≠ .off ∧ s.shadow ≠ none) : Ready (calmly s) :=
  ⟨h.1, fun m hm => by rw [quiet_calmly s m hm]; rfl, h.2.1, h.2.2⟩

theorem witness_DecodeOfEncode :
    Instr.wellFormed (.frameWAckPayload .p5 (List.replicate 32 0)) = true ∧
      (encode (.frameWAckPayload .p5 (List.replicate 32 0))).isSome = true := by decide +kernel

theorem witness_EncodeOfDecode :
    decode (0x61 :: List.replicate 32 0) = .ok (.frameRRxPayload 32) ∧
      decode [0x25, 0x6C] = .ok (.frameWRegister .rfCh [0x6C]) ∧
      decodeCapture 4 [0x30, 1, 2, 3, 4] = .ok (.frameWRegister .txAddr [1, 2, 3, 4]) ∧
      Reg.isAddress .txAddr = true := by decide +kernel

theorem witness_RegisterRoundTrip :
    (RegVal.rxPw 63).fits (.rxPw .p5) = true ∧ Reg.isAddress .feature = false ∧ Reg.isAddress .txAddr = true := by
  decide +kernel

theorem witness_PipeBools : Reg.dynpd = .enAa ∨ Reg.dynpd = .enRxaddr ∨ Reg.dynpd = .dynpd := by decide

theorem witness_PayloadConstruction :
    31 < (Payload.ofBytes (List.replicate 33 (0 : Byte))).len ∧ inTx0.seq = .idle ∧ 32 < (List.replicate 33 (0 : Byte)).length ∧ inTx0.mode = .tx ∧
      inStandby0.mode = .standby ∧ inRx0.mode = .rx ∧ (5 : Byte).toNat ≤ 5 := by decide +kernel

theorem witness_FramesComplete : (lively State.reset).seq = .idle ∧ PortsOk (lively State.reset) :=
  ⟨rfl, portsOk_lively _⟩

theorem witness_RegisterReadFrame :
    (calmly State.reset).seq = .idle ∧ Quiet (calmly State.reset) ∧
      Reg.legalLen .txAddr 5 = true ∧ (State.reset.periph.regs.stored .txAddr).length = 5 ∧
      Reg.legalLen .config 1 = true ∧ State.reset.periph.regs.config.getLsbD 3 = true ∧
      Reg.legalLen .feature 1 = true ∧ State.reset.periph.regs.stored .feature = [0x00] ∧
      Reg.legalLen .status 1 = true ∧ Reg.legalLen .fifoStatus 1 = true ∧ Reg.legalLen .observeTx 1 = true ∧
      Reg.legalLen .cd 1 = true :=
  ⟨rfl, quiet_calmly _, by decide +kernel⟩

theorem witness_RegisterWriteFrame :
    (calmly State.reset).seq = .idle ∧ Quiet (calmly State.reset) ∧
      Reg.legalLen .feature [0xFF].length = true ∧ State.reset.periph.regs.stored .feature = [0x00] ∧
      Reg.legalLen .txAddr [1, 2, 3].length = true ∧ Reg.legalLen .status [0x7F].length = true ∧
      Reg.legalLen .rfCh [0x7F].length = true :=
  ⟨rfl, quiet_calmly _, by decide +kernel⟩

theorem witness_PayloadWriteFrames :
    (calmly inTx0).seq = .idle ∧ Quiet (calmly inTx0) ∧
      (Cmd.wTxPayload [1] = .wTxPayload [1] ∧ TxEntry.data [1] = .data [1]) ∧
      (∃ p, Cmd.wAckPayload .p5 [] = .wAckPayload p [] ∧ TxEntry.ack .p5 [] false = .ack p [] false) ∧
      ([1] : List Byte) ≠ [] ∧ (withTx inTx0 [.data [1], .data [2]]).periph.radio.txFifo.length < 3 :=
  ⟨rfl, quiet_calmly _, ⟨rfl, rfl⟩, ⟨.p5, rfl, rfl⟩, by decide +kernel⟩

theorem witness_PayloadReadFrames :
    ([7, 8] : List Byte).length ≤ 2 ∧ 31 < 32 ∧
    (calmly (withRx inRx0 [⟨5, List.replicate 32 7⟩])).seq = .idle ∧
      Quiet (calmly (withRx inRx0 [⟨5, List.replicate 32 7⟩])) ∧
      (calmly (withRx inRx0 [⟨5, List.replicate 32 7⟩])).periph.radio.rxFifo = ⟨5, List.replicate 32 7⟩ :: [] ∧
      (List.replicate 32 (7 : Byte)).length ≤ 32 ∧ 31 ≤ (List.replicate 32 (7 : Byte)).length ∧
      (calmly inRx0).periph.radio.rxFifo = [] :=
  ⟨by decide, by decide, rfl, quiet_calmly _, rfl, by decide +kernel⟩

theorem witness_FlushAndNopFrames :
    (calmly inTx0).seq = .idle ∧ Quiet (calmly inTx0) ∧ ¬ ((calmly inTx0).mode = .rx ∧ (calmly inTx0).ce ≠ .low) ∧
      (calmly inRx0).seq = .idle ∧ Quiet (calmly inRx0) ∧ (calmly inRx0).mode = .rx ∧ (calmly inRx0).ce ≠ .low :=
  ⟨rfl, quiet_calmly _, by decide, rfl, quiet_calmly _, rfl, by decide⟩

def failing (a b c : PortOutcome) : List EnvMove :=
  [{ events := [], during := [], outcome := a }, { events := [], during := [], outcome := b },
   { events := [], during := [], outcome := c }]

theorem witness_FrameFailures :
    (withOutcomes State.reset [.fails, .ok, .ok]).seq = .idle ∧
      (withOutcomes State.reset [.fails, .ok, .ok]).env = failing .fails .ok .ok ∧
      (withOutcomes State.reset [.ok, .fails, .fails]).env = failing .ok .fails .fails ∧
      (withOutcomes State.reset [.ok, .answers [0], .fails]).env = failing .ok (.answers [0]) .fails ∧
      (withOutcomes State.reset [.ok, .ok, .fails]).env = failing .ok .ok .fails ∧
      (∀ data, Cmd.wRegister .feature [1] ≠ .wRegister .rfCh data) ∧
      PortOutcome.answers [0] ≠ .fails :=
  ⟨rfl, rfl, rfl, rfl, rfl, by simp, by decide⟩

theorem witness_SendCommandIsTheFrame :
    (lively inStandby0).seq = .idle ∧ (lively inStandby0).mode ≠ .off ∧ PortsOk (lively inStandby0) :=
  ⟨rfl, by decide, portsOk_lively _⟩

theorem witness_WriteRegisterReturns :
    Ready (lively inStandby0) ∧ (RegVal.addr [1, 2, 3]).fits .txAddr = true ∧
      Reg.legalLen .txAddr (RegVal.addr [1, 2, 3]).encode.length = true ∧ Reg.isAddress .txAddr = true ∧
      legalWidth (RegVal.addr [1, 2]).encode.length = false ∧ legalWidth (RegVal.addr [1, 2, 3, 4, 5, 6]).encode.length = false ∧
      (withOutcomes inStandby0 [.ok, .fails, .ok]).seq = .idle ∧ (withOutcomes inStandby0 [.ok, .fails, .ok]).mode ≠ .off ∧
      (RegVal.config (ConfigReg.decode 0x0E)).fits .config = true ∧
      Reg.legalLen .config (RegVal.config (ConfigReg.decode 0x0E)).encode.length = true ∧
      (withOutcomes inStandby0 [.ok, .fails, .ok]).env = failing .ok .fails .ok ∧
      (withOutcomes inStandby0 [.fails, .ok, .ok]).env = failing .fails .ok .ok ∧
      (withOutcomes inStandby0 [.ok, .ok, .fails]).env = failing .ok .ok .fails :=
  ⟨ready_standby, by decide +kernel⟩

theorem witness_ReadRegisterReturns :
    Ready (lively inStandby0) ∧ Reg.isAddress .feature = false ∧ Reg.isAddress .txAddr = true ∧
      legalWidth 3 = true ∧ legalWidth 5 = true ∧ legalWidth 2 = false ∧ legalWidth 6 = false :=
  ⟨ready_standby, by decide +kernel⟩

theorem witness_UpdateRegisterReturns :
    Ready (lively inStandby0) ∧
      (RegFn.keep []).fits .rfCh = true ∧ (applyFn .rfCh (.keep []) (.rfCh 2)).1 = .rfCh 2 ∧
      (RegFn.put (.addr [1, 2, 3]) []).fits .txAddr = true ∧
      (applyFn .txAddr (.put (.addr [1, 2, 3]) []) (.addr [9, 9, 9])).1 ≠ .addr [9, 9, 9] ∧
      legalWidth (RegVal.addr [1, 2, 3]).encode.length = true ∧
      (RegFn.put (.addr [1, 2]) []).fits .txAddr = true ∧
      (applyFn .txAddr (.put (.addr [1, 2]) []) (.addr [9, 9, 9])).1 ≠ .addr [9, 9, 9] ∧
      legalWidth (RegVal.addr [1, 2]).encode.length = false ∧ Reg.isAddress .txAddr = true ∧ legalWidth 6 = false :=
  ⟨ready_standby, by decide +kernel⟩

theorem witness_UpdateConfigReturns :
    Ready (lively inStandby0) ∧ (lively inStandby0).shadow = some 0x0A ∧ (RegFn.bits 0 1 [7]).fits .config = true ∧
      (withOutcomes inStandby0 [.ok, .fails, .ok]).seq = .idle ∧ (withOutcomes inStandby0 [.ok, .fails, .ok]).mode ≠ .off ∧
      (withOutcomes inStandby0 [.ok, .fails, .ok]).shadow = some 0x0A ∧
      (withOutcomes inStandby0 [.ok, .fails, .ok]).env = failing .ok .fails .ok ∧
      (withOutcomes inStandby0 [.fails, .ok, .ok]).env = failing .fails .ok .ok ∧
      (withOutcomes inStandby0 [.ok, .ok, .fails]).env = failing .ok .ok .fails ∧
      (applyFn .config (.bits 0 1 [7]) (.config (ConfigReg.decode 0x0A))).1 ≠ .config (ConfigReg.decode 0x0A) :=
  ⟨ready_standby, by decide +kernel⟩

theorem witness_CeOperations :
    (calmly inTx0).seq = .idle ∧ (calmly inTx0).mode ≠ .off ∧ Quiet (calmly inTx0) ∧
      ((calmly inTx0).env.headD EnvMove.calm).outcome ≠ .fails ∧ (calmly inTx0).periph.radio.txFifo = [] ∧
      (withMaxRt (withTx inTx0 [.data [1]])).periph.radio.maxRt = true ∧
      ((withOutcomes inTx0 [.fails]).env.headD EnvMove.calm).outcome = .fails :=
  ⟨rfl, by decide, quiet_calmly _, by decide +kernel⟩

theorem witness_FlushOperations :
    Ready (calmly inRx0) ∧ (calmly inRx0).mode = .rx ∧ (calmly inRx0).ce ≠ .low ∧ Ready (calmly inTx0) ∧
      ¬ ((calmly inTx0).mode = .rx ∧ (calmly inTx0).ce ≠ .low) ∧ Quiet (calmly inTx0) :=
  ⟨ready_calm _ (by decide), rfl, by decide, ready_calm _ (by decide), by decide, quiet_calmly _⟩

theorem witness_SetFrequency : Ready (calmly inStandby0) ∧ Quiet (calmly inStandby0) :=
  ⟨ready_calm _ (by decide), quiet_calmly _⟩

theorem witness_SetRf : Ready (lively inStandby0) ∧ (3 : Byte).toNat < 4 := ⟨ready_standby, by decide⟩

theorem witness_SetWidthAndRetransmit :
    Ready (lively inStandby0) ∧ legalWidth (3 : Byte).toNat = true ∧ legalWidth (5 : Byte).toNat = true :=
  ⟨ready_standby, by decide⟩

theorem witness_SetCrcAndInterruptMask :
    Ready (calmly inStandby0) ∧ (calmly inStandby0).shadow = some 0x0A ∧ Quiet (calmly inStandby0) :=
  ⟨ready_calm _ (by decide), rfl, quiet_calmly _⟩

theorem witness_SetPipeSwitches : Ready (lively inStandby0) := ready_standby

theorem witness_ConfigurationGetters : Ready (calmly inStandby0) ∧ Quiet (calmly inStandby0) :=
  ⟨ready_calm _ (by decide), quiet_calmly _⟩

theorem witness_ClearInterrupts : Ready (calmly inTx0) ∧ Quiet (calmly inTx0) :=
  ⟨ready_calm _ (by decide), quiet_calmly _⟩

theorem witness_AddressSetters :
    Ready (calmly inStandby0) ∧ (calmly inStandby0).periph.regs.setupAw &&& 0x03#8 ≠ 0 ∧
      abcde.length = 2 + ((calmly inStandby0).periph.regs.setupAw &&& 0x03#8).toNat ∧
      (withAw inStandby0 1).periph.regs.setupAw &&& 0x03#8 ≠ 0 ∧
      ([1, 2, 3] : List Byte).length = 2 + ((withAw inStandby0 1).periph.regs.setupAw &&& 0x03#8).toNat ∧
      Quiet (calmly inStandby0) :=
  ⟨ready_calm _ (by decide), by decide, by decide, by decide, by decide, quiet_calmly _⟩

theorem witness_AddressErrors :
    Ready (lively inStandby0) ∧ 5 < (6 : Byte).toNat ∧ Ready (lively (withAw inStandby0 0)) ∧
      (lively (withAw inStandby0 0)).periph.regs.setupAw &&& 0x03#8 = 0 ∧
      ([1, 2, 3, 4] : List Byte).length ≠ 2 + ((lively inStandby0).periph.regs.setupAw &&& 0x03#8).toNat ∧
      (∃ p : Pipe, Instr.setRxAddr 5 abcde = .setRxAddr (BitVec.ofNat 8 p.toNat) abcde) :=
  ⟨ready_standby, by decide, ⟨rfl, portsOk_lively _, by decide, by decide⟩, by decide, by decide, .p5, rfl⟩

theorem fits_sixtyThree (p : Pipe) (n : Byte) (h : sixtyThree.get p = some n) : n.toNat < 64 := by
  cases p <;> simp [sixtyThree, Six.get] at h <;> (subst h; decide)

theorem witness_SetPipesRxLengths :
    Ready (calmly inStandby0) ∧ (∀ p n, sixtyThree.get p = some n → n.toNat < 64) ∧ Quiet (calmly inStandby0) :=
  ⟨ready_calm _ (by decide), fits_sixtyThree, quiet_calmly _⟩

theorem rxConfig_addresses (p : Pipe) (a : List Byte) (h : rxConfig.pipeAddresses.get p = some a) :
    a.length = rxConfig.addressWidth.toNat := by
  cases p <;> simp [rxConfig, Six.get] at h <;> subst h <;> decide

theorem rxConfig_lengths (p : Pipe) (n : Byte) (h : rxConfig.pipeLengths.get p = some n) : n.toNat < 64 := by
  cases p <;> simp [rxConfig, Six.get] at h
  subst h
  decide

theorem witness_ConfigureRx :
    Ready (lively inStandby0) ∧ (lively inStandby0).shadow = some 0x0A ∧ rxConfig.paLevel.toNat < 4 ∧
      legalWidth rxConfig.addressWidth.toNat = true ∧
      (∀ p a, rxConfig.pipeAddresses.get p = some a → a.length = rxConfig.addressWidth.toNat) ∧
      (∀ p n, rxConfig.pipeLengths.get p = some n → n.toNat < 64) ∧
      Ready (calmly inStandby0) ∧ Quiet (calmly inStandby0) :=
  ⟨ready_standby, rfl, by decide, by decide, rxConfig_addresses, rxConfig_lengths, ready_calm _ (by decide),
    quiet_calmly _⟩

theorem witness_ConfigureTx :
    Ready (lively inStandby0) ∧ (lively inStandby0).shadow = some 0x0A ∧ txConfig.paLevel.toNat < 4 ∧
      legalWidth txConfig.addressWidth.toNat = true ∧ txConfig.pipe0Address.length = txConfig.addressWidth.toNat ∧
      (∀ n, txConfig.pipe0Length = some n → n.toNat < 64) ∧ Ready (calmly inStandby0) ∧ Quiet (calmly inStandby0) :=
  ⟨ready_standby, rfl, by decide, by decide, by decide, fun n h => by simp [txConfig] at h; subst h; decide,
    ready_calm _ (by decide), quiet_calmly _⟩

theorem witness_ContractViolations :
    inStandby0.seq = .idle ∧ inStandby0.mode ≠ .off ∧ 4 ≤ (4 : Byte).toNat ∧ legalWidth (2 : Byte).toNat = false ∧
      legalWidth (6 : Byte).toNat = false ∧ sixtyFour.get .p5 = some 64 ∧ 64 ≤ (64 : Byte).toNat ∧
      4 ≤ (RxConfig.paLevel { rxConfig with paLevel := 4 }).toNat ∧
      legalWidth (RxConfig.addressWidth { rxConfig with addressWidth := 6 }).toNat = false ∧
      rxConfig.paLevel.toNat < 4 ∧ legalWidth rxConfig.addressWidth.toNat = true ∧
      (Six.get (RxConfig.pipeAddresses { rxConfig with addressWidth := 4 }) .p5 = some abcde ∧
        abcde.length ≠ (RxConfig.addressWidth { rxConfig with addressWidth := 4 }).toNat) ∧
      (∀ q a, (RxConfig.pipeAddresses { rxConfig with pipeLengths := sixtyFour }).get q = some a →
        a.length = rxConfig.addressWidth.toNat) ∧
      txConfig.paLevel.toNat < 4 ∧ legalWidth txConfig.addressWidth.toNat = true ∧
      (TxConfig.pipe0Address { txConfig with pipe0Address := [1, 2, 3, 4] }).length ≠ txConfig.addressWidth.toNat ∧
      TxConfig.pipe0Length { txConfig with pipe0Length := some 64 } = some 64 :=
  ⟨rfl, by decide, by decide, by decide, by decide, rfl, by decide, by decide, by decide, by decide, by decide,
    ⟨rfl, by decide⟩, rxConfig_addresses, by decide, by decide, by decide, rfl⟩

theorem witness_NewSucceeds :
    (calmly State.reset).seq = .idle ∧ PortsOk (calmly State.reset) ∧ (calmly State.reset).mode = .off ∧
      (calmly State.reset).periph.regs.setupAw &&& 0x03#8 ≠ 0 ∧ Quiet (calmly State.reset) :=
  ⟨rfl, fun m hm => by rw [quiet_calmly _ m hm]; rfl, rfl, by decide, quiet_calmly _⟩

theorem witness_NewNotConnected :
    (lively (withAw State.reset 0)).seq = .idle ∧ PortsOk (lively (withAw State.reset 0)) ∧
      (lively (withAw State.reset 0)).mode = .off ∧ (lively (withAw State.reset 0)).periph.regs.setupAw &&& 0x03#8 = 0 :=
  ⟨rfl, portsOk_lively _, rfl, by decide⟩

theorem witness_EnterRxAndTx :
    Ready (calmly inStandby0) ∧ (calmly inStandby0).mode = .standby ∧ (calmly inStandby0).shadow = some 0x0A ∧
      (0x0A : Byte).getLsbD 0 = false ∧ Ready (calmly (live .standby .low 0x0B)) ∧
      (calmly (live .standby .low 0x0B)).shadow = some 0x0B ∧ (0x0B : Byte).getLsbD 0 = true ∧ Quiet (calmly inStandby0) :=
  ⟨ready_calm _ (by decide), rfl, rfl, by decide, ready_calm _ (by decide), rfl, by decide, quiet_calmly _⟩

theorem witness_StandbyFromRx : Ready (calmly inRx0) ∧ (calmly inRx0).mode = .rx ∧ Quiet (calmly inRx0) :=
  ⟨ready_calm _ (by decide), rfl, quiet_calmly _⟩

theorem witness_DrainEnds :
    AtPass .waitEmpty false (calmly inTx0) ∧
      AtPass .standbyTx true { calmly inTx0 with seq := .busy .standbyTx 1 true none } ∧ (calmly inTx0).mode = .tx ∧
      Quiet (calmly inTx0) ∧ (calmly inTx0).periph.radio.txFifo = [] :=
  ⟨.inl ⟨rfl, rfl⟩, .inr rfl, rfl, quiet_calmly _, rfl⟩

theorem witness_PowerOperations :
    Ready (calmly inStandby0) ∧ (calmly inStandby0).shadow = some 0x0A ∧ (calmly inStandby0).ce = .low ∧
      Quiet (calmly inStandby0) ∧ Ready (calmly inRx0) ∧ (calmly inRx0).ce ≠ .low :=
  ⟨ready_calm _ (by decide), rfl, rfl, quiet_calmly _, ready_calm _ (by decide), by decide⟩

theorem witness_CanReadReturns : Ready (calmly inRx0) ∧ (calmly inRx0).mode = .rx ∧ Quiet (calmly inRx0) :=
  ⟨ready_calm _ (by decide), rfl, quiet_calmly _⟩

theorem witness_ReadReturns :
    Ready (calmly (withRx inRx0 [⟨0, List.replicate 255 1⟩])) ∧ (calmly inRx0).mode = .rx ∧ Quiet (calmly inRx0) ∧
      (withRx inRx0 [⟨0, List.replicate 255 1⟩]).periph.radio.rxFifo = ⟨0, List.replicate 255 1⟩ :: [] ∧
      32 < (List.replicate 255 (1 : Byte)).length ∧ (List.replicate 255 (1 : Byte)).length < 256 ∧
      32 < (List.replicate 33 (1 : Byte)).length ∧
      1 ≤ (List.replicate 32 (1 : Byte)).length ∧ (List.replicate 32 (1 : Byte)).length ≤ 32 ∧
      ([] : List Byte).length = 0 ∧ inRx0.periph.radio.rxFifo = [] :=
  ⟨ready_calm _ (by decide), rfl, quiet_calmly _, rfl, by decide +kernel⟩

theorem witness_PushQueues :
    Ready (calmly inRx0) ∧ (calmly inRx0).mode = .rx ∧ (calmly inStandby0).mode = .standby ∧ Quiet (calmly inRx0) ∧
      (List.replicate 32 (1 : Byte)).length ≤ 32 ∧
      (withTx inRx0 [.data [1], .data [2]]).periph.radio.txFifo.length < 3 :=
  ⟨ready_calm _ (by decide), rfl, rfl, quiet_calmly _, by decide +kernel⟩

theorem witness_QueueErrors :
    Ready (calmly (withTx inTx0 [.data [1], .data [2], .data [3]])) ∧ 5 < (6 : Byte).toNat ∧
      Quiet (calmly (withTx inTx0 [.data [1], .data [2], .data [3]])) ∧ (List.replicate 32 (1 : Byte)).length ≤ 32 ∧
      3 ≤ (calmly (withTx inTx0 [.data [1], .data [2], .data [3]])).periph.radio.txFifo.length ∧
      (calmly inTx0).mode = .tx ∧ (∃ p : Pipe, Instr.push 5 [] = .push (BitVec.ofNat 8 p.toNat) []) :=
  ⟨ready_calm _ (by decide), by decide, quiet_calmly _, by decide +kernel, by decide +kernel, rfl, .p5, rfl⟩

theorem witness_ReceiveQueries : Ready (calmly inRx0) ∧ (calmly inRx0).mode = .rx ∧ Quiet (calmly inRx0) :=
  ⟨ready_calm _ (by decide), rfl, quiet_calmly _⟩

theorem witness_SendQueues :
    Ready (calmly inTx0) ∧ (calmly inTx0).mode = .tx ∧ Quiet (calmly inTx0) ∧
      (List.replicate 32 (1 : Byte)).length ≤ 32 ∧
      (withTx inTx0 [.data [1], .data [2]]).periph.radio.txFifo.length < 3 :=
  ⟨ready_calm _ (by decide), rfl, quiet_calmly _, by decide +kernel⟩

theorem witness_TransmitQueries : Ready (calmly inTx0) ∧ (calmly inTx0).mode = .tx ∧ Quiet (calmly inTx0) :=
  ⟨ready_calm _ (by decide), rfl, quiet_calmly _⟩

theorem witness_DrainPass :
    AtPass .standbyTx false (calmly (withTx inTx0 [.data [1]])) ∧ (calmly (withTx inTx0 [.data [1]])).mode = .tx ∧
      Quiet (calmly (withTx inTx0 [.data [1]])) ∧ (calmly (withTx inTx0 [.data [1]])).periph.radio.txFifo ≠ [] ∧
      (calmly (withTx inTx0 [.data [1]])).periph.radio.maxRt = false ∧
      (withMaxRt (withTx inTx0 [.data [1]])).periph.radio.maxRt = true :=
  ⟨.inl ⟨rfl, rfl⟩, rfl, quiet_calmly _, by decide, rfl, rfl⟩

theorem witness_RadioEventsAndMaxRtRecovery :
    (powerState ackRegs .high = .activeRx ∧ (toBools ackRegs.enRxaddr).get .p5 = true ∧
      Radio.reset.rxFifo.length < Params.reference.rxFifoDepth ∧ ackRegs.ackEnabled .p5 = true ∧
      Radio.reset.maxRt = false) ∧
      Params.reference.rxFifoDepth ≤ (withRx inRx0 [⟨0, [1]⟩, ⟨1, [2]⟩, ⟨2, [3]⟩]).periph.radio.rxFifo.length ∧
      powerState inTx0.periph.regs .high = .activeTx ∧ powerState inTx0.periph.regs .high ≠ .activeRx ∧
      powerState ackRegs .high ≠ .activeTx ∧ (withTx inTx0 [.data [1], .data [2]]).periph.radio.txFifo = .data [1] :: [.data [2]] ∧
      ([.ack .p1 [7] true, .ack .p5 [8] true] : List TxEntry) = [.ack .p1 [7] true] ++ .ack .p5 [8] true :: [] ∧
      (∀ y b, TxEntry.ack .p5 y b ∉ [TxEntry.ack .p1 [7] true]) ∧
      Radio.maxRt { Radio.reset with maxRt := true } = true ∧ (calmly (withMaxRt (withTx inTx0 [.data [1]]))).seq = .idle ∧
      (calmly (withMaxRt (withTx inTx0 [.data [1]]))).mode = .tx ∧ Quiet (calmly (withMaxRt (withTx inTx0 [.data [1]]))) ∧
      (calmly (withMaxRt (withTx inTx0 [.data [1]]))).periph.radio.txFifo ≠ [] ∧
      (calmly (withMaxRt (withTx inTx0 [.data [1]]))).periph.radio.maxRt = true :=
  ⟨by decide +kernel, by decide +kernel, by decide +kernel, by decide +kernel, by decide +kernel, rfl, rfl, by simp, rfl,
    rfl, rfl,
    quiet_calmly _, by decide, rfl⟩

theorem witness_IllegalModeRefused :
    State.reset.seq = .idle ∧ legalIn .flushTx State.reset.mode = false ∧
      legalIn (.new true true true) inStandby0.mode = false := by decide

theorem witness_LegalRequestAnswered :
    inTx0.seq = .idle ∧ legalIn .waitEmpty inTx0.mode = true ∧ inTx0.mode ≠ .off ∧ inTx0.shadow ≠ none := by decide

theorem witness_StepRunsDecoded :
    decode [0x25, 0x6C] = .ok (.frameWRegister .rfCh [0x6C]) ∧
      decodeTableWord 16 0x6C25 = some (.frameWRegister .rfCh [0x6C]) ∧ (Call.mk .waitEmpty rfl).instr = .waitEmpty ∧
      State.reset.requests = [] ∧ State.reset.seq = .idle ∧ rxCalled.seq = .idle ∧ rxCalled.requests = .op ⟨.rx, rfl⟩ :: [] ∧
      (stepN 4 rxCalled).seq.began.isSome = true := by decide +kernel

/-- A run that reached the loop head of `wait_empty`. -/
def atLoopHead : State := run .waitEmpty (withTx inTx0 [.data [1]])

theorem sound_of {s : State} (h : (s.csn ≠ .low ∧ (s.mode ≠ .off → s.shadow ≠ none) ∧
    s.periph.radio.txFifo.length ≤ Config.txFifoDepth ∧ s.periph.radio.rxFifo.length ≤ s.params.rxFifoDepth) ∧
    (s.events.all fun e => e.emitted) = true ∧ bracketed s.events = true) : Sound s :=
  ⟨h.1.1, h.1.2.1, h.1.2.2.1, h.1.2.2.2, fun e he => List.all_eq_true.1 h.2.1 e he, h.2.2⟩

/-- The operation in `B.seq`. -/
def opOf : SeqPos → Option Instr
  | .idle => none
  | .busy op _ _ _ => some op

theorem typed_of {s : State} (h : ∀ op, opOf s.seq = some op → op.wellFormed = true) (op k lost b)
    (hs : s.seq = .busy op k lost b) : op.wellFormed = true := h op (by rw [hs]; rfl)

theorem inv_atLoopHead : Inv atLoopHead :=
  ⟨sound_of (by decide +kernel), sound_of (by decide +kernel), by decide +kernel, by decide +kernel,
    typed_of fun op h => by
      have : opOf atLoopHead.seq = some .waitEmpty := by decide +kernel
      rw [this] at h; cases h; rfl⟩

theorem inv_rxCalled : Inv rxCalled :=
  ⟨sound_of (by decide +kernel), sound_of (by decide +kernel), by decide +kernel, by decide +kernel,
    typed_of fun op h => by cases h⟩

/-- Inside `rx`, its frame done. -/
theorem inv_underWay : Inv (stepN 4 rxCalled) :=
  ⟨sound_of (by decide +kernel), sound_of (by decide +kernel), by decide +kernel, by decide +kernel,
    typed_of fun op h => by
      have : opOf (stepN 4 rxCalled).seq = some .rx := by decide +kernel
      rw [this] at h; cases h; rfl⟩

theorem witness_InvKept :
    (Inv atLoopHead ∧ ∃ t, step atLoopHead = .next t) ∧
      (Inv (stepN 4 rxCalled) ∧ ∃ t, step (stepN 4 rxCalled) = .next t) :=
  ⟨⟨inv_atLoopHead, _, rfl⟩, inv_underWay, _, rfl⟩

theorem portsOk_none {s : State} (h : s.env = []) : PortsOk s := by simp [PortsOk, h]

theorem next_rx {s : State} (h : s.nextInstr = some .rx) (i : Instr) (hi : s.nextInstr = some i) : i = .rx := by
  rw [h] at hi; cases hi; rfl

theorem modeInv_origin : ModeInv (stepN 4 rxCalled).origin := by constructor <;> decide +kernel

theorem witness_ModeInvariantsKept :
    ModeInv (stepN 4 rxCalled).origin ∧ PortsOk (stepN 4 rxCalled).origin ∧
      (∀ i, (stepN 4 rxCalled).nextInstr = some i → changesModePins i = false) ∧
      (∃ t, step (stepN 4 rxCalled) = .next t) ∧ ModeInv rxCalled.origin ∧ PortsOk rxCalled.origin ∧
      ∃ t, step rxCalled = .next t :=
  ⟨modeInv_origin, portsOk_none (by decide +kernel),
    fun i hi => by rw [next_rx (by decide +kernel) i hi]; rfl, ⟨_, rfl⟩, by constructor <;> decide +kernel,
    portsOk_none rfl, _, rfl⟩

theorem witness_ShadowCoherent :
    Coherent (stepN 4 rxCalled).origin ∧ Inv (stepN 4 rxCalled) ∧ PortsOk (stepN 4 rxCalled).origin ∧
      (∀ i, (stepN 4 rxCalled).nextInstr = some i → bypassesShadow i = false) ∧
      ∃ t, step (stepN 4 rxCalled) = .next t :=
  ⟨fun _ => ⟨0x0A, by decide +kernel, by decide +kernel⟩, inv_underWay, portsOk_none (by decide +kernel),
    fun i hi => by rw [next_rx (by decide +kernel) i hi]; rfl, _, rfl⟩

/-- The last step of `rx` changes the mode. -/
theorem witness_OnlyTransitionsChangeMode :
    Inv (stepN 7 rxCalled) ∧ ∃ t, step (stepN 7 rxCalled) = .next t ∧ t.mode ≠ (stepN 7 rxCalled).mode := by
  refine ⟨⟨sound_of (by decide +kernel), sound_of (by decide +kernel), by decide +kernel, by decide +kernel,
    typed_of fun op h => ?_⟩, stepN 8 rxCalled, by rfl, by decide +kernel⟩
  have : opOf (stepN 7 rxCalled).seq = some .rx := by decide +kernel
  rw [this] at h; cases h; rfl

theorem witness_FramesStandAlone :
    seqWf rxCalled = true ∧ (∃ t, Steps 4 rxCalled t ∧ t.events.any (fun e => e matches .xfer _ _) = true) ∧
      seqWf atLoopHead = true ∧ (∃ t, Steps 1 atLoopHead t) ∧
      FaultSet.has (inRx0.fault.add (.hazard .flushInActiveRx)) (.hazard .flushInActiveRx) = true :=
  ⟨rfl, ⟨stepN 4 rxCalled, ⟨_, rfl, _, rfl, _, rfl, _, rfl, by rfl⟩, by decide +kernel⟩, by decide +kernel,
    ⟨_, _, rfl, rfl⟩, rfl⟩

theorem witness_StepsGoPointByPoint :
    rxCalled.seq = .idle ∧ rxCalled.requests = .op ⟨.rx, rfl⟩ :: [] ∧ (Request.op ⟨.rx, rfl⟩).instr = .ok .rx ∧
      (∃ t, exec .rx { rxCalled with requests := [] } = .next t) ∧ isLoop .waitEmpty = true ∧
      atLoopHead.seq = .busy .waitEmpty loopHead false none ∧ ∃ t, exec .waitEmpty atLoopHead = .next t :=
  ⟨rfl, rfl, rfl, ⟨_, rfl⟩, rfl, by decide +kernel, _, rfl⟩

end Sys2Proof.Machine.Tests
end

section
/-! PROOFS. The pipe masks (rule R61): `from_bools` and `to_bools` bit by bit, and the three registers that use them. -/

namespace Sys2Proof

theorem bitAt_getLsbD (i j : Nat) (b : Bool) : (bitAt i b).getLsbD j = (b && decide (j = i) && decide (j < 8)) := by
  cases b with
  | false => simp [bitAt]
  | true =>
    rw [Bool.eq_iff_iff]
    simp [bitAt, BitVec.getLsbD_one]
    omega

theorem fromBools_getLsbD_pipe (b : Six Bool) (p : Pipe) : (fromBools b).getLsbD p.toNat = b.get p := by
  simp only [fromBools, BitVec.getLsbD_or, bitAt_getLsbD]
  cases p <;> simp [Pipe.toNat, Six.get]

theorem fromBools_getLsbD_reserved (b : Six Bool) {j : Nat} (hj : 6 ≤ j) : (fromBools b).getLsbD j = false := by
  simp only [fromBools, BitVec.getLsbD_or, bitAt_getLsbD]
  have hne {i : Nat} (hi : i < 6) : j ≠ i := by omega
  simp [hne]

theorem toBools_get (x : Byte) (p : Pipe) : (toBools x).get p = x.getLsbD p.toNat := by
  cases p <;> rfl

/-- Settles O6: bit by bit, from the one bit each `bitAt` sets. -/
theorem pipeBools : Obligations.PipeBools := by
  refine ⟨fromBools_getLsbD_pipe, fun b => ⟨?_, ?_⟩, toBools_get, ?_⟩
  · exact fromBools_getLsbD_reserved b (by decide)
  · exact fromBools_getLsbD_reserved b (by decide)
  · rintro r x b (rfl | rfl | rfl) <;> exact ⟨rfl, rfl⟩

end Sys2Proof
end

section
/-! PROOFS. Payload construction, and the admission check on a payload's length (rules R73, R342, R370). -/

namespace Sys2Proof.Machine

/-! ## Construction -/

@[simp] theorem ofBytes_len (d : List Byte) : (Payload.ofBytes d).len = min d.length 32 := rfl

theorem ofBytes_getElem? {d : List Byte} {k : Nat} (hk : k < (Payload.ofBytes d).len) :
    (Payload.ofBytes d).data[k]? = d[k]? := by
  obtain ⟨hd, h32⟩ : k < d.length ∧ k < 32 := by simpa using hk
  calc (Payload.ofBytes d).data[k]?
    _ = (d.take 32)[k]? := List.getElem?_append_left (by simp [hd, h32])
    _ = d[k]? := List.getElem?_take_of_lt h32

/-! ## Operations that raise before any primitive event of the bus -/

/-- Where only `B.seq` has moved when the body raises, an accepted operation leaves the error and nothing else. -/
theorem hostOp_raises {i : Instr} {legal : Mode → Bool} {body : Op Value} {s : State} {e : ErrKind} {q : SeqPos}
    (hs : s.seq = .idle) (hl : legal s.mode = true)
    (hb : body (s.start i) = .error (.err e) ((s.start i).withSeq q)) :
    hostOp i legal body s = .next { s with result := some (.err e) } := by
  rw [hostOp_runs hs hl, hb]
  show Host.Outcome.next { s with seq := .idle, result := some (.err e) } = _
  rw [← hs]

theorem returningUnit_raises {x : Op Unit} {s s' : State} {e : Stop} (h : x s = .error e s') :
    returningUnit x s = .error e s' := bind_of_error h

theorem check_raises {c : Prop} [Decidable c] (hc : c) (e : ErrKind) {s : State} (hs : s.seq.began = none) :
    check c (raise e) s = .error (.err e) s.advance := by simp [hs, hc]

theorem send_too_long {d : List Byte} (hd : Config.payloadMax < d.length) {s : State} (hs : s.seq.began = none) :
    send d s = .error (.err .payloadTooLarge) s.advance :=
  bind_of_error (check_raises hd _ hs)

theorem pushTo_too_long (p : Pipe) {d : List Byte} (hd : Config.payloadMax < d.length) {s : State}
    (hs : s.seq.began = none) : pushTo p d s = .error (.err .payloadTooLarge) s.advance :=
  bind_of_error (check_raises hd _ hs)

theorem ofNat?_of_le {n : Nat} (h : n ≤ 5) : ∃ p, Pipe.ofNat? n = some p := by
  interval_cases n <;> exact ⟨_, rfl⟩

/-- With a pipe of 0 to 5, `push` is its checked part after one program point. -/
theorem push_of_pipe {pipe : Byte} {p : Pipe} (hp : Pipe.ofNat? pipe.toNat = some p) (d : List Byte) {s : State}
    (hs : s.seq.began = none) : push pipe d s = pushTo p d s.advance := by
  rw [push, bind_of_ok (run_tick hs), hp]

theorem push_too_long {pipe : Byte} (hp : pipe.toNat ≤ 5) {d : List Byte} (hd : Config.payloadMax < d.length)
    {s : State} (hs : s.seq.began = none) : push pipe d s = .error (.err .payloadTooLarge) s.advance.advance := by
  obtain ⟨p, hp⟩ := ofNat?_of_le hp
  rw [push_of_pipe hp d hs, pushTo_too_long p hd (by simpa using hs)]

theorem exec_send_too_long {d : List Byte} (hd : Config.payloadMax < d.length) {s : State} (hs : s.seq = .idle)
    (hm : s.mode = .tx) : exec (.send d) s = .next { s with result := some (.err .payloadTooLarge) } :=
  hostOp_raises hs (by rw [hm]; rfl) (returningUnit_raises (send_too_long hd rfl))

theorem exec_push_too_long {pipe : Byte} (hp : pipe.toNat ≤ 5) {d : List Byte} (hd : Config.payloadMax < d.length)
    {s : State} (hs : s.seq = .idle) (hm : inStandbyOrRx s.mode = true) :
    exec (.push pipe d) s = .next { s with result := some (.err .payloadTooLarge) } :=
  hostOp_raises hs hm (returningUnit_raises (push_too_long hp hd rfl))

/-- Settles O7: both operations test the length before their first frame, so only `B.seq` moves before they raise. -/
theorem payloadConstruction : Obligations.PayloadConstruction := by
  refine ⟨ofBytes_len, fun _ _ => ofBytes_getElem?, fun s d hs hd => ⟨exec_send_too_long hd hs, ?_⟩⟩
  intro hm pipe hp
  have hl : inStandbyOrRx s.mode = true := by rcases hm with hm | hm <;> rw [hm] <;> rfl
  exact exec_push_too_long hp hd hs hl

end Sys2Proof.Machine
end

section
/-! PROOFS. The command encoding (rules R150 to R157) and the register codec (rule R60): what the decoder reads off a
command byte, decoding after encoding and encoding after decoding, the emitted set, and the round trip of every register. -/

namespace Sys2Proof

/-! ## The fields of a command byte -/

/-- The row of the command table a command belongs to. -/
def Cmd.kind : Cmd → CmdKind
  | .rRegister _ _ => .rRegister
  | .wRegister _ _ => .wRegister
  | .rRxPlWid => .rRxPlWid
  | .rRxPayload _ => .rRxPayload
  | .wTxPayload _ => .wTxPayload
  | .wAckPayload _ _ => .wAckPayload
  | .flushTx => .flushTx
  | .flushRx => .flushRx
  | .nop => .nop

theorem cmdKindOf_rRegister (r : Reg) : cmdKindOf (r.addr.setWidth 8) = some .rRegister := by
  cases r with
  | rxPw p => cases p <;> rfl
  | _ => rfl

theorem cmdKindOf_wRegister (r : Reg) : cmdKindOf (0x20#8 ||| r.addr.setWidth 8) = some .wRegister := by
  cases r with
  | rxPw p => cases p <;> rfl
  | _ => rfl

theorem cmdKindOf_wAckPayload (p : Pipe) :
    cmdKindOf (0xA8#8 ||| BitVec.ofNat 8 p.toNat) = some .wAckPayload := by
  cases p <;> rfl

/-- A command byte is of its command's row. -/
theorem cmdKindOf_byte (c : Cmd) : cmdKindOf c.byte = some c.kind := by
  cases c with
  | rRegister r n => exact cmdKindOf_rRegister r
  | wRegister r d => exact cmdKindOf_wRegister r
  | rRxPayload w => exact (by decide : cmdKindOf 0x61 = some .rRxPayload)
  | wTxPayload d => exact (by decide : cmdKindOf 0xA0 = some .wTxPayload)
  | wAckPayload p d => exact cmdKindOf_wAckPayload p
  | _ => rfl

theorem regField_rRegister (r : Reg) : regField (r.addr.setWidth 8) = some r := by
  cases r with
  | rxPw p => cases p <;> rfl
  | _ => rfl

theorem regField_wRegister (r : Reg) : regField (0x20#8 ||| r.addr.setWidth 8) = some r := by
  cases r with
  | rxPw p => cases p <;> rfl
  | _ => rfl

theorem pipeField_wAckPayload (p : Pipe) : pipeField (0xA8#8 ||| BitVec.ofNat 8 p.toNat) = some p := by
  cases p <;> rfl

/-! ## Decoding an encoding -/

theorem decodeCmd_encode {c : Cmd} (h : c.wellFormed = true) : decodeCmd c.encode = .ok c := by
  have hk := cmdKindOf_byte c
  cases c <;> simp only [Cmd.wellFormed, decide_eq_true_eq] at h <;>
    simp only [Cmd.encode, decodeCmd, hk, Cmd.kind, Cmd.dataOut]
  case rRegister r n => simp [Cmd.byte, regField_rRegister, h]
  case wRegister r d => simp [Cmd.byte, regField_wRegister, h]
  case wAckPayload p d => simp [Cmd.byte, pipeField_wAckPayload, h]
  all_goals simp [h]

@[simp] theorem toInstr_cmd? (c : Cmd) : c.toInstr.cmd? = some c := by cases c <;> rfl

theorem eq_toInstr_of_cmd? {i : Instr} {c : Cmd} (h : i.cmd? = some c) : i = c.toInstr := by
  cases i <;> cases h <;> rfl

theorem encode_toInstr (c : Cmd) : encode c.toInstr = some c.encode := by simp [encode]

theorem encode_eq_none_iff (i : Instr) : encode i = none ↔ ∀ c : Cmd, i ≠ c.toInstr := by
  rw [encode, Option.map_eq_none_iff]
  constructor
  · rintro h c rfl
    simp at h
  · intro h
    cases hc : i.cmd? with
    | none => rfl
    | some c => exact absurd (eq_toInstr_of_cmd? hc) (h c)

theorem encode_eq_some {i : Instr} {out : List Byte} (h : encode i = some out) :
    ∃ c : Cmd, i = c.toInstr ∧ out = c.encode := by
  obtain ⟨c, hc, rfl⟩ := Option.map_eq_some_iff.1 h
  exact ⟨c, eq_toInstr_of_cmd? hc, rfl⟩

/-- Settles O1: the decoder finds the row and the fields the encoder wrote into the command byte. -/
theorem decodeOfEncode : Obligations.DecodeOfEncode := by
  refine ⟨fun i out hw he => ?_, encode_toInstr, encode_eq_none_iff⟩
  obtain ⟨c, rfl, rfl⟩ := encode_eq_some he
  rw [Machine.toInstr_wellFormed] at hw
  simp [decode, decodeCmd_encode hw]

/-! ## Encoding what was decoded -/

/-- A byte of the row R_REGISTER is the byte that encodes its register field. -/
theorem byte_of_rRegister : ∀ b : BitVec 8, cmdKindOf b = some .rRegister →
    (regField b).all (fun r => r.addr.setWidth 8 == b) = true := by decide

theorem byte_of_wRegister : ∀ b : BitVec 8, cmdKindOf b = some .wRegister →
    (regField b).all (fun r => 0x20#8 ||| r.addr.setWidth 8 == b) = true := by decide

theorem byte_of_wAckPayload : ∀ b : BitVec 8, cmdKindOf b = some .wAckPayload →
    (pipeField b).all (fun p => 0xA8#8 ||| BitVec.ofNat 8 p.toNat == b) = true := by decide

/-- The one byte of each row without operand bits. -/
theorem byte_of_plain : ∀ b : BitVec 8,
    (cmdKindOf b = some .rRxPlWid → b = 0x60) ∧ (cmdKindOf b = some .rRxPayload → b = 0x61) ∧
    (cmdKindOf b = some .wTxPayload → b = 0xA0) ∧ (cmdKindOf b = some .flushTx → b = 0xE1) ∧
    (cmdKindOf b = some .flushRx → b = 0xE2) ∧ (cmdKindOf b = some .nop → b = 0xFF) := by decide

/-- The commands whose data phase carries no information on the way out. -/
def Cmd.isRead : Cmd → Bool
  | .rRegister _ _ | .rRxPlWid | .rRxPayload _ => true
  | .wRegister _ _ | .wTxPayload _ | .wAckPayload _ _ | .flushTx | .flushRx | .nop => false

/-- What `decodeCmd` reads off a window: the command byte, and as many data bytes as the command sends; they are the
command's own unless it is a read. -/
theorem decodeCmd_cons {b : Byte} {data : List Byte} {c : Cmd} (h : decodeCmd (b :: data) = .ok c) :
    c.byte = b ∧ c.dataOut.length = data.length ∧ (c.isRead = false → c.dataOut = data) := by
  obtain ⟨hWid, hPay, hTx, hFtx, hFrx, hNop⟩ := byte_of_plain b
  simp only [decodeCmd] at h
  split at h
  · cases h
  · rename_i hk
    split at h
    · cases h
    · rename_i r hr
      split at h <;> cases h
      have := byte_of_rRegister b hk
      simp_all [Cmd.byte, Cmd.dataOut, Cmd.isRead]
  · rename_i hk
    split at h
    · cases h
    · rename_i r hr
      split at h <;> cases h
      have := byte_of_wRegister b hk
      simp_all [Cmd.byte, Cmd.dataOut]
  · rename_i hk
    split at h <;> cases h
    simp_all [Cmd.byte, Cmd.dataOut, Cmd.isRead]
  · rename_i hk
    split at h <;> cases h
    simp_all [Cmd.byte, Cmd.dataOut, Cmd.isRead]
  · rename_i hk
    split at h <;> cases h
    simp_all [Cmd.byte, Cmd.dataOut]
  · rename_i hk
    split at h
    · cases h
    · rename_i p hp
      split at h <;> cases h
      have := byte_of_wAckPayload b hk
      simp_all [Cmd.byte, Cmd.dataOut]
  all_goals
    rename_i hk
    split at h <;> cases h
    simp_all [Cmd.byte, Cmd.dataOut]

theorem decode_ok {window : List Byte} {i : Instr} (h : decode window = .ok i) :
    ∃ c b data, decodeCmd window = .ok c ∧ i = c.toInstr ∧ window = b :: data := by
  unfold decode at h
  cases hc : decodeCmd window with
  | error e => rw [hc] at h; cases h
  | ok c =>
    rw [hc] at h
    cases window with
    | nil => cases hc
    | cons b data => exact ⟨c, b, data, rfl, by injection h with h; exact h.symm, rfl⟩

theorem isRead_of_toInstr {c : Cmd} (hr : ∀ r n, c.toInstr ≠ .frameRRegister r n) (hw : c.toInstr ≠ .frameRRxPlWid)
    (hp : ∀ w, c.toInstr ≠ .frameRRxPayload w) : c.isRead = false := by
  cases c with
  | rRegister r n => exact absurd rfl (hr r n)
  | rRxPlWid => exact absurd rfl hw
  | rRxPayload w => exact absurd rfl (hp w)
  | _ => rfl

/-- The passive decoder is the decoder with the width check. -/
theorem decodeCapture_ok_iff (W : Nat) (window : List Byte) (i : Instr) :
    decodeCapture W window = .ok i ↔ ∃ c, decodeCmd window = .ok c ∧ i = c.toInstr ∧ c.lengthAt W = true := by
  unfold decodeCapture
  cases decodeCmd window with
  | error e => simp
  | ok c =>
    cases hl : c.lengthAt W with
    | false => simp [hl]
    | true => simp [hl, eq_comm (a := i)]

theorem width_check_iff (r : Reg) (n W : Nat) :
    (!r.isAddress || n == W) = true ↔ ∀ q : Reg, q.isAddress = true → r = q → n + 1 = 1 + W := by
  constructor
  · rintro h q hq rfl
    have : n = W := by simpa [hq] using h
    omega
  · intro h
    cases hA : r.isAddress with
    | false => rfl
    | true => simpa using (by have := h r hA rfl; omega : n = W)

/-- The width check, read off the instruction and the length of the data phase. -/
theorem lengthAt_iff {c : Cmd} {W n : Nat} (hn : c.dataOut.length = n) : c.lengthAt W = true ↔
    ∀ r : Reg, r.isAddress = true →
      ((∃ n, c.toInstr = .frameRRegister r n) ∨ ∃ data, c.toInstr = .frameWRegister r data) → n + 1 = 1 + W := by
  subst hn
  cases c with
  | rRegister r n => simpa [Cmd.toInstr, Cmd.dataOut, Cmd.lengthAt] using width_check_iff r n W
  | wRegister r d => simpa [Cmd.toInstr, Cmd.dataOut, Cmd.lengthAt] using width_check_iff r d.length W
  | _ => simp [Cmd.lengthAt, Cmd.toInstr]

/-- Settles O2: the byte of each row is rebuilt from its fields, and a write's data phase is the command's own. -/
theorem encodeOfDecode : Obligations.EncodeOfDecode := by
  constructor
  · intro window i h
    obtain ⟨c, b, data, hc, rfl, rfl⟩ := decode_ok h
    obtain ⟨hb, hl, hd⟩ := decodeCmd_cons hc
    refine ⟨c.encode, encode_toInstr c, by simp [Cmd.encode, hl], by simp [Cmd.encode, hb], fun hr hw hp => ?_⟩
    rw [Cmd.encode, hb, hd (isRead_of_toInstr hr hw hp)]
  · intro W window i
    rw [decodeCapture_ok_iff]
    constructor
    · rintro ⟨c, hc, rfl, hl⟩
      have hdec : decode window = .ok c.toInstr := by simp [decode, hc]
      obtain ⟨_, b, data, -, -, rfl⟩ := decode_ok hdec
      exact ⟨hdec, (lengthAt_iff (decodeCmd_cons hc).2.1).1 hl⟩
    · rintro ⟨hdec, hl⟩
      obtain ⟨c, b, data, hc, rfl, rfl⟩ := decode_ok hdec
      exact ⟨c, hc, rfl, (lengthAt_iff (decodeCmd_cons hc).2.1).2 hl⟩

/-! ## The command table -/

/-- Two rows share no byte if some bit that both masks look at differs in their values. -/
theorem rows_disjoint {x y : CmdRow} (h : x.mask &&& y.mask &&& (x.value ^^^ y.value) ≠ 0) (b : Byte) :
    ¬ (b &&& x.mask = x.value ∧ b &&& y.mask = y.value) := by
  rintro ⟨hx, hy⟩
  refine h ?_
  rw [← hx, ← hy]
  ext i hi
  simp only [BitVec.getElem_and, BitVec.getElem_xor, BitVec.ofNat_eq_ofNat, BitVec.getElem_zero]
  cases b[i] <;> cases x.mask[i] <;> cases y.mask[i] <;> rfl

/-- A lone byte decodes to `NotEmitted` exactly outside the emitted set (rule R160). -/
theorem decode_notEmitted_iff : ∀ b : BitVec 8, decode [b] = .error (.notEmitted b) ↔
    ¬ ((b.toNat ≤ 0x17 ∨ b = 0x1C ∨ b = 0x1D) ∨ (0x20 ≤ b.toNat ∧ b.toNat ≤ 0x37 ∨ b = 0x3C ∨ b = 0x3D) ∨
       b = 0x60 ∨ b = 0x61 ∨ b = 0xA0 ∨ (0xA8 ≤ b.toNat ∧ b.toNat ≤ 0xAD) ∨ b = 0xE1 ∨ b = 0xE2 ∨ b = 0xFF) := by
  decide

/-- Settles O3: any two rows differ in a bit both of them fix; the lone bytes are the 256 cases. -/
theorem commandBytesDisjoint : Obligations.CommandBytesDisjoint := by
  refine ⟨List.Pairwise.imp (fun {x y} h b => rows_disjoint h b) ?_, decode_notEmitted_iff⟩
  decide

/-- Settles O4. -/
theorem specWordsDecode : Obligations.SpecWordsDecode := by
  refine ⟨?_, ?_, ?_, ?_, ?_, ?_, ?_, ?_, ?_⟩ <;> rfl

/-! ## The register codec -/

theorem decode_encode_of_fits {r : Reg} {v : RegVal} (h : v.fits r = true) : RegVal.decode r v.encode = v := by
  cases r <;> cases v <;> first | (cases h; done) | skip
  case status.status v => exact congrArg _ (status_decode_encode v)
  case config.config v => exact congrArg _ (config_decode_encode v)
  case enAa.pipes v => exact congrArg _ (pipes_decode_encode v)
  case enRxaddr.pipes v => exact congrArg _ (pipes_decode_encode v)
  case dynpd.pipes v => exact congrArg _ (pipes_decode_encode v)
  case setupAw.setupAw v => exact congrArg _ (aw_decode_encode v)
  case setupRetr.setupRetr v => exact congrArg _ (setupRetr_decode_encode v)
  case rfCh.rfCh v => exact congrArg _ (rfCh_decode_encode v)
  case rfSetup.rfSetup v => exact congrArg _ (rfSetup_decode_encode v)
  case observeTx.observeTx v => exact congrArg _ (observeTx_decode_encode v)
  case cd.cd v => exact congrArg _ (cd_decode_encode v)
  case rxPw.rxPw p v => exact congrArg _ (rxPw_decode_encode v)
  case fifoStatus.fifoStatus v => exact congrArg _ (fifoStatus_decode_encode v)
  case feature.feature v => exact congrArg _ (feature_decode_encode v)
  all_goals rfl

/-- Re-encoding a decoded byte clears the reserved bits. -/
theorem encode_decode_byte (r : Reg) (b : Byte) (h : r.isAddress = false) :
    (RegVal.decode r [b]).encode = [b &&& r.fieldMask] := by
  have one : ∀ {x y : Byte}, x = y → [x] = [y] := congrArg (fun x => [x])
  cases r with
  | status => exact one (status_encode_decode b)
  | config => exact one (config_encode_decode b)
  | enAa | enRxaddr | dynpd => exact one (pipes_encode_decode b)
  | setupAw => exact one (aw_encode_decode b)
  | setupRetr => exact one (setupRetr_encode_decode b)
  | rfCh => exact one (rfCh_encode_decode b)
  | rfSetup => exact one (rfSetup_encode_decode b)
  | observeTx => exact one (observeTx_encode_decode b)
  | cd => exact one (cd_encode_decode b)
  | rxPw p => exact one (rxPw_encode_decode b)
  | fifoStatus => exact one (fifoStatus_encode_decode b)
  | feature => exact one (feature_encode_decode b)
  | rxAddrP2 | rxAddrP3 | rxAddrP4 | rxAddrP5 => exact one (Machine.and_ff b).symm
  | rxAddrP0 | rxAddrP1 | txAddr => cases h

/-- Settles O5: the codec of each register type, one by one. -/
theorem registerRoundTrip : Obligations.RegisterRoundTrip := by
  refine ⟨fun r v h => decode_encode_of_fits h, encode_decode_byte, fun r a h => ⟨?_, rfl⟩⟩
  cases r <;> cases h <;> rfl

end Sys2Proof
end

section
/-! PROOFS. A Hoare logic for operations, whole or run up to a program point: what must hold before, what holds of every
value returned, and what holds after an error or a fault. A pause leaves `B.seq` in the same operation and stretch. -/

namespace Sys2Proof.Machine

variable {α β : Type}

/-! ## Triples -/

/-- `B.seq` is at some point of the operation `op`, with this loop flag and stretch. -/
def State.inOp (s : State) (op : Instr) (lost : Bool) (b : Option Stretch) : Prop := ∃ k, s.seq = .busy op k lost b

/-- Where a piece run inside `op` ends: `Q` of the value it returns, `E` of the error or fault it ends with; it pauses only
where the step has a point to stop at. -/
def EndsIn (op : Instr) (lost : Bool) (b : Option Stretch) (Q : α → State → Prop) (E : Stop → State → Prop) :
    EStateM.Result Stop State α → Prop
  | .ok a u => Q a u ∧ u.inOp op lost b
  | .error .pause u => b ≠ none ∧ u.inOp op lost b
  | .error e u => E e u

/-- From every state inside an operation that meets `P`, the piece `x` ends as `Q` and `E` say. -/
def Leads (P : State → Prop) (Q : α → State → Prop) (E : Stop → State → Prop) (x : Op α) : Prop :=
  ∀ s op lost b, s.inOp op lost b → P s → EndsIn op lost b Q E (x s)

variable {P : State → Prop} {Q : α → State → Prop} {R : β → State → Prop} {E : Stop → State → Prop}

theorem leads_pure {a : α} (h : ∀ s, P s → Q a s) : Leads P Q E (pure a) := fun s _ _ _ hs hp => ⟨h s hp, hs⟩

theorem leads_throw {e : Stop} (he : e ≠ .pause) (h : ∀ s, P s → E e s) : Leads P Q E (throw e) := by
  intro s op lost b _ hp
  cases e with
  | pause => exact absurd rfl he
  | _ => exact h s hp

theorem leads_raise {e : ErrKind} (h : ∀ s, P s → E (.err e) s) : Leads P Q E (raise e) := leads_throw (by simp) h

theorem leads_violate {v : Violation} (h : ∀ s, P s → E (.fault v) s) : Leads P Q E (violate v) :=
  leads_throw (by simp) h

theorem leads_bind {x : Op α} {f : α → Op β} (hx : Leads P Q E x) (hf : ∀ a, Leads (Q a) R E (f a)) :
    Leads P R E (x >>= f) := by
  intro s op lost b hs hp
  have h := hx s op lost b hs hp
  rw [run_bind]
  cases hxs : x s with
  | ok a u => rw [hxs] at h; exact hf a u op lost b h.2 h.1
  | error e u => rw [hxs] at h; cases e <;> exact h

theorem leads_get {f : State → Op β} (h : ∀ s, Leads (fun u => u = s ∧ P u) R E (f s)) :
    Leads P R E ((get : Op State) >>= f) := fun s op lost b hs hp => h s s op lost b hs ⟨rfl, hp⟩

theorem leads_ite {c : Prop} [Decidable c] {x y : Op α} (hx : c → Leads P Q E x) (hy : ¬ c → Leads P Q E y) :
    Leads P Q E (if c then x else y) := by
  split
  · exact hx ‹_›
  · exact hy ‹_›

theorem Leads.weaken {P' : State → Prop} {Q' : α → State → Prop} {E' : Stop → State → Prop} {x : Op α}
    (h : Leads P Q E x) (hP : ∀ s, P' s → P s) (hQ : ∀ a s, Q a s → Q' a s) (hE : ∀ e s, E e s → E' e s) :
    Leads P' Q' E' x := by
  intro s op lost b hs hp
  have := h s op lost b hs (hP s hp)
  cases hx : x s with
  | ok a u => rw [hx] at this; exact ⟨hQ a u this.1, this.2⟩
  | error e u =>
    rw [hx] at this
    cases e with
    | pause => exact this
    | _ => exact hE _ u this

/-- A program point: its primitive event, after which `B.seq` moves on, or a pause before it. -/
theorem leads_primitive {x : Op α} (hx : Atomic x) (hok : ∀ s a u, P s → x s = .ok a u → Q a u.advance)
    (herr : ∀ s e u, P s → x s = .error e u → E e u) : Leads P Q E (primitive x) := by
  rintro s op lost b ⟨k, hk⟩ hp
  rw [run_primitive]
  cases hr : s.seq.reached with
  | true =>
    refine ⟨?_, k, hk⟩
    rintro rfl
    rw [reached_whole (by rw [hk]; rfl)] at hr
    cases hr
  | false =>
    have hseq := hx.seq s
    simp only [Bool.false_eq_true, if_false]
    cases hxs : x s with
    | ok a u =>
      rw [hxs] at hseq
      exact ⟨hok s a u hp hxs, k + 1, by rw [advance_seq, show u.seq = s.seq from hseq, hk]; rfl⟩
    | error e u =>
      cases e with
      | pause => exact absurd hxs (hx.pauses s u)
      | _ => exact herr s _ u hp hxs

/-- An assignment as a program point. -/
theorem leads_assign {f : State → State} (ha : Atomic (modify f : Op Unit)) {Q : Unit → State → Prop}
    (h : ∀ s, P s → Q () (f s).advance) : Leads P Q E (primitive (modify f)) :=
  leads_primitive ha (fun s _ u hp hx => by injection hx with _ hx; exact hx ▸ h s hp) fun _ _ _ _ hx => by cases hx

theorem leads_setMode {m : Mode} {Q : Unit → State → Prop} (h : ∀ s, P s → Q () (s.withMode m).advance) :
    Leads P Q E (setMode m) := leads_assign (f := fun s => s.withMode m)
    (atomic_modify (fun _ _ => rfl) (fun _ => rfl) (fun _ => rfl)) h

theorem leads_setCe {l : Level} {Q : Unit → State → Prop} (h : ∀ s, P s → Q () (s.withCe l).advance) :
    Leads P Q E (setCe l) := leads_assign (f := fun s => s.withCe l)
    (atomic_modify (fun _ _ => rfl) (fun _ => rfl) (fun _ => rfl)) h

theorem leads_setShadow {v : Byte} {Q : Unit → State → Prop} (h : ∀ s, P s → Q () (s.withShadow v).advance) :
    Leads P Q E (setShadow v) := leads_assign (f := fun s => s.withShadow v)
    (atomic_modify (fun _ _ => rfl) (fun _ => rfl) (fun _ => rfl)) h

theorem leads_hazard {k : Hazard} {Q : Unit → State → Prop} (h : ∀ s, P s → Q () (s.addFault (.hazard k)).advance) :
    Leads P Q E (hazard k) := leads_assign (f := fun s => s.addFault (.hazard k))
    (atomic_modify (fun _ _ => rfl) (fun _ => rfl) (fun _ => rfl)) h

/-- What comes after a local computation that leaves the state. -/
theorem leads_ticked (hP : ∀ s q, P s → P (s.withSeq q)) {x : Op α} (h : Leads P Q E x) :
    Leads P Q E (tick >>= fun _ => x) :=
  leads_bind (Q := fun _ => P)
    (leads_primitive (atomic_pure ()) (fun s _ u hp hx => by injection hx with _ hx; exact hx ▸ hP s _ hp)
      fun _ _ _ _ hx => by cases hx) fun _ => h

/-- A test that ends the operation if it holds, and what comes after. -/
theorem leads_checked (hP : ∀ s q, P s → P (s.withSeq q)) {c : Prop} [Decidable c] {e : Stop} (he : e ≠ .pause)
    (hE : c → ∀ s, P s → E e s) {x : Op α} (h : ¬ c → Leads P Q E x) :
    Leads P Q E (check c (throw e) >>= fun _ => x) :=
  leads_bind (Q := fun _ s => P s ∧ ¬ c)
    (leads_ticked hP (leads_ite (fun hc => leads_throw he (hE hc)) fun hc => leads_pure fun _ hp => ⟨hp, hc⟩))
    fun _ s op lost b hs hp => h hp.2 s op lost b hs hp.1

/-- A frame: what `FrameOk` says of one that returns, and `FrameFailed` of one that raises. -/
theorem leads_frameWith {flagged : Bool} {c : Cmd} {Q : Status × List Byte → State → Prop}
    (hok : ∀ s inp u, P s → FrameOk flagged c inp s u → Q (Status.decode (inp.headD 0), inp.tail) u.advance)
    (herr : ∀ s e evs l conf u, P s → FrameFailed flagged conf c e evs l s u → l = .high ∨ l = .unknown → ¬ PortsOk s →
      E (.err e) u) : Leads P Q E (frameWith flagged c) := by
  refine leads_primitive (atomic_frameBody _ _) (fun s a u hp hx => ?_) fun s e u hp hx => ?_
  · rcases frameBody_any flagged c s with ⟨inp, s', hr, hF⟩ | ⟨e, evs, l, conf, s', hr, hF, hl, hn, -⟩
    · rw [hr] at hx; cases hx; exact hok s inp _ hp hF
    · rw [hr] at hx; cases hx
  · rcases frameBody_any flagged c s with ⟨inp, s', hr, hF⟩ | ⟨e, evs, l, conf, s', hr, hF, hl, hn, -⟩
    · rw [hr] at hx; cases hx
    · rw [hr] at hx; cases hx; exact herr s _ evs l conf _ hp hF hl hn

/-! ## What an operation that runs under a condition keeps -/

/-- `x` keeps `I`, however it ends; it gets stuck only with an invalid shadow. -/
def Holds (I : State → Prop) (x : Op α) : Prop :=
  Leads I (fun _ => I) (fun e u => I u ∧ ∀ f, e = .stuck f → u.shadow = none) x

variable {I : State → Prop}

theorem holds_pure (a : α) : Holds I (pure a) := leads_pure fun _ h => h
theorem holds_raise (e : ErrKind) : Holds I (raise e : Op α) := leads_raise fun _ h => ⟨h, fun _ he => by cases he⟩
theorem holds_violate (v : Violation) : Holds I (violate v : Op α) := leads_violate fun _ h => ⟨h, fun _ he => by cases he⟩
theorem holds_bind {x : Op α} {f : α → Op β} (hx : Holds I x) (hf : ∀ a, Holds I (f a)) : Holds I (x >>= f) :=
  leads_bind hx hf
theorem holds_map {x : Op α} {f : α → β} (hx : Holds I x) : Holds I (x >>= fun a => pure (f a)) :=
  holds_bind hx fun _ => holds_pure _
theorem holds_get {f : State → Op β} (h : ∀ s, Holds I (f s)) : Holds I ((get : Op State) >>= f) :=
  leads_get fun s => (h s).weaken (fun _ h => h.2) (fun _ _ h => h) fun _ _ h => h
theorem holds_ite {c : Prop} [Decidable c] {x y : Op α} (hx : c → Holds I x) (hy : ¬ c → Holds I y) :
    Holds I (if c then x else y) := leads_ite hx hy
theorem holds_forPipes {body : Pipe → Op Unit} (h : ∀ p, Holds I (body p)) : ∀ ps, Holds I (forPipes body ps)
  | [] => holds_pure _
  | p :: ps => holds_bind (h p) fun _ => holds_forPipes h ps

/-- The command writes CONFIG. -/
def writesConfig : Cmd → Bool
  | .wRegister r _ => r = .config
  | .rRegister _ _ | .rRxPlWid | .rRxPayload _ | .wTxPayload _ | .wAckPayload _ _ | .flushTx | .flushRx | .nop => false

/-- A condition that does not look at `B.seq`, the result or the fault set. -/
structure Stable (I : State → Prop) : Prop where
  seq : ∀ {s q}, I s → I (s.withSeq q)
  result : ∀ {s r}, I s → I (s.withResult r)
  fault : ∀ {s r}, I s → I (s.addFault r)

/-- A condition that the pieces of an ordinary operation keep: frames that do not write CONFIG, changes of CONFIG through
the shadow that leave PRIM_RX, and the RX FIFO that `read` leaves open. -/
structure Tame (I : State → Prop) : Prop extends Stable I where
  frame : ∀ {flagged c}, writesConfig c = false → Holds I (frameWith flagged c)
  openRx : ∀ {s q}, I s → I (s.nextDraw.withPeriph { s.periph with radio := { s.periph.radio with rxFifo := q } })
  config : ∀ {flagged} {f : ConfigReg → ConfigReg × Unit}, (∀ c, (f c).1.primRx = c.primRx) →
    Holds I (updateConfigWith flagged f)

theorem Tame.ticked (hI : Tame I) {x : Op α} (h : Holds I x) : Holds I (tick >>= fun _ => x) :=
  leads_ticked (fun _ _ => hI.seq) h

theorem Tame.violation (hI : Tame I) {c : Prop} [Decidable c] {v : Violation} {x : Op α} (h : Holds I x) :
    Holds I (check c (violate v) >>= fun _ => x) :=
  leads_checked (fun _ _ => hI.seq) (by simp) (fun _ _ hs => ⟨hs, fun _ he => by cases he⟩) fun _ => h

theorem Tame.error (hI : Tame I) {c : Prop} [Decidable c] {e : ErrKind} {x : Op α} (h : Holds I x) :
    Holds I (check c (raise e) >>= fun _ => x) :=
  leads_checked (fun _ _ => hI.seq) (by simp) (fun _ _ hs => ⟨hs, fun _ he => by cases he⟩) fun _ => h

theorem Tame.checkPipes (hI : Tame I) {bad : Six Bool} {v : Violation} {x : Op α} (h : Holds I x) :
    Holds I (checkPipes bad (violate v) >>= fun _ => x) :=
  holds_bind (holds_forPipes (fun _ => hI.ticked (holds_ite (fun _ => holds_violate v) fun _ => holds_pure _)) Pipe.all)
    fun _ => h

theorem Tame.hazard (hI : Tame I) (k : Hazard) : Holds I (hazard k) := leads_hazard fun _ h => hI.seq (hI.fault h)

theorem Tame.readReg (hI : Tame I) (T : RegType α) (w : Nat) : Holds I (readReg T w) := by
  have rest : Holds I (do
      tick
      let r ← Machine.frame (.rRegister T.reg (if T.reg.isAddress then w else 1))
      return (r.1, T.decode r.2)) := hI.ticked (holds_map (hI.frame rfl))
  exact hI.ticked (holds_ite (fun _ => hI.violation rest) fun _ => rest)

theorem Tame.writeReg (hI : Tame I) (T : RegType α) (v : α) (h : T.reg ≠ .config) : Holds I (writeReg T v) :=
  hI.violation (holds_bind (hI.frame (by simpa [writesConfig] using h)) fun _ =>
    hI.ticked (holds_ite (fun hc => absurd hc h) fun _ => holds_pure _))

/-- A read-modify-write of CONFIG is a fault, so it writes another register. -/
theorem Tame.updateReg [DecidableEq α] (hI : Tame I) (T : RegType α) (w : Nat) (f : α → α × β) :
    Holds I (updateReg T w f) :=
  leads_checked (fun _ _ => hI.seq) (by simp) (fun _ _ hs => ⟨hs, fun _ he => by cases he⟩) fun h =>
    holds_bind (hI.readReg T w) fun _ => hI.ticked (hI.ticked
      (holds_ite (fun _ => holds_bind (hI.writeReg T _ h) fun _ => holds_pure _) fun _ => holds_pure _))

/-! ## The operations -/

theorem holds_unit {x : Op Unit} (h : Holds I x) : Holds I (returningUnit x) := holds_map h

theorem Tame.runFrame (hI : Tame I) {c : Cmd} (h : writesConfig c = false) : Holds I (runFrame c) :=
  holds_get fun _ => holds_map (hI.frame h)

theorem Tame.markFlush (hI : Tame I) : Holds I markFlush :=
  holds_get fun _ => hI.ticked (holds_ite (fun _ => holds_bind (hI.hazard _) fun _ => holds_pure _) fun _ => holds_pure _)

theorem Tame.flushRx (hI : Tame I) : Holds I flushRx := holds_bind hI.markFlush fun _ => holds_map (hI.frame rfl)
theorem Tame.flushTx (hI : Tame I) : Holds I flushTx := holds_bind hI.markFlush fun _ => holds_map (hI.frame rfl)
theorem Tame.setFrequency (hI : Tame I) (ch : Byte) : Holds I (setFrequency ch) := hI.ticked (hI.updateReg _ _ _)
theorem Tame.setRf (hI : Tame I) (rate : DataRate) (power : Byte) : Holds I (setRf rate power) :=
  hI.violation (hI.ticked (hI.updateReg _ _ _))
theorem Tame.getAddressWidth (hI : Tame I) : Holds I getAddressWidth := holds_map (hI.readReg _ _)
theorem Tame.setAddressWidth (hI : Tame I) (w : Byte) : Holds I (setAddressWidth w) := hI.violation (hI.updateReg _ _ _)
theorem Tame.setCrc (hI : Tame I) (mode : CrcMode) : Holds I (setCrc mode) := hI.ticked (hI.config fun _ => rfl)
theorem Tame.setInterruptMask (hI : Tame I) (a b c : Bool) : Holds I (setInterruptMask a b c) := by
  unfold Machine.setInterruptMask
  exact hI.config fun _ => rfl

theorem Tame.clearInterrupts (hI : Tame I) : Holds I clearInterrupts := holds_map (hI.writeReg _ _ (by decide))

theorem Tame.writeRxAddr (hI : Tame I) (p : Pipe) (a : List Byte) : Holds I (writeRxAddr p a) := by
  cases p <;> exact hI.writeReg _ _ (by decide)

theorem Tame.setPipeAddr (hI : Tame I) (p : Pipe) (a : List Byte) : Holds I (setPipeAddr p a) :=
  holds_bind hI.getAddressWidth fun _ => hI.violation (hI.ticked (holds_map (hI.writeRxAddr p a)))

theorem Tame.setRxAddr (hI : Tame I) (pipe : Byte) (a : List Byte) : Holds I (setRxAddr pipe a) := by
  unfold Machine.setRxAddr
  refine hI.ticked ?_
  split
  · exact holds_raise _
  · exact hI.setPipeAddr _ _

theorem Tame.setTxAddr (hI : Tame I) (a : List Byte) : Holds I (setTxAddr a) :=
  holds_bind hI.getAddressWidth fun _ => hI.violation (holds_map (hI.writeReg _ _ (by decide)))

theorem Tame.setPipeLength (hI : Tame I) (l : Six (Option Byte)) (p : Pipe) : Holds I (setPipeLength l p) := by
  unfold Machine.setPipeLength
  refine hI.ticked ?_
  split
  · exact hI.updateReg _ _ _
  · exact holds_pure _

theorem Tame.setPipesRxLengths (hI : Tame I) (l : Six (Option Byte)) : Holds I (setPipesRxLengths l) :=
  hI.checkPipes <| hI.ticked <| holds_bind (hI.updateReg _ _ _) fun _ => holds_bind (hI.updateReg _ _ _) fun _ =>
    holds_forPipes (hI.setPipeLength l) _

theorem Tame.setConfiguredAddr (hI : Tame I) (a : Six (Option (List Byte))) (p : Pipe) :
    Holds I (setConfiguredAddr a p) := by
  unfold Machine.setConfiguredAddr
  refine hI.ticked ?_
  split
  · exact hI.setRxAddr _ _
  · exact holds_pure _

theorem Tame.configureRx (hI : Tame I) (c : RxConfig) : Holds I (configureRx c) :=
  hI.violation <| hI.violation <| hI.checkPipes <| hI.checkPipes <|
    holds_bind (hI.setFrequency _) fun _ => holds_bind (hI.setRf _ _) fun _ => holds_bind (hI.setAddressWidth _) fun _ =>
    holds_bind (hI.setCrc _) fun _ => holds_bind (holds_forPipes (hI.setConfiguredAddr _) _) fun _ =>
    holds_bind (hI.updateReg _ _ _) fun _ => holds_bind (hI.updateReg _ _ _) fun _ => hI.setPipesRxLengths _

theorem Tame.configureTx (hI : Tame I) (c : TxConfig) : Holds I (configureTx c) :=
  hI.violation <| hI.violation <| hI.violation <|
    holds_bind (hI.setFrequency _) fun _ => holds_bind (hI.setRf _ _) fun _ => holds_bind (hI.setAddressWidth _) fun _ =>
    holds_bind (hI.setCrc _) fun _ => holds_bind (hI.updateReg _ _ _) fun _ => holds_bind (hI.setTxAddr _) fun _ =>
    holds_bind (hI.setRxAddr _ _) fun _ => holds_bind (hI.updateReg _ _ _) fun _ =>
    holds_bind (hI.updateReg _ _ _) fun _ => hI.setPipesRxLengths _

theorem Tame.setPower (hI : Tame I) (up : Bool) : Holds I (setPower up) :=
  holds_bind (holds_get fun _ => hI.ticked
    (holds_ite (fun _ => holds_bind (hI.hazard _) fun _ => holds_pure _) fun _ => holds_pure _)) fun _ =>
    hI.config fun _ => rfl

theorem Tame.readFifo (hI : Tame I) : Holds I readFifo := hI.readReg _ _

theorem Tame.canRead (hI : Tame I) : Holds I canRead :=
  holds_bind hI.clearInterrupts fun _ => holds_bind hI.readFifo fun _ => hI.ticked (holds_pure _)

theorem Tame.openRxFifo (hI : Tame I) : Holds I openRxFifo := fun _ _ _ _ hs h =>
  ⟨hI.openRx h, hs⟩

theorem Tame.readPayload (hI : Tame I) : Holds I readPayload :=
  holds_bind (hI.frame rfl) fun _ => hI.ticked <| holds_ite (fun _ => holds_map (hI.frame rfl)) fun _ => hI.ticked <|
    holds_ite (fun _ => holds_map hI.openRxFifo) fun _ => holds_map (hI.frame rfl)

theorem Tame.push (hI : Tame I) (pipe : Byte) (d : List Byte) : Holds I (push pipe d) := by
  unfold Machine.push
  refine hI.ticked ?_
  split
  · exact holds_raise _
  · exact hI.error <| holds_bind hI.readFifo fun _ => hI.error (holds_map (hI.frame rfl))

/-! ## Operations that write CE -/

/-- `x` keeps `I` where CE writes do. -/
theorem Tame.send (hI : Tame I) (hce : Holds I ceEnable) (d : List Byte) : Holds I (send d) :=
  hI.error <| holds_bind hI.readFifo fun _ => hI.error <| holds_bind (hI.frame rfl) fun _ => hce

theorem Tame.waitPass (hI : Tame I) (hon : Holds I ceEnable) (hoff : Holds I ceDisable) (lost : Bool) :
    Holds I (waitPass lost) :=
  holds_bind hI.readFifo fun _ => hI.ticked <| holds_ite
    (fun _ => holds_bind hoff fun _ => hI.error (holds_pure _)) fun _ => hI.ticked <| holds_ite
    (fun _ => holds_bind (hI.frame rfl) fun _ => holds_bind (hI.writeReg _ _ (by decide)) fun _ =>
      hI.ticked (holds_pure _)) fun _ => holds_map hon

end Sys2Proof.Machine
end

section
/-! PROOFS. How `exec` answers, from whole runs and from inside a stretch alike: a condition that the pieces of an operation
keep holds where the operation ends; where it has not ended, `B.seq` is still in the same stretch. -/

namespace Sys2Proof.Machine

variable {P I : State → Prop} {i : Instr} {s t : State}

/-! ## Acceptance and delivery -/

/-- The block is inside `i` after the step as it was before it, in the same stretch. -/
def UnderWay (i : Instr) (s t : State) : Prop :=
  ∃ k lost b m, s.seq = .busy i k lost (some b) ∧ t.inOp i lost (some { b with upTo := m })

/-- The block is idle, or at the loop head of a looping operation. -/
def Ended (i : Instr) (t : State) : Prop :=
  t.seq = .idle ∨ isLoop i = true ∧ ∃ lost, t.seq = .busy i loopHead lost none

/-- An answer of `i` that keeps `I`: in a legal mode the operation ended with `I`, or is still under way, or is stuck with
an invalid shadow; it is refused in other modes and while another operation runs. -/
def Answers (I : State → Prop) (i : Instr) (s : State) : Host.Outcome State Fault Refusal → Prop
  | .next t => legalIn i s.origin.mode = true ∧ ((I t ∧ Ended i t) ∨ UnderWay i s t)
  | .fault _ => legalIn i s.origin.mode = true ∧ ∃ u, I u ∧ u.shadow = none
  | .refused r => r = .notLegalInMode s.origin.mode ∧ legalIn i s.origin.mode = false ∨ s.entry i = none

/-- An instruction runs from inside itself: at its start, at its loop head, or in the stretch under way. -/
theorem loopEntry_inOp {s0 : State} (h : s.loopEntry i = some s0) :
    ∃ lost b, s0.inOp i lost b ∧
      ∀ u, b ≠ none → u.inOp i lost b → UnderWay i s u := by
  unfold State.loopEntry State.entry at h
  cases hs : s.seq with
  | idle =>
    simp only [hs, Option.some.injEq] at h
    exact ⟨false, none, ⟨0, by rw [← h]; rfl⟩, fun _ hb => absurd rfl hb⟩
  | busy op k lost b =>
    cases b with
    | none =>
      simp only [hs] at h
      split at h
      · rename_i hop
        obtain ⟨rfl, -⟩ := hop
        injection h with h
        exact ⟨lost, none, ⟨k, by rw [← h]; exact hs⟩, fun _ hb => absurd rfl hb⟩
      · cases h
    | some b =>
      simp only [hs] at h
      split at h
      · rename_i hop
        subst hop
        injection h with h
        exact ⟨lost, _, ⟨b.point, by rw [← h]; rfl⟩, fun u _ hu => ⟨k, lost, b, k + 1, hs, hu⟩⟩
      · cases h

theorem loopEntry_mode {s0 : State} (h : s.loopEntry i = some s0) : s0.mode = s.origin.mode := by
  obtain ⟨q, r, rfl⟩ := loopEntry_origin h
  rfl

theorem Stable.entry (hI : Stable I) {s0 : State} (h : s.loopEntry i = some s0) (hs : I s.origin) : I s0 := by
  obtain ⟨q, r, rfl⟩ := loopEntry_origin h
  exact hI.result (hI.seq hs)

/-- How a piece of an answered instruction ends. -/
def Stuck (I : State → Prop) (e : Stop) (u : State) : Prop := I u ∧ ∀ f, e = .stuck f → u.shadow = none

theorem Stable.deliver (hI : Stable I) (hl : legalIn i s.origin.mode = true) {lost : Bool} {b : Option Stretch}
    {r : EStateM.Result Stop State Value} (hr : EndsIn i lost b (fun _ => I) (Stuck I) r)
    (hb : ∀ u, b ≠ none → u.inOp i lost b → UnderWay i s u) : Answers I i s (deliver r) := by
  cases r with
  | ok v u => exact ⟨hl, .inl ⟨hI.result (hI.seq hr.1), .inl rfl⟩⟩
  | error e u =>
    cases e with
    | err e => exact ⟨hl, .inl ⟨hI.result (hI.seq hr.1), .inl rfl⟩⟩
    | fault v => exact ⟨hl, .inl ⟨hI.fault (hI.result (hI.seq hr.1)), .inl rfl⟩⟩
    | stuck f => exact ⟨hl, u, hr.1, hr.2 f rfl⟩
    | pause => exact ⟨hl, .inr (hb u hr.1 hr.2)⟩

theorem Stable.deliverPass (hI : Stable I) (hi : isLoop i = true) (hl : legalIn i s.origin.mode = true) {lost : Bool}
    {b : Option Stretch} {r : EStateM.Result Stop State (Option Bool)} (hr : EndsIn i lost b (fun _ => I) (Stuck I) r)
    (hb : ∀ u, b ≠ none → u.inOp i lost b → UnderWay i s u) : Answers I i s (deliverPass i r) := by
  cases r with
  | ok v u =>
    cases v with
    | none => exact ⟨hl, .inl ⟨hI.result (hI.seq hr.1), .inl rfl⟩⟩
    | some l => exact ⟨hl, .inl ⟨hI.seq hr.1, .inr ⟨hi, l, rfl⟩⟩⟩
  | error e u => exact hI.deliver hl (r := .error e u) (by cases e <;> exact hr) hb

/-- An operation that leads from `P` to `I` answers so from a stretch that began with `P`. -/
theorem Stable.hostOp (hP : Stable P) (hI : Stable I) {legal : Mode → Bool} {x : Op Value} (hs : P s.origin)
    (hl : ∀ m, legalIn i m = legal m) (hx : legal s.origin.mode = true → Leads P (fun _ => I) (Stuck I) x) :
    Answers I i s (hostOp i legal x s) := by
  unfold Machine.hostOp
  split
  · rename_i s0 h0
    have h0 := loopEntry_of_entry h0
    rw [loopEntry_mode h0]
    split
    · rename_i hm
      obtain ⟨lost, b, hin, hb⟩ := loopEntry_inOp h0
      exact hI.deliver ((hl _).trans hm) (hx hm s0 i lost b hin (hP.entry h0 hs)) hb
    · rename_i hm
      exact .inl ⟨rfl, by rw [hl]; simpa using hm⟩
  · rename_i h0
    exact .inr h0

theorem Stable.loopOp (hP : Stable P) (hI : Stable I) {legal : Mode → Bool} {pass : Bool → Op (Option Bool)}
    (hi : isLoop i = true) (hs : P s.origin) (hl : ∀ m, legalIn i m = legal m)
    (hx : legal s.origin.mode = true → ∀ lost, Leads P (fun _ => I) (Stuck I) (pass lost)) :
    Answers I i s (loopOp i legal pass s) := by
  unfold Machine.loopOp
  split
  · rename_i s0 h0
    rw [loopEntry_mode h0]
    split
    · rename_i hm
      obtain ⟨lost, b, hin, hb⟩ := loopEntry_inOp h0
      have stretch : Leads P (fun _ => I) (Stuck I) (loopStretch pass) := leads_get fun _ =>
        Leads.weaken (leads_ite (fun _ => leads_ticked (fun _ _ => hP.seq) (hx hm _)) fun _ => hx hm _) (fun _ h => h.2)
          (fun _ _ h => h) fun _ _ h => h
      exact hI.deliverPass hi ((hl _).trans hm) (stretch s0 i lost b hin (hP.entry h0 hs)) hb
    · rename_i hm
      exact .inl ⟨rfl, by rw [hl]; simpa using hm⟩
  · rename_i h0
    refine .inr ?_
    cases he : s.entry i with
    | none => rfl
    | some s0 => rw [loopEntry_of_entry he] at h0; cases h0

theorem Tame.hostOp (hI : Tame I) {legal : Mode → Bool} {x : Op Value} (hs : I s.origin)
    (hl : ∀ m, legalIn i m = legal m) (hx : legal s.origin.mode = true → Holds I x) :
    Answers I i s (hostOp i legal x s) := hI.toStable.hostOp hI.toStable hs hl hx

theorem Tame.frameOp (hI : Tame I) {x : Op Value} (hs : I s.origin) (hl : ∀ m, legalIn i m = true) (hx : Holds I x) :
    Answers I i s (frameOp i x s) := by
  unfold Machine.frameOp
  split
  · rename_i s0 h0
    have h0 := loopEntry_of_entry h0
    obtain ⟨lost, b, hin, hb⟩ := loopEntry_inOp h0
    exact hI.deliver (hl _) (hx s0 i lost b hin (hI.entry h0 hs)) hb
  · rename_i h0
    exact .inr h0

theorem Tame.loopOp (hI : Tame I) {legal : Mode → Bool} {pass : Bool → Op (Option Bool)} (hi : isLoop i = true)
    (hs : I s.origin) (hl : ∀ m, legalIn i m = legal m) (hx : legal s.origin.mode = true → ∀ lost, Holds I (pass lost)) :
    Answers I i s (loopOp i legal pass s) := hI.toStable.loopOp hI.toStable hi hs hl hx

/-! ## Ordinary instructions -/

/-- The instructions that leave the mode, CE outside Tx, PRIM_RX of the shadow, and CONFIG outside the shadow alone. -/
def isOrdinary (i : Instr) : Bool := !isTransition i && !changesModePins i && !bypassesShadow i

/-- The columns "legal in" of rule R170 as the operations test them. -/
theorem legal_live (m : Mode) : decide (m ≠ .off) = inLive m := by cases m <;> rfl
theorem legal_off (m : Mode) : decide (m = .off) = inOff m := by cases m <;> rfl
theorem legal_standby (m : Mode) : decide (m = .standby) = inStandby m := by cases m <;> rfl
theorem legal_rx (m : Mode) : decide (m = .rx) = inRx m := by cases m <;> rfl
theorem legal_tx (m : Mode) : decide (m = .tx) = inTx m := by cases m <;> rfl
theorem legal_standbyOrRx (m : Mode) : (decide (m = .standby) || decide (m = .rx)) = inStandbyOrRx m := by
  cases m <;> rfl

theorem mode_tx {m : Mode} (h : inTx m = true) : m = .tx := eq_of_beq h

/-- An ordinary instruction keeps what its pieces keep; `send` and `wait_empty` write CE, in Tx. -/
theorem exec_answers (hI : Tame I) (hs : I s.origin)
    (hce : s.origin.mode = .tx → ∀ level, Holds I (ceWriteWith (return ()) level)) (ho : isOrdinary i = true) :
    Answers I i s (exec i s) := by
  cases i <;> first | (cases ho; done) | skip
  case frameRRegister r n => exact hI.frameOp hs (fun _ => rfl) (hI.runFrame rfl)
  case frameWRegister r d =>
    have hr : r ≠ .config := by rintro rfl; cases ho
    exact hI.frameOp hs (fun _ => rfl) (hI.runFrame (decide_eq_false hr))
  case frameRRxPlWid => exact hI.frameOp hs (fun _ => rfl) (hI.runFrame rfl)
  case frameRRxPayload w => exact hI.frameOp hs (fun _ => rfl) (hI.runFrame rfl)
  case frameWTxPayload d => exact hI.frameOp hs (fun _ => rfl) (hI.runFrame rfl)
  case frameWAckPayload p d => exact hI.frameOp hs (fun _ => rfl) (hI.runFrame rfl)
  case frameFlushTx => exact hI.frameOp hs (fun _ => rfl) (hI.runFrame rfl)
  case frameFlushRx => exact hI.frameOp hs (fun _ => rfl) (hI.runFrame rfl)
  case frameNop => exact hI.frameOp hs (fun _ => rfl) (hI.runFrame rfl)
  case writeRegister r v =>
    have hr : r ≠ .config := by rintro rfl; cases ho
    exact hI.hostOp hs legal_live fun _ => holds_map (hI.writeReg (valReg r) v hr)
  case readRegister r w => exact hI.hostOp hs legal_live fun _ => holds_map (hI.readReg _ _)
  case updateRegister r w f => exact hI.hostOp hs legal_live fun _ => holds_map (hI.updateReg _ _ _)
  case flushRx => exact hI.hostOp hs legal_live fun _ => holds_unit hI.flushRx
  case flushTx => exact hI.hostOp hs legal_live fun _ => holds_unit hI.flushTx
  case setFrequency ch => exact hI.hostOp hs legal_live fun _ => holds_unit (hI.setFrequency _)
  case getFrequency => exact hI.hostOp hs legal_live fun _ => holds_map (holds_map (hI.readReg _ _))
  case setRf rate power => exact hI.hostOp hs legal_live fun _ => holds_unit (hI.setRf _ _)
  case getAddressWidth => exact hI.hostOp hs legal_live fun _ => holds_map hI.getAddressWidth
  case setAddressWidth w => exact hI.hostOp hs legal_live fun _ => holds_unit (hI.setAddressWidth _)
  case setCrc mode => exact hI.hostOp hs legal_live fun _ => holds_unit (hI.setCrc _)
  case setInterruptMask a b c => exact hI.hostOp hs legal_live fun _ => holds_unit (hI.setInterruptMask _ _ _)
  case setPipesRxEnable b => exact hI.hostOp hs legal_live fun _ => holds_unit (hI.updateReg _ _ _)
  case getInterrupts => exact hI.hostOp hs legal_live fun _ => holds_map (holds_map (hI.frame rfl))
  case clearInterrupts => exact hI.hostOp hs legal_live fun _ => holds_unit hI.clearInterrupts
  case setRxAddr p a => exact hI.hostOp hs legal_live fun _ => holds_unit (hI.setRxAddr _ _)
  case setTxAddr a => exact hI.hostOp hs legal_live fun _ => holds_unit (hI.setTxAddr _)
  case setPipesRxLengths l => exact hI.hostOp hs legal_live fun _ => holds_unit (hI.setPipesRxLengths _)
  case setAutoRetransmit a b => exact hI.hostOp hs legal_live fun _ => holds_unit (hI.updateReg _ _ _)
  case getAutoAck => exact hI.hostOp hs legal_live fun _ => holds_map (holds_map (hI.readReg _ _))
  case setAutoAck b => exact hI.hostOp hs legal_live fun _ => holds_unit (hI.updateReg _ _ _)
  case configureRx c => exact hI.hostOp hs legal_live fun _ => holds_unit (hI.configureRx _)
  case configureTx c => exact hI.hostOp hs legal_live fun _ => holds_unit (hI.configureTx _)
  case powerUp => exact hI.hostOp hs legal_live fun _ => holds_unit (hI.setPower _)
  case powerDown => exact hI.hostOp hs legal_live fun _ => holds_unit (hI.setPower _)
  case canRead => exact hI.hostOp hs legal_rx fun _ => holds_map hI.canRead
  case read => exact hI.hostOp hs legal_rx fun _ => holds_map hI.readPayload
  case push p d => exact hI.hostOp hs legal_standbyOrRx fun _ => holds_unit (hI.push _ _)
  case hasCarrier => exact hI.hostOp hs legal_rx fun _ => holds_map (hI.readReg _ _)
  case isEmpty => exact hI.hostOp hs legal_rx fun _ => holds_map hI.readFifo
  case isFull => exact hI.hostOp hs legal_rx fun _ => holds_map hI.readFifo
  case send d => exact hI.hostOp hs legal_tx fun hm => holds_unit (hI.send (hce (mode_tx hm) true) _)
  case canSend => exact hI.hostOp hs legal_tx fun _ => holds_map hI.readFifo
  case waitEmpty =>
    exact hI.loopOp rfl hs legal_tx fun hm => hI.waitPass (hce (mode_tx hm) true) (hce (mode_tx hm) false)
  case observe => exact hI.hostOp hs legal_tx fun _ => holds_map (hI.readReg _ _)

/-! ## All other instructions -/

/-- A condition that also does not look at the mode, and that the CE writes, the CSN write of `new` and all changes of
CONFIG through the shadow keep. -/
structure Free (I : State → Prop) : Prop extends Tame I where
  mode : ∀ {s m}, I s → I (s.withMode m)
  ce : ∀ level, Holds I (ceWriteWith (return ()) level)
  abort : Holds I (ceWriteWith abortInFlight false)
  raiseCsn : Holds I raiseCsn
  anyConfig : ∀ {β : Type} (f : ConfigReg → ConfigReg × β), Holds I (updateConfigWith false f)
  writeConfig : ∀ {α : Type} {T : RegType α} (v : α), T.reg = .config → Holds I (writeReg T v)

theorem Free.setMode (hI : Free I) (m : Mode) : Holds I (setMode m) := leads_setMode fun _ h => hI.seq (hI.mode h)

theorem Free.construct (hI : Free I) (a b c : Bool) : Holds I (construct a b c) :=
  holds_bind (hI.ce false) fun _ => holds_bind hI.raiseCsn fun _ => hI.ticked <|
    holds_bind (hI.writeConfig (T := configReg) _ rfl) fun _ => holds_bind hI.getAddressWidth fun _ => hI.error <|
    holds_bind (hI.anyConfig _) fun _ => hI.setMode _

theorem Free.leaveTxPass (hI : Free I) (lost : Bool) : Holds I (leaveTxPass lost) := by
  refine holds_bind (hI.waitPass (hI.ce true) (hI.ce false) lost) fun r => ?_
  cases r with
  | none => exact holds_bind (hI.ce false) fun _ => holds_map (hI.setMode _)
  | some _ => exact holds_pure _

/-- Every instruction but a CONFIG write past the shadow keeps such a condition. -/
theorem exec_answers_free (hI : Free I) (hs : I s.origin) (hb : bypassesShadow i = false) : Answers I i s (exec i s) := by
  cases ho : isOrdinary i with
  | true => exact exec_answers hI.toTame hs (fun _ => hI.ce) ho
  | false =>
    cases i <;> first | (cases ho; done) | skip
    case frameWRegister r d => exact hI.frameOp hs (fun _ => rfl) (hI.runFrame hb)
    case sendCommand c =>
      refine hI.hostOp hs legal_live fun _ => hI.runFrame ?_
      cases c <;> first | rfl | exact hb
    case writeRegister r v =>
      obtain rfl : r = .config := by simpa [isOrdinary, isTransition, changesModePins, bypassesShadow] using ho
      exact hI.hostOp hs legal_live fun _ => holds_map (hI.writeConfig v rfl)
    case updateConfig f => exact hI.hostOp hs legal_live fun _ => holds_map (hI.anyConfig _)
    case ceEnable => exact hI.hostOp hs legal_live fun _ => holds_map (hI.ce true)
    case ceDisable => exact hI.hostOp hs legal_live fun _ => holds_map hI.abort
    case new a b c => exact hI.hostOp hs legal_off fun _ => holds_unit (hI.construct a b c)
    case rx =>
      exact hI.hostOp hs legal_standby fun _ => holds_unit (holds_bind (hI.anyConfig _) fun _ =>
        holds_bind (hI.ce true) fun _ => hI.setMode _)
    case tx => exact hI.hostOp hs legal_standby fun _ => holds_unit (holds_bind (hI.anyConfig _) fun _ => hI.setMode _)
    case standbyRx => exact hI.hostOp hs legal_rx fun _ => holds_unit (holds_bind (hI.ce false) fun _ => hI.setMode _)
    case standbyTx => exact hI.loopOp rfl hs legal_tx fun _ => hI.leaveTxPass

/-- A condition that every frame keeps is kept by every instruction. -/
theorem exec_answers_loose (hI : Free I) (hs : I s.origin) (hf : ∀ flagged c, Holds I (frameWith flagged c)) :
    Answers I i s (exec i s) := by
  cases hb : bypassesShadow i with
  | false => exact exec_answers_free hI hs hb
  | true =>
    have run : ∀ c, Holds I (runFrame c) := fun c => holds_get fun _ => holds_map (hf _ c)
    cases i <;> first | cases hb | skip
    case frameWRegister r d => exact hI.frameOp hs (fun _ => rfl) (run _)
    case sendCommand c => exact hI.hostOp hs legal_live fun _ => run c

end Sys2Proof.Machine
end

section
/-! PROOFS. The conditions that whole-machine statements follow through the operations: that the shadow is valid, that it
shows the peripheral's CONFIG, and the mode invariants of rule R319; and the triples of CE writes and CONFIG updates. -/

namespace Sys2Proof.Machine

variable {α β : Type} {P : State → Prop} {E : Stop → State → Prop}

/-! ## CE writes and CONFIG updates in any environment -/

/-- A CE write: what landed if the pin write succeeded, then `B.ce`. -/
theorem leads_ceWriteWith {landed : Op Unit} (hl : Atomic landed) (hle : ∀ s e u, landed s ≠ .error e u) {level : Bool}
    {Q : Unit → State → Prop}
    (hok : ∀ s u, P s → landed (s.moved s.pinEvents (.pin .ce level true)) = .ok () u →
      Q () (u.advance.withCe (if level then .high else .low)).advance)
    (hfail : ∀ s, P s → ¬ PortsOk s →
      E (.err (.busError .cePin)) ((s.moved s.pinEvents (.pin .ce level false)).advance.withCe .unknown).advance) :
    Leads P Q E (ceWriteWith landed level) := by
  let M : Bool → State → Prop := fun ok u =>
    if ok then Q () (u.withCe (if level then .high else .low)).advance
    else E (.err (.busError .cePin)) (u.withCe .unknown).advance
  refine leads_bind (Q := M) (leads_primitive (atomic_ceLanded hl level) (fun s ok u hp hx => ?_) fun s e u _ hx => ?_)
    fun ok => leads_bind (Q := fun _ u => if ok then Q () u else E (.err (.busError .cePin)) u)
      (leads_setCe fun u hu => by cases ok <;> exact hu) fun _ => ?_
  · have hport := @PortsOk.head s
    rw [run_bind, run_pinWrite] at hx
    generalize (s.env.headD EnvMove.calm).outcome = o at *
    cases ho : o.pinOk with
    | false =>
      rw [ho] at hx
      injection hx with h1 h2
      subst h1 h2
      exact hfail s hp fun h => by rw [hport h] at ho; cases ho
    | true =>
      simp only [ho, if_true, run_bind] at hx
      cases hlx : landed (s.moved s.pinEvents (.pin .ce level true)) with
      | error e v => exact absurd hlx (hle _ _ _)
      | ok _ v =>
        rw [hlx] at hx
        injection hx with h1 h2
        subst h1 h2
        exact hok s v hp hlx
  · rw [run_bind, run_pinWrite] at hx
    generalize (s.env.headD EnvMove.calm).outcome.pinOk = ok at *
    cases ok with
    | false => cases hx
    | true =>
      simp only [if_true, run_bind] at hx
      cases hlx : landed (s.moved s.pinEvents (.pin .ce level true)) with
      | error e v => exact absurd hlx (hle _ _ _)
      | ok _ v => rw [hlx] at hx; cases hx
  · cases ok with
    | false => exact leads_raise fun _ h => h
    | true => exact leads_pure fun _ h => h

theorem leads_ce {level : Bool} {Q : Unit → State → Prop}
    (hok : ∀ s, P s → Q () ((s.moved s.pinEvents (.pin .ce level true)).advance.withCe
      (if level then .high else .low)).advance)
    (hfail : ∀ s, P s → ¬ PortsOk s →
      E (.err (.busError .cePin)) ((s.moved s.pinEvents (.pin .ce level false)).advance.withCe .unknown).advance) :
    Leads P Q E (ceWriteWith (return ()) level) :=
  leads_ceWriteWith (atomic_pure ()) (fun _ _ _ h => by cases h)
    (fun s u hp hx => by injection hx with _ hx; exact hx ▸ hok s hp) hfail

/-- The CSN write of `new`. -/
theorem leads_raiseCsn {Q : Unit → State → Prop}
    (hok : ∀ s, P s → Q () ((s.moved s.pinEvents (.pin .csn true true)).advance.withCsn .high).advance)
    (hfail : ∀ s, P s → ¬ PortsOk s →
      E (.err (.busError .csnPin)) ((s.moved s.pinEvents (.pin .csn true false)).advance.withCsn .unknown).advance) :
    Leads P Q E raiseCsn := by
  let M : Bool → State → Prop := fun ok u =>
    if ok then Q () (u.withCsn .high).advance else E (.err (.busError .csnPin)) (u.withCsn .unknown).advance
  refine leads_bind (Q := M) (leads_primitive (atomic_pinWrite _ _) (fun s ok u hp hx => ?_) fun s e u _ hx => by cases hx)
    fun ok => leads_bind (Q := fun _ u => if ok then Q () u else E (.err (.busError .csnPin)) u)
      (leads_assign (f := fun s => s.withCsn (if ok then .high else .unknown)) (atomic_setCsn _)
        fun u hu => by cases ok <;> exact hu) fun _ => ?_
  · have hport := @PortsOk.head s
    rw [run_pinWrite] at hx
    generalize (s.env.headD EnvMove.calm).outcome = o at *
    injection hx with h1 h2
    subst h1 h2
    cases ho : o.pinOk with
    | false => exact hfail s hp fun h => by rw [hport h] at ho; cases ho
    | true => exact hok s hp
  · cases ok with
    | false => exact leads_raise fun _ h => h
    | true => exact leads_pure fun _ h => h

/-- `update_config`: nothing for a value the shadow already holds, else one frame and the shadow. -/
theorem leads_updateConfigWith {flagged : Bool} {f : ConfigReg → ConfigReg × β} {Q : β → State → Prop}
    (hP : ∀ s q, P s → P (s.withSeq q)) (hnone : ∀ s, P s → s.shadow = none → E (.stuck .shadowInvalid) s)
    (hsame : ∀ s b, P s → s.shadow = some b → (f (.decode b)).1 = .decode b → Q (f (.decode b)).2 s)
    (hfail : ∀ s b e evs l conf u, P s → s.shadow = some b →
      FrameFailed flagged conf (.wRegister .config [(f (.decode b)).1.encode]) e evs l s u → l = .high ∨ l = .unknown →
      ¬ PortsOk s → E (.err e) u)
    (hnew : ∀ s b inp u, P s → s.shadow = some b →
      FrameOk flagged (.wRegister .config [(f (.decode b)).1.encode]) inp s u →
      Q (f (.decode b)).2 (u.advance.withShadow (f (.decode b)).1.encode).advance) :
    Leads P Q E (updateConfigWith flagged f) := by
  refine leads_get fun s => ?_
  cases hs : s.shadow with
  | none => exact leads_throw (by simp) fun u ⟨hu, hp⟩ => hnone u hp (by rw [hu, hs])
  | some b =>
    let P' : State → Prop := fun u => P u ∧ u.shadow = some b
    have hP' : ∀ u q, P' u → P' (u.withSeq q) := fun u q h => ⟨hP u q h.1, h.2⟩
    refine Leads.weaken (P := P') ?_ (fun u ⟨hu, hp⟩ => ⟨hp, by rw [hu, hs]⟩) (fun _ _ h => h) fun _ _ h => h
    refine leads_ticked hP' (leads_ticked hP' (leads_ticked hP' (leads_ite (fun hne => ?_) fun he => ?_)))
    · refine leads_bind (Q := fun _ u => Q (f (.decode b)).2 (u.withShadow (f (.decode b)).1.encode).advance)
        (leads_frameWith (fun u inp v ⟨hp, hb⟩ hF => hnew u b inp v hp hb hF)
          fun u e evs l conf v ⟨hp, hb⟩ hF hl hn => hfail u b e evs l conf v hp hb hF hl hn) fun _ => ?_
      exact leads_bind (Q := fun _ u => Q (f (.decode b)).2 u) (leads_setShadow fun _ h => h) fun _ => leads_pure fun _ h => h
    · exact leads_pure fun u ⟨hp, hb⟩ => hsame u b hp hb (by simpa using he)

theorem abortInFlight_ok (s : State) : ∃ u, abortInFlight s = .ok () u ∧ u.env = s.env ∧ u.shadow = s.shadow ∧
    u.mode = s.mode ∧ u.csn = s.csn ∧ u.ce = s.ce ∧ u.periph.regs = s.periph.regs := by
  simp only [abortInFlight, run_bind, run_get]
  cases s.inFlight <;> exact ⟨_, rfl, rfl, rfl, rfl, rfl, rfl, rfl⟩

theorem abortInFlight_no_error (s : State) (e : Stop) (u : State) : abortInFlight s ≠ .error e u := by
  obtain ⟨v, hv, -⟩ := abortInFlight_ok s
  rw [hv]
  exact fun h => by cases h

/-- A write of CONFIG: the frame, then the shadow. -/
theorem leads_writeConfig {T : RegType α} (hT : T.reg = .config) {v : α} {Q : Status → State → Prop}
    (hP : ∀ s q, P s → P (s.withSeq q))
    (hfail : ∀ s e evs l conf u, P s → FrameFailed false conf (.wRegister .config (T.encode v)) e evs l s u →
      l = .high ∨ l = .unknown → ¬ PortsOk s → E (.err e) u)
    (hnew : ∀ s inp u st, P s → FrameOk false (.wRegister .config (T.encode v)) inp s u →
      Q st (u.advance.advance.withShadow ((T.encode v).headD 0)).advance) : Leads P Q E (writeReg T v) := by
  have hA : T.reg.isAddress = false := by rw [hT]; rfl
  refine leads_checked hP (by simp) (fun hc => by simp [hA] at hc) fun _ => leads_bind
    (Q := fun r u => Q r.1 (u.advance.withShadow ((T.encode v).headD 0)).advance) ?_ fun r => ?_
  · rw [hT]
    exact leads_frameWith (fun s inp u hp hF => hnew s inp u _ hp hF) hfail
  · refine leads_bind (Q := fun _ u => Q r.1 (u.withShadow ((T.encode v).headD 0)).advance)
      (leads_assign (f := id) (atomic_modify (fun _ _ => rfl) (fun _ => rfl) (fun _ => rfl)) fun _ h => h) fun _ => ?_
    refine leads_ite (fun _ => ?_) fun hc => absurd hT hc
    exact leads_bind (Q := fun _ u => Q r.1 u) (leads_setShadow fun _ h => h) fun _ => leads_pure fun _ h => h

/-! ## Frames that returned -/

theorem FrameOk.portsOk {flagged : Bool} {c : Cmd} {inp : List Byte} {s u : State} (h : FrameOk flagged c inp s u)
    (hp : PortsOk s) : PortsOk u := fun m hm =>
  hp m (List.mem_of_mem_tail (List.mem_of_mem_tail (List.mem_of_mem_tail (h.env ▸ hm))))

/-- With the ports succeeding a frame writes the register its command names and no other, hazard mark or not. -/
theorem FrameOk.regs {flagged : Bool} {c : Cmd} {inp : List Byte} {s u : State} (h : FrameOk flagged c inp s u)
    (hp : PortsOk s) : u.periph.regs = Cmd.regsAfter c s.periph.regs := by
  obtain ⟨evs, n, hu⟩ := h.conforming hp
  rw [hu]
  cases flagged <;> exact commit_regs _ _ _

theorem write_config_of_ne (regs : Regs) {r : Reg} (hr : r ≠ .config) (d : List Byte) :
    (regs.write r d).config = regs.config := by
  cases r <;> first | rfl | exact absurd rfl hr

theorem regsAfter_config {c : Cmd} (h : writesConfig c = false) (regs : Regs) :
    (Cmd.regsAfter c regs).config = regs.config := by
  cases c with
  | wRegister r d => exact write_config_of_ne regs (by simpa [writesConfig] using h) d
  | _ => rfl

theorem decode_mergeBits (old new : Byte) : ConfigReg.decode (mergeBits 0x7F old new) = ConfigReg.decode new := by
  simp [ConfigReg.decode, mergeBits]

/-! ## A valid shadow -/

/-- The shadow is valid, if `p`. -/
def ShadowIf (p : Prop) (s : State) : Prop := p → s.shadow ≠ none

theorem not_stuck {e : ErrKind} {P : Prop} (f : Fault) (h : Stop.err e = .stuck f) : P := by cases h

theorem shadowIf_frame (p : Prop) (flagged : Bool) (c : Cmd) : Holds (ShadowIf p) (frameWith flagged c) :=
  leads_frameWith (fun _ _ _ h hF hp => by simpa [hF.shadow] using h hp)
    fun _ _ _ _ _ _ h hF _ _ => ⟨fun hp => by simpa [hF.shadow] using h hp, not_stuck⟩

theorem free_shadowIf (p : Prop) : Free (ShadowIf p) where
  seq h := h
  result h := h
  fault h := h
  frame _ := shadowIf_frame p _ _
  openRx h := h
  config _ := leads_updateConfigWith (fun _ _ h => h) (fun _ h hn => ⟨h, fun _ _ => hn⟩) (fun _ _ h _ _ => h)
    (fun _ _ _ _ _ _ _ h _ hF _ _ => ⟨fun hp => by simpa [hF.shadow] using h hp, not_stuck⟩)
    fun _ _ _ _ _ _ _ _ => by simp
  ce _ := leads_ce (fun _ h => h) fun _ h _ => ⟨h, not_stuck⟩
  abort := by
    refine leads_ceWriteWith atomic_abortInFlight abortInFlight_no_error (fun s u h hu => ?_) fun _ h _ => ⟨h, not_stuck⟩
    obtain ⟨v, hv, -, hs, -⟩ := abortInFlight_ok (s.moved s.pinEvents (.pin .ce false true))
    rw [hv] at hu
    cases hu
    exact fun hp => by simpa [hs] using h hp
  anyConfig _ := leads_updateConfigWith (fun _ _ h => h) (fun _ h hn => ⟨h, fun _ _ => hn⟩) (fun _ _ h _ _ => h)
    (fun _ _ _ _ _ _ _ h _ hF _ _ => ⟨fun hp => by simpa [hF.shadow] using h hp, not_stuck⟩)
    fun _ _ _ _ _ _ _ _ => by simp
  mode h := h
  raiseCsn := leads_raiseCsn (fun _ h => h) fun _ h _ => ⟨h, not_stuck⟩
  writeConfig _ hT := leads_writeConfig hT (fun _ _ h => h)
    (fun _ _ _ _ _ _ h hF _ _ => ⟨fun hp => by simpa [hF.shadow] using h hp, not_stuck⟩)
    fun _ _ _ _ _ _ _ => by simp

/-! ## The shadow shows CONFIG -/

/-- The ports succeed and the shadow is valid and shows the peripheral's CONFIG (rule R122). -/
structure Shown (s : State) : Prop where
  ports : PortsOk s
  shows : ∃ b, s.shadow = some b ∧ ConfigReg.decode b = ConfigReg.decode s.periph.regs.config

theorem Shown.of_same {s u : State} (h : Shown s) (hp : PortsOk u) (hs : u.shadow = s.shadow)
    (hc : u.periph.regs.config = s.periph.regs.config) : Shown u := ⟨hp, by rw [hs, hc]; exact h.shows⟩

/-- A frame that writes CONFIG, and the shadow set to the byte it wrote. -/
theorem Shown.of_write {flagged : Bool} {d inp : List Byte} {s u v : State} (h : Shown s)
    (hF : FrameOk flagged (.wRegister .config d) inp s u) (hv : v.shadow = some (d.headD 0)) (hq : v.env = u.env)
    (hr : v.periph = u.periph) : Shown v := by
  refine ⟨(hF.portsOk h.ports).of_env (.inl hq), d.headD 0, hv, ?_⟩
  rw [hr, hF.regs h.ports]
  exact (decode_mergeBits _ _).symm

theorem free_shown : Free Shown := by
  have same : ∀ {f : State → State} {s : State}, Shown s → (f s).env = s.env → (f s).shadow = s.shadow →
      (f s).periph.regs = s.periph.regs → Shown (f s) := fun h he hs hr =>
    h.of_same (h.ports.of_env (.inl he)) hs (by rw [hr])
  have stuck : ∀ {P : Prop} {s : State}, Shown s → s.shadow = none → P := fun h hn => by
    obtain ⟨b, hb, -⟩ := h.shows
    rw [hn] at hb
    cases hb
  have config : ∀ {β : Type} (flagged : Bool) (f : ConfigReg → ConfigReg × β), Holds Shown (updateConfigWith flagged f) :=
    fun _ _ => leads_updateConfigWith (fun _ _ h => same (f := fun s => s.withSeq _) h rfl rfl rfl)
      (fun _ h hn => stuck h hn) (fun _ _ h _ _ => h)
      (fun _ _ _ _ _ _ _ h _ _ _ hn => absurd h.ports hn) fun _ _ _ _ h _ hF => h.of_write hF rfl rfl rfl
  refine ⟨⟨⟨?_, ?_, ?_⟩, ?_, ?_, fun _ => config _ _⟩, ?_, ?_, ?_, ?_, config _, ?_⟩
  · exact fun h => same (f := fun s => s.withSeq _) h rfl rfl rfl
  · exact fun h => same (f := fun s => s.withResult _) h rfl rfl rfl
  · exact fun h => same (f := fun s => s.addFault _) h rfl rfl rfl
  · exact fun hc => leads_frameWith (fun s inp u h hF => h.of_same (hF.portsOk h.ports) hF.shadow
      ((congrArg Regs.config (hF.regs h.ports)).trans (regsAfter_config hc _)))
      fun _ _ _ _ _ _ h _ _ hn => absurd h.ports hn
  · exact fun h => ⟨h.ports, h.shows⟩
  · exact fun h => same (f := fun s => s.withMode _) h rfl rfl rfl
  · exact fun _ => leads_ce (fun s h => h.of_same (h.ports.of_env (.inr rfl)) rfl rfl) fun _ h hn => absurd h.ports hn
  · refine leads_ceWriteWith atomic_abortInFlight abortInFlight_no_error (fun s u h hu => ?_)
      fun _ h hn => absurd h.ports hn
    obtain ⟨v, hv, he, hs, -, -, -, hr⟩ := abortInFlight_ok (s.moved s.pinEvents (.pin .ce false true))
    rw [hv] at hu
    cases hu
    exact h.of_same (h.ports.of_env (.inr he)) hs (congrArg Regs.config hr)
  · exact leads_raiseCsn (fun s h => h.of_same (h.ports.of_env (.inr rfl)) rfl rfl) fun _ h hn => absurd h.ports hn
  · exact fun v hT => leads_writeConfig hT (fun _ _ h => same (f := fun s => s.withSeq _) h rfl rfl rfl)
      (fun _ _ _ _ _ _ h _ _ hn => absurd h.ports hn) fun _ _ _ _ h hF => h.of_write hF rfl rfl rfl

/-! ## The mode invariants -/

/-- The ports succeed, CSN is high, the shadow is valid, the mode is `m`, PRIM_RX of the shadow is `p`, and CE is at `l`
unless the mode is Tx. -/
structure InMode (m : Mode) (l : Level) (p : Bool) (s : State) : Prop where
  ports : PortsOk s
  csn : s.csn = .high
  shadow : s.shadow ≠ none
  mode : s.mode = m
  prim : s.primRx = p
  ce : m ≠ .tx → s.ce = l

theorem decode_encode_primRx (c : ConfigReg) : (ConfigReg.decode c.encode).primRx = c.primRx := by
  rw [config_decode_encode]

theorem primRx_of_shadow {s u : State} (h : u.shadow = s.shadow) : u.primRx = s.primRx := by
  simp only [State.primRx, h]

theorem InMode.of_same {m : Mode} {l : Level} {p : Bool} {s u : State} (h : InMode m l p s) (hp : PortsOk u)
    (hc : u.csn = .high) (hs : u.shadow = s.shadow) (hm : u.mode = s.mode) (he : u.ce = s.ce) : InMode m l p u :=
  ⟨hp, hc, by rw [hs]; exact h.shadow, hm.trans h.mode, (primRx_of_shadow hs).trans h.prim, fun hn => he.trans (h.ce hn)⟩

theorem tame_inMode (m : Mode) (l : Level) (p : Bool) : Tame (InMode m l p) where
  seq h := h.of_same h.ports h.csn rfl rfl rfl
  result h := h.of_same h.ports h.csn rfl rfl rfl
  fault h := h.of_same h.ports h.csn rfl rfl rfl
  frame _ := leads_frameWith (fun _ _ _ h hF => h.of_same (hF.portsOk h.ports) hF.csn hF.shadow hF.mode hF.ce)
    fun _ _ _ _ _ _ h _ _ hn => absurd h.ports hn
  openRx h := h.of_same h.ports h.csn rfl rfl rfl
  config hf := leads_updateConfigWith (fun _ _ h => h.of_same h.ports h.csn rfl rfl rfl)
    (fun _ h hn => absurd hn h.shadow) (fun _ _ h _ _ => h) (fun _ _ _ _ _ _ _ h _ _ _ hn => absurd h.ports hn)
    fun s b _ u h hb hF => ⟨hF.portsOk h.ports, hF.csn, by simp, hF.mode.trans h.mode, by
      have := h.prim
      simp only [State.primRx, hb] at this
      simp [State.primRx, decode_encode_primRx, hf, this], fun hn => hF.ce.trans (h.ce hn)⟩

/-- In Tx the mode invariants say nothing of CE. -/
theorem inMode_ce {l : Level} {p : Bool} (level : Bool) : Holds (InMode .tx l p) (ceWriteWith (return ()) level) :=
  leads_ce (fun _ h => ⟨h.ports.of_env (.inr rfl), h.csn, h.shadow, h.mode, h.prim, fun hn => absurd rfl hn⟩)
    fun _ h hn => absurd h.ports hn

end Sys2Proof.Machine
end

section
/-! PROOFS. The mode (rules R312, R319): only the last assignment of a transition changes it; what `new` leaves when it
returns, and what the transitions between live modes do to the mode invariants. -/

namespace Sys2Proof.Machine

variable {α β : Type} {i : Instr} {s t : State}

/-! ## Pieces that leave the mode -/

def SameMode (s t : State) : Prop := t.mode = s.mode

theorem sameMode_survives : Survives SameMode where
  refl _ := rfl
  trans h k := Eq.trans k h
  advance _ := rfl
  frame flagged c _ s := by
    rcases frameBody_any flagged c s with ⟨inp, s', hr, hF⟩ | ⟨e, evs, l, conf, s', hr, hF, -⟩
    · rw [hr]
      refine ⟨hF.mode, ?_⟩
      have := hF.len
      cases inp with
      | nil => simp [Cmd.len] at this; omega
      | cons a l => simpa using this
    · rw [hr]; exact hF.mode
  cePin _ _ := ⟨rfl, trivial⟩
  csnPin _ := ⟨rfl, trivial⟩
  ce _ _ := rfl
  csn _ _ _ := rfl
  shadow _ _ := rfl
  hazard _ _ := rfl
  abort s := by
    obtain ⟨u, hu, -, -, hm, -⟩ := abortInFlight_ok s
    rw [hu]
    exact ⟨hm, trivial⟩
  openRx _ := ⟨rfl, trivial⟩

theorem sameMode_delivers : Delivers SameMode := ⟨fun _ _ => rfl, fun _ _ => rfl, fun _ _ => rfl⟩

/-! ## Instructions that no request carries -/

/-- What the frames keep, also those of illegal lengths, is kept by the instructions that are not well formed. -/
theorem exec_keeps_illFormed {R : State → State → Prop} (hR : Survives R) (hE : Delivers R)
    (hF : ∀ flagged c, Keeps R (frameWith flagged c)) (hw : i.wellFormed = false) (h : exec i s = .next t) :
    R s.origin t := by
  have run : ∀ c, Keeps R (runFrame c) := fun c => keeps_bind hR (sat_get hR) fun _ => keeps_map hR (hF _ c)
  have write : ∀ {α : Type} (T : RegType α) (v : α), Keeps R (writeReg T v) := fun T v => sat_check hR fun _ =>
    keeps_bind hR (hF _ _) fun r => sat_ticked hR <| sat_ite (fun _ => keeps_map hR (sat_setShadow hR _))
      fun _ => keeps_pure hR _
  cases i <;> first | cases hw | skip
  case frameRRegister r n => exact frameOp_keeps hR hE (run _) h
  case frameWRegister r d => exact frameOp_keeps hR hE (run _) h
  case frameRRxPayload w => exact frameOp_keeps hR hE (run _) h
  case frameWTxPayload d => exact frameOp_keeps hR hE (run _) h
  case frameWAckPayload p d => exact frameOp_keeps hR hE (run _) h
  case sendCommand c => exact hostOp_keeps hR hE (run _) h
  case writeRegister r v => exact hostOp_keeps hR hE (keeps_map hR (write (valReg r) v)) h
  case updateRegister r w f =>
    refine hostOp_keeps hR hE (keeps_map hR (sat_check hR fun _ => keeps_bind hR (keeps_readReg hR _ _) fun r => ?_)) h
    exact sat_ticked hR (sat_ticked hR (sat_ite (fun _ => keeps_map hR (write _ _)) fun _ => keeps_pure hR _))
  case updateConfig f => exact hostOp_keeps hR hE (keeps_map hR (sat_updateConfig hR _ _)) h

theorem sameMode_frameWith (flagged : Bool) (c : Cmd) : Keeps SameMode (frameWith flagged c) :=
  sat_primitive sameMode_survives fun s => by
    rcases frameBody_any flagged c s with ⟨inp, s', hr, hF⟩ | ⟨e, evs, l, conf, s', hr, hF, -⟩ <;> rw [hr]
    · exact ⟨hF.mode, trivial⟩
    · exact hF.mode

theorem samePort_frameWith (flagged : Bool) (c : Cmd) : Keeps SamePort (frameWith flagged c) :=
  sat_primitive samePort_survives fun s => by
    rcases frameBody_any flagged c s with ⟨inp, s', hr, hF⟩ | ⟨e, evs, l, conf, s', hr, hF, -⟩ <;> rw [hr]
    · exact ⟨⟨hF.requests, hF.params⟩, trivial⟩
    · exact ⟨hF.requests, hF.params⟩

/-- No instruction touches what waits at the HOST port, or the parameters. -/
theorem exec_samePort (h : exec i s = .next t) : SamePort s.origin t := by
  cases hw : i.wellFormed with
  | true => exact samePort_exec hw h
  | false =>
    exact exec_keeps_illFormed samePort_survives ⟨fun _ _ => ⟨rfl, rfl⟩, fun _ _ => ⟨rfl, rfl⟩, fun _ _ => ⟨rfl, rfl⟩⟩
      samePort_frameWith hw h

/-- An instruction that is no transition leaves the mode. -/
theorem exec_sameMode (ht : isTransition i = false) (h : exec i s = .next t) : t.mode = s.origin.mode := by
  cases hw : i.wellFormed with
  | true => exact exec_keeps sameMode_survives sameMode_delivers hw ht h
  | false => exact exec_keeps_illFormed sameMode_survives sameMode_delivers sameMode_frameWith hw h

/-! ## The last assignment of a transition -/

/-- `x` leaves the mode, but where it returns a value of `done` the mode is `m`. -/
def Turns (m : Mode) (done : α → Bool) (x : Op α) : Prop :=
  ∀ s, match x s with
    | .ok a u => u.mode = if done a then m else s.mode
    | .error _ u => u.mode = s.mode

theorem turns_setMode (m : Mode) : Turns m (fun _ => true) (setMode m) := by
  intro s
  rw [setMode, run_primitive]
  cases s.seq.reached <;> rfl

theorem turns_bind {m : Mode} {done : β → Bool} {x : Op α} {f : α → Op β} (hx : Keeps SameMode x)
    (hf : ∀ a, Turns m done (f a)) : Turns m done (x >>= f) := by
  intro s
  have h := hx s
  rw [run_bind]
  cases hxs : x s with
  | error e u => rw [hxs] at h; exact h
  | ok a u =>
    rw [hxs] at h
    have k := hf a u
    have hu : u.mode = s.mode := h.1
    dsimp only
    rw [hu] at k
    exact k

theorem turns_construct (a b c : Bool) : Turns .standby (fun _ => true) (construct a b c) := by
  have hS := sameMode_survives
  refine turns_bind (sat_ce hS false) fun _ => turns_bind (sat_raiseCsn hS) fun _ => turns_bind (sat_tick hS) fun _ =>
    turns_bind (keeps_writeReg hS configReg _ (.config (defaultConfig a b c)) rfl rfl) fun _ =>
    turns_bind (keeps_getAddressWidth hS) fun w => turns_bind ?_ fun _ =>
    turns_bind (keeps_updateConfig hS _) fun _ => turns_setMode _
  exact sat_ticked hS (sat_ite (fun _ => sat_raise hS _) fun _ => sat_pure hS trivial)

theorem turns_enterRx : Turns .rx (fun _ => true) enterRx :=
  turns_bind (keeps_updateConfig sameMode_survives _) fun _ => turns_bind (sat_ce sameMode_survives true) fun _ =>
    turns_setMode _

theorem turns_enterTx : Turns .tx (fun _ => true) enterTx :=
  turns_bind (keeps_updateConfig sameMode_survives _) fun _ => turns_setMode _

theorem turns_leaveRx : Turns .standby (fun _ => true) leaveRx :=
  turns_bind (sat_ce sameMode_survives false) fun _ => turns_setMode _

theorem turns_leaveTxPass (lost : Bool) : Turns .standby Option.isNone (leaveTxPass lost) := by
  refine turns_bind (keeps_waitPass sameMode_survives lost) fun r => ?_
  cases r with
  | some l => exact fun _ => rfl
  | none =>
    refine turns_bind (sat_ce sameMode_survives false) fun _ s => ?_
    have := turns_setMode .standby s
    rw [run_bind]
    cases hx : setMode .standby s <;> rw [hx] at this <;> exact this

theorem turns_loopStretch {m : Mode} {pass : Bool → Op (Option Bool)} (h : ∀ lost, Turns m Option.isNone (pass lost)) :
    Turns m Option.isNone (loopStretch pass) :=
  turns_bind (sat_get sameMode_survives) fun s => by
    dsimp only
    split
    · exact turns_bind (sat_tick sameMode_survives) fun _ => h _
    · exact h _

/-! ## The transition table -/

/-- The mode after a transition that returned (rule R319). -/
def Turned (i : Instr) (m : Mode) (t : State) : Prop :=
  t.result = some (.ok .unit) ∧ t.seq = .idle ∧
    ((∃ a b c, i = .new a b c ∧ m = .off ∧ t.mode = .standby) ∨ (i = .rx ∧ m = .standby ∧ t.mode = .rx) ∨
      (i = .tx ∧ m = .standby ∧ t.mode = .tx) ∨ (i = .standbyRx ∧ m = .rx ∧ t.mode = .standby) ∨
      (i = .standbyTx ∧ m = .tx ∧ t.mode = .standby))

theorem hostOp_turns {legal : Mode → Bool} {m : Mode} {x : Op Unit} (hx : Turns m (fun _ => true) x)
    (h : hostOp i legal (returningUnit x) s = .next t) :
    t.mode = s.origin.mode ∨
      legal s.origin.mode = true ∧ t.mode = m ∧ t.result = some (.ok .unit) ∧ t.seq = .idle := by
  unfold hostOp at h
  split at h
  · rename_i s0 h0
    have hm := loopEntry_mode (loopEntry_of_entry h0)
    rw [hm] at h
    split at h
    · rename_i hl
      have hx := hx s0
      simp only [returningUnit, run_bind] at h
      cases hxs : x s0 with
      | ok a u =>
        rw [hxs] at h hx
        injection h with h
        subst h
        exact .inr ⟨hl, hx, rfl, rfl⟩
      | error e u =>
        rw [hxs] at h hx
        have hu : u.mode = s.origin.mode := Eq.trans hx hm
        cases e <;> first | (injection h with h; subst h; exact .inl hu) | cases h
    · cases h
  · cases h

theorem loopOp_turns {legal : Mode → Bool} {m : Mode} {pass : Bool → Op (Option Bool)}
    (hx : ∀ lost, Turns m Option.isNone (pass lost)) (h : loopOp i legal pass s = .next t) :
    t.mode = s.origin.mode ∨
      legal s.origin.mode = true ∧ t.mode = m ∧ t.result = some (.ok .unit) ∧ t.seq = .idle := by
  unfold loopOp at h
  split at h
  · rename_i s0 h0
    have hm := loopEntry_mode h0
    rw [hm] at h
    split at h
    · rename_i hl
      have hx := turns_loopStretch hx s0
      cases hxs : loopStretch pass s0 with
      | ok a u =>
        rw [hxs] at h hx
        cases a with
        | none =>
          injection h with h
          subst h
          exact .inr ⟨hl, hx, rfl, rfl⟩
        | some l =>
          injection h with h
          subst h
          exact .inl (Eq.trans hx hm)
      | error e u =>
        rw [hxs] at h hx
        have hu : u.mode = s.origin.mode := Eq.trans hx hm
        cases e <;> first | (injection h with h; subst h; exact .inl hu) | cases h
    · cases h
  · cases h

/-- An instruction leaves the mode, or is one of the five transitions and returned `Ok(())`. -/
theorem exec_mode (h : exec i s = .next t) :
    t.mode = s.origin.mode ∨ Turned i s.origin.mode t := by
  have eq_of : ∀ {m n : Mode}, (m == n) = true → m = n := fun h => by simpa using h
  cases ht : isTransition i with
  | false => exact .inl (exec_sameMode ht h)
  | true =>
    cases i <;> first | (cases ht; done) | skip
    case new a b c =>
      exact (hostOp_turns (turns_construct a b c) h).imp_right fun ⟨hl, hm, hr, hq⟩ =>
        ⟨hr, hq, .inl ⟨a, b, c, rfl, eq_of hl, hm⟩⟩
    case rx =>
      exact (hostOp_turns turns_enterRx h).imp_right fun ⟨hl, hm, hr, hq⟩ =>
        ⟨hr, hq, .inr (.inl ⟨rfl, eq_of hl, hm⟩)⟩
    case tx =>
      exact (hostOp_turns turns_enterTx h).imp_right fun ⟨hl, hm, hr, hq⟩ =>
        ⟨hr, hq, .inr (.inr (.inl ⟨rfl, eq_of hl, hm⟩))⟩
    case standbyRx =>
      exact (hostOp_turns turns_leaveRx h).imp_right fun ⟨hl, hm, hr, hq⟩ =>
        ⟨hr, hq, .inr (.inr (.inr (.inl ⟨rfl, eq_of hl, hm⟩)))⟩
    case standbyTx =>
      exact (loopOp_turns turns_leaveTxPass h).imp_right fun ⟨hl, hm, hr, hq⟩ =>
        ⟨hr, hq, .inr (.inr (.inr (.inr ⟨rfl, eq_of hl, hm⟩)))⟩

/-! ## Steps -/

/-- `w` is `s` but for what waits at the HOST port and the result. -/
def SameStart (s w : State) : Prop := ∃ rs r, w = { s with requests := rs, result := r }

/-- A step that answers next waits, or runs one instruction from where the stretch under way began. -/
theorem step_begins (hq : seqWf s.origin = true) (h : step s = .next t) :
    (t = s ∧ s.nextInstr = none) ∨ ∃ i s0, s.nextInstr = some i ∧ exec i s0 = .next t ∧ SameStart s.origin s0.origin ∧
      (i.wellFormed = true ∨ ∃ k lost b, s.seq = .busy i k lost b) := by
  rcases step_cases h with hw | ⟨i, s0, hi, he, ⟨rfl, k, lost, b, hs⟩ | ⟨k, lost, hs, rfl⟩ | ⟨hs, hw, rest, rfl⟩⟩
  · exact .inl hw
  · exact .inr ⟨i, s0, hi, he, ⟨_, _, rfl⟩, .inr ⟨k, lost, _, hs⟩⟩
  · refine .inr ⟨i, _, hi, he, ?_, .inr ⟨k, lost, _, hs⟩⟩
    have ho : s.origin = s := by simp only [State.origin, hs]
    rw [ho, beginAt_origin]
    simp only [ho, seqWf, hs, Bool.and_eq_true, beq_iff_eq] at hq
    obtain ⟨⟨-, rfl⟩, -⟩ := hq
    exact ⟨s.requests, none, by rw [if_neg (by decide), ← hs]; rfl⟩
  · refine .inr ⟨i, _, hi, he, ?_, .inl hw⟩
    have ho : s.origin = s := by simp only [State.origin, hs]
    rw [ho, beginAt_origin]
    exact ⟨rest, none, by rw [if_pos rfl, ← hs]; rfl⟩

/-- The same where the operation under way came as a typed call or a decoded frame. -/
theorem step_runs (hq : seqWf s.origin = true) (ht : ∀ op k lost b, s.seq = .busy op k lost b → op.wellFormed = true)
    (h : step s = .next t) :
    (t = s ∧ s.nextInstr = none) ∨ ∃ i s0, s.nextInstr = some i ∧ i.wellFormed = true ∧ exec i s0 = .next t ∧
      SameStart s.origin s0.origin :=
  (step_begins hq h).imp_right fun ⟨i, s0, hi, he, hs, hw⟩ =>
    ⟨i, s0, hi, hw.elim id fun ⟨k, lost, b, hk⟩ => ht i k lost b hk, he, hs⟩

theorem ended_origin (h : Ended i t) : t.origin = t := by
  rcases h with h | ⟨-, lost, h⟩ <;> simp only [State.origin, h]

/-- Inside an operation the stretch under way is where it was. -/
theorem underWay_origin (h : UnderWay i s t) (hp : SamePort s.origin t) : t.origin = s.origin := by
  obtain ⟨k, lost, b, m, hs, k', ht⟩ := h
  obtain ⟨hr, hq⟩ := hp
  rw [origin_requests] at hr
  rw [origin_params] at hq
  simp only [State.origin, hs, ht, State.backTo, hr, hq]

end Sys2Proof.Machine
end

section
/-! PROOFS. The whole machine (rules R36, R101, R122, R160, R171, R230, R319): the invariants of a step, from where its
stretch began, and what steps show at the ports. -/

namespace Sys2Proof.Machine

variable {α β : Type} {i : Instr} {s t u : State}

/-! ## Port events stand in brackets -/

theorem bracketed_append {xs ys : List PortEvent} (h : bracketed xs = true) (k : bracketed ys = true) :
    bracketed (xs ++ ys) = true := by
  induction xs using bracketed.induct with
  | case1 => exact k
  | case2 out inp ok rest ih => exact ih h
  | case3 ok rest ih => exact ih h
  | case4 ok rest ih => exact ih h
  | case5 level ok rest ih => exact ih h
  | case6 xs h1 h2 h3 h4 h5 => simp_all [bracketed]

/-- A command byte of the emitted set (rule R160). -/
def EmittedByte (b : Byte) : Prop :=
  (b.toNat ≤ 0x17 ∨ b = 0x1C ∨ b = 0x1D) ∨ (0x20 ≤ b.toNat ∧ b.toNat ≤ 0x37 ∨ b = 0x3C ∨ b = 0x3D) ∨
    b = 0x60 ∨ b = 0x61 ∨ b = 0xA0 ∨ (0xA8 ≤ b.toNat ∧ b.toNat ≤ 0xAD) ∨ b = 0xE1 ∨ b = 0xE2 ∨ b = 0xFF

theorem emittedByte_reg (r : Reg) : EmittedByte (r.addr.setWidth 8) ∧ EmittedByte (0x20#8 ||| r.addr.setWidth 8) := by
  unfold EmittedByte
  cases r with
  | rxPw p => cases p <;> decide
  | _ => decide

theorem emittedByte_pipe (p : Pipe) : EmittedByte (0xA8#8 ||| BitVec.ofNat 8 p.toNat) := by
  unfold EmittedByte
  cases p <;> decide

/-- Only bytes of the emitted set begin a frame. -/
theorem emittedByte_byte (c : Cmd) : EmittedByte c.byte := by
  cases c with
  | rRegister r n => exact (emittedByte_reg r).1
  | wRegister r d => exact (emittedByte_reg r).2
  | wAckPayload p d => exact emittedByte_pipe p
  | _ => simp [EmittedByte, Cmd.byte]

/-- A transfer of one whole frame of the vocabulary, which receives as many bytes if it succeeds. -/
def WholeFrame (out : List Byte) (inp : Option (List Byte)) : Prop :=
  (∃ c : Cmd, c.wellFormed = true ∧ out = c.encode ∧ out.length = c.len ∧
    ∀ bytes, inp = some bytes → bytes.length = c.len) ∧ ∃ b, out.head? = some b ∧ EmittedByte b

theorem wholeFrame_encode {c : Cmd} (hw : c.wellFormed = true) {inp : Option (List Byte)}
    (hi : ∀ bytes, inp = some bytes → bytes.length = c.len) : WholeFrame c.encode inp :=
  ⟨⟨c, hw, rfl, by simp [Cmd.encode, Cmd.len, Nat.add_comm], hi⟩, c.byte, rfl, emittedByte_byte c⟩

/-- A whole frame of the vocabulary is emitted as one. -/
theorem WholeFrame.emitted {out : List Byte} {inp : Option (List Byte)} (h : WholeFrame out inp) :
    Machine.emitted out = true := by
  obtain ⟨⟨c, hw, rfl, -⟩, -⟩ := h
  simp [Machine.emitted, decodeCmd_encode hw, hw]

/-! ## What every piece of an operation adds and keeps -/

/-- From `s` to `t` the port events grew by whole frames in brackets, no fault reason is gone, the parameters are the
same, and what keeps a state sound is kept. -/
structure Grows (s t : State) : Prop where
  events : ∃ evs, t.events = s.events ++ evs ∧ bracketed evs = true ∧
    ∀ out inp, .xfer out inp ∈ evs → WholeFrame out inp
  fault : ∀ r, s.fault.has r = true → t.fault.has r = true
  params : t.params = s.params
  csn : s.csn ≠ .low → t.csn ≠ .low
  shadow : s.shadow ≠ none → t.shadow ≠ none
  bounded : s.periph.radio.bounded s.params → t.periph.radio.bounded t.params

theorem Grows.trans (h : Grows s t) (k : Grows t u) : Grows s u := by
  obtain ⟨e1, h1, hb1, hx1⟩ := h.events
  obtain ⟨e2, h2, hb2, hx2⟩ := k.events
  refine ⟨⟨e1 ++ e2, by rw [h2, h1, List.append_assoc], bracketed_append hb1 hb2, fun out inp hm => ?_⟩,
    fun r hr => k.fault r (h.fault r hr), k.params.trans h.params, k.csn ∘ h.csn, k.shadow ∘ h.shadow,
    k.bounded ∘ h.bounded⟩
  rcases List.mem_append.1 hm with hm | hm
  · exact hx1 out inp hm
  · exact hx2 out inp hm

/-- A change that adds no port event. -/
theorem grows_still (he : t.events = s.events) (hf : ∀ r, s.fault.has r = true → t.fault.has r = true)
    (hp : t.params = s.params) (hc : s.csn ≠ .low → t.csn ≠ .low) (hs : s.shadow ≠ none → t.shadow ≠ none)
    (hb : s.periph.radio.bounded s.params → t.periph.radio.bounded t.params) : Grows s t :=
  ⟨⟨[], by simp [he], rfl, fun _ _ h => by cases h⟩, hf, hp, hc, hs, hb⟩

/-- A change that leaves the port events, the parameters and the peripheral. -/
theorem grows_update {f : State → State} (s : State) (ht : (f s).trace = s.trace) (hp : (f s).params = s.params)
    (hr : (f s).periph = s.periph) (hf : ∀ r, s.fault.has r = true → (f s).fault.has r = true)
    (hc : s.csn ≠ .low → (f s).csn ≠ .low) (hs : s.shadow ≠ none → (f s).shadow ≠ none) : Grows s (f s) :=
  grows_still (by rw [State.events, ht, State.events]) hf hp hc hs fun hb => by rw [hr, hp]; exact hb

theorem grows_frame (flagged : Bool) {c : Cmd} (hw : c.wellFormed = true) :
    Sat Grows (fun r => r.2.length + 1 = c.len) (frameBody flagged c) := by
  intro s
  rcases frameBody_any flagged c s with ⟨inp, s', hr, hF⟩ | ⟨e, evs, l, conf, s', hr, hF, hl, -, hev⟩
  · rw [hr]
    have hlen := hF.len
    refine ⟨⟨⟨_, hF.events, rfl, fun out i hm => ?_⟩, by simp [hF.fault], hF.params, by simp [hF.csn],
      by simp [hF.shadow], hF.bounded⟩, ?_⟩
    · obtain ⟨rfl, rfl⟩ : out = c.encode ∧ i = some inp := by simpa [frameEvents] using hm
      exact wholeFrame_encode hw fun _ h => by cases h; exact hlen
    · cases inp with
      | nil => simp [Cmd.len] at hlen; omega
      | cons a l => simpa using hlen
  · rw [hr]
    have hcsn : s'.csn ≠ .low := by rw [hF.csn]; rcases hl with rfl | rfl <;> simp
    refine ⟨⟨evs, hF.events, ?_, fun out i hm => ?_⟩, by simp [hF.fault], hF.params, fun _ => hcsn, by simp [hF.shadow],
      hF.bounded⟩
    · rcases hev with ⟨k, rfl⟩ | ⟨inp, k, rfl, -⟩ <;> rfl
    · rcases hev with ⟨k, rfl⟩ | ⟨inp, k, rfl, hi⟩
      · simp at hm
      · obtain ⟨rfl, rfl⟩ : out = c.encode ∧ i = inp := by simpa using hm
        exact wholeFrame_encode hw hi

theorem grows_pin (line : Line) (level : Bool) (h : ∀ ok, bracketed [.pin line level ok] = true) :
    Sat Grows (fun _ => True) (pinWrite line level) := by
  intro s
  rw [run_pinWrite]
  exact ⟨⟨⟨_, moved_events .., h _, fun _ _ hm => by simp at hm⟩, fun _ h => h, rfl, fun h => h, fun h => h,
    fun hb => events_bounded _ _ _ hb⟩, trivial⟩

theorem grows_abort : Sat Grows (fun _ => True) abortInFlight := by
  intro s
  simp only [abortInFlight, run_bind, run_get]
  cases hf : s.inFlight with
  | false => exact ⟨grows_still rfl (fun _ h => h) rfl (fun h => h) (fun h => h) fun h => h, trivial⟩
  | true =>
    refine ⟨grows_still rfl (fun _ h => h) rfl (fun h => h) (fun h => h) fun hb => ⟨?_, hb.2⟩, trivial⟩
    have := hb.1
    simp only [withPeriph_periph]
    split
    · exact Nat.le_trans (List.length_tail ▸ Nat.sub_le ..) this
    · exact this

theorem grows_survives : Survives Grows where
  refl _ := grows_still rfl (fun _ h => h) rfl (fun h => h) (fun h => h) fun h => h
  trans := Grows.trans
  advance s := grows_update s rfl rfl rfl (fun _ h => h) (fun h => h) fun h => h
  frame flagged _ hw := grows_frame flagged hw
  cePin level := grows_pin .ce level fun _ => rfl
  csnPin := grows_pin .csn true fun _ => rfl
  ce s l := grows_update (f := fun s => s.withCe l) s rfl rfl rfl (fun _ h => h) (fun h => h) fun h => h
  csn s l hl := grows_update (f := fun s => s.withCsn l) s rfl rfl rfl (fun _ h => h) (fun _ => hl) fun h => h
  shadow s b := grows_update (f := fun s => s.withShadow b) s rfl rfl rfl (fun _ h => h) (fun h => h) fun _ => by simp
  hazard s k := grows_update (f := fun s => s.addFault (.hazard k)) s rfl rfl rfl (fun q h => has_add_of_has _ _ q h)
    (fun h => h) fun h => h
  abort := grows_abort
  openRx s := ⟨grows_still rfl (fun _ h => h) rfl (fun h => h) (fun h => h)
    fun hb => ⟨hb.1, (freeRadio_bounded s.params s.draws).2⟩, trivial⟩

/-- What every instruction shows at the ports and keeps, wherever in its stretch it stops. -/
theorem exec_grows (hw : i.wellFormed = true) (h : exec i s = .next t) : Grows s.origin t := by
  refine exec_keeps_mode grows_survives ⟨fun s q => ?_, fun s r => ?_, fun s r => ?_⟩ (fun s m => ?_) hw h
  · exact grows_update (f := fun s => s.withSeq q) s rfl rfl rfl (fun _ h => h) (fun h => h) fun h => h
  · exact grows_update (f := fun s => s.withResult r) s rfl rfl rfl (fun _ h => h) (fun h => h) fun h => h
  · exact grows_update (f := fun s => s.addFault r) s rfl rfl rfl (fun q h => has_add_of_has _ _ q h) (fun h => h)
      fun h => h
  · exact grows_update (f := fun s => s.withMode m) s rfl rfl rfl (fun _ h => h) (fun h => h) fun h => h

/-! ## Where an instruction ends -/

/-- Every answer is by the mode table: a refusal out of the legal modes, else an end or the same stretch. -/
theorem exec_answers_any (i : Instr) (s : State) : Answers (fun _ => True) i s (exec i s) := by
  have h : Answers (ShadowIf False) i s (exec i s) :=
    exec_answers_loose (free_shadowIf False) (fun h => h.elim) (shadowIf_frame False)
  revert h
  unfold Answers
  cases exec i s with
  | next t => exact fun ⟨hl, h⟩ => ⟨hl, h.imp_left fun ⟨_, he⟩ => ⟨trivial, he⟩⟩
  | fault f => exact fun ⟨hl, u, _, hu⟩ => ⟨hl, u, trivial, hu⟩
  | refused r => exact id

theorem exec_next (h : exec i s = .next t) : legalIn i s.origin.mode = true ∧ (Ended i t ∨ UnderWay i s t) := by
  have := exec_answers_any i s
  rw [h] at this
  exact ⟨this.1, this.2.imp_left And.right⟩

/-- A looping operation runs in Tx. -/
theorem mode_of_loop {m : Mode} (hi : isLoop i = true) (h : legalIn i m = true) : m = .tx := by
  cases i <;> first | (cases hi; done) | simpa [legalIn] using h

/-- After an instruction a stretch begins well: idle, or at a loop head in Tx. -/
theorem ended_seqWf (h : exec i s = .next t) (he : Ended i t) : seqWf t = true := by
  rcases he with he | ⟨hi, lost, he⟩
  · simp [seqWf, he]
  · have hm := mode_of_loop hi (exec_next h).1
    rcases exec_mode h with ht | ⟨-, hq, -⟩
    · simp [seqWf, he, hi, ht, hm]
    · rw [hq] at he; cases he

end Sys2Proof.Machine
end

section
/-! PROOFS. The statements about all steps (rules R36, R101, R109, R122, R160, R171, R312, R319). -/

namespace Sys2Proof.Machine

variable {α β : Type} {i : Instr} {s t u : State} {P : State → Prop} {E : Stop → State → Prop}

/-! ## Results and requests do not matter -/

theorem SameStart.mode (h : SameStart s t) : t.mode = s.mode := by obtain ⟨_, _, rfl⟩ := h; rfl
theorem SameStart.seq (h : SameStart s t) : t.seq = s.seq := by obtain ⟨_, _, rfl⟩ := h; rfl
theorem SameStart.sound (h : SameStart s t) (hs : Sound s) : Sound t := by
  obtain ⟨_, _, rfl⟩ := h
  exact ⟨hs.csnNotLow, hs.shadowValid, hs.txBound, hs.rxBound, hs.vocabulary, hs.brackets⟩
theorem SameStart.grows (h : SameStart s t) (hs : Grows t u) : Grows s u := by
  obtain ⟨_, _, rfl⟩ := h
  exact ⟨hs.events, hs.fault, hs.params, hs.csn, hs.shadow, hs.bounded⟩
theorem SameStart.modeInv (h : SameStart s t) (hs : ModeInv s) : ModeInv t := by
  obtain ⟨_, _, rfl⟩ := h
  exact ⟨hs.standbyCe, hs.rxCe, hs.rxPrim, hs.txPrim, hs.liveCsn, hs.liveShadow, hs.seqWf⟩
theorem SameStart.seqWf (h : SameStart s t) (hs : seqWf s = true) : Machine.seqWf t = true := by
  obtain ⟨_, _, rfl⟩ := h
  exact hs
theorem SameStart.portsOk (h : SameStart s t) (hs : PortsOk s) : PortsOk t := by obtain ⟨_, _, rfl⟩ := h; exact hs
theorem SameStart.coherent (h : SameStart s t) (hs : Coherent s) : Coherent t := by obtain ⟨_, _, rfl⟩ := h; exact hs

theorem Grows.sound (h : Grows s t) (hs : Sound s) (hm : t.mode ≠ .off → t.shadow ≠ none) : Sound t := by
  obtain ⟨evs, he, hb, hx⟩ := h.events
  obtain ⟨htx, hrx⟩ := h.bounded ⟨hs.txBound, hs.rxBound⟩
  refine ⟨h.csn hs.csnNotLow, hm, htx, hrx, fun e hm => ?_, by rw [he]; exact bracketed_append hs.brackets hb⟩
  rw [he] at hm
  rcases List.mem_append.1 hm with hm | hm
  · exact hs.vocabulary e hm
  · cases e with
    | pin line level ok => rfl
    | xfer out inp => exact (hx out inp hm).emitted

/-! ## What `new` leaves -/

theorem leads_construct {P1 P2 D : State → Prop} {Q : Unit → State → Prop} {a b c : Bool}
    (hce : Leads P (fun _ => P1) E ceDisable) (hcsn : Leads P1 (fun _ => P2) E raiseCsn)
    (hP2 : ∀ s q, P2 s → P2 (s.withSeq q)) (hcfg : Leads P2 (fun _ => D) E (writeReg configReg (defaultConfig a b c)))
    (hD : Tame D) (hDE : ∀ e s, D s → (∀ f, e = .stuck f → s.shadow = none) → E e s)
    (hmode : ∀ s, D s → Q () (s.withMode .standby).advance) : Leads P Q E (construct a b c) := by
  have holds : ∀ {γ : Type} {x : Op γ}, Holds D x → Leads D (fun _ => D) E x := fun h =>
    h.weaken (fun _ h => h) (fun _ _ h => h) fun e s h => hDE e s h.1 h.2
  exact leads_bind hce fun _ => leads_bind hcsn fun _ => leads_ticked hP2 <| leads_bind hcfg fun _ =>
    leads_bind (holds hD.getAddressWidth) fun _ =>
    leads_checked (fun _ _ => hD.seq) (by simp) (fun _ s h => hDE _ s h (by simp)) fun _ =>
    leads_bind (holds (hD.config fun _ => rfl)) fun _ => leads_setMode hmode

/-- Whatever the ports do, `new` is not stuck, and it returns with a valid shadow. -/
theorem construct_shadow (a b c : Bool) :
    Leads (fun _ => True) (fun _ u => u.shadow ≠ none) (fun e _ => ∀ f, e ≠ .stuck f) (construct a b c) :=
  leads_construct (P1 := fun _ => True) (P2 := fun _ => True) (D := ShadowIf True)
    (leads_ce (fun _ _ => trivial) fun _ _ _ _ => by simp) (leads_raiseCsn (fun _ _ => trivial) fun _ _ _ _ => by simp)
    (fun _ _ _ => trivial)
    (leads_writeConfig rfl (fun _ _ h => h) (fun _ _ _ _ _ _ _ _ _ _ _ => by simp) fun _ _ _ _ _ _ _ => by simp)
    (free_shadowIf True).toTame (fun e s h hn f he => h trivial (hn f he)) fun _ h => h trivial

theorem Tame.and {I J : State → Prop} (hI : Tame I) (hJ : Tame J) : Tame fun s => I s ∧ J s where
  seq h := ⟨hI.seq h.1, hJ.seq h.2⟩
  result h := ⟨hI.result h.1, hJ.result h.2⟩
  fault h := ⟨hI.fault h.1, hJ.fault h.2⟩
  frame hc := holds_and (hI.frame hc) (hJ.frame hc)
  openRx h := ⟨hI.openRx h.1, hJ.openRx h.2⟩
  config hf := holds_and (hI.config hf) (hJ.config hf)
where
  holds_and {γ : Type} {x : Op γ} (hx : Holds I x) (hy : Holds J x) : Holds (fun s => I s ∧ J s) x := by
    intro s op lost b hin h
    have hx := hx s op lost b hin h.1
    have hy := hy s op lost b hin h.2
    cases hr : x s with
    | ok a u => rw [hr] at hx hy; exact ⟨⟨hx.1, hy.1⟩, hx.2⟩
    | error e u =>
      rw [hr] at hx hy
      cases e with
      | pause => exact hx
      | _ => exact ⟨⟨hx.1, hy.1⟩, hx.2⟩

theorem InMode.turn {m : Mode} {l : Level} {p : Bool} (h : InMode m l p s) (hm : m ≠ .tx) (m' : Mode) :
    InMode m' l p (s.withMode m').advance :=
  ⟨h.ports, h.csn, h.shadow, rfl, h.prim, fun _ => h.ce hm⟩

/-- With the ports succeeding `new` returns with CE low, CSN high and the shadow showing CONFIG, PRIM_RX clear. -/
theorem construct_standby (a b c : Bool) :
    Leads (fun s => PortsOk s ∧ s.mode = .off) (fun _ u => InMode .standby .low false u ∧ Shown u) (fun _ _ => True)
      (construct a b c) := by
  refine leads_construct (P1 := fun s => PortsOk s ∧ s.mode = .off ∧ s.ce = .low)
    (P2 := fun s => PortsOk s ∧ s.mode = .off ∧ s.ce = .low ∧ s.csn = .high)
    (D := fun s => InMode .off .low false s ∧ Shown s) ?_ ?_ (fun _ _ h => h) ?_
    ((tame_inMode _ _ _).and free_shown.toTame) (fun _ _ _ _ => trivial) ?_
  · exact leads_ce (fun s ⟨hp, hm⟩ => ⟨hp.of_env (.inr rfl), hm, rfl⟩) fun _ _ _ => trivial
  · exact leads_raiseCsn (fun s ⟨hp, hm, hc⟩ => ⟨hp.of_env (.inr rfl), hm, hc, rfl⟩) fun _ _ _ => trivial
  · refine leads_writeConfig rfl (fun _ _ h => h) (fun _ _ _ _ _ _ _ _ _ _ => trivial) fun s inp u st ⟨hp, hm, hc, _⟩ hF => ?_
    have hpu := hF.portsOk hp
    refine ⟨⟨hpu, hF.csn, by simp, hF.mode.trans hm, ?_, fun _ => hF.ce.trans hc⟩, hpu, _, rfl, ?_⟩
    · exact decode_encode_primRx (defaultConfig a b c)
    · simp only [advance_periph, withShadow_periph, hF.regs hp]
      exact (decode_mergeBits _ _).symm
  · exact fun s ⟨hi, hs⟩ => ⟨hi.turn (by decide) _, hs.of_same hs.ports rfl rfl⟩

/-- The result of an operation that returned, and what holds there. -/
theorem hostOp_returned {legal : Mode → Bool} {x : Op Value} {Q : Value → State → Prop} {v : Value} (hP : Stable P)
    (hs : P s.origin) (hx : Leads P Q E x) (h : hostOp i legal x s = .next t) (hr : t.result = some (.ok v))
    (hq : t.seq = .idle) : ∃ u, Q v u ∧ t = (u.withSeq .idle).withResult (some (.ok v)) := by
  unfold hostOp at h
  split at h
  · rename_i s0 h0
    have h0 := loopEntry_of_entry h0
    split at h
    · obtain ⟨lost, b, hin, -⟩ := loopEntry_inOp h0
      have hx := hx s0 i lost b hin (hP.entry h0 hs)
      cases hxs : x s0 with
      | ok w u =>
        rw [hxs] at h hx
        injection h with h
        subst h
        cases hr
        exact ⟨u, hx.1, rfl⟩
      | error e u =>
        rw [hxs] at h hx
        cases e with
        | err e => injection h with h; subst h; cases hr
        | fault f => injection h with h; subst h; cases hr
        | stuck f => cases h
        | pause =>
          injection h with h
          subst h
          obtain ⟨k, hk⟩ := hx.2
          rw [hk] at hq
          cases hq
    · cases h
  · cases h

theorem leads_unit {x : Op Unit} {Q : Unit → State → Prop} (h : Leads P Q E x) :
    Leads P (fun _ => Q ()) E (returningUnit x) := leads_bind h fun _ => leads_pure fun _ h => h

theorem stable_true : Stable fun _ => True := ⟨fun h => h, fun h => h, fun h => h⟩
theorem stable_portsOff : Stable fun s => PortsOk s ∧ s.mode = .off := ⟨fun h => h, fun h => h, fun h => h⟩

theorem new_shadow {a b c : Bool} {v : Value} (h : exec (.new a b c) s = .next t) (hr : t.result = some (.ok v))
    (hq : t.seq = .idle) : t.shadow ≠ none := by
  obtain ⟨u, hu, rfl⟩ := hostOp_returned stable_true trivial (leads_unit (construct_shadow a b c)) h hr hq
  exact hu

theorem new_standby {a b c : Bool} {v : Value} (hp : PortsOk s.origin) (hm : s.origin.mode = .off)
    (h : exec (.new a b c) s = .next t) (hr : t.result = some (.ok v)) (hq : t.seq = .idle) :
    InMode .standby .low false t ∧ Shown t := by
  obtain ⟨u, ⟨hu, hv⟩, rfl⟩ := hostOp_returned stable_portsOff ⟨hp, hm⟩ (leads_unit (construct_standby a b c)) h hr hq
  exact ⟨(tame_inMode _ _ _).result ((tame_inMode _ _ _).seq hu), free_shown.result (free_shown.seq hv)⟩

/-! ## The invariant -/

/-- After an instruction a live block has a shadow, if it had one before. -/
theorem exec_shadowValid (hw : i.wellFormed = true) (h : exec i s = .next t)
    (hs : s.origin.mode ≠ .off → s.origin.shadow ≠ none) : t.mode ≠ .off → t.shadow ≠ none := by
  intro ht
  have keep := (exec_grows hw h).shadow
  rcases exec_mode h with hm | ⟨hr, hq, ⟨a, b, c, rfl, -⟩ | ⟨-, hm, -⟩ | ⟨-, hm, -⟩ | ⟨-, hm, -⟩ | ⟨-, hm, -⟩⟩
  · exact keep (hs (hm ▸ ht))
  · exact new_shadow h hr hq
  all_goals exact keep (hs (by rw [hm]; decide))

/-- Where the next stretch begins: it ended, or it is the one under way. -/
theorem step_origin (h : exec i s = .next t) :
    t.origin = t ∧ Ended i t ∨ t.origin = s.origin ∧ UnderWay i s t :=
  (exec_next h).2.imp (fun he => ⟨ended_origin he, he⟩) fun hu => ⟨underWay_origin hu (exec_samePort h), hu⟩

theorem next_typed (hw : i.wellFormed = true) (h : Ended i t ∨ UnderWay i s t) (op : Instr) (k : Nat) (lost : Bool)
    (b : Option Stretch) (ht : t.seq = .busy op k lost b) : op.wellFormed = true := by
  rcases h with (h | ⟨-, l, h⟩) | ⟨_, _, _, _, -, _, h⟩ <;> rw [h] at ht <;> cases ht <;> exact hw

theorem step_inv (hs : Inv s) (h : step s = .next t) : Inv t := by
  rcases step_runs hs.seqWf hs.typed h with ⟨rfl, -⟩ | ⟨i, s0, -, hw, he, hstart⟩
  · exact hs
  · have hbegan : Sound s0.origin := hstart.sound hs.began
    have hshadow := exec_shadowValid hw he hbegan.shadowValid
    have hhere : Sound t := (exec_grows hw he).sound hbegan hshadow
    have hend := (exec_next he).2
    rcases step_origin he with ⟨ho, hended⟩ | ⟨ho, hunder⟩
    · exact ⟨hhere, by rw [ho]; exact hhere, by rw [ho]; exact ended_seqWf he hended, by rw [ho], next_typed hw hend⟩
    · refine ⟨hhere, ho ▸ hbegan, by rw [ho]; exact hstart.seqWf hs.seqWf, ?_, next_typed hw hend⟩
      rcases exec_mode he with hm | ⟨-, hq, -⟩
      · rw [ho, hm]
      · obtain ⟨_, _, _, _, -, _, hk⟩ := hunder
        rw [hk] at hq
        cases hq

/-! ## Runs of many steps -/

/-- What steps from `s` keep: what the state shows against `s`, and where the stretch under way began. -/
structure Reached (s u : State) : Prop where
  here : Grows s u
  began : Grows s u.origin
  seqWf : Machine.seqWf u.origin = true
  typed : ∀ op k lost b, u.seq = .busy op k lost b → op.wellFormed = true

theorem reached_self (h : seqWf s = true) : Reached s s := by
  have ho : s.origin = s ∧ ∀ op k lost b, s.seq = .busy op k lost b → op.wellFormed = true := by
    unfold seqWf at h
    cases hs : s.seq with
    | idle => exact ⟨by simp only [State.origin, hs], by simp⟩
    | busy op k lost b =>
      cases b with
      | some b => simp [hs] at h
      | none =>
        simp only [hs, Bool.and_eq_true] at h
        refine ⟨by simp only [State.origin, hs], fun op' k' l b hk => ?_⟩
        cases hk
        cases op <;> first | rfl | cases h.1.1
  exact ⟨grows_survives.refl s, by rw [ho.1]; exact grows_survives.refl s, by rw [ho.1]; exact h, ho.2⟩

theorem Reached.step (hs : Reached s u) (h : step u = .next t) : Reached s t := by
  rcases step_runs hs.seqWf hs.typed h with ⟨rfl, -⟩ | ⟨i, s0, -, hw, he, hstart⟩
  · exact hs
  · have hhere : Grows s t := hs.began.trans (hstart.grows (exec_grows hw he))
    have htyped := next_typed hw (exec_next he).2
    rcases step_origin he with ⟨ho, hended⟩ | ⟨ho, -⟩
    · exact ⟨hhere, by rw [ho]; exact hhere, by rw [ho]; exact ended_seqWf he hended, htyped⟩
    · exact ⟨hhere, by rw [ho]; exact hs.began.trans (hstart.grows (grows_survives.refl _)),
        by rw [ho]; exact hstart.seqWf hs.seqWf, htyped⟩

theorem Reached.steps : ∀ {n : Nat} {u : State}, Reached s u → Steps n u t → Reached s t
  | 0, _, hs, h => by cases h; exact hs
  | _ + 1, _, hs, ⟨_, h, k⟩ => (hs.step h).steps k

/-! ## What a step runs -/

theorem exec_toInstr (c : Cmd) (s : State) : exec c.toInstr s = frameOp c.toInstr (runFrame c) s := by cases c <;> rfl

theorem step_window {window : List Byte} {rest : List Request} (hs : s.seq = .idle)
    (hr : s.requests = .window window :: rest) (hi : decode window = .ok i) :
    step s = exec i { s with requests := rest } := by
  obtain ⟨c, -, -, -, rfl, -⟩ := decode_ok hi
  have hstep : step s = exec c.toInstr (State.beginAt { s with requests := rest } c.toInstr 0 false) := by
    simp only [step, hs, hr, Request.instr, hi]
  rw [hstep, exec_toInstr, exec_toInstr]
  exact frame_begun (s := { s with requests := rest }) c hs

/-! ## Requests that are answered -/

theorem exec_idle_next (hs : s.seq = .idle) (hl : legalIn i s.mode = true)
    (hf : ∀ f, exec i s ≠ .fault f) : ∃ t, exec i s = .next t ∧ Ended i t := by
  have ho : s.origin = s := by simp only [State.origin, hs]
  have := exec_answers_any i s
  cases he : exec i s with
  | next t =>
    refine ⟨t, rfl, (exec_next he).2.resolve_right ?_⟩
    rintro ⟨_, _, _, _, hq, -⟩
    rw [hs] at hq
    cases hq
  | fault f => exact absurd he (hf f)
  | refused r =>
    rw [he] at this
    rcases this with ⟨-, hl'⟩ | hn
    · rw [ho, hl] at hl'; cases hl'
    · simp [State.entry, hs] at hn

theorem exec_no_fault (hs : s.origin.shadow ≠ none) (f : Fault) : exec i s ≠ .fault f := by
  intro he
  have := exec_answers_loose (i := i) (s := s) (free_shadowIf True) (fun _ => hs) (shadowIf_frame True)
  rw [he] at this
  obtain ⟨-, u, hu, hn⟩ := this
  exact hu trivial hn

theorem new_no_fault (a b c : Bool) (hs : s.seq = .idle) (f : Fault) : exec (.new a b c) s ≠ .fault f := by
  intro he
  have hx := leads_unit (construct_shadow a b c) (s.start (.new a b c)) (.new a b c) false none ⟨0, rfl⟩ trivial
  have he : hostOp (.new a b c) inOff (returningUnit (construct a b c)) s = .fault f := he
  unfold hostOp at he
  rw [entry_idle hs] at he
  dsimp only at he
  split at he
  · cases hxs : returningUnit (construct a b c) (s.start (.new a b c)) with
    | ok v u => rw [hxs] at he; cases he
    | error e u =>
      rw [hxs] at he hx
      cases e with
      | stuck g => exact hx g rfl
      | _ => cases he
  · cases he

theorem frame_no_fault (c : Cmd) (hs : s.seq = .idle) (f : Fault) : exec c.toInstr s ≠ .fault f := by
  rw [exec_toInstr, frameOp, entry_idle hs]
  have hx : Leads (fun _ => True) (fun _ _ => True) (fun e _ => ∀ f, e ≠ .stuck f) (runFrame c) :=
    leads_get fun _ => leads_bind (Q := fun _ _ => True) (leads_frameWith (fun _ _ _ _ _ => trivial)
      fun _ _ _ _ _ _ _ _ _ _ => by simp) fun _ => leads_pure fun _ _ => trivial
  have hx := hx (s.start c.toInstr) c.toInstr false none ⟨0, rfl⟩ trivial
  dsimp only
  cases hxs : runFrame c (s.start c.toInstr) with
  | ok v u => simp [deliver]
  | error e u =>
    rw [hxs] at hx
    cases e with
    | stuck g => exact absurd rfl (hx g)
    | _ => simp [deliver]

/-- In Off only frames and `new` are legal. -/
theorem legal_off_cases (h : legalIn i .off = true) : (∃ c : Cmd, i = c.toInstr) ∨ ∃ a b c, i = .new a b c := by
  cases hc : i.cmd? with
  | some c => exact .inl ⟨c, eq_toInstr_of_cmd? hc⟩
  | none =>
    cases i <;> first
      | (cases hc; done)
      | (cases h; done)
      | exact .inr ⟨_, _, _, rfl⟩

end Sys2Proof.Machine

namespace Sys2Proof
open Machine

/-- Settles O54: each instruction adds only whole bracketed frames and keeps the bounds, from where its stretch began. -/
theorem invKept : Obligations.InvKept := fun _ _ hs h => step_inv hs h

/-- Settles O58, by the last assignment of each transition. -/
theorem onlyTransitionsChangeMode : Obligations.OnlyTransitionsChangeMode := by
  intro s t hs h hne
  rcases step_runs hs.seqWf hs.typed h with ⟨rfl, -⟩ | ⟨i, s0, hi, hw, he, hstart⟩
  · exact absurd rfl hne
  · have hmode : s0.origin.mode = s.mode := hstart.mode.trans hs.mode.symm
    rcases exec_mode he with hm | hm
    · exact absurd (hm.trans hmode) hne
    · rw [hmode] at hm
      obtain ⟨hr, hq, hm⟩ := hm
      refine ⟨hr, hq, ?_⟩
      rw [hi]
      simpa only [Option.some.injEq] using hm

/-- Settles O59, by induction on the steps. -/
theorem framesStandAlone : Obligations.FramesStandAlone := by
  intro n s t hs h
  have hg := ((reached_self hs).steps h).here
  exact ⟨hg.events, hg.fault, hg.params⟩

/-- Settles O60, from the program points of each operation. -/
theorem stepsGoPointByPoint : Obligations.StepsGoPointByPoint := by
  refine ⟨fun s t r rest i hs hr hi h => ?_, fun s t i lost hi hs h => steps_pass hi hs h⟩
  exact steps_request (request_wellFormed hi) hs (by simp only [step, hs, hr, hi]) h

/-- Settles O53: a frame is one program point, so the step that begins it runs it whole. -/
theorem stepRunsDecoded : Obligations.StepRunsDecoded := by
  intro s
  refine ⟨fun window rest i hs hr hi => step_window hs hr hi, fun c rest hs hr => ?_, fun op k lost b hs => ?_,
    fun op k lost hs => ?_, fun hs hr => ?_, fun nbits w i hi => ?_⟩
  · simp only [step, hs, hr, Request.instr]
  · simp only [step, hs]
  · simp only [step, hs]
  · simp only [step, hs, hr]
  · have hd : decode (tableWindow nbits w) = .ok i := by
      unfold decodeTableWord at hi
      split at hi
      · cases hi; assumption
      · cases hi
    exact step_window (s := s.withFetchWord nbits w) rfl rfl hd

/-- Settles O50: the mode gate comes before everything else. -/
theorem illegalModeRefused : Obligations.IllegalModeRefused := by
  intro i s hs hl
  have ho : s.origin = s := by simp only [State.origin, hs]
  have h := exec_answers_any i s
  rw [← ho] at hl ⊢
  revert h
  rw [ho] at hl ⊢
  unfold Answers
  rw [ho]
  cases exec i s with
  | next t => rintro ⟨hl', -⟩; rw [hl] at hl'; cases hl'
  | fault f => rintro ⟨hl', -⟩; rw [hl] at hl'; cases hl'
  | refused r =>
    rintro (⟨rfl, -⟩ | hn)
    · rfl
    · simp [State.entry, hs] at hn

/-- Settles O51: only an invalid shadow stops an operation, and in Off no legal instruction needs one. -/
theorem legalRequestAnswered : Obligations.LegalRequestAnswered := by
  intro i s hs hl hv
  refine exec_idle_next hs hl fun f => ?_
  cases hm : decide (s.mode = .off) with
  | false =>
    refine exec_no_fault ?_ f
    have ho : s.origin = s := by simp only [State.origin, hs]
    rw [ho]
    exact hv (by simpa using hm)
  | true =>
    rw [of_decide_eq_true hm] at hl
    rcases legal_off_cases hl with ⟨c, rfl⟩ | ⟨a, b, c, rfl⟩
    · exact frame_no_fault c hs f
    · exact new_no_fault a b c hs f

/-- Settles O52: the values of the reset state. -/
theorem resetValues : Obligations.ResetValues := by
  refine ⟨rfl, rfl, rfl, rfl, fun r => ?_, rfl, ?_⟩
  · rcases r with v | h
    · cases v <;> rfl
    · cases h <;> rfl
  · exact ⟨rfl, rfl, rfl, rfl, rfl, rfl, rfl, rfl, rfl, rfl, rfl, rfl, rfl, rfl, rfl, rfl, rfl, rfl, rfl,
      fun q => by cases q <;> rfl, rfl, rfl, rfl, rfl, rfl⟩

/-- Settles O55: nothing is emitted or queued at reset, and the mode is Off. -/
theorem invariantsAtReset : Obligations.InvariantsAtReset := by
  have sound : Sound State.reset :=
    ⟨by decide, fun h => absurd rfl h, by decide, by decide, fun e he => (nomatch he), rfl⟩
  refine ⟨⟨sound, sound, rfl, rfl, fun _ _ _ _ h => by cases h⟩, ?_, fun h => absurd rfl h⟩
  exact ⟨nofun, nofun, nofun, nofun, fun h => absurd rfl h, fun h => absurd rfl h, rfl⟩

end Sys2Proof
end

section
/-! PROOFS. The mode invariants and the shadow's coherence over a step, while the ports succeed (rules R122, R319). -/

namespace Sys2Proof.Machine

variable {i : Instr} {s t u : State} {m : Mode} {l : Level} {p : Bool}

/-! ## The mode invariants as one condition -/

/-- CE and PRIM_RX as the mode invariants have them in this mode. -/
def ModeFits : Mode → Level → Bool → Prop
  | .off, _, _ => True
  | .standby, l, _ => l = .low
  | .rx, l, p => l = .high ∧ p = true
  | .tx, _, p => p = false

/-- The mode invariants of a live block whose ports succeed. -/
def ModeOk (s : State) : Prop := s.mode ≠ .off → ∃ l p, InMode s.mode l p s ∧ ModeFits s.mode l p

theorem stable_modeOk : Stable ModeOk where
  seq h hm := let ⟨l, p, hi, hf⟩ := h hm; ⟨l, p, (tame_inMode _ l p).seq hi, hf⟩
  result h hm := let ⟨l, p, hi, hf⟩ := h hm; ⟨l, p, (tame_inMode _ l p).result hi, hf⟩
  fault h hm := let ⟨l, p, hi, hf⟩ := h hm; ⟨l, p, (tame_inMode _ l p).fault hi, hf⟩

theorem InMode.modeOk (h : InMode m l p s) (hf : ModeFits m l p) : ModeOk s := by
  obtain rfl := h.mode
  exact fun _ => ⟨l, p, h, hf⟩

theorem ModeInv.modeOk (h : ModeInv s) (hp : PortsOk s) : ModeOk s := by
  refine fun hm => ⟨s.ce, s.primRx, ⟨hp, h.liveCsn hm, h.liveShadow hm, rfl, rfl, fun _ => rfl⟩, ?_⟩
  cases hs : s.mode with
  | off => trivial
  | standby => exact h.standbyCe hs
  | rx => exact ⟨h.rxCe hs, h.rxPrim hs⟩
  | tx => exact h.txPrim hs

theorem ModeOk.modeInv (h : ModeOk s) (hq : seqWf s = true) : ModeInv s := by
  by_cases hm : s.mode = .off
  · exact ⟨fun k => by simp [hm] at k, fun k => by simp [hm] at k, fun k => by simp [hm] at k, fun k => by simp [hm] at k,
      fun k => absurd hm k, fun k => absurd hm k, hq⟩
  · obtain ⟨l, p, hi, hf⟩ := h hm
    have hce := hi.ce
    have hprim := hi.prim
    refine ⟨fun k => ?_, fun k => ?_, fun k => ?_, fun k => ?_, fun _ => hi.csn, fun _ => hi.shadow, hq⟩ <;>
      rw [k] at hf hce
    · exact (hce (by decide)).trans hf
    · exact (hce (by decide)).trans hf.1
    · exact hprim.trans hf.2
    · exact hprim.trans hf

/-! ## The transitions -/

theorem inMode_frame (flagged : Bool) (c : Cmd) : Holds (InMode m l p) (frameWith flagged c) :=
  leads_frameWith (fun _ _ _ h hF => h.of_same (hF.portsOk h.ports) hF.csn hF.shadow hF.mode hF.ce)
    fun _ _ _ _ _ _ h _ _ hn => absurd h.ports hn

/-- A CE write outside Tx puts CE at its level. -/
theorem leads_inMode_ce {E : Stop → State → Prop} (level : Bool) :
    Leads (InMode m l p) (fun _ => InMode m (if level then .high else .low) p) E (ceWriteWith (return ()) level) :=
  leads_ce (fun _ h => ⟨h.ports.of_env (.inr rfl), h.csn, h.shadow, h.mode, h.prim, fun _ => rfl⟩)
    fun _ h hn => absurd h.ports hn

theorem leads_inMode_prim {E : Stop → State → Prop} (q : Bool) :
    Leads (InMode m l p) (fun _ => InMode m l q) E (updateConfig fun x => { x with primRx := q }) := by
  refine leads_updateConfigWith (fun _ _ h => h.of_same h.ports h.csn rfl rfl rfl) (fun _ h hn => absurd hn h.shadow)
    (fun s b h hb he => ?_) (fun _ _ _ _ _ _ _ h _ _ _ hn => absurd h.ports hn) fun s b _ u h hb hF => ?_
  · have hq : s.primRx = q := by simpa only [State.primRx, hb] using (congrArg ConfigReg.primRx he).symm
    exact ⟨h.ports, h.csn, h.shadow, h.mode, hq, h.ce⟩
  · exact ⟨hF.portsOk h.ports, hF.csn, by simp, hF.mode.trans h.mode, decode_encode_primRx _,
      fun hn => hF.ce.trans (h.ce hn)⟩

theorem leads_inMode_turn {E : Stop → State → Prop} (hm : m ≠ .tx) {m' : Mode} (hf : ModeFits m' l p) :
    Leads (InMode m l p) (fun _ => ModeOk) E (setMode m') := leads_setMode fun _ h => (h.turn hm m').modeOk hf

theorem leads_enterRx : Leads (InMode .standby l p) (fun _ => ModeOk) (Stuck ModeOk) enterRx :=
  leads_bind (leads_inMode_prim true) fun _ => leads_bind (leads_inMode_ce true) fun _ =>
    leads_inMode_turn (by decide) ⟨rfl, rfl⟩

theorem leads_enterTx : Leads (InMode .standby l p) (fun _ => ModeOk) (Stuck ModeOk) enterTx :=
  leads_bind (leads_inMode_prim false) fun _ => leads_inMode_turn (by decide) rfl

theorem leads_leaveRx : Leads (InMode .rx l p) (fun _ => ModeOk) (Stuck ModeOk) leaveRx :=
  leads_bind (leads_inMode_ce false) fun _ => leads_inMode_turn (by decide) rfl

theorem leads_leaveTxPass (lost : Bool) :
    Leads (InMode .tx l false) (fun _ => ModeOk) (Stuck ModeOk) (leaveTxPass lost) := by
  have pass : Leads (InMode .tx l false) (fun _ => InMode .tx l false) (Stuck ModeOk) (waitPass lost) :=
    ((tame_inMode .tx l false).waitPass (inMode_ce true) (inMode_ce false) lost).weaken (fun _ h => h) (fun _ _ h => h)
      fun _ _ h => ⟨h.1.modeOk rfl, h.2⟩
  refine leads_bind pass fun r => ?_
  cases r with
  | some l => exact leads_pure fun _ h => h.modeOk rfl
  | none =>
    refine leads_bind (Q := fun _ s => (InMode .tx l false s) ∧ s.ce = .low) (leads_ce (fun _ h => ?_)
      fun _ h hn => absurd h.ports hn) fun _ => leads_bind (Q := fun _ => ModeOk) (leads_setMode fun _ h => ?_)
      fun _ => leads_pure fun _ h => h
    · exact ⟨⟨h.ports.of_env (.inr rfl), h.csn, h.shadow, h.mode, h.prim, fun hn => absurd rfl hn⟩, rfl⟩
    · exact InMode.modeOk (m := .standby) (l := .low) ⟨h.1.ports, h.1.csn, h.1.shadow, rfl, h.1.prim, fun _ => h.2⟩ rfl

/-! ## A step -/

theorem exec_modeOk_live (hw : s.origin.mode ≠ .off) (hs : ModeOk s.origin) (hc : changesModePins i = false) :
    Answers ModeOk i s (exec i s) := by
  obtain ⟨l, p, hi, hf⟩ := hs hw
  generalize hm : s.origin.mode = m at hi hf
  have weaken : ∀ {o}, Answers (InMode m l p) i s o → Answers ModeOk i s o := by
    intro o
    unfold Answers
    cases o with
    | next t => exact fun ⟨hl, h⟩ => ⟨hl, h.imp_left fun ⟨h, he⟩ => ⟨h.modeOk hf, he⟩⟩
    | fault f => exact fun ⟨hl, u, hu, hn⟩ => ⟨hl, u, hu.modeOk hf, hn⟩
    | refused r => exact id
  cases ho : isOrdinary i with
  | true =>
    refine weaken (exec_answers (tame_inMode m l p) hi (fun ht level => ?_) ho)
    obtain rfl := hm.symm.trans ht
    exact inMode_ce level
  | false =>
    have stable := (tame_inMode m l p).toStable
    cases i <;> first | (cases ho; done) | (cases hc; done) | skip
    case frameWRegister r d =>
      exact weaken ((tame_inMode m l p).frameOp hi (fun _ => rfl) (holds_get fun _ => holds_map (inMode_frame _ _)))
    case writeRegister r v => simp_all [isOrdinary, isTransition, changesModePins, bypassesShadow]
    case new a b c =>
      refine stable.hostOp stable_modeOk hi legal_off fun hl => ?_
      rw [hm] at hl
      exact absurd (hm.trans (eq_of_beq hl)) hw
    case rx =>
      refine stable.hostOp stable_modeOk hi legal_standby fun hl => leads_unit (Q := fun _ => ModeOk) ?_
      rw [hm] at hl
      obtain rfl := eq_of_beq hl
      exact leads_enterRx
    case tx =>
      refine stable.hostOp stable_modeOk hi legal_standby fun hl => leads_unit (Q := fun _ => ModeOk) ?_
      rw [hm] at hl
      obtain rfl := eq_of_beq hl
      exact leads_enterTx
    case standbyRx =>
      refine stable.hostOp stable_modeOk hi legal_rx fun hl => leads_unit (Q := fun _ => ModeOk) ?_
      rw [hm] at hl
      obtain rfl := eq_of_beq hl
      exact leads_leaveRx
    case standbyTx =>
      refine stable.loopOp stable_modeOk rfl hi legal_tx fun hl => ?_
      rw [hm] at hl
      obtain rfl := mode_tx hl
      obtain rfl : p = false := hf
      exact leads_leaveTxPass

theorem Answers.ended {I : State → Prop} (h : Answers I i s (.next t)) (he : Ended i t) : I t := by
  rcases h.2 with ⟨h, -⟩ | ⟨_, _, _, _, -, _, hk⟩
  · exact h
  · rcases he with he | ⟨-, _, he⟩ <;> rw [he] at hk <;> cases hk

/-- From Off a step that ends is in Off still, or it was `new`. -/
theorem exec_from_off (h : exec i s = .next t) (hm : s.origin.mode = .off)
    (hp : PortsOk s.origin) : t.mode = .off ∨ InMode .standby .low false t ∧ Shown t := by
  rcases exec_mode h with ht | ⟨hr, hq, ⟨a, b, c, rfl, -⟩ | ⟨-, ht, -⟩ | ⟨-, ht, -⟩ | ⟨-, ht, -⟩ | ⟨-, ht, -⟩⟩
  · exact .inl (ht.trans hm)
  · exact .inr (new_standby hp hm h hr hq)
  all_goals rw [hm] at ht; cases ht

theorem exec_modeOk (h : exec i s = .next t) (he : Ended i t) (hs : ModeOk s.origin)
    (hp : PortsOk s.origin) (hc : changesModePins i = false) : ModeOk t := by
  by_cases hm : s.origin.mode = .off
  · rcases exec_from_off h hm hp with ht | ⟨ht, -⟩
    · exact fun hn => absurd ht hn
    · exact ht.modeOk rfl
  · have := exec_modeOk_live (i := i) hm hs hc
    rw [h] at this
    exact this.ended he

theorem exec_coherent (h : exec i s = .next t) (he : Ended i t) (hs : Coherent s.origin)
    (hp : PortsOk s.origin) (hc : bypassesShadow i = false) : Coherent t := by
  by_cases hm : s.origin.mode = .off
  · rcases exec_from_off h hm hp with ht | ⟨-, ht⟩
    · exact fun hn => absurd ht hn
    · exact fun _ => ht.shows
  · have := exec_answers_free (i := i) (s := s) free_shown ⟨hp, hs hm⟩ hc
    rw [h] at this
    exact fun _ => (this.ended he).shows

end Sys2Proof.Machine

namespace Sys2Proof
open Machine

/-- Settles O56: each ordinary operation keeps mode, CE and PRIM_RX, and each transition leaves those of its new mode. -/
theorem modeInvariantsKept : Obligations.ModeInvariantsKept := by
  intro s t hs hp hc h
  rcases step_begins hs.seqWf h with ⟨rfl, -⟩ | ⟨i, s0, hn, he, hstart, -⟩
  · exact hs
  · rcases step_origin he with ⟨ho, hended⟩ | ⟨ho, -⟩ <;> rw [ho]
    · exact (exec_modeOk he hended ((hstart.modeInv hs).modeOk (hstart.portsOk hp)) (hstart.portsOk hp)
        (hc i hn)).modeInv (ended_seqWf he hended)
    · exact hstart.modeInv hs

/-- Settles O57: frames that do not write CONFIG leave both sides, and every write through the shadow sets both. -/
theorem shadowCoherent : Obligations.ShadowCoherent := by
  intro s t hs hi hp hc h
  rcases step_runs hi.seqWf hi.typed h with ⟨rfl, -⟩ | ⟨i, s0, hn, -, he, hstart⟩
  · exact hs
  · rcases step_origin he with ⟨ho, hended⟩ | ⟨ho, -⟩ <;> rw [ho]
    · exact exec_coherent he hended (hstart.coherent hs) (hstart.portsOk hp) (hc i hn)
    · exact hstart.coherent hs

end Sys2Proof
end

section
/-! PROOFS. Instructions run whole from an idle block: how each kind answers what its body ends with, the frame as the one
port primitive of most operations, and the statements about the command frames (rules R200 to R209, R230, R409). -/

namespace Sys2Proof.Machine

variable {α β : Type} {i : Instr} {s t u : State} {c : Cmd} {inp : List Byte}

/-! ## Delivery -/

/-- The block after an operation that returned. -/
def State.returned (u : State) (v : Value) : State := (u.withSeq .idle).withResult (some (.ok v))

/-- The block after an operation that raised. -/
def State.raised (u : State) (e : ErrKind) : State := (u.withSeq .idle).withResult (some (.err e))

/-- The block after an operation that faulted. -/
def State.faulted (u : State) (v : Violation) : State := ((u.withSeq .idle).withResult none).addFault (.violation v)

variable {legal : Mode → Bool} {body : Op Value} {v : Value} {e : ErrKind}

theorem hostOp_returns (hs : s.seq = .idle) (hl : legal s.mode = true) (hx : body (s.start i) = .ok v u) :
    hostOp i legal body s = .next (u.returned v) := by rw [hostOp_runs hs hl, hx]; rfl

theorem hostOp_fails (hs : s.seq = .idle) (hl : legal s.mode = true) (hx : body (s.start i) = .error (.err e) u) :
    hostOp i legal body s = .next (u.raised e) := by rw [hostOp_runs hs hl, hx]; rfl

theorem hostOp_faults {f : Violation} (hs : s.seq = .idle) (hl : legal s.mode = true)
    (hx : body (s.start i) = .error (.fault f) u) : hostOp i legal body s = .next (u.faulted f) := by
  rw [hostOp_runs hs hl, hx]; rfl

theorem frameOp_returns (hs : s.seq = .idle) (hx : body (s.start i) = .ok v u) :
    frameOp i body s = .next (u.returned v) := by rw [frameOp_runs hs, hx]; rfl

theorem frameOp_fails (hs : s.seq = .idle) (hx : body (s.start i) = .error (.err e) u) :
    frameOp i body s = .next (u.raised e) := by rw [frameOp_runs hs, hx]; rfl

theorem inLive_of_ne {m : Mode} (h : m ≠ .off) : inLive m = true := by
  cases m with
  | off => exact absurd rfl h
  | standby | rx | tx => rfl

theorem PortsOk.start (h : PortsOk s) (i : Instr) : Clear (s.start i) := ⟨h, rfl⟩

theorem Ready.start (h : Ready s) (i : Instr) : Clear (s.start i) := h.ports.start i

theorem Ready.inLive (h : Ready s) : Machine.inLive s.mode = true := inLive_of_ne h.live

theorem Ready.valid (h : Ready s) : ∃ b, s.shadow = some b := Option.ne_none_iff_exists'.1 h.shadow

/-- What an operation passed leaves of the block is what it returns with. -/
theorem Passed.returned (h : Passed (s.start i) u) (v : Value) : Returned s (u.returned v) v :=
  ⟨rfl, rfl, h.mode, h.ce, h.shadow, h.fault, h.requests, h.params⟩

theorem Passed.raised (h : Passed (s.start i) u) (e : ErrKind) : Raised s (u.raised e) e :=
  ⟨rfl, rfl, h.mode, h.ce, h.shadow, h.fault, h.requests, h.params⟩

theorem Passed.faulted (h : Passed (s.start i) u) (f : Violation) : Faulted s (u.faulted f) f :=
  ⟨rfl, rfl, h.mode, h.ce, h.shadow, congrArg (·.add (.violation f)) h.fault, h.requests, h.params⟩

theorem passed_advance (h : Clear s) : Passed s s.advance := ⟨h.advance, id, rfl, rfl, rfl, rfl, rfl, rfl, rfl⟩

theorem returningUnit_returns {x : Op Unit} {s s' : State} (h : x s = .ok () s') :
    returningUnit x s = .ok .unit s' := by rw [returningUnit, bind_of_ok h]; rfl

/-! ## A frame, hazard mark or not -/

/-- What a frame that returned does, its response a draw or not. -/
structure Sent (c : Cmd) (inp : List Byte) (s s' : State) : Prop extends Passed s s' where
  events : s'.events = s.events ++ frameEvents c inp
  len : inp.length = c.len
  csn : s'.csn = .high
  regs : s'.periph.regs = Cmd.regsAfter c s.periph.regs

theorem Framed.sent (h : Framed c inp s t) : Sent c inp s t := ⟨h.passed, h.events, h.len, h.csn, h.regs⟩

theorem cons_of_len (h : inp.length = c.len) : inp = inp.headD 0 :: inp.tail := by
  cases inp with
  | nil => simp [Cmd.len] at h; omega
  | cons a l => rfl

theorem tail_length_of_len (h : inp.length = c.len) : inp.tail.length + 1 = c.len := by
  rw [← h, cons_of_len h]; rfl

/-- With the ports succeeding a frame returns; where its response is no draw it is a plain frame. -/
theorem frameWith_ok (flagged : Bool) (c : Cmd) (h : Clear s) :
    ∃ inp s', frameWith flagged c s = .ok (Status.decode (inp.headD 0), inp.tail) s' ∧ Sent c inp s s' ∧
      (flagged = false → Framed c inp s s') := by
  cases flagged with
  | false =>
    obtain ⟨inp, s', hr, hF⟩ := frame_ok c h
    exact ⟨inp, s', hr, hF.sent, fun _ => hF⟩
  | true =>
    rcases frameBody_any true c s with ⟨inp, s', hr, hF⟩ | ⟨_, _, _, _, _, _, _, _, hn, -⟩
    · refine ⟨inp, s'.advance, primitive_ok h.whole hr, ⟨⟨⟨?_, ?_⟩, fun hq => ?_, hF.mode, hF.ce, hF.shadow, hF.fault,
        hF.requests, hF.result, hF.params⟩, hF.events, hF.len, hF.csn, hF.regs h.ports⟩, fun hn => by cases hn⟩
      · exact hF.portsOk h.ports
      · rw [advance_seq, next_began, hF.seq]; exact h.whole
      · intro m hm
        exact hq m (List.mem_of_mem_tail (List.mem_of_mem_tail (List.mem_of_mem_tail (hF.env ▸ hm))))
    · exact absurd h.ports hn

theorem runFrame_ok (c : Cmd) (h : Clear s) :
    ∃ inp s', runFrame c s = .ok (.frame (Status.decode (inp.headD 0)) (decodeResponse c inp.tail)) s' ∧
      Sent c inp s s' ∧ (s.drawsFor c = false → Framed c inp s s') := by
  obtain ⟨inp, s', hr, hS, hF⟩ := frameWith_ok (s.drawsFor c) c h
  exact ⟨inp, s', by simp only [runFrame, run_bind, run_get, hr, run_pure], hS, hF⟩

theorem status_decode_statusByte (r : Radio) : Status.decode r.statusByte = r.status := by
  have h : ∀ (v : Status) (b : Bool), Status.decode (v.encode ||| bitAt 7 b) = v := by
    rintro ⟨a, b, c, n, e⟩ f; revert a b c n e f; decide
  exact h _ _

/-- The data phase of a frame in a quiet world is what the peripheral answers. -/
theorem Framed.quiet_response (h : Framed c inp s u) (hq : Quiet s) : ∃ n m,
    Status.decode (inp.headD 0) = s.periph.radio.status ∧
      inp.tail = fillTo (c.len - 1) (Periph.answer s.params n s.periph c) n ∧ u.periph = Periph.commit m s.periph c := by
  obtain ⟨n, m, hi, hp⟩ := h.quietPeriph hq
  refine ⟨n, m, ?_, by rw [hi]; rfl, hp⟩
  rw [hi, List.headD_cons, status_decode_statusByte]

/-! ## Frames as instructions -/

/-- Every command frame completes. -/
theorem exec_frame (c : Cmd) (hs : s.seq = .idle) (hp : PortsOk s) :
    ∃ inp u, exec c.toInstr s = .next (u.returned (.frame (Status.decode (inp.headD 0)) (decodeResponse c inp.tail))) ∧
      Sent c inp (s.start c.toInstr) u ∧ (s.drawsFor c = false → Framed c inp (s.start c.toInstr) u) := by
  obtain ⟨inp, u, hr, hS, hF⟩ := runFrame_ok c (hp.start c.toInstr)
  exact ⟨inp, u, by rw [exec_toInstr, frameOp_returns hs hr], hS, hF⟩

/-- A plain command frame in a quiet world. -/
theorem exec_frame_quiet (c : Cmd) (hs : s.seq = .idle) (hq : Quiet s) (hd : s.drawsFor c = false) :
    ∃ t n m, exec c.toInstr s = .next t ∧ Returned s t (.frame s.periph.radio.status
      (decodeResponse c (fillTo (c.len - 1) (Periph.answer s.params n s.periph c) n))) ∧
      t.periph = Periph.commit m s.periph c := by
  obtain ⟨inp, u, hr, hS, hF⟩ := exec_frame c hs hq.portsOk
  obtain ⟨n, m, hst, hd, hp⟩ := (hF hd).quiet_response hq
  refine ⟨_, n, m, hr, ?_, hp⟩
  have := hS.returned (.frame (Status.decode (inp.headD 0)) (decodeResponse c inp.tail))
  rw [hst, hd] at this ⊢
  exact this

theorem drawsFor_eq_false (hf : c ≠ .flushTx) (hg : c ≠ .flushRx) (s : State) : s.drawsFor c = false := by
  simp [State.drawsFor, hf, hg]

theorem drawsFor_eq_false_of_mode (c : Cmd) (h : ¬ (s.mode = .rx ∧ s.ce ≠ .low)) : s.drawsFor c = false := by
  have : s.activeRx = false := by simpa [State.activeRx] using h
  simp [State.drawsFor, this]

/-- A frame that raised. -/
theorem exec_frame_raises (hs : s.seq = .idle)
    (h : frameBody (s.drawsFor c) c (s.start c.toInstr) = .error (.err e) u) :
    exec c.toInstr s = .next (u.raised e) := by
  have hr : frameWith (s.drawsFor c) c (s.start c.toInstr) = .error (.err e) u := primitive_error rfl h
  rw [exec_toInstr]
  refine frameOp_fails hs ?_
  rw [runFrame, run_bind]
  exact bind_of_error hr

theorem FrameFailed.raised {flagged conf : Bool} {evs : List PortEvent} {l : Level}
    (h : FrameFailed flagged conf c e evs l (s.start i) u) : Raised s (u.raised e) e :=
  ⟨rfl, rfl, h.mode, h.ce, h.shadow, h.fault, h.requests, h.params⟩

/-! ## Register frames -/

theorem readReg_length {r : Reg} {len : Nat} (hl : r.legalLen len = true) (par : Params) (n : Nat) (p : Periph)
    (ha : r.isAddress = false) : (p.readReg par n r len).length = len := by
  have : len = 1 := by simpa [Reg.legalLen, ha] using hl
  subst this
  cases r <;> first | rfl | cases ha

theorem configRead_mask (regs : Regs) (n : Nat) : regs.configRead n &&& 0xF7#8 = regs.config &&& 0xF7#8 := by
  have h : ∀ (b : BitVec 8) (x : Bool), (b ||| bitAt 3 x) &&& 0xF7#8 = b &&& 0xF7#8 := by decide
  unfold Regs.configRead
  split
  · exact h _ _
  · rfl

/-- EN_CRC as read is open only where it is 0 and some pipe has auto-ack. -/
theorem configRead_exact (regs : Regs) (n : Nat) (h : regs.enAa &&& 0x3F#8 = 0 ∨ regs.config.getLsbD 3 = true) :
    regs.configRead n = regs.config := by
  have hany : ∀ b : BitVec 8, b &&& 0x3F#8 = 0 → (toBools b).any = false := by decide
  unfold Regs.configRead
  rcases h with h | h
  · simp [hany _ h]
  · simp [ConfigReg.decode, h]

theorem observe_fields (a b : BitVec 4) :
    fieldOf (ObserveTx.encode ⟨a, b⟩) 4 4 = a ∧ fieldOf (ObserveTx.encode ⟨a, b⟩) 0 4 = b := by
  revert a b; decide

theorem write_stored_of_ne (regs : Regs) {r q : Reg} (h : q ≠ r) (d : List Byte) :
    (regs.write r d).stored q = regs.stored q := by
  cases r <;> cases q <;> first | rfl | exact absurd rfl h | skip
  rename_i p p'
  have : p' ≠ p := fun hp => h (by rw [hp])
  cases p <;> cases p' <;> first | rfl | exact absurd rfl this

theorem write_stored_address (regs : Regs) {r : Reg} (h : r.isAddress = true) (d : List Byte) :
    (regs.write r d).stored r = d := by cases r <;> first | rfl | cases h

/-- A one-byte register takes the value in its fields and keeps its reserved bits. -/
theorem write_stored_byte (regs : Regs) {r : Reg} {old : Byte} (ha : r.isAddress = false) (hs : regs.stored r = [old])
    (new : Byte) : (regs.write r [new]).stored r = [mergeBits r.fieldMask old new] := by
  have hff : ∀ b : Byte, mergeBits 0xFF old b = b := fun b => by simp [mergeBits, and_ff]
  cases r <;> simp_all [Regs.stored, Regs.write, Reg.fieldMask, Reg.isAddress]
  rename_i p
  cases p <;> rfl

theorem radio_write_other (radio : Radio) {r : Reg} (hs : r ≠ .status) (hc : r ≠ .rfCh) (d : List Byte) :
    radio.write r d = radio := by cases r <;> first | rfl | contradiction

/-! ## The operation under way does not show in a frame -/

/-- A primitive event that sees of `B.seq` only its point. -/
structure Blind (x : Op α) : Prop extends Atomic x where
  blind : ∀ (s : State) (q : SeqPos), q.point = s.seq.point → x (s.withSeq q) = mapState (·.withSeq q) (x s)

theorem Blind.bind {x : Op α} {f : α → Op β} (hx : Blind x) (hf : ∀ a, Blind (f a)) : Blind (x >>= f) := by
  refine ⟨atomic_bind hx.toAtomic fun a => (hf a).toAtomic, fun s q hq => ?_⟩
  rw [run_bind, run_bind, hx.blind s q hq]
  have hs := hx.seq s
  cases hxs : x s with
  | ok a t => rw [hxs] at hs; exact (hf a).blind t q (by rw [hq, show t.seq = s.seq from hs])
  | error e t => rfl

theorem blind_get {f : State → Op β} (hg : ∀ s q, f (s.withSeq q) = f s) (hf : ∀ s, Blind (f s)) :
    Blind ((get : Op State) >>= f) := by
  refine ⟨atomic_get hg fun s => (hf s).toAtomic, fun s q hq => ?_⟩
  show f (s.withSeq q) (s.withSeq q) = _
  rw [hg]
  exact (hf s).blind s q hq

theorem blind_ite {c : Prop} [Decidable c] {x y : Op α} (hx : Blind x) (hy : Blind y) : Blind (if c then x else y) := by
  split
  · exact hx
  · exact hy

theorem blind_pure (a : α) : Blind (pure a : Op α) := ⟨atomic_pure a, fun _ _ _ => rfl⟩
theorem blind_raise (e : ErrKind) : Blind (raise e : Op α) := ⟨atomic_raise e, fun _ _ _ => rfl⟩
theorem blind_takeMove : Blind takeMove := ⟨atomic_takeMove, fun _ _ _ => rfl⟩
theorem blind_freshDraw : Blind freshDraw := ⟨atomic_freshDraw, fun _ _ _ => rfl⟩
theorem blind_radioEvents (evs : List RadioEvent) : Blind (radioEvents evs) := ⟨atomic_radioEvents evs, fun _ _ _ => rfl⟩
theorem blind_setCsn (l : Level) : Blind (setCsn l) := ⟨atomic_setCsn l, fun _ _ _ => rfl⟩

theorem blind_note (e : PortEvent) : Blind (note e) := by
  refine ⟨atomic_note e, fun s q hq => ?_⟩
  show EStateM.Result.ok () ((s.withSeq q).record e) = .ok () ((s.record e).withSeq q)
  simp [State.record, State.withSeq, hq]

theorem blind_pinWrite (line : Line) (level : Bool) : Blind (pinWrite line level) :=
  blind_takeMove.bind fun _ => (blind_radioEvents _).bind fun _ => (blind_note _).bind fun _ => blind_pure _

theorem blind_losePeriph (flagged conforming : Bool) (c : Cmd) : Blind (losePeriph flagged conforming c) :=
  ⟨atomic_losePeriph flagged conforming c, fun _ _ _ => rfl⟩

theorem blind_settle (flagged conforming : Bool) (c : Cmd) : Blind (settle flagged conforming c) :=
  ⟨atomic_settle flagged conforming c, fun s q _ => by cases conforming <;> rfl⟩

theorem blind_xfer (flagged : Bool) (c : Cmd) : Blind (xfer flagged c) := by
  refine blind_takeMove.bind fun m => (blind_radioEvents _).bind fun _ => blind_get (fun _ _ => rfl) fun _ =>
    (blind_radioEvents _).bind fun _ => blind_freshDraw.bind fun n => ?_
  cases m.outcome with
  | fails => exact (blind_note _).bind fun _ => blind_pure _
  | answers bs => exact (blind_note _).bind fun _ => blind_pure _
  | ok => exact blind_get (fun _ _ => rfl) fun _ => (blind_note _).bind fun _ => blind_pure _

theorem blind_frameEnd (flagged : Bool) (c : Cmd) (t : Option Transfer) (raised : Bool) :
    Blind (frameEnd flagged c t raised) := by
  cases t with
  | none => exact (blind_losePeriph _ _ _).bind fun _ => blind_raise _
  | some t =>
    cases raised with
    | false => exact (blind_losePeriph _ _ _).bind fun _ => blind_raise _
    | true => exact (blind_settle _ _ _).bind fun _ => blind_pure _

theorem blind_frameBody (flagged : Bool) (c : Cmd) : Blind (frameBody flagged c) :=
  (blind_pinWrite _ _).bind fun _ => blind_ite
    ((blind_setCsn _).bind fun _ => (blind_xfer _ _).bind fun _ => (blind_pinWrite _ _).bind fun _ =>
      (blind_setCsn _).bind fun _ => blind_frameEnd _ _ _ _)
    ((blind_setCsn _).bind fun _ => (blind_losePeriph _ _ _).bind fun _ => (blind_pinWrite _ _).bind fun _ =>
      blind_ite ((blind_setCsn _).bind fun _ => blind_raise _) (blind_raise _))

/-- A frame run whole is delivered alike in every operation. -/
theorem deliver_runFrame (c : Cmd) (s : State) (i j : Instr) :
    deliver (runFrame c (s.start i)) = deliver (runFrame c (s.start j)) := by
  have hb := (blind_frameBody (s.drawsFor c) c).blind (s.start j) (.busy i 0 false none) rfl
  have hi : (s.start j).withSeq (.busy i 0 false none) = s.start i := rfl
  have hd : ∀ k, (s.start k).drawsFor c = s.drawsFor c := fun _ => rfl
  have hr : ∀ k, (s.start k).seq.reached = false := fun _ => rfl
  rw [hi] at hb
  simp only [runFrame, run_bind, run_get, hd, frameWith, run_primitive, hr, hb, Bool.false_eq_true, if_false]
  cases hx : frameBody (s.drawsFor c) c (s.start j) with
  | ok a t => rfl
  | error e t =>
    cases e with
    | pause => exact absurd hx ((atomic_frameBody _ c).pauses _ t)
    | _ => rfl

/-! ## The TX FIFO -/

/-- With data and room the entry joins the tail. -/
theorem enqueue_room {radio : Radio} {d : List Byte} (n : Nat) (hd : d ≠ []) (e : TxEntry)
    (hl : radio.txFifo.length < 3) : radio.enqueue n d e = { radio with txFifo := radio.txFifo ++ [e] } := by
  have hfull : radio.txFull = false := decide_eq_false (Nat.not_le.2 hl)
  have hempty : d.isEmpty = false := by simpa using hd
  simp [Radio.enqueue, hfull, hempty]

theorem enqueue_rest (n : Nat) (radio : Radio) (d : List Byte) (e : TxEntry) :
    radio.enqueue n d e = { radio with txFifo := (radio.enqueue n d e).txFifo } := by
  simp only [Radio.enqueue]
  split <;> rfl

theorem enqueue_length (n : Nat) (radio : Radio) (d : List Byte) (e : TxEntry) :
    (radio.enqueue n d e).txFifo.length ≤ 3 := by
  simp only [Radio.enqueue]
  split
  · exact freeTxFifo_length n
  · rename_i hf
    have hlt : radio.txFifo.length < 3 := Nat.not_le.1 fun hle => hf (by
      rw [show radio.txFull = true from decide_eq_true hle, Bool.or_true])
    simp only [List.length_append, List.length_singleton]
    omega

end Sys2Proof.Machine

namespace Sys2Proof
open Machine

/-- Settles O8: the frame is one port primitive, and the response is decoded from the bytes received. -/
theorem framesComplete : Obligations.FramesComplete := by
  intro c s hs hp
  obtain ⟨inp, u, hr, hS, -⟩ := exec_frame c hs hp
  refine ⟨_, inp.headD 0, inp.tail, hr, ?_, tail_length_of_len hS.len, hS.returned _, hS.csn⟩
  rw [← cons_of_len hS.len]
  exact hS.events

/-- Settles O9: the data of a read are the peripheral's answer, and a read commits nothing. -/
theorem registerReadFrame : Obligations.RegisterReadFrame := by
  intro r n s hl hs hq
  obtain ⟨t, k, m, hr, hR, hp⟩ := exec_frame_quiet (.rRegister r n) hs hq (drawsFor_eq_false (by simp) (by simp) s)
  have hlen : (Cmd.rRegister r n).len - 1 = n := by simp
  rw [hlen] at hR
  have exact_of : ∀ {d}, s.periph.readReg s.params k r n = d → d.length = n →
      fillTo n (Periph.answer s.params k s.periph (.rRegister r n)) k = d := fun hd hn => by
    rw [show Periph.answer s.params k s.periph (.rRegister r n) = _ from hd, fillTo_self k hn]
  have byte : r.isAddress = false → n = 1 := fun ha => by simpa [Reg.legalLen, ha] using hl
  refine ⟨t, _, hr, hR, fillTo_length .., hp, fun b hb hc ha => ?_, ?_, fun ha hn => ?_, ?_, ?_, ?_, ?_⟩
  · refine exact_of ?_ (by simp [byte ha])
    rw [readReg_stored _ _ _ _ _ hc (by simp [hb]) (by simp [ha]), hb]
  · rintro rfl
    exact ⟨s.periph.regs.configRead k, exact_of rfl (by simp [byte rfl]), configRead_mask _ _, configRead_exact _ _⟩
  · refine exact_of (readReg_stored _ _ _ _ _ (by rintro rfl; cases ha) ?_ fun _ => hn) hn
    rintro hnil
    rw [hnil] at hn
    subst hn
    simp [Reg.legalLen, ha, legalWidth] at hl
  all_goals rintro rfl
  · exact exact_of rfl (by simp [byte rfl])
  · exact exact_of rfl (by simp [byte rfl])
  · exact ⟨_, exact_of rfl (by simp [byte rfl]), observe_fields _ _⟩
  · exact exact_of rfl (by simp [byte rfl])

/-- Settles O10, from the register model's write. -/
theorem registerWriteFrame : Obligations.RegisterWriteFrame := by
  intro r data s hl hs hq
  obtain ⟨t, k, m, hr, hR, hp⟩ := exec_frame_quiet (.wRegister r data) hs hq (drawsFor_eq_false (by simp) (by simp) s)
  have hregs : t.periph.regs = s.periph.regs.write r data := by rw [hp]; rfl
  have hradio : t.periph.radio = s.periph.radio.write r data := by rw [hp]; rfl
  refine ⟨t, hr, hR, fun q hq => ?_, fun ha => ?_, fun old new ha ho hd => ?_, ?_, ?_, fun hst hch => ?_⟩
  · rw [hregs, write_stored_of_ne _ hq]
  · rw [hregs, write_stored_address _ ha]
  · rw [hregs, hd, write_stored_byte _ ha ho]; rfl
  · rintro new rfl rfl; rw [hradio]; rfl
  · rintro rfl; rw [hradio]; rfl
  · rw [hradio, radio_write_other _ hst hch]

/-- Settles O11: the entry joins the tail, unless the FIFO is left open, then within its bound. -/
theorem payloadWriteFrames : Obligations.PayloadWriteFrames := by
  intro c d e s hc hs hq
  have hcommit : ∀ m, Periph.commit m s.periph c = { s.periph with radio := s.periph.radio.enqueue m d e } ∧
      c ≠ .flushTx ∧ c ≠ .flushRx ∧ ∀ data, decodeResponse c data = .statusOnly := by
    rcases hc with ⟨rfl, rfl⟩ | ⟨p, rfl, rfl⟩ <;> exact fun m => ⟨rfl, by simp, by simp, fun _ => rfl⟩
  obtain ⟨-, hft, hfr, hresp⟩ := hcommit 0
  obtain ⟨t, k, m, hr, hR, hp⟩ := exec_frame_quiet c hs hq (drawsFor_eq_false hft hfr s)
  rw [hresp] at hR
  rw [(hcommit m).1] at hp
  refine ⟨t, hr, hR, by rw [hp], by rw [hp]; exact enqueue_rest .., fun hd hl => ?_, by rw [hp]; exact enqueue_length ..⟩
  rw [hp, enqueue_room m hd e hl]

/-- Settles O12: a width read answers the head packet's length, a payload read its first bytes and removes it. -/
theorem payloadReadFrames : Obligations.PayloadReadFrames := by
  refine ⟨fun d => ⟨by simp [Payload.ofBytes, Config.payloadMax]; omega, fun k hk hk32 => ?_⟩, fun s hs hq => ?_⟩
  · have htake : d.take 32 = d := List.take_of_length_le (by omega)
    simp only [Payload.ofBytes, Config.payloadMax, htake]
    rw [List.getElem?_append_right hk, List.getElem?_replicate, if_pos (by omega)]
  obtain ⟨t1, k1, m1, hr1, hR1, hp1⟩ := exec_frame_quiet .rRxPlWid hs hq (drawsFor_eq_false (by simp) (by simp) s)
  have payload := fun n => exec_frame_quiet (.rRxPayload n) hs hq (drawsFor_eq_false (by simp) (by simp) s)
  refine ⟨fun pkt rest hfifo hlen => ⟨⟨t1, hr1, hp1, ?_⟩, fun n => ?_⟩,
    fun hfifo => ⟨⟨t1, _, hr1, hp1, hR1⟩, fun n => ?_⟩⟩
  · simp only [Periph.answer, hfifo] at hR1
    exact hR1
  · obtain ⟨t, k, m, hr, hR, hp⟩ := payload n
    have hlen : (Cmd.rRxPayload n).len - 1 = n := by simp
    simp only [Periph.answer, hfifo, hlen] at hR
    refine ⟨t, _, hr, ?_, hR, fillTo_length .., fun hn => fillTo_self k (by simpa using hn)⟩
    rw [hp]
    simp only [Periph.commit, hfifo, List.tail_cons]
  · obtain ⟨t, k, m, hr, hR, hp⟩ := payload n
    refine ⟨t, _, hr, ?_, hR⟩
    rw [hp]
    simp only [Periph.commit, hfifo, List.tail_nil]
    rw [← hfifo]

/-- Settles O13. -/
theorem flushAndNopFrames : Obligations.FlushAndNopFrames := by
  intro s hs hq
  refine ⟨fun hm => ⟨?_, ?_⟩, fun _ i hi => ?_, ?_⟩
  · obtain ⟨t, k, m, hr, hR, hp⟩ := exec_frame_quiet .flushTx hs hq (drawsFor_eq_false_of_mode _ hm)
    exact ⟨t, hr, hR, hp⟩
  · obtain ⟨t, k, m, hr, hR, hp⟩ := exec_frame_quiet .flushRx hs hq (drawsFor_eq_false_of_mode _ hm)
    exact ⟨t, hr, hR, hp, by rw [hp]; rfl⟩
  · rcases hi with rfl | rfl
    · obtain ⟨inp, u, hr, hS, -⟩ := exec_frame .flushTx hs hq.portsOk
      exact ⟨_, _, hr, hS.returned _, hS.regs⟩
    · obtain ⟨inp, u, hr, hS, -⟩ := exec_frame .flushRx hs hq.portsOk
      exact ⟨_, _, hr, hS.returned _, hS.regs⟩
  · obtain ⟨t, k, m, hr, hR, hp⟩ := exec_frame_quiet .nop hs hq (drawsFor_eq_false (by simp) (by simp) s)
    exact ⟨t, hr, hR, hp⟩

/-- Settles O14: the three ways a frame's primitives fail. -/
theorem frameFailures : Obligations.FrameFailures := by
  intro c s m1 m2 m3 rest hs henv
  have h1 : ((s.start c.toInstr).env.headD EnvMove.calm).outcome = m1.outcome := by rw [start_env, henv]; rfl
  have h2 : ((s.start c.toInstr).env.tail.headD EnvMove.calm).outcome = m2.outcome := by rw [start_env, henv]; rfl
  have h3 : ((s.start c.toInstr).env.tail.tail.headD EnvMove.calm).outcome = m3.outcome := by rw [start_env, henv]; rfl
  refine ⟨fun f1 => ?_, fun o1 f2 => ?_, fun o1 o2 f3 => ?_⟩
  · obtain ⟨u, hr, hF⟩ := frameBody_lowFailed (s.drawsFor c) c (s.start c.toInstr) (by rw [h1, f1]; rfl)
    rw [h2] at hF
    exact ⟨_, exec_frame_raises hs hr, hF.raised, hF.stored, hF.events, hF.csn⟩
  · obtain ⟨u, hr, hF⟩ := frameBody_transferFailed (s.drawsFor c) c (s.start c.toInstr) (by rw [h1, o1]; rfl)
      (by rw [h2, f2])
    rw [h3] at hF
    exact ⟨_, exec_frame_raises hs hr, hF.raised, hF.stored, hF.events, hF.csn⟩
  · obtain ⟨inp, conf, u, hr, -, hconf, hF⟩ := frameBody_highFailed (s.drawsFor c) c (s.start c.toInstr)
      (by rw [h1, o1]; rfl) (by rw [h2]; exact o2) (by rw [h3, f3]; rfl)
    refine ⟨_, inp, exec_frame_raises hs hr, hF.raised, fun ho => ?_, hF.events, hF.csn⟩
    obtain rfl : conf = true := hconf.2 (h2.trans ho)
    exact hF.stored

/-- Settles O15: both are one run of the frame, the modes of `send_command` apart. -/
theorem sendCommandIsTheFrame : Obligations.SendCommandIsTheFrame := by
  intro c s hs hm
  have heq : exec (.sendCommand c) s = exec c.toInstr s := by
    rw [exec_toInstr, frameOp_runs hs]
    exact (hostOp_runs hs (inLive_of_ne hm)).trans (deliver_runFrame c s _ _)
  refine ⟨heq, fun hp => ?_⟩
  obtain ⟨t, st, d, hr, hev, -, hR, hcsn⟩ := framesComplete c s hs hp
  exact ⟨t, st, d, heq.trans hr, hev, hR, hcsn⟩

end Sys2Proof
end

section
/-! PROOFS. The transport operations (rules R232 to R237): the CONFIG path and CE writes said once, and the statements
about register writes, reads and updates, `update_config` and the CE operations. -/

namespace Sys2Proof.Machine

variable {α β : Type} {i : Instr} {s t u : State} {c : Cmd} {inp : List Byte}

/-! ## Faults before any bus activity -/

/-- Where only `B.seq` has moved when the body faults, an accepted operation adds the reason and nothing else. -/
theorem hostOp_violates {legal : Mode → Bool} {body : Op Value} {f : Violation} {q : SeqPos} (hs : s.seq = .idle)
    (hl : legal s.mode = true) (hb : body (s.start i) = .error (.fault f) ((s.start i).withSeq q)) :
    hostOp i legal body s = .next { s with result := none, fault := s.fault.add (.violation f) } := by
  rw [hostOp_runs hs hl, hb]
  show Host.Outcome.next { s with seq := .idle, result := none, fault := s.fault.add (.violation f) } = _
  rw [← hs]

/-! ## Frames that fail inside an operation -/

/-- One of the next three primitives fails: the frame raises `BusError`. -/
theorem frameBody_fails {m1 m2 m3 : EnvMove} {rest : List EnvMove} (flagged : Bool) (c : Cmd)
    (henv : s.env = m1 :: m2 :: m3 :: rest)
    (h : m1.outcome = .fails ∨ m2.outcome = .fails ∨ m3.outcome = .fails) :
    ∃ src conf evs l u, frameBody flagged c s = .error (.err (.busError src)) u ∧
      FrameFailed flagged conf c (.busError src) evs l s u := by
  have pinOk : ∀ {o : PortOutcome}, o.pinOk = true ↔ o ≠ .fails := by intro o; cases o <;> simp [PortOutcome.pinOk]
  have h1 : (s.env.headD EnvMove.calm) = m1 := by rw [henv]; rfl
  have h2 : (s.env.tail.headD EnvMove.calm) = m2 := by rw [henv]; rfl
  have h3 : (s.env.tail.tail.headD EnvMove.calm) = m3 := by rw [henv]; rfl
  by_cases f1 : m1.outcome = .fails
  · obtain ⟨u, hr, hF⟩ := frameBody_lowFailed flagged c s (by rw [h1, f1]; rfl)
    exact ⟨_, _, _, _, u, hr, hF⟩
  by_cases f2 : m2.outcome = .fails
  · obtain ⟨u, hr, hF⟩ := frameBody_transferFailed flagged c s (by rw [h1]; exact pinOk.2 f1) (by rw [h2, f2])
    exact ⟨_, _, _, _, u, hr, hF⟩
  · have f3 : m3.outcome = .fails := by tauto
    obtain ⟨inp, conf, u, hr, -, -, hF⟩ := frameBody_highFailed flagged c s (by rw [h1]; exact pinOk.2 f1)
      (by rw [h2]; exact f2) (by rw [h3, f3]; rfl)
    exact ⟨_, _, _, _, u, hr, hF⟩

theorem FrameFailed.raised_at {flagged conf : Bool} {e : ErrKind} {evs : List PortEvent} {l : Level} {w : State}
    (h : FrameFailed flagged conf c e evs l w u) (hw : ∃ q, w = (s.start i).withSeq q) : Raised s (u.raised e) e := by
  obtain ⟨q, rfl⟩ := hw
  exact ⟨rfl, rfl, h.mode, h.ce, h.shadow, h.fault, h.requests, h.params⟩

theorem writeReg_fails (R : RegType α) (v : α) {e : Stop} (hs : s.seq.began = none)
    (hw : R.reg.isAddress = true → legalWidth (R.encode v).length = true)
    (h : frameBody false (.wRegister R.reg (R.encode v)) s.advance = .error e u) : writeReg R v s = .error e u := by
  have hf : frame (.wRegister R.reg (R.encode v)) s.advance = .error e u := primitive_error (by simpa using hs) h
  have hg : (R.reg.isAddress && !legalWidth (R.encode v).length) = false := by
    cases hA : R.reg.isAddress <;> simp_all
  rw [writeReg, bind_of_ok (by rw [run_check _ _ hs, hg]; rfl : _ = EStateM.Result.ok () s.advance)]
  exact bind_of_error hf

/-! ## Register updates -/

theorem Framed.data_length {r : Reg} {n : Nat} (h : Framed (.rRegister r n) inp s t) : inp.tail.length = n := by
  have := h.tail_length
  simp only [len_rRegister] at this
  omega

theorem updateReg_config [DecidableEq α] {R : RegType α} {w : Nat} {f : α → α × β} (hs : s.seq.began = none)
    (h : R.reg = .config) : updateReg R w f s = .error (.fault .updateRegisterConfig) s.advance := by
  rw [updateReg]
  exact bind_of_error (by rw [run_check _ _ hs, if_pos h, run_violate])

/-- An illegal width of an address register other than CONFIG ends the operation before its read. -/
theorem updateReg_bad_width [DecidableEq α] {R : RegType α} {w : Nat} {f : α → α × β} (hs : s.seq.began = none)
    (ha : R.reg.isAddress = true) (hw : legalWidth w = false) :
    updateReg R w f s = .error (.fault .addrWidth) s.advance.advance.advance := by
  have hc : R.reg ≠ .config := fun hc => by rw [hc] at ha; cases ha
  rw [updateReg, bind_of_ok (by rw [run_check _ _ hs, if_neg hc] : _ = EStateM.Result.ok () s.advance)]
  exact bind_of_error (readReg_violates R (by simpa using hs) ha hw)

/-! ## The CONFIG path -/

/-- What an `update_config` that found `b` in the shadow and asked for `new` does; `flagged` is its hazard mark. -/
structure ConfigSet (flagged : Bool) (b new : Byte) (s u : State) : Prop where
  clear : Clear u
  quiet : Quiet s → Quiet u
  mode : u.mode = s.mode
  ce : u.ce = s.ce
  fault : u.fault = s.fault
  requests : u.requests = s.requests
  params : u.params = s.params
  suppressed : new = b &&& 0x7F#8 →
    u.events = s.events ∧ u.shadow = s.shadow ∧ u.periph = s.periph ∧ u.csn = s.csn
  written : new ≠ b &&& 0x7F#8 →
    (∃ inp, u.events = s.events ++ frameEvents (.wRegister .config [new]) inp) ∧ u.shadow = some new ∧ u.csn = .high ∧
      u.periph.regs = { s.periph.regs with config := (s.periph.regs.config &&& 0x80#8) ||| new }
  radio : flagged = false → Quiet s → u.periph.radio = s.periph.radio

theorem config_encode_fields (v : ConfigReg) : v.encode &&& 0x7F#8 = v.encode := by
  rw [← config_encode_decode, config_decode_encode]

theorem config_encode_eq_iff (v : ConfigReg) (b : Byte) : v.encode = b &&& 0x7F#8 ↔ v = ConfigReg.decode b := by
  rw [← config_encode_decode]
  exact ⟨fun h => by rw [← config_decode_encode v, h, config_decode_encode], fun h => by rw [h]⟩

theorem mergeBits_config (old : Byte) (v : ConfigReg) :
    mergeBits 0x7F old v.encode = (old &&& 0x80#8) ||| v.encode := by
  rw [mergeBits, show v.encode &&& 0x7F = v.encode from config_encode_fields v]; rfl

/-- With the ports succeeding `update_config` returns the caller's token. -/
theorem updateConfig_sets (flagged : Bool) (f : ConfigReg → ConfigReg × β) {b : Byte} (h : Clear s)
    (hb : s.shadow = some b) : ∃ u, updateConfigWith flagged f s = .ok (f (.decode b)).2 u ∧
      ConfigSet flagged b (f (.decode b)).1.encode s u := by
  have h1 := h.whole
  have h2 := h.advance.whole
  have h3 := h.advance.advance.whole
  have hiff := config_encode_eq_iff (f (.decode b)).1 b
  by_cases he : (f (.decode b)).1 = .decode b
  · refine ⟨s.advance.advance.advance, ?_, h.advance.advance.advance, id, rfl, rfl, rfl, rfl, rfl,
      fun _ => ⟨rfl, rfl, rfl, rfl⟩, fun hn => absurd (hiff.2 he) hn, fun _ _ => rfl⟩
    simp only [updateConfigWith, run_bind, run_get, run_tick h1, run_tick h2, run_tick h3, hb, he, ne_eq,
      not_true_eq_false, if_false, run_pure]
  · obtain ⟨inp, v, hr, hS, hF⟩ :=
      frameWith_ok flagged (.wRegister .config [(f (.decode b)).1.encode]) h.advance.advance.advance
    refine ⟨(v.withShadow (f (.decode b)).1.encode).advance, ?_, Clear.advance (s := v.withShadow _) ⟨hS.clear.ports,
      hS.clear.whole⟩, hS.quiet, hS.mode, hS.ce, hS.fault, hS.requests, hS.params, fun hn => absurd (hiff.1 hn) he,
      fun _ => ⟨⟨inp, hS.events⟩, rfl, hS.csn, ?_⟩, fun hf hq => ?_⟩
    · simp only [updateConfigWith, run_bind, run_get, run_tick h1, run_tick h2, run_tick h3, hb, ne_eq, he,
        not_false_eq_true, if_true, hr, run_setShadow _ hS.clear.whole, run_pure]
    · refine hS.regs.trans ?_
      show s.periph.regs.write .config [(f (.decode b)).1.encode] = _
      simp only [Regs.write, List.headD_cons, mergeBits_config]
    · show v.periph.radio = _
      rw [quiet_write (hF hf) hq]
      rfl

theorem ConfigSet.updated {flagged : Bool} {b new : Byte} (h : ConfigSet flagged b new (s.start i) u) (v : Value) :
    ConfigUpdated b new s (u.returned v) :=
  ⟨h.mode, h.ce, h.requests, h.params, rfl, h.suppressed, h.written⟩

/-- When a primitive of the one frame fails, so does `update_config`. -/
theorem updateConfig_fails (f : ConfigReg → ConfigReg × β) {b : Byte} {e : Stop} (hs : s.seq.began = none)
    (hb : s.shadow = some b) (hne : (f (.decode b)).1 ≠ .decode b)
    (h : frameBody false (.wRegister .config [(f (.decode b)).1.encode]) s.advance.advance.advance = .error e u) :
    updateConfigWith false f s = .error e u := by
  have h2 : s.advance.seq.began = none := by simpa using hs
  have h3 : s.advance.advance.seq.began = none := by simpa using hs
  have hf : frameWith false (.wRegister .config [(f (.decode b)).1.encode]) s.advance.advance.advance = .error e u :=
    primitive_error (by simpa using hs) h
  simp only [updateConfigWith, run_bind, run_get, run_tick hs, run_tick h2, run_tick h3, hb, ne_eq, hne,
    not_false_eq_true, if_true, hf]

/-- A fitting caller's function of CONFIG stays in its type. -/
theorem applyConfigFn_eq {f : RegFn} (hf : f.fits .config = true) (old : ConfigReg) :
    (applyFn .config f (.config old)).1 = .config (applyConfigFn f old).1 ∧
      (applyFn .config f (.config old)).2 = (applyConfigFn f old).2 := by
  have h := applyFn_fits hf (x := .config old) rfl
  unfold applyConfigFn
  cases hx : applyFn .config f (.config old) with
  | mk v tok =>
    rw [hx] at h
    cases v <;> first | exact ⟨rfl, rfl⟩ | cases h

/-! ## CE writes -/

theorem pinOk_iff {o : PortOutcome} : o.pinOk = true ↔ o ≠ .fails := by cases o <;> simp [PortOutcome.pinOk]

/-- A CE write whose pin write returned `ok`. -/
theorem ceWriteWith_returns {landed : Op Unit} {level : Bool} (hs : s.seq.began = none)
    (ho : (s.env.headD EnvMove.calm).outcome.pinOk = true)
    (hl : landed (s.moved s.pinEvents (.pin .ce level true)) = .ok () u) (hu : u.seq.began = none) :
    ceWriteWith landed level s = .ok () ((u.advance.withCe (if level then .high else .low)).advance) := by
  have hp : primitive (do
      let ok ← pinWrite .ce level
      if ok then landed
      return ok) s = .ok true u.advance :=
    primitive_ok hs (by simp only [run_bind, run_pinWrite, ho, if_true, hl, run_pure])
  have hu' : u.advance.seq.began = none := by simpa using hu
  simp only [ceWriteWith, run_bind, hp, if_true, run_setCe _ hu', Bool.not_true, Bool.false_eq_true, if_false, run_pure]

/-- A CE write whose pin write failed. -/
theorem ceWriteWith_fails {landed : Op Unit} {level : Bool} (hs : s.seq.began = none)
    (ho : (s.env.headD EnvMove.calm).outcome.pinOk = false) :
    ceWriteWith landed level s = .error (.err (.busError .cePin))
      (((s.moved s.pinEvents (.pin .ce level false)).advance.withCe .unknown).advance) := by
  have hp : primitive (do
      let ok ← pinWrite .ce level
      if ok then landed
      return ok) s = .ok false (s.moved s.pinEvents (.pin .ce level false)).advance :=
    primitive_ok hs (by simp only [run_bind, run_pinWrite, ho, Bool.false_eq_true, if_false, run_pure])
  have hu : (s.moved s.pinEvents (.pin .ce level false)).advance.seq.began = none := by simpa using hs
  simp only [ceWriteWith, run_bind, hp, Bool.false_eq_true, if_false, run_setCe _ hu, Bool.not_false, if_true, run_raise]

/-- What a CE write that succeeded leaves of the state after its pin write. -/
structure Landed (s u : State) : Prop where
  events : u.events = s.events
  seq : u.seq = s.seq
  mode : u.mode = s.mode
  csn : u.csn = s.csn
  shadow : u.shadow = s.shadow
  fault : u.fault = s.fault
  regs : u.periph.regs = s.periph.regs
  rxFifo : u.periph.radio.rxFifo = s.periph.radio.rxFifo
  txFifo : u.periph.radio.txFifo = s.periph.radio.txFifo ∨ u.periph.radio.txFifo = s.periph.radio.txFifo.tail

theorem landed_self (s : State) : Landed s s := ⟨rfl, rfl, rfl, rfl, rfl, rfl, rfl, rfl, .inl rfl⟩

/-- Lowering CE may take the packet in flight and set its flags, and touches nothing else. -/
theorem abortInFlight_lands (s : State) :
    ∃ u, abortInFlight s = .ok () u ∧ Landed s u ∧ (s.inFlight = false → u = s) := by
  simp only [abortInFlight, run_bind, run_get]
  cases s.inFlight with
  | false => exact ⟨s, rfl, landed_self s, fun _ => rfl⟩
  | true =>
    refine ⟨_, rfl, ⟨rfl, rfl, rfl, rfl, rfl, rfl, rfl, rfl, ?_⟩, fun h => by cases h⟩
    simp only [withPeriph_periph]
    split
    · exact .inr rfl
    · exact .inl rfl

/-- The operation that writes CE at a level, and what it lets land. -/
def ceOp (up : Bool) : Instr := if up then .ceEnable else .ceDisable
def ceLanding (up : Bool) : Op Unit := if up then return () else abortInFlight

theorem exec_ceOp_returns {up : Bool} (hs : s.seq = .idle) (hm : s.mode ≠ .off)
    (h : ceWriteWith (ceLanding up) up (s.start (ceOp up)) = .ok () u) :
    exec (ceOp up) s = .next (u.returned .unit) := by
  cases up <;> exact hostOp_returns hs (inLive_of_ne hm) (returningUnit_returns h)

theorem exec_ceOp_fails {up : Bool} {e : ErrKind} (hs : s.seq = .idle) (hm : s.mode ≠ .off)
    (h : ceWriteWith (ceLanding up) up (s.start (ceOp up)) = .error (.err e) u) :
    exec (ceOp up) s = .next (u.raised e) := by
  cases up <;> exact hostOp_fails hs (inLive_of_ne hm) (returningUnit_raises h)

theorem ceLanding_lands (up : Bool) (s : State) :
    ∃ u, ceLanding up s = .ok () u ∧ Landed s u ∧ (up = true ∨ s.inFlight = false → u = s) := by
  cases up with
  | true => exact ⟨s, rfl, landed_self s, fun _ => rfl⟩
  | false =>
    obtain ⟨u, hr, hL, hu⟩ := abortInFlight_lands s
    exact ⟨u, hr, hL, fun h => hu (h.resolve_left (by simp))⟩

end Sys2Proof.Machine

namespace Sys2Proof
open Machine

/-- Settles O16. -/
theorem writeRegisterReturns : Obligations.WriteRegisterReturns := by
  refine ⟨fun r v s hs hf => ⟨fun hl => ?_, fun ha hl => ?_⟩, fun r v s m1 m2 m3 rest hs hm hf hl henv ho => ?_⟩
  · have hw : r.isAddress = true → legalWidth v.encode.length = true := fun ha => by simpa [Reg.legalLen, ha] using hl
    obtain ⟨inp, u, u', hF, hr, rfl⟩ := writeReg_ok (valReg r) v (hs.start (.writeRegister r v)) hw
    refine ⟨_, inp.headD 0, inp.tail, hostOp_returns hs.idle hs.inLive (bind_of_ok hr), ?_⟩
    have hF : Framed (.wRegister r v.encode) inp (s.start (.writeRegister r v)) u := hF
    by_cases hc : r = .config
    · simp only [show (valReg r).reg = r from rfl, if_pos hc]
      exact ⟨rfl, by rw [← hF.cons]; exact hF.events, rfl, hF.regs, hF.mode, hF.ce, hF.csn, hF.fault, rfl, hF.requests,
        fun hq => congrArg Periph.radio (quiet_write hF hq)⟩
    · simp only [show (valReg r).reg = r from rfl, if_neg hc]
      exact ⟨rfl, by rw [← hF.cons]; exact hF.events, hF.shadow, hF.regs, hF.mode, hF.ce, hF.csn, hF.fault, rfl,
        hF.requests, fun hq => congrArg Periph.radio (quiet_write hF hq)⟩
  · exact hostOp_violates hs.idle hs.inLive (bind_of_error (writeReg_violates (valReg r) rfl ha hl))
  · have hw : r.isAddress = true → legalWidth v.encode.length = true := fun ha => by simpa [Reg.legalLen, ha] using hl
    obtain ⟨src, conf, evs, l, u, hr, hF⟩ := frameBody_fails (s := (s.start (.writeRegister r v)).advance) false
      (.wRegister r v.encode) henv ho
    refine ⟨_, src, hostOp_fails hs (inLive_of_ne hm) (bind_of_error (writeReg_fails (valReg r) v rfl hw hr)),
      hF.raised_at ⟨_, rfl⟩, hF.shadow⟩

/-- Settles O17. -/
theorem readRegisterReturns : Obligations.ReadRegisterReturns := by
  intro r w s hs
  refine ⟨fun hw => ?_, fun ha hw => ?_⟩
  · obtain ⟨inp, u, hr, hF⟩ := readReg_ok (valReg r) w (hs.start (.readRegister r w)) fun ha =>
      hw.resolve_left (by rw [show r.isAddress = true from ha]; simp)
    have hF : Framed (.rRegister r (if r.isAddress then w else 1)) inp (s.start (.readRegister r w)) u := hF
    have stored : ∀ n, n = (if r.isAddress then w else 1) → r ≠ .config → s.periph.regs.stored r ≠ [] →
        (s.periph.regs.stored r).length = n → inp.tail = s.periph.regs.stored r := by
      rintro n rfl hc hne hn
      rw [hF.stored hc hne hn]; rfl
    refine ⟨_, inp.headD 0, inp.tail, hostOp_returns hs.idle hs.inLive (bind_of_ok hr), hF.passed.returned _, ?_,
      by rw [← hF.cons]; exact hF.events, hF.csn, hF.regs, fun hq => by have := quiet_read hF hq; exact this,
      fun hc ha hne => ?_, fun ha hn => ?_⟩
    · have := hF.tail_length
      simp only [len_rRegister] at this
      omega
    · exact stored 1 (by simp [ha]) hc hne (stored_length_one _ _ ha hne)
    · refine stored w (by simp [ha]) (by rintro rfl; cases ha) ?_ hn
      rintro hnil
      rw [hnil] at hn
      subst hn
      rcases hw with hw | hw
      · rw [ha] at hw; cases hw
      · cases hw
  · exact hostOp_violates hs.idle hs.inLive (bind_of_error (readReg_violates (valReg r) rfl ha hw))

/-- Settles O18. -/
theorem updateRegisterReturns : Obligations.UpdateRegisterReturns := by
  intro r w f s hs hf
  refine ⟨fun hc hw => ?_, fun ha hw => ?_, ?_⟩
  · obtain ⟨inp, u, hF, hsame, hnew, hbad⟩ :=
      updateReg_ok (valReg r) w (applyFn r f) (hs.start (.updateRegister r w f)) hc hw
    have hF : Framed (.rRegister r (if r.isAddress then w else 1)) inp (s.start (.updateRegister r w f)) u := hF
    have hev : u.events = s.events ++ frameEvents (.rRegister r (if r.isAddress then w else 1)) (inp.headD 0 :: inp.tail) := by
      rw [← hF.cons]; exact hF.events
    have token : ∀ {v : State}, updateReg (valReg r) w (applyFn r f) (s.start (.updateRegister r w f)) =
        .ok (applyFn r f ((valReg r).decode inp.tail)).2 v → exec (.updateRegister r w f) s =
          .next (v.returned (.token (applyFn r f (RegVal.decode r inp.tail)).2)) := fun h =>
      hostOp_returns hs.idle hs.inLive (bind_of_ok h)
    have hdata : s.periph.regs.stored r ≠ [] → (r.isAddress = true → (s.periph.regs.stored r).length = w) →
        inp.tail = s.periph.regs.stored r := fun hne hl => by
      rw [hF.stored hc hne]
      · rfl
      · cases ha : r.isAddress with
        | true => exact hl ha
        | false => exact stored_length_one _ _ ha hne
    by_cases he : (applyFn r f (RegVal.decode r inp.tail)).1 = RegVal.decode r inp.tail
    · refine ⟨_, inp.headD 0, inp.tail, token (hsame he), hF.data_length, hdata, fun _ => ⟨hF.passed.returned _, hF.csn,
        hev, hF.regs, fun hq => ?_⟩, fun hn => absurd he hn, fun hn => absurd he hn⟩
      have := quiet_read hF hq
      exact this
    cases hl : r.isAddress && !legalWidth (applyFn r f (RegVal.decode r inp.tail)).1.encode.length with
    | false =>
      have hl' : r.isAddress = true → legalWidth (applyFn r f (RegVal.decode r inp.tail)).1.encode.length = true := by
        simpa using hl
      obtain ⟨i2, v, hF2, hr⟩ := hnew he hl'
      have hF2 : Framed (.wRegister r (applyFn r f (RegVal.decode r inp.tail)).1.encode) i2 u v := hF2
      refine ⟨_, inp.headD 0, inp.tail, token hr, hF.data_length, hdata, fun hn => absurd hn he, fun _ _ =>
        ⟨(hF.passed.trans hF2.passed).returned _, hF2.csn, ⟨i2, ?_⟩, ?_, fun hq => ?_⟩, fun _ ha hb => ?_⟩
      · exact hF2.events.trans (congrArg (· ++ _) hev)
      · exact hF2.regs.trans (congrArg (Cmd.regsAfter _) hF.regs)
      · have hp := quiet_write hF2 (hF.quiet hq)
        have hp1 := quiet_read hF hq
        rw [hp1] at hp
        exact congrArg Periph.radio hp
      · rw [hl' ha] at hb; cases hb
    | true =>
      obtain ⟨ha, hb⟩ : r.isAddress = true ∧
          legalWidth (applyFn r f (RegVal.decode r inp.tail)).1.encode.length = false := by
        simpa using hl
      refine ⟨_, inp.headD 0, inp.tail, hostOp_faults hs.idle hs.inLive (bind_of_error (hbad he ha hb)), hF.data_length,
        hdata, fun hn => absurd hn he, fun _ h => ?_, fun _ _ _ => ⟨?_, hev, hF.regs⟩⟩
      · rw [h ha] at hb; cases hb
      · exact (hF.passed.trans (passed_advance hF.clear)).faulted _
  · exact hostOp_violates hs.idle hs.inLive (bind_of_error (updateReg_bad_width rfl ha hw))
  · rintro rfl
    exact hostOp_violates hs.idle hs.inLive (bind_of_error (updateReg_config rfl rfl))

/-- Settles O19. -/
theorem updateConfigReturns : Obligations.UpdateConfigReturns := by
  refine ⟨fun f b s hs hb hf => ?_, fun f b s m1 m2 m3 rest hs hm hb hf henv ho hne => ?_⟩
  · obtain ⟨u, hr, hC⟩ := updateConfig_sets false (applyConfigFn f) (hs.start (.updateConfig f)) hb
    obtain ⟨hc, ht⟩ := applyConfigFn_eq hf (ConfigReg.decode b)
    exact ⟨_, _, hostOp_returns hs.idle hs.inLive (bind_of_ok hr), hc, by rw [ht]; rfl, hC.updated _, hC.fault,
      hC.radio rfl⟩
  · obtain ⟨hc, -⟩ := applyConfigFn_eq hf (ConfigReg.decode b)
    have hne : (applyConfigFn f (.decode b)).1 ≠ .decode b := fun he => hne (by rw [hc, he])
    obtain ⟨src, conf, evs, l, u, hr, hF⟩ := frameBody_fails (s := (s.start (.updateConfig f)).advance.advance.advance)
      false (.wRegister .config [(applyConfigFn f (.decode b)).1.encode]) henv ho
    exact ⟨_, src, hostOp_fails hs (inLive_of_ne hm) (bind_of_error (updateConfig_fails _ rfl hb hne hr)),
      hF.raised_at (i := .updateConfig f) ⟨_, rfl⟩, hF.shadow.trans hb⟩

/-- Settles O20: a CE write lands, then `B.ce`. -/
theorem ceOperations : Obligations.CeOperations := by
  intro up s hs hm
  refine ⟨fun ho => ?_, fun ho => ?_⟩
  · obtain ⟨u, hl, hL, hu⟩ :=
      ceLanding_lands up ((s.start (ceOp up)).moved (s.start (ceOp up)).pinEvents (.pin .ce up true))
    have hw := ceWriteWith_returns (s := s.start (ceOp up)) (level := up) rfl (pinOk_iff.2 ho) hl (by rw [hL.seq]; rfl)
    have quiet : Quiet s → (s.start (ceOp up)).pinEvents = [] := fun hq => Quiet.pinEvents (s := s.start (ceOp up)) hq
    refine ⟨_, exec_ceOp_returns hs hm hw, rfl, rfl, ?_, rfl, hL.mode, hL.csn, hL.shadow, hL.fault, hL.regs,
      fun hq hf => ?_, fun hq => ?_⟩
    · exact hL.events.trans (moved_events _ _ _)
    · have hsame := hu (hf.imp_right fun hf => ?_)
      · show u.periph.radio = _
        rw [hsame, moved_periph, quiet hq]
        rfl
      · simp only [State.inFlight, moved_mode, start_mode, moved_ce, start_ce, moved_periph, start_periph, quiet hq,
          events_nil]
        rcases hf with hf | hf | hf | hf <;> simp [hf]
    · have hrx := hL.rxFifo
      have htx := hL.txFifo
      rw [moved_periph, quiet hq] at hrx htx
      exact ⟨hrx, htx⟩
  · have ho : ((s.start (ceOp up)).env.headD EnvMove.calm).outcome.pinOk = false := by
      rw [start_env, ho]; rfl
    refine ⟨_, exec_ceOp_fails hs hm (ceWriteWith_fails rfl ho), rfl, rfl, ?_⟩
    simp [State.raised]

end Sys2Proof
end

section
/-! PROOFS. The configuration operations (rules R261 to R279, R410): what each register operation leaves, said once for
any state in which it runs, and the statements about flushes, setters, getters, addresses and contract violations. -/

namespace Sys2Proof.Machine

variable {α β : Type} {i : Instr} {s t u : State} {c : Cmd} {inp : List Byte} {r : Reg} {old new : Byte}

/-! ## One-byte registers -/

/-- A value within the fields replaces them; the other bits `k` are kept. -/
theorem mergeBits_of_fits (m k : Byte) (hk : ~~~m = k) (h : new &&& m = new) (old : Byte) :
    mergeBits m old new = (old &&& k) ||| new := by rw [mergeBits, h, hk]

theorem RegUpdated.before (h : RegUpdated r old new s.advance u) : RegUpdated r old new s u :=
  ⟨⟨h.passed.clear, h.passed.quiet, h.passed.mode, h.passed.ce, h.passed.shadow, h.passed.fault, h.passed.requests,
    h.passed.result, h.passed.params⟩, h.csn, h.frames, h.regs, h.radio⟩

theorem RegUpdated.same_radio (h : RegUpdated r old new s u) (hs : r ≠ .status) (hc : r ≠ .rfCh) (hq : Quiet s) :
    u.periph.radio = s.periph.radio := by
  rw [h.radio hq, radio_write_other _ hs hc]
  exact ite_self _

/-- A register update that returned, as an instruction. -/
theorem RegUpdated.updated (h : RegUpdated r old new (s.start i) u) (hr : r ≠ .status) :
    Updated r old new s (u.returned .unit) :=
  ⟨h.passed.returned .unit, h.csn, h.frames, fun hq hc => h.same_radio hr hc hq⟩

/-- RF_CH holds the channel capped at 125. -/
theorem fieldAt_clampChannel : ∀ ch : BitVec 8,
    fieldAt 0 (clampChannel ch) = BitVec.ofNat 8 (min ch.toNat 125) ∧
      BitVec.ofNat 8 (min ch.toNat 125) &&& 0x7F#8 = BitVec.ofNat 8 (min ch.toNat 125) := by decide

theorem setFrequency_runs (ch : Byte) (h : Clear s) : ∃ u, setFrequency ch s = .ok () u ∧
    RegUpdated .rfCh s.periph.regs.rfCh (BitVec.ofNat 8 (min ch.toNat 125)) s u ∧
    u.periph.regs = { s.periph.regs with
      rfCh := (s.periph.regs.rfCh &&& 0x80#8) ||| BitVec.ofNat 8 (min ch.toNat 125) } := by
  obtain ⟨u, hr, hU⟩ := updateReg_byte .rfCh (fieldAt 0) (fieldOf · 0 7) (fun _ => (clampChannel ch, ())) h.advance
    (by decide) rfl rfl rfCh_decode_encode rfCh_encode_decode
  obtain ⟨henc, hfit⟩ := fieldAt_clampChannel ch
  rw [henc] at hU
  refine ⟨u, by rw [setFrequency, bind_of_ok (run_tick h.whole)]; exact hr, hU.before, ?_⟩
  exact hU.regs.trans (congrArg (fun x => { s.periph.regs with rfCh := x }) (mergeBits_of_fits 0x7F 0x80 rfl hfit _))

/-- The data-rate and power fields of RF_SETUP (rule R265). -/
def rfFields (rate : DataRate) (power : Byte) : Byte :=
  (match rate with | .r250Kbps => 0x20 | .r1Mbps => 0x00 | .r2Mbps => 0x08) ||| (power <<< 1)

theorem withRf_encode {power : Byte} (h : power.toNat < 4) (rate : DataRate) : ∀ old : BitVec 8,
    (withRf rate power (.decode old)).encode = (old &&& 0x91#8) ||| rfFields rate power ∧
      mergeBits 0xBF old ((old &&& 0x91#8) ||| rfFields rate power) = (old &&& 0xD1#8) ||| rfFields rate power := by
  obtain ⟨n, hn, rfl⟩ : ∃ n, n < 4 ∧ power = BitVec.ofNat 8 n := ⟨power.toNat, h, by simp⟩
  interval_cases n <;> cases rate <;> decide

theorem setRf_runs (rate : DataRate) {power : Byte} (hp : power.toNat < 4) (h : Clear s) :
    ∃ u, setRf rate power s = .ok () u ∧
      RegUpdated .rfSetup s.periph.regs.rfSetup ((s.periph.regs.rfSetup &&& 0x91#8) ||| rfFields rate power) s u ∧
      u.periph.regs = { s.periph.regs with rfSetup := (s.periph.regs.rfSetup &&& 0xD1#8) ||| rfFields rate power } := by
  obtain ⟨u, hr, hU⟩ := updateReg_byte .rfSetup RfSetup.encode RfSetup.decode (fun x => (withRf rate power x, ()))
    h.advance.advance (by decide) rfl rfl rfSetup_decode_encode rfSetup_encode_decode
  obtain ⟨henc, hmerge⟩ := withRf_encode hp rate s.periph.regs.rfSetup
  have hU : RegUpdated .rfSetup s.periph.regs.rfSetup (withRf rate power (.decode s.periph.regs.rfSetup)).encode s u :=
    hU.before.before
  rw [henc] at hU
  have hlimit : ¬ Config.rfPwrLimit ≤ power.toNat := Nat.not_le.2 hp
  refine ⟨u, ?_, hU, hU.regs.trans ?_⟩
  · rw [setRf, bind_of_ok (by rw [run_check _ _ h.whole, if_neg hlimit] : _ = EStateM.Result.ok () s.advance),
      bind_of_ok (run_tick h.advance.whole)]
    exact hr
  · simp only [Regs.write, List.headD_cons, hmerge]

theorem width_cases {w : Byte} (h : legalWidth w.toNat = true) : w = 3 ∨ w = 4 ∨ w = 5 := by
  simp only [legalWidth, Bool.or_eq_true, beq_iff_eq] at h
  rcases h with (h | h) | h
  · exact .inl (BitVec.eq_of_toNat_eq h)
  · exact .inr (.inl (BitVec.eq_of_toNat_eq h))
  · exact .inr (.inr (BitVec.eq_of_toNat_eq h))

theorem setAddressWidth_runs {w : Byte} (hw : legalWidth w.toNat = true) (h : Clear s) :
    ∃ u, setAddressWidth w s = .ok () u ∧ RegUpdated .setupAw s.periph.regs.setupAw (w - 2) s u ∧
      u.periph.regs = { s.periph.regs with setupAw := (s.periph.regs.setupAw &&& 0xFC#8) ||| (w - 2) } := by
  obtain ⟨u, hr, hU⟩ := updateReg_byte .setupAw (fieldAt 0) (fieldOf · 0 2) (fun _ => ((w - 2).setWidth 2, ()))
    h.advance (by decide) rfl rfl aw_decode_encode aw_encode_decode
  have henc : fieldAt 0 ((w - 2).setWidth 2) = w - 2 ∧ (w - 2) &&& 0x03#8 = w - 2 := by
    rcases width_cases hw with rfl | rfl | rfl <;> decide
  rw [henc.1] at hU
  have hg : (!legalWidth w.toNat) = false := by rw [hw]; rfl
  refine ⟨u, ?_, hU.before, ?_⟩
  · rw [setAddressWidth, bind_of_ok (by rw [run_check _ _ h.whole, hg]; rfl : _ = EStateM.Result.ok () s.advance)]
    exact hr
  · exact hU.regs.trans (congrArg (fun x => { s.periph.regs with setupAw := x }) (mergeBits_of_fits 0x03 0xFC rfl henc.2 _))

theorem clampRetr_toNat : ∀ v : BitVec 8, (clampRetr v).toNat = min v.toNat 15 := by decide

theorem setupRetr_encode (a b : BitVec 4) : SetupRetr.encode ⟨a, b⟩ = BitVec.ofNat 8 (16 * a.toNat + b.toNat) := by
  revert a b; decide

theorem setAutoRetransmit_runs (delay count : Byte) (h : Clear s) :
    ∃ u, setAutoRetransmit delay count s = .ok () u ∧
      RegUpdated .setupRetr s.periph.regs.setupRetr (BitVec.ofNat 8 (16 * min delay.toNat 15 + min count.toNat 15)) s u ∧
      u.periph.regs = { s.periph.regs with
        setupRetr := BitVec.ofNat 8 (16 * min delay.toNat 15 + min count.toNat 15) } := by
  obtain ⟨u, hr, hU⟩ := updateReg_byte .setupRetr SetupRetr.encode SetupRetr.decode
    (fun _ => ({ ard := clampRetr delay, arc := clampRetr count }, ())) h (by decide) rfl rfl setupRetr_decode_encode
    setupRetr_encode_decode
  rw [setupRetr_encode, clampRetr_toNat, clampRetr_toNat] at hU
  exact ⟨u, hr, hU, hU.regs⟩

theorem fromBools_fits (b : Six Bool) : fromBools b &&& 0x3F#8 = fromBools b := by
  rw [← pipes_encode_decode, pipes_decode_encode]

theorem setPipesRxEnable_runs (b : Six Bool) (h : Clear s) : ∃ u, setPipesRxEnable b s = .ok () u ∧
    RegUpdated .enRxaddr s.periph.regs.enRxaddr (fromBools b) s u ∧
    u.periph.regs = { s.periph.regs with enRxaddr := (s.periph.regs.enRxaddr &&& 0xC0#8) ||| fromBools b } := by
  obtain ⟨u, hr, hU⟩ := updateReg_byte .enRxaddr fromBools toBools (fun _ => (b, ())) h (by decide) rfl rfl
    pipes_decode_encode pipes_encode_decode
  refine ⟨u, hr, hU, ?_⟩
  exact hU.regs.trans (congrArg (fun x => { s.periph.regs with enRxaddr := x })
    (mergeBits_of_fits 0x3F 0xC0 rfl (fromBools_fits b) _))

theorem setAutoAck_runs (b : Six Bool) (h : Clear s) : ∃ u, setAutoAck b s = .ok () u ∧
    RegUpdated .enAa s.periph.regs.enAa (fromBools b) s u ∧
    u.periph.regs = { s.periph.regs with enAa := (s.periph.regs.enAa &&& 0xC0#8) ||| fromBools b } := by
  obtain ⟨u, hr, hU⟩ := updateReg_byte .enAa fromBools toBools (fun _ => (b, ())) h (by decide) rfl rfl
    pipes_decode_encode pipes_encode_decode
  refine ⟨u, hr, hU, ?_⟩
  exact hU.regs.trans (congrArg (fun x => { s.periph.regs with enAa := x })
    (mergeBits_of_fits 0x3F 0xC0 rfl (fromBools_fits b) _))

/-- A read of a one-byte register that only writes change. -/
theorem readReg_byte (r : Reg) (enc : α → Byte) (dec : Byte → α) {b : Byte} (h : Clear s) (hc : r ≠ .config)
    (ha : r.isAddress = false) (hs : s.periph.regs.stored r = [b]) :
    ∃ st u, readReg (RegType.byte r enc dec) 1 s = .ok (Status.decode st, dec b) u ∧
      Framed (.rRegister r 1) [st, b] s u := by
  obtain ⟨inp, u, hr, hF⟩ := readReg_ok (RegType.byte r enc dec) 1 h (by simp [RegType.byte, ha])
  rw [ite_self] at hF
  have hF : Framed (.rRegister r 1) inp s u := hF
  have hi := hF.stored hc (by simp [hs]) (by simp [hs])
  rw [hs] at hi
  rw [hi] at hr hF
  exact ⟨inp.headD 0, u, hr, hF⟩

/-! ## CONFIG fields -/

/-- The CONFIG byte of a CRC mode (rule R268). -/
def crcByte (b : Byte) (mode : CrcMode) : Byte :=
  (b &&& 0x73#8) ||| (match mode with | .disabled => 0x00 | .oneByte => 0x08 | .twoBytes => 0x0C)

theorem setCrc_runs (mode : CrcMode) {b : Byte} (h : Clear s) (hb : s.shadow = some b) :
    ∃ u, setCrc mode s = .ok () u ∧ ConfigSet false b (crcByte b mode) s u := by
  obtain ⟨u, hr, hC⟩ := updateConfig_sets false
    (fun c => ({ c with enCrc := (crcBits mode).1, crco := (crcBits mode).2 }, ())) h.advance hb
  have henc : ∀ b : BitVec 8,
      ({ ConfigReg.decode b with enCrc := (crcBits mode).1, crco := (crcBits mode).2 } : ConfigReg).encode =
        crcByte b mode := by cases mode <;> decide
  rw [henc] at hC
  exact ⟨u, by rw [setCrc, bind_of_ok (run_tick h.whole)]; exact hr, hC.clear, hC.quiet, hC.mode, hC.ce, hC.fault,
    hC.requests, hC.params, hC.suppressed, hC.written, hC.radio⟩

theorem maskBits_encode (rxDr txDs maxRt : Bool) : ∀ b : BitVec 8,
    ({ ConfigReg.decode b with maskRxDr := rxDr, maskTxDs := txDs, maskMaxRt := maxRt } : ConfigReg).encode =
      (b &&& 0x0F#8) ||| (if rxDr then 0x40#8 else 0) ||| (if txDs then 0x20#8 else 0) ||| (if maxRt then 0x10#8 else 0) := by
  cases rxDr <;> cases txDs <;> cases maxRt <;> decide

/-! ## Flushes -/

/-- The flush of one FIFO, marked or not. -/
theorem flush_runs {c : Cmd} (h : Clear s) : ∃ inp u, (do
      let flagged ← markFlush
      let _ ← frameWith flagged c) s = .ok () u ∧ u.events = s.events ++ frameEvents c inp ∧ u.mode = s.mode ∧
      u.ce = s.ce ∧ u.csn = .high ∧ u.shadow = s.shadow ∧ u.periph.regs = Cmd.regsAfter c s.periph.regs ∧
      u.fault = (if s.activeRx then s.fault.add (.hazard .flushInActiveRx) else s.fault) ∧
      (s.activeRx = false → Framed c inp s u) := by
  cases hA : s.activeRx with
  | false =>
    obtain ⟨inp, u, hr, hF⟩ := frame_ok c h.advance
    have hm : markFlush s = .ok false s.advance := by rw [run_markFlush h.whole, hA]; rfl
    exact ⟨inp, u, by rw [bind_of_ok hm]; exact bind_of_ok hr, hF.events, hF.mode, hF.ce, hF.csn, hF.shadow, hF.regs,
      hF.fault, fun _ => hF.before⟩
  | true =>
    have hc : Clear ((s.advance.addFault (.hazard .flushInActiveRx)).advance) :=
      ⟨h.ports, by simpa using h.whole⟩
    obtain ⟨inp, u, hr, hS, -⟩ := frameWith_ok true c hc
    have hm : markFlush s = .ok true (s.advance.addFault (.hazard .flushInActiveRx)).advance := by
      rw [run_markFlush h.whole, hA]; rfl
    exact ⟨inp, u, by rw [bind_of_ok hm]; exact bind_of_ok hr, hS.events, hS.mode, hS.ce, hS.csn, hS.shadow, hS.regs,
      hS.fault, fun hn => by cases hn⟩

theorem activeRx_iff : s.activeRx = true ↔ s.mode = .rx ∧ s.ce ≠ .low := by simp [State.activeRx]

/-! ## Flags -/

theorem clearInterrupts_runs (h : Clear s) : ∃ inp u, clearInterrupts s = .ok () u ∧
    Framed (.wRegister .status [0x70]) inp s u ∧
    (Quiet s → u.periph = { s.periph with
      radio := { s.periph.radio with rxDr := false, txDs := false, maxRt := false } }) := by
  obtain ⟨inp, u, hF, hr⟩ := writeReg_frame statusReg allFlags h (by decide) (by decide)
  have hF : Framed (.wRegister .status [0x70]) inp s u := hF
  refine ⟨inp, u, bind_of_ok hr, hF, fun hq => ?_⟩
  rw [quiet_write hF hq]
  simp [Periph.write, Regs.write, Radio.write, Status.decode]

/-! ## Addresses -/

/-- `set_rx_addr` and `set_tx_addr` that returned: the SETUP_AW read and one write. -/
structure AddressWritten (r : Reg) (bytes : List Byte) (s u : State) : Prop where
  passed : Passed s u
  csn : u.csn = .high
  frames : ∃ st inp, u.events = s.events ++ frameEvents (.rRegister .setupAw 1) [st, s.periph.regs.setupAw] ++
    frameEvents (.wRegister r bytes) inp
  regs : u.periph.regs = s.periph.regs.write r bytes
  radio : Quiet s → r ≠ .status → r ≠ .rfCh → u.periph.radio = s.periph.radio

/-- The address is as long as the configured width. -/
def FitsWidth (addr : List Byte) (regs : Regs) : Prop :=
  regs.setupAw &&& 0x03#8 ≠ 0 ∧ addr.length = 2 + (regs.setupAw &&& 0x03#8).toNat

theorem legalWidth_field : ∀ aw : BitVec 8, legalWidth (2 + (aw &&& 3#8).toNat) = decide (aw &&& 3#8 ≠ 0) := by decide

/-- The tests of the two address setters. -/
theorem addr_check_iff (addr : List Byte) (regs : Regs) :
    (!legalWidth (2 + (regs.setupAw &&& 3#8).toNat) || addr.length ≠ 2 + (regs.setupAw &&& 3#8).toNat) = true ↔
      ¬ FitsWidth addr regs := by
  rw [legalWidth_field]
  simp [FitsWidth]
  tauto

theorem FitsWidth.legal {addr : List Byte} {regs : Regs} (h : FitsWidth addr regs) : legalWidth addr.length = true := by
  rw [h.2, legalWidth_field]
  exact decide_eq_true h.1

theorem addressWritten_of {bytes : List Byte} {st : Byte}
    (h1 : Framed (.rRegister .setupAw 1) [st, s.periph.regs.setupAw] s t) (h2 : Framed (.wRegister r bytes) inp t u) :
    AddressWritten r bytes s u := by
  refine ⟨h1.passed.trans h2.passed, h2.csn, ⟨st, inp, by rw [h2.events, h1.events]⟩, ?_, fun hq hs hc => ?_⟩
  · rw [h2.regs, h1.regs]; rfl
  · rw [quiet_write h2 (h1.quiet hq), quiet_read h1 hq]
    exact radio_write_other _ hs hc _

theorem AddressWritten.before {bytes : List Byte} (h : AddressWritten r bytes s.advance u) : AddressWritten r bytes s u :=
  ⟨⟨h.passed.clear, h.passed.quiet, h.passed.mode, h.passed.ce, h.passed.shadow, h.passed.fault, h.passed.requests,
    h.passed.result, h.passed.params⟩, h.csn, h.frames, h.regs, h.radio⟩

theorem writeRxAddr_runs (p : Pipe) {addr : List Byte} (hl : legalWidth addr.length = true) (h : Clear s) :
    ∃ st inp u, writeRxAddr p addr s = .ok st u ∧ Framed (.wRegister p.addrReg (p.addrBytes addr)) inp s u := by
  have write : ∀ {α : Type} (R : RegType α) (v : α), R.reg ≠ .config → legalWidth (R.encode v).length = true ∨
      R.reg.isAddress = false →
      ∃ st inp u, writeReg R v s = .ok st u ∧ Framed (.wRegister R.reg (R.encode v)) inp s u := fun R v hc hw => by
    obtain ⟨inp, u, hF, hr⟩ := writeReg_frame R v h hc fun ha => hw.resolve_right (by rw [ha]; simp)
    exact ⟨_, inp, u, hr, hF⟩
  cases p with
  | p0 => exact write rxAddrP0Reg addr (by decide) (.inl hl)
  | p1 => exact write rxAddrP1Reg addr (by decide) (.inl hl)
  | p2 => exact write rxAddrP2Reg (addr.headD 0) (by decide) (.inr rfl)
  | p3 => exact write rxAddrP3Reg (addr.headD 0) (by decide) (.inr rfl)
  | p4 => exact write rxAddrP4Reg (addr.headD 0) (by decide) (.inr rfl)
  | p5 => exact write rxAddrP5Reg (addr.headD 0) (by decide) (.inr rfl)

theorem ofNat?_toNat (p : Pipe) : Pipe.ofNat? (BitVec.ofNat 8 p.toNat).toNat = some p := by cases p <;> rfl

/-- For a pipe of 0 to 5, `set_rx_addr` is its checked part after one program point. -/
theorem setRxAddr_of_pipe (p : Pipe) (addr : List Byte) (hs : s.seq.began = none) :
    setRxAddr (BitVec.ofNat 8 p.toNat) addr s = setPipeAddr p addr s.advance := by
  rw [setRxAddr, bind_of_ok (run_tick hs), ofNat?_toNat]

theorem setRxAddr_runs (p : Pipe) {addr : List Byte} (hf : FitsWidth addr s.periph.regs) (h : Clear s) :
    ∃ u, setRxAddr (BitVec.ofNat 8 p.toNat) addr s = .ok () u ∧
      AddressWritten p.addrReg (p.addrBytes addr) s u := by
  obtain ⟨st, v, hr, hF⟩ := getAddressWidth_ok h.advance
  obtain ⟨st2, inp, u, hr2, hF2⟩ := writeRxAddr_runs p hf.legal hF.clear.advance.advance
  have hg : ¬ (!legalWidth (2 + (s.periph.regs.setupAw &&& 3#8).toNat) ||
      addr.length ≠ 2 + (s.periph.regs.setupAw &&& 3#8).toNat) = true := fun hn => (addr_check_iff addr _).1 hn hf
  have hA : AddressWritten p.addrReg (p.addrBytes addr) s.advance u := addressWritten_of hF hF2.before.before
  refine ⟨u, ?_, hA.before⟩
  rw [setRxAddr_of_pipe p addr h.whole, setPipeAddr, bind_of_ok hr,
    bind_of_ok (by rw [run_check _ _ hF.clear.whole]; exact if_neg hg : _ = EStateM.Result.ok () v.advance),
    bind_of_ok (run_tick hF.clear.advance.whole)]
  exact bind_of_ok hr2

theorem setTxAddr_runs {addr : List Byte} (hf : FitsWidth addr s.periph.regs) (h : Clear s) :
    ∃ u, setTxAddr addr s = .ok () u ∧ AddressWritten .txAddr addr s u := by
  obtain ⟨st, v, hr, hF⟩ := getAddressWidth_ok h
  obtain ⟨inp, u, hF2, hr2⟩ := writeReg_frame txAddrReg addr hF.clear.advance (by decide) fun _ => hf.legal
  have hg : ¬ (!legalWidth (2 + (s.periph.regs.setupAw &&& 3#8).toNat) ||
      addr.length ≠ 2 + (s.periph.regs.setupAw &&& 3#8).toNat) = true := fun hn => (addr_check_iff addr _).1 hn hf
  have hA : AddressWritten .txAddr addr s u := addressWritten_of hF (Framed.before hF2)
  refine ⟨u, ?_, hA⟩
  rw [setTxAddr, bind_of_ok hr,
    bind_of_ok (by rw [run_check _ _ hF.clear.whole]; exact if_neg hg : _ = EStateM.Result.ok () v.advance)]
  exact bind_of_ok hr2

/-- A wrong length: the SETUP_AW read, then the fault. -/
theorem setTxAddr_violates {addr : List Byte} (hf : ¬ FitsWidth addr s.periph.regs) (h : Clear s) :
    ∃ st u, setTxAddr addr s = .error (.fault .addrLength) u.advance ∧
      Framed (.rRegister .setupAw 1) [st, s.periph.regs.setupAw] s u := by
  obtain ⟨st, u, hr, hF⟩ := getAddressWidth_ok h
  refine ⟨st, u, ?_, hF⟩
  rw [setTxAddr, bind_of_ok hr]
  exact bind_of_error (by rw [run_check _ _ hF.clear.whole]; exact if_pos ((addr_check_iff addr _).2 hf))

theorem setRxAddr_violates (p : Pipe) {addr : List Byte} (hf : ¬ FitsWidth addr s.periph.regs) (h : Clear s) :
    ∃ st u, setRxAddr (BitVec.ofNat 8 p.toNat) addr s = .error (.fault .addrLength) u.advance ∧
      Framed (.rRegister .setupAw 1) [st, s.periph.regs.setupAw] s u := by
  obtain ⟨st, u, hr, hF⟩ := getAddressWidth_ok h.advance
  refine ⟨st, u, ?_, hF.before⟩
  rw [setRxAddr_of_pipe p addr h.whole, setPipeAddr, bind_of_ok hr]
  exact bind_of_error (by rw [run_check _ _ hF.clear.whole]; exact if_pos ((addr_check_iff addr _).2 hf))

theorem ofNat?_of_gt : ∀ pipe : BitVec 8, 5 < pipe.toNat → Pipe.ofNat? pipe.toNat = none := by decide

/-! ## Contract violations -/

theorem six_map_get {α β : Type} (f : α → β) (l : Six α) (p : Pipe) : (l.map f).get p = f (l.get p) := by cases p <;> rfl

theorem six_any_iff (b : Six Bool) : b.any = true ↔ ∃ p, b.get p = true := by
  obtain ⟨b0, b1, b2, b3, b4, b5⟩ := b
  constructor
  · intro h
    simp only [Six.any, Bool.or_eq_true] at h
    rcases h with ((((h | h) | h) | h) | h) | h
    exacts [⟨.p0, h⟩, ⟨.p1, h⟩, ⟨.p2, h⟩, ⟨.p3, h⟩, ⟨.p4, h⟩, ⟨.p5, h⟩]
  · rintro ⟨p, hp⟩
    cases p <;> simp_all [Six.any, Six.get]

theorem any_map {α : Type} {f : α → Bool} {l : Six α} : (l.map f).any = true ↔ ∃ p, f (l.get p) = true := by
  simp only [six_any_iff, six_map_get]

/-- `x` faults before any primitive of the bus: only `B.seq` has moved. -/
def Stops (f : Violation) (x : Op α) : Prop :=
  ∀ s : State, s.seq.began = none → ∃ q, x s = .error (.fault f) (s.withSeq q)

theorem stops_check {f : Violation} {c : Prop} [Decidable c] (hc : c) {g : Unit → Op α} :
    Stops f (check c (violate f) >>= g) := fun s hs =>
  ⟨_, bind_of_error (by rw [run_check _ _ hs, if_pos hc]; rfl)⟩

theorem stops_after_check {f : Violation} {c : Prop} [Decidable c] (hc : ¬ c) {stop : Op Unit} {g : Unit → Op α}
    (h : Stops f (g ())) : Stops f (check c stop >>= g) := fun s hs => by
  rw [bind_of_ok (by rw [run_check _ _ hs, if_neg hc] : _ = EStateM.Result.ok () s.advance)]
  exact h s.advance (by simpa using hs)

theorem stops_checkPipes {f : Violation} {bad : Six Bool} (hb : bad.any = true) {g : Unit → Op α} :
    Stops f (checkPipes bad (violate f) >>= g) := fun s hs => by
  obtain ⟨q, hq⟩ := checkPipes_stops hb f hs
  exact ⟨q, bind_of_error hq⟩

theorem stops_after_checkPipes {f : Violation} {bad : Six Bool} (hb : ¬ bad.any = true) {stop : Op Unit}
    {g : Unit → Op α} (h : Stops f (g ())) : Stops f (checkPipes bad stop >>= g) := fun s hs => by
  rw [bind_of_ok (run_checkPipes (by simpa using hb) stop hs)]
  have := h s.advance.advance.advance.advance.advance.advance (by simpa using hs)
  simpa only [advance_withSeq] using this

theorem hostOp_stops {legal : Mode → Bool} {x : Op Unit} {f : Violation} (hs : s.seq = .idle)
    (hl : legal s.mode = true) (h : Stops f x) : hostOp i legal (returningUnit x) s =
      .next { s with result := none, fault := s.fault.add (.violation f) } := by
  obtain ⟨q, hq⟩ := h (s.start i) rfl
  exact hostOp_violates hs hl (bind_of_error hq)

theorem too_long_iff {l : Six (Option Byte)} :
    (l.map lengthTooLong).any = true ↔ ∃ p n, l.get p = some n ∧ 64 ≤ n.toNat := by
  rw [any_map]
  refine exists_congr fun p => ?_
  cases hp : l.get p with
  | none => simp [lengthTooLong]
  | some n => simp [lengthTooLong, Config.rxPwLimit]

theorem lengths_differ_iff {w : Byte} {a : Six (Option (List Byte))} :
    (a.map (lengthDiffers w)).any = true ↔ ∃ p x, a.get p = some x ∧ x.length ≠ w.toNat := by
  rw [any_map]
  refine exists_congr fun p => ?_
  cases hp : a.get p with
  | none => simp [lengthDiffers]
  | some x => simp [lengthDiffers]

theorem not_illegal {w : Nat} (h : legalWidth w = true) : ¬ (!legalWidth w) = true := by simp [h]

theorem stops_setPipesRxLengths {l : Six (Option Byte)} {p : Pipe} {n : Byte} (hl : l.get p = some n)
    (hn : 64 ≤ n.toNat) : Stops .rxPwRange (setPipesRxLengths l) := stops_checkPipes (too_long_iff.2 ⟨p, n, hl, hn⟩)

end Sys2Proof.Machine

namespace Sys2Proof
open Machine

/-- Settles O21: both flushes are the mark and then the frame. -/
theorem flushOperations : Obligations.FlushOperations := by
  intro tx s hs
  have hA : s.activeRx = decide (s.mode = .rx ∧ s.ce ≠ .low) := Bool.eq_iff_iff.2 (by simp [activeRx_iff])
  have flush : ∀ (i : Instr) (c : Cmd) (f : Radio → Radio), exec i s = hostOp i inLive (returningUnit (do
      let flagged ← markFlush
      let _ ← frameWith flagged c)) s → (∀ n p, Periph.commit n p c = { p with radio := f p.radio }) →
      ∃ t inp, exec i s = .next t ∧ t.result = some (.ok .unit) ∧ t.seq = .idle ∧
        t.events = s.events ++ frameEvents c inp ∧ t.mode = s.mode ∧ t.ce = s.ce ∧ t.csn = .high ∧
        t.shadow = s.shadow ∧ t.periph.regs = s.periph.regs ∧
        t.fault = (if s.mode = .rx ∧ s.ce ≠ .low then s.fault.add (.hazard .flushInActiveRx) else s.fault) ∧
        (¬ (s.mode = .rx ∧ s.ce ≠ .low) → Quiet s → t.periph.radio = f s.periph.radio) := by
    intro i c f hexec hcommit
    obtain ⟨inp, u, hr, hev, hmode, hce, hcsn, hshadow, hregs, hfault, hF⟩ := flush_runs (c := c) (hs.start i)
    have hA' : (s.start i).activeRx = decide (s.mode = .rx ∧ s.ce ≠ .low) := hA
    refine ⟨_, inp, hexec.trans (hostOp_returns hs.idle hs.inLive (returningUnit_returns hr)), rfl, rfl, hev, hmode, hce,
      hcsn, hshadow, ?_, ?_, fun hn hq => ?_⟩
    · refine hregs.trans ?_
      rw [← commit_regs 0 (s.start i).periph c, hcommit]
      rfl
    · rw [hA'] at hfault
      simp only [decide_eq_true_eq] at hfault
      exact hfault
    · obtain ⟨n, m, -, hp⟩ := (hF (by rw [hA']; exact decide_eq_false hn)).quietPeriph hq
      rw [hcommit] at hp
      exact congrArg Periph.radio hp
  cases tx with
  | true => exact flush .flushTx .flushTx (fun r => { r with txFifo := [] }) rfl fun _ _ => rfl
  | false => exact flush .flushRx .flushRx (fun r => { r with rxFifo := [] }) rfl fun _ _ => rfl

/-- Settles O22. -/
theorem setFrequency : Obligations.SetFrequency := by
  intro ch s hs
  obtain ⟨u, hr, hU, hregs⟩ := setFrequency_runs ch (hs.start (.setFrequency ch))
  exact ⟨_, hostOp_returns hs.idle hs.inLive (returningUnit_returns hr), hU.updated (by decide), hregs, hU.radio⟩

/-- Settles O23. -/
theorem setRf : Obligations.SetRf := by
  intro rate power s hs hp
  obtain ⟨u, hr, hU, hregs⟩ := setRf_runs rate hp (hs.start (.setRf rate power))
  exact ⟨_, hostOp_returns hs.idle hs.inLive (returningUnit_returns hr), hU.updated (by decide), hregs⟩

/-- Settles O24. -/
theorem setWidthAndRetransmit : Obligations.SetWidthAndRetransmit := by
  refine fun s hs => ⟨fun w hw => ?_, fun delay count => ?_⟩
  · obtain ⟨u, hr, hU, hregs⟩ := setAddressWidth_runs hw (hs.start (.setAddressWidth w))
    exact ⟨_, hostOp_returns hs.idle hs.inLive (returningUnit_returns hr), hU.updated (by decide), hregs⟩
  · obtain ⟨u, hr, hU, hregs⟩ := setAutoRetransmit_runs delay count (hs.start (.setAutoRetransmit delay count))
    exact ⟨_, hostOp_returns hs.idle hs.inLive (returningUnit_returns hr), hU.updated (by decide), hregs⟩

/-- Settles O25. -/
theorem setCrcAndInterruptMask : Obligations.SetCrcAndInterruptMask := by
  refine fun b s hs hb => ⟨fun mode => ?_, fun rxDr txDs maxRt => ?_⟩
  · obtain ⟨u, hr, hC⟩ := setCrc_runs mode (hs.start (.setCrc mode)) hb
    exact ⟨_, hostOp_returns hs.idle hs.inLive (returningUnit_returns hr), rfl, hC.fault, hC.updated .unit, hC.radio rfl⟩
  · obtain ⟨u, hr, hC⟩ := updateConfig_sets false
      (fun x => ({ x with maskRxDr := rxDr, maskTxDs := txDs, maskMaxRt := maxRt }, ()))
      (hs.start (.setInterruptMask rxDr txDs maxRt)) hb
    rw [maskBits_encode] at hC
    exact ⟨_, hostOp_returns hs.idle hs.inLive (returningUnit_returns hr), rfl, hC.fault, hC.updated .unit, hC.radio rfl⟩

/-- Settles O26. -/
theorem setPipeSwitches : Obligations.SetPipeSwitches := by
  refine fun b s hs => ⟨?_, ?_⟩
  · obtain ⟨u, hr, hU, hregs⟩ := setPipesRxEnable_runs b (hs.start (.setPipesRxEnable b))
    exact ⟨_, hostOp_returns hs.idle hs.inLive (returningUnit_returns hr), hU.updated (by decide), hregs⟩
  · obtain ⟨u, hr, hU, hregs⟩ := setAutoAck_runs b (hs.start (.setAutoAck b))
    exact ⟨_, hostOp_returns hs.idle hs.inLive (returningUnit_returns hr), hU.updated (by decide), hregs⟩

/-- Settles O27. -/
theorem configurationGetters : Obligations.ConfigurationGetters := by
  intro s hs
  refine ⟨?_, ?_, ?_, ?_⟩
  · obtain ⟨st, u, hr, hF⟩ := readReg_byte .rfCh (fieldAt 0) (fieldOf · 0 7) (hs.start .getFrequency) (by decide) rfl rfl
    have hv : ∀ b : BitVec 8, (fieldOf b 0 7).setWidth 8 = b &&& 0x7F#8 := by decide
    have hg : getFrequency (s.start .getFrequency) = .ok (s.periph.regs.rfCh &&& 0x7F#8) u := by
      rw [← hv, getFrequency]; exact bind_of_ok hr
    exact ⟨_, st, hostOp_returns hs.idle hs.inLive (bind_of_ok hg), hF.passed.returned _, hF.events, hF.csn, hF.regs,
      fun hq => by have := quiet_read hF hq; exact this⟩
  · obtain ⟨st, u, hr, hF⟩ := getAddressWidth_ok (hs.start .getAddressWidth)
    have hv : ∀ b : BitVec 8, BitVec.ofNat 8 (2 + (b &&& 3#8).toNat) = (b &&& 0x03#8) + 2 := by decide
    refine ⟨_, st, hostOp_returns hs.idle hs.inLive (bind_of_ok hr), ?_, hF.events, hF.csn, hF.regs,
      fun hq => by have := quiet_read hF hq; exact this⟩
    rw [← hv]
    exact hF.passed.returned _
  · obtain ⟨st, u, hr, hF⟩ := readReg_byte .enAa fromBools toBools (hs.start .getAutoAck) (by decide) rfl rfl
    have hg : getAutoAck (s.start .getAutoAck) = .ok (toBools s.periph.regs.enAa) u := bind_of_ok hr
    exact ⟨_, st, hostOp_returns hs.idle hs.inLive (bind_of_ok hg), hF.passed.returned _, hF.events, hF.csn, hF.regs,
      fun hq => by have := quiet_read hF hq; exact this⟩
  · obtain ⟨inp, u, hr, hF⟩ := frame_ok .nop (hs.start .getInterrupts)
    obtain ⟨st, rfl⟩ : ∃ st, inp = [st] := List.length_eq_one_iff.1 hF.len
    have hg : getInterrupts (s.start .getInterrupts) = .ok (Status.decode st) u := bind_of_ok hr
    refine ⟨_, st, hostOp_returns hs.idle hs.inLive (bind_of_ok hg), hF.passed.returned _, hF.events, hF.csn, hF.regs,
      fun hq => ?_⟩
    obtain ⟨n, m, hi, hp⟩ := hF.quietPeriph hq
    exact ⟨(List.cons.inj hi).1, hp⟩

/-- Settles O28: the byte 0x70 clears the three flags, so no interrupt is pending. -/
theorem clearInterrupts : Obligations.ClearInterrupts := by
  intro s hs
  obtain ⟨inp, u, hr, hF, hp⟩ := clearInterrupts_runs (hs.start .clearInterrupts)
  refine ⟨_, inp, hostOp_returns hs.idle hs.inLive (returningUnit_returns hr), hF.passed.returned _, hF.csn, hF.events,
    hF.regs, fun hq => ?_⟩
  have hp := congrArg Periph.radio (hp hq)
  refine ⟨hp, ?_⟩
  show u.periph.irqPin = .high
  simp [Periph.irqPin, Periph.irqAsserted, hp]

/-- Settles O29. -/
theorem addressSetters : Obligations.AddressSetters := by
  intro addr s hs haw hl
  refine ⟨fun p => ?_, ?_⟩
  · obtain ⟨u, hr, hA⟩ :=
      setRxAddr_runs (s := s.start (.setRxAddr (BitVec.ofNat 8 p.toNat) addr)) p ⟨haw, hl⟩ (hs.start _)
    obtain ⟨st, inp, hev⟩ := hA.frames
    refine ⟨_, st, inp, hostOp_returns hs.idle hs.inLive (returningUnit_returns hr), hA.passed.returned _, hA.csn, hev,
      fun q => ?_, fun hq => hA.radio hq (by cases p <;> decide) (by cases p <;> decide)⟩
    show u.periph.regs.stored q = _
    rw [hA.regs]
    split
    · rename_i h
      subst h
      cases p <;> rfl
    · exact write_stored_of_ne _ ‹_› _
  · obtain ⟨u, hr, hA⟩ := setTxAddr_runs (s := s.start (.setTxAddr addr)) ⟨haw, hl⟩ (hs.start _)
    obtain ⟨st, inp, hev⟩ := hA.frames
    exact ⟨_, st, inp, hostOp_returns hs.idle hs.inLive (returningUnit_returns hr), hA.passed.returned _, hA.csn, hev,
      hA.regs, fun hq => hA.radio hq (by decide) (by decide)⟩

/-- Settles O30. -/
theorem addressErrors : Obligations.AddressErrors := by
  refine fun addr s hs => ⟨fun pipe hp => ?_, fun hbad i hi => ?_⟩
  · refine hostOp_raises hs.idle hs.inLive (q := .busy (.setRxAddr pipe addr) 1 false none) (returningUnit_raises ?_)
    rw [setRxAddr, bind_of_ok (run_tick rfl), ofNat?_of_gt pipe hp]
    rfl
  · have hf : ¬ FitsWidth addr s.periph.regs := fun h => hbad.elim h.1 fun hn => hn h.2
    rcases hi with rfl | ⟨p, rfl⟩
    · obtain ⟨st, u, hr, hF⟩ := setTxAddr_violates (s := s.start (.setTxAddr addr)) hf (hs.start _)
      exact ⟨_, st, hostOp_faults hs.idle hs.inLive (bind_of_error hr),
        (hF.passed.trans (passed_advance hF.clear)).faulted _, hF.events, hF.regs⟩
    · obtain ⟨st, u, hr, hF⟩ :=
        setRxAddr_violates (s := s.start (.setRxAddr (BitVec.ofNat 8 p.toNat) addr)) p hf (hs.start _)
      exact ⟨_, st, hostOp_faults hs.idle hs.inLive (bind_of_error hr),
        (hF.passed.trans (passed_advance hF.clear)).faulted _, hF.events, hF.regs⟩

/-- Settles O34: every check comes before the first frame, in the listed order. -/
theorem contractViolations : Obligations.ContractViolations := by
  intro s hs hm
  have stops := fun i x f h => hostOp_stops (s := s) (i := i) (x := x) (f := f) hs (inLive_of_ne hm) h
  have power : ∀ {b : Byte}, b.toNat < 4 → ¬ Config.rfPwrLimit ≤ b.toNat := fun h => Nat.not_le.2 h
  have illegal : ∀ {w : Nat}, legalWidth w = false → (!legalWidth w) = true := fun h => by simp [h]
  refine ⟨fun rate p hp => stops _ _ _ (stops_check hp), fun w hw => stops _ _ _ (stops_check (illegal hw)),
    fun l p n hl hn => stops _ _ _ (stops_setPipesRxLengths hl hn), fun c hp => stops _ _ _ (stops_check hp),
    fun c hp hw => stops _ _ _ (stops_after_check (power hp) (stops_check (illegal hw))),
    fun c p a hp hw ha hl => stops _ _ _ (stops_after_check (power hp) (stops_after_check (not_illegal hw)
      (stops_checkPipes (lengths_differ_iff.2 ⟨p, a, ha, hl⟩)))),
    fun c p n hp hw ha hl hn => stops _ _ _ (stops_after_check (power hp) (stops_after_check (not_illegal hw)
      (stops_after_checkPipes ?_ (stops_checkPipes (too_long_iff.2 ⟨p, n, hl, hn⟩))))),
    fun c hp => stops _ _ _ (stops_check hp),
    fun c hp hw => stops _ _ _ (stops_after_check (power hp) (stops_check ?_)),
    fun c n hp hw ha hl hn => stops _ _ _ (stops_after_check (power hp) (stops_after_check ?_ (stops_check ?_)))⟩
  · rintro hd
    obtain ⟨q, x, hx, hne⟩ := lengths_differ_iff.1 hd
    exact hne (ha q x hx)
  · rcases hw with hw | hw <;> simp [hw]
  · simp [hw, ha]
  · simpa [hl, lengthTooLong, Config.rxPwLimit] using hn

end Sys2Proof
end

section
/-! PROOFS. The operations that run several register steps (rules R276, R282, R283): what a step adds to the frames and
leaves of the registers, sequences of steps, and `set_pipes_rx_lengths`, `configure_rx` and `configure_tx` made of them. -/

namespace Sys2Proof.Machine

variable {s t u : State} {r : Reg} {old new : Byte}

/-! ## Command bytes -/

theorem commandBytes_append (xs ys : List PortEvent) :
    commandBytes (xs ++ ys) = commandBytes xs ++ commandBytes ys := by
  induction xs using commandBytes.induct with
  | case1 => rfl
  | case2 b tail inp rest ih => simpa [commandBytes] using ih
  | case3 e rest hne ih => rw [List.cons_append, commandBytes, commandBytes, ih] <;> exact hne

/-- The command bytes of the read and the write of a register. -/
def readByte (r : Reg) : Byte := r.addr.setWidth 8
def writeByte (r : Reg) : Byte := 0x20#8 ||| r.addr.setWidth 8

/-- Only reads have a command byte below 0x20 (rule R152). -/
theorem readByte_lt (r : Reg) : readByte r < 0x20#8 ∧ ¬ writeByte r < 0x20#8 := by
  cases r with
  | rxPw p => cases p <;> decide
  | _ => decide

/-! ## Steps -/

/-- What configuration steps show: their command bytes are of `frames`, in this order, the reads among them exactly
`reads`; the mode, CE and fault set stay, and CSN stays high. -/
structure Ran (frames reads : List Byte) (s u : State) : Prop where
  clear : Clear u
  quiet : Quiet s → Quiet u
  mode : u.mode = s.mode
  ce : u.ce = s.ce
  fault : u.fault = s.fault
  requests : u.requests = s.requests
  params : u.params = s.params
  csn : s.csn = .high → u.csn = .high
  events : ∃ evs, u.events = s.events ++ evs ∧ (commandBytes evs).Sublist frames ∧
    (commandBytes evs).filter (· < 0x20#8) = reads

/-- Steps that leave the shadow and, in a quiet world, the radio state, and the registers as given. -/
structure Configured (frames reads : List Byte) (regs : Regs) (s u : State) : Prop extends Ran frames reads s u where
  shadow : u.shadow = s.shadow
  regs : u.periph.regs = regs
  radio : Quiet s → u.periph.radio = s.periph.radio

variable {L R L' R' : List Byte} {regs regs' : Regs}

theorem Ran.trans (h : Ran L R s t) (k : Ran L' R' t u) : Ran (L ++ L') (R ++ R') s u := by
  obtain ⟨e1, h1, hs1, hf1⟩ := h.events
  obtain ⟨e2, h2, hs2, hf2⟩ := k.events
  exact ⟨k.clear, k.quiet ∘ h.quiet, k.mode.trans h.mode, k.ce.trans h.ce, k.fault.trans h.fault,
    k.requests.trans h.requests, k.params.trans h.params, k.csn ∘ h.csn, e1 ++ e2, by rw [h2, h1, List.append_assoc],
    by rw [commandBytes_append]; exact hs1.append hs2, by rw [commandBytes_append, List.filter_append, hf1, hf2]⟩

theorem Configured.trans (h : Configured L R regs s t) (k : Configured L' R' regs' t u) :
    Configured (L ++ L') (R ++ R') regs' s u :=
  ⟨h.toRan.trans k.toRan, k.shadow.trans h.shadow, k.regs, fun hq => (k.radio (h.quiet hq)).trans (h.radio hq)⟩

/-- A local computation. -/
theorem ran_advance (h : Clear s) : Ran [] [] s s.advance :=
  ⟨h.advance, id, rfl, rfl, rfl, rfl, rfl, id, [], by simp, by simp [commandBytes], rfl⟩

theorem configured_advance (h : Clear s) : Configured [] [] s.periph.regs s s.advance :=
  ⟨ran_advance h, rfl, rfl, fun _ => rfl⟩

theorem RegUpdated.ran (h : RegUpdated r old new s u) : Ran [readByte r, writeByte r] [readByte r] s u := by
  obtain ⟨hlt, hge⟩ := readByte_lt r
  refine ⟨h.passed.clear, h.passed.quiet, h.passed.mode, h.passed.ce, h.passed.fault, h.passed.requests,
    h.passed.params, fun _ => h.csn, ?_⟩
  obtain ⟨st, hf⟩ := h.frames
  split at hf
  · exact ⟨_, hf, List.Sublist.cons_cons _ (List.nil_sublist _), by show List.filter _ [readByte r] = _; simp [hlt]⟩
  · obtain ⟨inp, hf⟩ := hf
    refine ⟨_, hf.trans (List.append_assoc ..), ?_, ?_⟩ <;> rw [commandBytes_append]
    · exact List.Sublist.refl _
    · show List.filter _ [readByte r, writeByte r] = _
      simp [hlt, hge]

theorem RegUpdated.configured (h : RegUpdated r old new s u) (hregs : u.periph.regs = regs) (hs : r ≠ .status)
    (hc : r ≠ .rfCh) : Configured [readByte r, writeByte r] [readByte r] regs s u :=
  ⟨h.ran, h.passed.shadow, hregs, h.same_radio hs hc⟩

theorem AddressWritten.configured {bytes : List Byte} (h : AddressWritten r bytes s u) (hs : r ≠ .status)
    (hc : r ≠ .rfCh) : Configured [0x03, writeByte r] [0x03] (s.periph.regs.write r bytes) s u := by
  obtain ⟨st, inp, hf⟩ := h.frames
  refine ⟨⟨h.passed.clear, h.passed.quiet, h.passed.mode, h.passed.ce, h.passed.fault, h.passed.requests,
    h.passed.params, fun _ => h.csn, _, hf.trans (List.append_assoc ..), ?_, ?_⟩, h.passed.shadow, h.regs,
    fun hq => h.radio hq hs hc⟩ <;> rw [commandBytes_append]
  · exact List.Sublist.refl _
  · have hge := (readByte_lt r).2
    show List.filter _ [0x03#8, writeByte r] = _
    simp [hge]

theorem ConfigSet.ran {flagged : Bool} {b : Byte} (h : ConfigSet flagged b new s u) : Ran [0x20] [] s u := by
  have shown : ∃ evs, u.events = s.events ++ evs ∧ (commandBytes evs).Sublist [0x20] ∧
      (commandBytes evs).filter (· < 0x20#8) = [] := by
    by_cases he : new = b &&& 0x7F#8
    · exact ⟨[], by simp [(h.suppressed he).1], by simp [commandBytes], rfl⟩
    · obtain ⟨⟨inp, hev⟩, -⟩ := h.written he
      exact ⟨_, hev, List.Sublist.refl _, rfl⟩
  refine ⟨h.clear, h.quiet, h.mode, h.ce, h.fault, h.requests, h.params, fun hc => ?_, shown⟩
  by_cases he : new = b &&& 0x7F#8
  · exact (h.suppressed he).2.2.2.trans hc
  · exact (h.written he).2.2.1

/-- Tests of all pipes that fail. -/
theorem checkPipes_runs {bad : Six Bool} (hb : bad.any = false) (stop : Op Unit) (h : Clear s) :
    ∃ u, checkPipes bad stop s = .ok () u ∧ Configured [] [] s.periph.regs s u :=
  ⟨_, run_checkPipes hb stop h.whole, by
    have a := fun {s : State} (h : Clear s) => configured_advance h
    exact (a h).trans ((a h.advance).trans ((a h.advance.advance).trans ((a h.advance.advance.advance).trans
      ((a h.advance.advance.advance.advance).trans (a h.advance.advance.advance.advance.advance)))))⟩

/-- A step for each pipe of a list, each keeping what the next ones need. -/
theorem forPipes_configured {body : Pipe → Op Unit} {L R : Pipe → List Byte} {f : Regs → Pipe → Regs}
    {K : Regs → Prop}
    (hK : ∀ regs p, K regs → K (f regs p))
    (h : ∀ p s, Clear s → K s.periph.regs →
      ∃ u, body p s = .ok () u ∧ Configured (L p) (R p) (f s.periph.regs p) s u) :
    ∀ ps s, Clear s → K s.periph.regs → ∃ u, forPipes body ps s = .ok () u ∧
      Configured (ps.flatMap L) (ps.flatMap R) (ps.foldl f s.periph.regs) s u
  | [], s, hs, _ => ⟨s, rfl, ⟨hs, id, rfl, rfl, rfl, rfl, rfl, id, [], by simp, by simp [commandBytes], rfl⟩, rfl, rfl,
      fun _ => rfl⟩
  | p :: ps, s, hs, hk => by
    obtain ⟨t, hr, hC⟩ := h p s hs hk
    obtain ⟨u, hr2, hC2⟩ := forPipes_configured hK h ps t hC.clear (by rw [hC.regs]; exact hK _ p hk)
    rw [hC.regs] at hC2
    exact ⟨u, by rw [forPipes, bind_of_ok hr]; exact hr2, hC.trans hC2⟩

/-! ## Payload lengths -/

/-- RX_PW of a pipe after `set_pipes_rx_lengths`: a static length replaces the field. -/
def lengthByte (l : Option Byte) (old : Byte) : Byte :=
  match l with
  | some n => (old &&& 0xC0#8) ||| n
  | none => old

theorem lengthByte_zero (old : Byte) : lengthByte (some 0) old = old &&& 0xC0#8 := BitVec.or_zero

def Regs.withLength (l : Six (Option Byte)) (regs : Regs) (p : Pipe) : Regs :=
  { regs with rxPw := regs.rxPw.set p (lengthByte (l.get p) (regs.rxPw.get p)) }

theorem length_fits : ∀ n : BitVec 8, n.toNat < 64 →
    fieldAt 0 (n.setWidth 6) = n ∧ n &&& 0x3F#8 = n := by decide

theorem setPipeLength_runs {l : Six (Option Byte)} (hl : ∀ p n, l.get p = some n → n.toNat < 64) (p : Pipe)
    (h : Clear s) : ∃ u, setPipeLength l p s = .ok () u ∧
      Configured [0x11#8 + BitVec.ofNat 8 p.toNat, 0x31#8 + BitVec.ofNat 8 p.toNat]
        (if (l.get p).isSome then [0x11#8 + BitVec.ofNat 8 p.toNat] else []) (s.periph.regs.withLength l p) s u := by
  cases hp : l.get p with
  | none =>
    refine ⟨s.advance, by rw [setPipeLength, bind_of_ok (run_tick h.whole), hp]; rfl, ?_⟩
    have hregs : s.periph.regs.withLength l p = s.periph.regs := by
      simp only [Regs.withLength, hp, lengthByte, set_get]
    rw [hregs]
    have hC := configured_advance h
    obtain ⟨evs, he, hs, hf⟩ := hC.events
    exact ⟨⟨hC.clear, hC.quiet, hC.mode, hC.ce, hC.fault, hC.requests, hC.params, hC.csn, evs, he,
      hs.trans (List.nil_sublist _), hf⟩, hC.shadow, hC.regs, hC.radio⟩
  | some n =>
    obtain ⟨henc, hfit⟩ := length_fits n (hl p n hp)
    obtain ⟨u, hr, hU⟩ := updateReg_byte (.rxPw p) (fieldAt 0) (fieldOf · 0 6) (fun _ => (n.setWidth 6, ())) h.advance
      (by simp) rfl rfl rxPw_decode_encode rxPw_encode_decode
    rw [henc] at hU
    have hregs : u.periph.regs = s.periph.regs.withLength l p := by
      refine hU.regs.trans ?_
      simp only [Regs.withLength, hp, lengthByte]
      exact congrArg (fun x => { s.periph.regs with rxPw := s.periph.regs.rxPw.set p x })
        (mergeBits_of_fits 0x3F 0xC0 rfl hfit _)
    have hb : readByte (.rxPw p) = 0x11#8 + BitVec.ofNat 8 p.toNat ∧
        writeByte (.rxPw p) = 0x31#8 + BitVec.ofNat 8 p.toNat := by cases p <;> decide
    refine ⟨u, by rw [setPipeLength, bind_of_ok (run_tick h.whole), hp]; exact hr, ?_⟩
    have hC := hU.before.configured hregs (by simp) (by simp)
    rw [hb.1, hb.2] at hC
    exact hC

/-- FEATURE and DYNPD after `set_pipes_rx_lengths`. -/
def Regs.withFeature (regs : Regs) (any : Bool) : Regs :=
  { regs with feature := (regs.feature &&& 0xF9#8) ||| (if any then 0x06#8 else 0) }
def Regs.withDynpd (regs : Regs) (dyn : Six Bool) : Regs :=
  { regs with dynpd := (regs.dynpd &&& 0xC0#8) ||| fromBools dyn }

/-- The registers after `set_pipes_rx_lengths`. -/
def Regs.withLengths (regs : Regs) (l : Six (Option Byte)) : Regs :=
  Pipe.all.foldl (Regs.withLength l) ((regs.withFeature (l.map (·.isNone)).any).withDynpd (l.map (·.isNone)))

theorem foldl_withLength (l : Six (Option Byte)) (ps : List Pipe) (regs : Regs) :
    ps.foldl (Regs.withLength l) regs = { regs with
      rxPw := ps.foldl (fun x p => x.set p (lengthByte (l.get p) (x.get p))) regs.rxPw } := by
  induction ps generalizing regs with
  | nil => rfl
  | cons p ps ih => rw [List.foldl_cons, ih]; rfl

theorem withLengths_eq (regs : Regs) (l : Six (Option Byte)) : regs.withLengths l = { regs with
    feature := (regs.feature &&& 0xF9#8) ||| (if (l.map (·.isNone)).any then 0x06#8 else 0)
    dynpd := (regs.dynpd &&& 0xC0#8) ||| fromBools (l.map (·.isNone))
    rxPw := ⟨lengthByte l.p0 regs.rxPw.p0, lengthByte l.p1 regs.rxPw.p1, lengthByte l.p2 regs.rxPw.p2,
      lengthByte l.p3 regs.rxPw.p3, lengthByte l.p4 regs.rxPw.p4, lengthByte l.p5 regs.rxPw.p5⟩ } := by
  rw [Regs.withLengths, foldl_withLength]
  rfl

/-- The frames of `set_pipes_rx_lengths`, in order, and its reads. -/
def lengthFrames : List Byte := [0x1D, 0x3D, 0x1C, 0x3C] ++
  Pipe.all.flatMap fun p => [0x11#8 + BitVec.ofNat 8 p.toNat, 0x31#8 + BitVec.ofNat 8 p.toNat]
def lengthReads (l : Six (Option Byte)) : List Byte := [0x1D, 0x1C] ++
  Pipe.all.flatMap fun p => if (l.get p).isSome then [0x11#8 + BitVec.ofNat 8 p.toNat] else []

theorem feature_encode (any : Bool) : ∀ b : BitVec 8,
    mergeBits 0x07 b ({ Feature.decode b with enDpl := any, enAckPay := any } : Feature).encode =
      (b &&& 0xF9#8) ||| (if any then 0x06#8 else 0) := by cases any <;> decide

/-- Lengths below 64 pass the test of the lengths. -/
theorem not_too_long {l : Six (Option Byte)} (hl : ∀ p n, l.get p = some n → n.toNat < 64) :
    (l.map lengthTooLong).any = false := by
  rw [Bool.eq_false_iff]
  intro hn
  obtain ⟨p, n, hp, h64⟩ := too_long_iff.1 hn
  exact absurd (hl p n hp) (Nat.not_lt.2 h64)

theorem setPipesRxLengths_runs {l : Six (Option Byte)} (hl : ∀ p n, l.get p = some n → n.toNat < 64) (h : Clear s) :
    ∃ u, setPipesRxLengths l s = .ok () u ∧
      Configured lengthFrames (lengthReads l) (s.periph.regs.withLengths l) s u ∧ u.csn = .high := by
  obtain ⟨v, hr0, hC0⟩ := checkPipes_runs (not_too_long hl) (violate .rxPwRange) h
  have hC1 := configured_advance hC0.clear
  obtain ⟨w, hr2, hU2⟩ := updateReg_byte .feature Feature.encode Feature.decode
    (fun x => ({ x with enDpl := (l.map (·.isNone)).any, enAckPay := (l.map (·.isNone)).any }, ())) hC1.clear
    (by decide) rfl rfl feature_decode_encode feature_encode_decode
  have hw : w.periph.regs = s.periph.regs.withFeature (l.map (·.isNone)).any := by
    rw [hU2.regs, hC1.regs, hC0.regs]
    exact congrArg (fun x => { s.periph.regs with feature := x }) (feature_encode _ _)
  obtain ⟨x, hr3, hU3⟩ := updateReg_byte .dynpd fromBools toBools (fun _ => (l.map (·.isNone), ())) hU2.passed.clear
    (by decide) rfl rfl pipes_decode_encode pipes_encode_decode
  have hx : x.periph.regs = w.periph.regs.withDynpd (l.map (·.isNone)) :=
    hU3.regs.trans (congrArg (fun x => { w.periph.regs with dynpd := x })
      (mergeBits_of_fits 0x3F 0xC0 rfl (fromBools_fits _) _))
  obtain ⟨u, hr4, hC4⟩ := forPipes_configured (K := fun _ => True) (fun _ _ _ => trivial)
    (fun p s hs _ => setPipeLength_runs hl p hs) Pipe.all x hU3.passed.clear trivial
  rw [hx, hw] at hC4
  refine ⟨u, ?_, hC0.trans (hC1.trans ((hU2.configured hw (by decide) (by decide)).trans
    ((hU3.configured hx (by decide) (by decide)).trans hC4))), hC4.csn hU3.csn⟩
  rw [setPipesRxLengths, bind_of_ok hr0, bind_of_ok (run_tick hC0.clear.whole)]
  exact (bind_of_ok hr2).trans ((bind_of_ok hr3).trans hr4)

theorem flatMap_ite {α β : Type} (c : α → Bool) (g : α → β) (l : List α) :
    (l.flatMap fun x => if c x then [g x] else []) = (l.filter c).map g := by
  induction l with
  | nil => rfl
  | cons x l ih => cases hx : c x <;> simp [hx, ih]

/-! ## The steps both records share -/

def Regs.withChannel (regs : Regs) (ch : Byte) : Regs :=
  { regs with rfCh := (regs.rfCh &&& 0x80#8) ||| BitVec.ofNat 8 (min ch.toNat 125) }
def Regs.withRf (regs : Regs) (rate : DataRate) (power : Byte) : Regs :=
  { regs with rfSetup := (regs.rfSetup &&& 0xD1#8) ||| rfFields rate power }
theorem withRf_eq (regs : Regs) (rate : DataRate) (power : Byte) : regs.withRf rate power = { regs with
    rfSetup := (regs.rfSetup &&& 0xD1#8) |||
      (match rate with | .r250Kbps => 0x20 | .r1Mbps => 0x00 | .r2Mbps => 0x08) ||| (power <<< 1) } :=
  congrArg (fun x => { regs with rfSetup := x }) (BitVec.or_assoc ..).symm

def Regs.withWidth (regs : Regs) (w : Byte) : Regs := { regs with setupAw := (regs.setupAw &&& 0xFC#8) ||| (w - 2) }
def Regs.withConfig (regs : Regs) (b new : Byte) : Regs :=
  { regs with config := if new = b &&& 0x7F#8 then regs.config else (regs.config &&& 0x80#8) ||| new }
def Regs.withEnRxaddr (regs : Regs) (b : Six Bool) : Regs :=
  { regs with enRxaddr := (regs.enRxaddr &&& 0xC0#8) ||| fromBools b }
def Regs.withEnAa (regs : Regs) (b : Six Bool) : Regs := { regs with enAa := (regs.enAa &&& 0xC0#8) ||| fromBools b }

theorem ConfigSet.regs_eq {flagged : Bool} {b : Byte} (h : ConfigSet flagged b new s u) :
    u.periph.regs = s.periph.regs.withConfig b new := by
  by_cases he : new = b &&& 0x7F#8
  · rw [(h.suppressed he).2.2.1, Regs.withConfig, if_pos he]
  · rw [(h.written he).2.2.2, Regs.withConfig, if_neg he]

theorem ConfigSet.shadow_eq {flagged : Bool} {b : Byte} (h : ConfigSet flagged b new s u) (hb : s.shadow = some b) :
    u.shadow = some (if new = b &&& 0x7F#8 then b else new) := by
  by_cases he : new = b &&& 0x7F#8
  · rw [(h.suppressed he).2.1, if_pos he, hb]
  · rw [(h.written he).2.1, if_neg he]

/-- The registers and the shadow after the channel, the rate and power, the width and the CRC mode of a record. -/
structure SetUp (ch : Byte) (rate : DataRate) (power w : Byte) (crc : CrcMode) (b : Byte) (s u : State) : Prop
    extends Ran [0x05, 0x25, 0x06, 0x26, 0x03, 0x23, 0x20] [0x05, 0x06, 0x03] s u where
  high : u.csn = .high
  shadow : u.shadow = some (if crcByte b crc = b &&& 0x7F#8 then b else crcByte b crc)
  regs : u.periph.regs =
    (((s.periph.regs.withChannel ch).withRf rate power).withWidth w).withConfig b (crcByte b crc)
  radio : Quiet s → u.periph.radio = if BitVec.ofNat 8 (min ch.toNat 125) = s.periph.regs.rfCh &&& 0x7F#8
    then s.periph.radio else { s.periph.radio with plosCnt := 0 }

theorem setUp_runs (ch : Byte) (rate : DataRate) {power w : Byte} (mode : CrcMode) {b : Byte} (hp : power.toNat < 4)
    (hw : legalWidth w.toNat = true) (h : Clear s) (hb : s.shadow = some b) :
    ∃ s1 s2 s3 u, setFrequency ch s = .ok () s1 ∧ setRf rate power s1 = .ok () s2 ∧ setAddressWidth w s2 = .ok () s3 ∧
      setCrc mode s3 = .ok () u ∧ SetUp ch rate power w mode b s u := by
  obtain ⟨s1, hr1, hU1, hregs1⟩ := setFrequency_runs ch h
  obtain ⟨s2, hr2, hU2, hregs2⟩ := setRf_runs rate hp hU1.passed.clear
  obtain ⟨s3, hr3, hU3, hregs3⟩ := setAddressWidth_runs hw hU2.passed.clear
  have hb3 : s3.shadow = some b := by rw [hU3.passed.shadow, hU2.passed.shadow, hU1.passed.shadow, hb]
  obtain ⟨u, hr4, hC4⟩ := setCrc_runs mode hU3.passed.clear hb3
  refine ⟨s1, s2, s3, u, hr1, hr2, hr3, hr4, hU1.ran.trans (hU2.ran.trans (hU3.ran.trans hC4.ran)), hC4.ran.csn hU3.csn,
    hC4.shadow_eq hb3, ?_, fun hq => ?_⟩
  · rw [hC4.regs_eq, hregs3, hregs2, hregs1]; rfl
  · have hq1 := hU1.passed.quiet hq
    have hq2 := hU2.passed.quiet hq1
    rw [hC4.radio rfl (hU3.passed.quiet hq2), hU3.same_radio (by decide) (by decide) hq2,
      hU2.same_radio (by decide) (by decide) hq1]
    exact hU1.radio hq

/-- The width that a record sets is the width its addresses have. -/
theorem fitsWidth_of_set {w : Byte} (hw : legalWidth w.toNat = true) {addr : List Byte} (hl : addr.length = w.toNat)
    {regs : Regs} {old : Byte} (hr : regs.setupAw = (old &&& 0xFC#8) ||| (w - 2)) : FitsWidth addr regs := by
  have field : ∀ old : BitVec 8, ((old &&& 0xFC#8) ||| (w - 2)) &&& 0x03#8 = w - 2 := by
    rcases width_cases hw with rfl | rfl | rfl <;> decide
  rw [FitsWidth, hr, field, hl]
  rcases width_cases hw with rfl | rfl | rfl <;> decide

/-- The end of a list of a record's steps: the pipe switches and the lengths. -/
theorem finish_runs (en aa : Six Bool) {l : Six (Option Byte)} (hl : ∀ p n, l.get p = some n → n.toNat < 64)
    (h : Clear s) : ∃ s1 s2 u, setPipesRxEnable en s = .ok () s1 ∧ setAutoAck aa s1 = .ok () s2 ∧
      setPipesRxLengths l s2 = .ok () u ∧
      Configured ([0x02, 0x22, 0x01, 0x21] ++ lengthFrames) ([0x02, 0x01] ++ lengthReads l)
        (((s.periph.regs.withEnRxaddr en).withEnAa aa).withLengths l) s u ∧ u.csn = .high := by
  obtain ⟨s1, hr1, hU1, hregs1⟩ := setPipesRxEnable_runs en h
  obtain ⟨s2, hr2, hU2, hregs2⟩ := setAutoAck_runs aa hU1.passed.clear
  obtain ⟨u, hr3, hC3, hcsn⟩ := setPipesRxLengths_runs hl hU2.passed.clear
  have hs2 : s2.periph.regs = (s.periph.regs.withEnRxaddr en).withEnAa aa := by rw [hregs2, hregs1]; rfl
  rw [hs2] at hC3
  exact ⟨s1, s2, u, hr1, hr2, hr3, (hU1.configured hregs1 (by decide) (by decide)).trans
    ((hU2.configured hs2 (by decide) (by decide)).trans hC3), hcsn⟩

/-! ## `configure_rx` -/

/-- The address register of a pipe after the address step of a record. -/
def Regs.withAddr (a : Six (Option (List Byte))) (regs : Regs) (p : Pipe) : Regs :=
  match a.get p with
  | some addr => regs.write p.addrReg (p.addrBytes addr)
  | none => regs

/-- The least byte of the address of a pipe from 2 on. -/
def lowByte (a : Option (List Byte)) (old : Byte) : Byte :=
  match a with
  | some addr => addr.headD 0
  | none => old

/-- The address registers after the address steps of a record. -/
theorem foldl_withAddr (a : Six (Option (List Byte))) (regs : Regs) :
    Pipe.all.foldl (Regs.withAddr a) regs = { regs with
      rxAddrP0 := a.p0.getD regs.rxAddrP0
      rxAddrP1 := a.p1.getD regs.rxAddrP1
      rxAddrP2 := lowByte a.p2 regs.rxAddrP2
      rxAddrP3 := lowByte a.p3 regs.rxAddrP3
      rxAddrP4 := lowByte a.p4 regs.rxAddrP4
      rxAddrP5 := lowByte a.p5 regs.rxAddrP5 } := by
  have step : ∀ (p : Pipe) (x : Option (List Byte)) (regs : Regs), a.get p = x → regs.withAddr a p =
      match x with
      | some addr => regs.write p.addrReg (p.addrBytes addr)
      | none => regs := fun p x regs h => by rw [← h, Regs.withAddr]
  simp only [Pipe.all, List.foldl_cons, List.foldl_nil]
  rw [step .p0 a.p0 _ rfl, step .p1 a.p1 _ rfl, step .p2 a.p2 _ rfl, step .p3 a.p3 _ rfl, step .p4 a.p4 _ rfl,
    step .p5 a.p5 _ rfl]
  obtain ⟨a0, a1, a2, a3, a4, a5⟩ := a
  cases a0 <;> cases a1 <;> cases a2 <;> cases a3 <;> cases a4 <;> cases a5 <;> rfl

theorem withAddr_setupAw (a : Six (Option (List Byte))) (regs : Regs) (p : Pipe) :
    (regs.withAddr a p).setupAw = regs.setupAw := by
  unfold Regs.withAddr
  split
  · cases p <;> rfl
  · rfl

theorem setConfiguredAddr_runs {a : Six (Option (List Byte))} (p : Pipe) (h : Clear s)
    (ha : ∀ p x, a.get p = some x → FitsWidth x s.periph.regs) :
    ∃ u, setConfiguredAddr a p s = .ok () u ∧ Configured [0x03#8, 0x2A#8 + BitVec.ofNat 8 p.toNat]
      (if (a.get p).isSome then [0x03] else []) (s.periph.regs.withAddr a p) s u := by
  unfold Regs.withAddr
  cases hp : a.get p with
  | none =>
    refine ⟨s.advance, by rw [setConfiguredAddr, bind_of_ok (run_tick h.whole), hp]; rfl, ?_⟩
    have hC := configured_advance h
    obtain ⟨evs, he, hs, hf⟩ := hC.events
    exact ⟨⟨hC.clear, hC.quiet, hC.mode, hC.ce, hC.fault, hC.requests, hC.params, hC.csn, evs, he,
      hs.trans (List.nil_sublist _), hf⟩, hC.shadow, hC.regs, hC.radio⟩
  | some x =>
    obtain ⟨u, hr, hA⟩ := setRxAddr_runs (s := s.advance) p (ha p x hp) h.advance
    have hb : writeByte p.addrReg = 0x2A#8 + BitVec.ofNat 8 p.toNat := by cases p <;> decide
    have hC := hA.before.configured (by cases p <;> decide) (by cases p <;> decide)
    rw [hb] at hC
    exact ⟨u, by rw [setConfiguredAddr, bind_of_ok (run_tick h.whole), hp]; exact hr, hC⟩

theorem addresses_run {a : Six (Option (List Byte))} (h : Clear s)
    (ha : ∀ p x, a.get p = some x → FitsWidth x s.periph.regs) :
    ∃ u, forPipes (setConfiguredAddr a) Pipe.all s = .ok () u ∧
      Configured (Pipe.all.flatMap fun p => [0x03#8, 0x2A#8 + BitVec.ofNat 8 p.toNat])
        (Pipe.all.flatMap fun p => if (a.get p).isSome then [0x03] else [])
        (Pipe.all.foldl (Regs.withAddr a) s.periph.regs) s u :=
  forPipes_configured (K := fun regs => ∀ p x, a.get p = some x → FitsWidth x regs)
    (fun regs p hk q x hx => by
      have := hk q x hx
      rwa [FitsWidth, withAddr_setupAw, ← FitsWidth])
    (fun p s hs hk => setConfiguredAddr_runs p hs hk) Pipe.all s h ha

/-- A record that was applied: its frames in the listed order, the shadow and the radio state of its first steps, and
the registers as given. -/
structure Applied (ch : Byte) (crc : CrcMode) (b : Byte) (frames : List Byte) (regs : Regs) (s u : State) : Prop where
  ran : ∃ reads, Ran frames reads s u
  high : u.csn = .high
  shadow : u.shadow = some (if crcByte b crc = b &&& 0x7F#8 then b else crcByte b crc)
  regs : u.periph.regs = regs
  radio : Quiet s → u.periph.radio = if BitVec.ofNat 8 (min ch.toNat 125) = s.periph.regs.rfCh &&& 0x7F#8
    then s.periph.radio else { s.periph.radio with plosCnt := 0 }

/-- The tests, the steps both records share, and the rest. -/
theorem applied_of {v : State} {ch power w b : Byte} {rate : DataRate} {crc : CrcMode}
    (h : Configured [] [] s.periph.regs s t) (k : SetUp ch rate power w crc b t u) (l : Configured L R regs u v)
    (hcsn : v.csn = .high) :
    Applied ch crc b ([0x05, 0x25, 0x06, 0x26, 0x03, 0x23, 0x20] ++ L) regs s v := by
  refine ⟨⟨_, h.toRan.trans (k.toRan.trans l.toRan)⟩, hcsn, l.shadow.trans k.shadow, l.regs, fun hq => ?_⟩
  have hq1 := h.quiet hq
  rw [l.radio (k.quiet hq1), k.radio hq1, h.regs, h.radio hq]

/-- The registers after the steps both records share. -/
def Regs.withSetUp (regs : Regs) (ch : Byte) (rate : DataRate) (power w : Byte) (crc : CrcMode) (b : Byte) : Regs :=
  (((regs.withChannel ch).withRf rate power).withWidth w).withConfig b (crcByte b crc)

/-- A test that fails. -/
theorem check_passes {c : Prop} [Decidable c] (hc : ¬ c) (stop : Op Unit) (h : Clear s) :
    check c stop s = .ok () s.advance := by rw [run_check _ _ h.whole, if_neg hc]

theorem configureRx_runs {c : RxConfig} {b : Byte} (h : Clear s) (hb : s.shadow = some b) (hp : c.paLevel.toNat < 4)
    (hw : legalWidth c.addressWidth.toNat = true)
    (ha : ∀ p a, c.pipeAddresses.get p = some a → a.length = c.addressWidth.toNat)
    (hl : ∀ p n, c.pipeLengths.get p = some n → n.toNat < 64) :
    ∃ u, configureRx c s = .ok () u ∧ Applied c.channel c.crcMode b ([0x05, 0x25, 0x06, 0x26, 0x03, 0x23, 0x20] ++
        ((Pipe.all.flatMap fun p => [0x03#8, 0x2A#8 + BitVec.ofNat 8 p.toNat]) ++
          ([0x02, 0x22, 0x01, 0x21] ++ lengthFrames)))
      ((((Pipe.all.foldl (Regs.withAddr c.pipeAddresses) (s.periph.regs.withSetUp c.channel c.dataRate c.paLevel
        c.addressWidth c.crcMode b)).withEnRxaddr (c.pipeAddresses.map (·.isSome))).withEnAa
          c.pipeAutoAck).withLengths c.pipeLengths) s u := by
  have hpower : ¬ Config.rfPwrLimit ≤ c.paLevel.toNat := Nat.not_le.2 hp
  have hlengths : (c.pipeAddresses.map (lengthDiffers c.addressWidth)).any = false := by
    rw [Bool.eq_false_iff]
    intro hn
    obtain ⟨p, x, hx, hne⟩ := lengths_differ_iff.1 hn
    exact hne (ha p x hx)
  obtain ⟨s1, hr1, hC1⟩ := checkPipes_runs hlengths (violate .addrLength) h.advance.advance
  obtain ⟨s2, hr2, hC2⟩ := checkPipes_runs (not_too_long hl) (violate .rxPwRange) hC1.clear
  rw [hC1.regs] at hC2
  have hC : Configured [] [] s.periph.regs s s2 :=
    (configured_advance h).trans ((configured_advance h.advance).trans (hC1.trans hC2))
  obtain ⟨s3, s4, s5, s6, hr3, hr4, hr5, hr6, hS⟩ := setUp_runs c.channel c.dataRate c.crcMode hp hw hC.clear
    (hC.shadow.trans hb)
  obtain ⟨s7, hr7, hC7⟩ := addresses_run (a := c.pipeAddresses) hS.clear fun p x hx =>
    fitsWidth_of_set (old := s.periph.regs.setupAw) hw (ha p x hx) (by rw [hS.regs, hC.regs]; rfl)
  obtain ⟨s8, s9, u, hr8, hr9, hr10, hC10, hcsn⟩ := finish_runs (c.pipeAddresses.map (·.isSome)) c.pipeAutoAck hl
    hC7.clear
  rw [hC7.regs, hS.regs, hC.regs] at hC10
  refine ⟨u, ?_, applied_of hC hS (hC7.trans hC10) hcsn⟩
  rw [configureRx, bind_of_ok (check_passes hpower _ h), bind_of_ok (check_passes (not_illegal hw) _ h.advance),
    bind_of_ok hr1, bind_of_ok hr2, bind_of_ok hr3, bind_of_ok hr4, bind_of_ok hr5, bind_of_ok hr6, bind_of_ok hr7,
    bind_of_ok hr8, bind_of_ok hr9]
  exact hr10

/-! ## `configure_tx` -/

theorem pipe0_lengths {l : Option Byte} (hl : ∀ n, l = some n → n.toNat < 64) :
    ∀ p n, (⟨l, some 0, some 0, some 0, some 0, some 0⟩ : Six (Option Byte)).get p = some n → n.toNat < 64
  | .p0, n, h => hl n h
  | .p1, _, h | .p2, _, h | .p3, _, h | .p4, _, h | .p5, _, h => by cases h; decide

theorem pipe0_dynamic (l : Option Byte) :
    (⟨l, some 0, some 0, some 0, some 0, some 0⟩ : Six (Option Byte)).map (·.isNone) =
      ⟨l.isNone, false, false, false, false, false⟩ := rfl

theorem fromBools_pipe0 (x : Bool) : fromBools ⟨x, false, false, false, false, false⟩ = if x then 0x01#8 else 0 := by
  cases x <;> rfl

theorem any_pipe0 (x : Bool) : Six.any ⟨x, false, false, false, false, false⟩ = x := by cases x <;> rfl

def Regs.withRetransmit (regs : Regs) (delay count : Byte) : Regs :=
  { regs with setupRetr := BitVec.ofNat 8 (16 * min delay.toNat 15 + min count.toNat 15) }

theorem configureTx_runs {c : TxConfig} {b : Byte} (h : Clear s) (hb : s.shadow = some b) (hp : c.paLevel.toNat < 4)
    (hw : legalWidth c.addressWidth.toNat = true) (ha : c.pipe0Address.length = c.addressWidth.toNat)
    (hl : ∀ n, c.pipe0Length = some n → n.toNat < 64) :
    ∃ u, configureTx c s = .ok () u ∧ Applied c.channel c.crcMode b ([0x05, 0x25, 0x06, 0x26, 0x03, 0x23, 0x20] ++
        ([0x04, 0x24] ++ ([0x03, 0x30] ++ ([0x03, 0x2A] ++ ([0x02, 0x22, 0x01, 0x21] ++ lengthFrames)))))
      ((((((((s.periph.regs.withSetUp c.channel c.dataRate c.paLevel c.addressWidth c.crcMode b).withRetransmit
        c.retryDelay c.maxRetries).write .txAddr c.pipe0Address).write .rxAddrP0 c.pipe0Address).withEnRxaddr
          ⟨true, false, false, false, false, false⟩).withEnAa
            ⟨c.pipe0AutoAck, false, false, false, false, false⟩)).withLengths
            ⟨c.pipe0Length, some 0, some 0, some 0, some 0, some 0⟩) s u := by
  have hpower : ¬ Config.rfPwrLimit ≤ c.paLevel.toNat := Nat.not_le.2 hp
  have hwidth : ¬ (!legalWidth c.addressWidth.toNat || c.pipe0Address.length != c.addressWidth.toNat) = true := by
    simp [hw, ha]
  have hlength : ¬ lengthTooLong c.pipe0Length = true := by
    cases hn : c.pipe0Length with
    | none => simp [lengthTooLong]
    | some n => simpa [lengthTooLong, Config.rxPwLimit] using hl n hn
  have hC := (configured_advance h).trans ((configured_advance h.advance).trans (configured_advance h.advance.advance))
  obtain ⟨s3, s4, s5, s6, hr3, hr4, hr5, hr6, hS⟩ := setUp_runs c.channel c.dataRate c.crcMode hp hw hC.clear hb
  obtain ⟨s7, hr7, hU7, hregs7⟩ := setAutoRetransmit_runs c.retryDelay c.maxRetries hS.clear
  have hC7 := hU7.configured hregs7 (by decide) (by decide)
  have hfit : FitsWidth c.pipe0Address s7.periph.regs :=
    fitsWidth_of_set (old := s.periph.regs.setupAw) hw ha (by rw [hC7.regs, hS.regs]; rfl)
  obtain ⟨s8, hr8, hA8⟩ := setTxAddr_runs hfit hC7.clear
  have hC8 := hA8.configured (by decide) (by decide)
  obtain ⟨s9, hr9, hA9⟩ := setRxAddr_runs .p0 (s := s8) (addr := c.pipe0Address) (by rw [hC8.regs]; exact hfit) hC8.clear
  have hC9 := hA9.configured (by decide) (by decide)
  obtain ⟨s10, s11, u, hr10, hr11, hr12, hC12, hcsn⟩ := finish_runs ⟨true, false, false, false, false, false⟩
    ⟨c.pipe0AutoAck, false, false, false, false, false⟩ (pipe0_lengths hl) hC9.clear
  rw [hC9.regs, hC8.regs, hC7.regs, hS.regs] at hC12
  refine ⟨u, ?_, applied_of hC hS (hC7.trans (hC8.trans (hC9.trans hC12))) hcsn⟩
  rw [configureTx, bind_of_ok (check_passes hpower _ h), bind_of_ok (check_passes hwidth _ h.advance),
    bind_of_ok (check_passes hlength _ h.advance.advance), bind_of_ok hr3, bind_of_ok hr4, bind_of_ok hr5, bind_of_ok hr6,
    bind_of_ok hr7, bind_of_ok hr8]
  exact (bind_of_ok hr9).trans ((bind_of_ok hr10).trans ((bind_of_ok hr11).trans hr12))

end Sys2Proof.Machine

namespace Sys2Proof
open Machine

/-- Settles O31. -/
theorem setPipesRxLengths : Obligations.SetPipesRxLengths := by
  intro l s hs hl
  obtain ⟨u, hr, hC, hcsn⟩ := setPipesRxLengths_runs hl (hs.start (.setPipesRxLengths l))
  obtain ⟨evs, hev, hsub, hreads⟩ := hC.events
  refine ⟨_, evs, hostOp_returns hs.idle hs.inLive (returningUnit_returns hr),
    ⟨rfl, rfl, hC.mode, hC.ce, hC.shadow, hC.fault, hC.requests, hC.params⟩, hcsn, hev, hsub, ?_, ?_, hC.radio⟩
  · rw [hreads, lengthReads, flatMap_ite]
  · exact hC.regs.trans (withLengths_eq _ _)

/-- Settles O32. -/
theorem configureRx : Obligations.ConfigureRx := by
  intro c b s hs hb hp hw ha hl
  obtain ⟨u, hr, hA⟩ := configureRx_runs (hs.start (.configureRx c)) hb hp hw ha hl
  obtain ⟨reads, hR⟩ := hA.ran
  obtain ⟨evs, hev, hsub, -⟩ := hR.events
  refine ⟨_, evs, hostOp_returns hs.idle hs.inLive (returningUnit_returns hr), rfl, rfl, hR.mode, hR.ce, hA.high,
    hR.fault, hR.requests, hev, hsub, hA.radio, hA.shadow, hA.regs.trans ?_⟩
  rw [withLengths_eq, foldl_withAddr]
  simp only [Regs.withEnAa, Regs.withEnRxaddr, Regs.withSetUp, Regs.withConfig, Regs.withWidth, withRf_eq,
    Regs.withChannel]
  rfl

/-- Settles O33. -/
theorem configureTx : Obligations.ConfigureTx := by
  intro c b s hs hb hp hw ha hl
  obtain ⟨u, hr, hA⟩ := configureTx_runs (hs.start (.configureTx c)) hb hp hw ha hl
  obtain ⟨reads, hR⟩ := hA.ran
  obtain ⟨evs, hev, hsub, -⟩ := hR.events
  refine ⟨_, evs, hostOp_returns hs.idle hs.inLive (returningUnit_returns hr), rfl, rfl, hR.mode, hR.ce, hA.high,
    hR.fault, hR.requests, hev, hsub, hA.radio, hA.shadow, hA.regs.trans ?_⟩
  rw [withLengths_eq]
  simp only [Regs.withEnAa, Regs.withEnRxaddr, Regs.withSetUp, Regs.withConfig, Regs.withWidth, withRf_eq,
    Regs.withChannel, Regs.withRetransmit, Regs.write, pipe0_dynamic, fromBools_pipe0, any_pipe0, lengthByte_zero, if_true]
  rfl

end Sys2Proof
end

section
/-! PROOFS. The mode state machine (rules R310 to R318): construction up to the width test, and each transition made of
the CONFIG path and a CE write. -/

namespace Sys2Proof.Machine

variable {i : Instr} {s t u : State} {b new : Byte}

/-! ## The CONFIG path, by its events -/

theorem ConfigSet.shown {flagged : Bool} (h : ConfigSet flagged b new s u) :
    ∃ evs, u.events = s.events ++ evs ∧ (new = b &&& 0x7F#8 → evs = []) ∧
      (new ≠ b &&& 0x7F#8 → ∃ inp, evs = frameEvents (.wRegister .config [new]) inp) := by
  by_cases he : new = b &&& 0x7F#8
  · exact ⟨[], by simp [(h.suppressed he).1], fun _ => rfl, fun hn => absurd he hn⟩
  · obtain ⟨⟨inp, hev⟩, -⟩ := h.written he
    exact ⟨_, hev, fun hn => absurd hn he, fun _ => ⟨inp, rfl⟩⟩

/-- The registers after a CONFIG write: the reserved bit stays. -/
def Regs.setConfig (regs : Regs) (new : Byte) : Regs := { regs with config := (regs.config &&& 0x80#8) ||| new }

/-- A write of CONFIG through the shadow. -/
structure ConfigWritten (new : Byte) (inp : List Byte) (s u : State) : Prop where
  clear : Clear u
  quiet : Quiet s → Quiet u
  events : u.events = s.events ++ frameEvents (.wRegister .config [new]) inp
  mode : u.mode = s.mode
  ce : u.ce = s.ce
  csn : u.csn = .high
  shadow : u.shadow = some new
  fault : u.fault = s.fault
  requests : u.requests = s.requests
  regs : u.periph.regs = s.periph.regs.setConfig new
  radio : Quiet s → u.periph.radio = s.periph.radio

theorem writeConfig_ok (v : ConfigReg) (h : Clear s) :
    ∃ inp u, writeReg configReg v s = .ok (Status.decode (inp.headD 0)) u ∧ ConfigWritten v.encode inp s u := by
  obtain ⟨inp, t, u, hF, hr, hu⟩ := writeReg_ok configReg v h (fun ha => by cases ha)
  have hF : Framed (.wRegister .config [v.encode]) inp s t := hF
  have hu : u = (t.withShadow v.encode).advance := hu
  subst hu
  refine ⟨inp, _, hr, Clear.advance (s := t.withShadow _) ⟨hF.clear.ports, hF.clear.whole⟩, hF.quiet, hF.events, hF.mode,
    hF.ce, hF.csn, rfl, hF.fault, hF.requests, hF.regs.trans ?_, fun hq => ?_⟩
  · exact congrArg (fun x => { s.periph.regs with config := x }) (mergeBits_config _ v)
  · show t.periph.radio = _
    rw [quiet_write hF hq]
    rfl

/-! ## Construction -/

/-- The default CONFIG of `new` (rule R311). -/
def newByte (a b c : Bool) : Byte :=
  0x08#8 ||| (if a then 0x40#8 else 0) ||| (if b then 0x20#8 else 0) ||| (if c then 0x10#8 else 0)

theorem defaultConfig_encode (a b c : Bool) : (defaultConfig a b c).encode = newByte a b c := by
  cases a <;> cases b <;> cases c <;> rfl

theorem newByte_powered (a b c : Bool) :
    ({ ConfigReg.decode (newByte a b c) with pwrUp := true } : ConfigReg).encode = newByte a b c ||| 0x02#8 ∧
      newByte a b c ||| 0x02#8 ≠ newByte a b c &&& 0x7F#8 := by
  cases a <;> cases b <;> cases c <;> decide

theorem newByte_merged (a b c : Bool) : ∀ old : BitVec 8,
    (((old &&& 0x80#8) ||| newByte a b c) &&& 0x80#8) ||| (newByte a b c ||| 0x02#8) =
      (old &&& 0x80#8) ||| newByte a b c ||| 0x02#8 := by
  cases a <;> cases b <;> cases c <;> decide

/-- `new` raises CSN: one pin write, and nothing of the peripheral but what the world does. -/
theorem raiseCsn_ok (h : Clear s) : ∃ u, raiseCsn s = .ok () u ∧ Clear u ∧ (Quiet s → Quiet u) ∧
    u.events = s.events ++ [.pin .csn true true] ∧ u.csn = .high ∧ u.mode = s.mode ∧ u.ce = s.ce ∧ u.fault = s.fault ∧
    u.requests = s.requests ∧ u.periph.regs = s.periph.regs ∧ (Quiet s → u.periph.radio = s.periph.radio) := by
  have hpin : primitive (pinWrite .csn true) s = .ok true (s.moved s.pinEvents (.pin .csn true true)).advance :=
    primitive_ok h.whole (run_pinWrite_ok h.ports)
  have hset : primitive (setCsn (if true then .high else .unknown))
      (s.moved s.pinEvents (.pin .csn true true)).advance =
      .ok () ((s.moved s.pinEvents (.pin .csn true true)).advance.withCsn .high).advance :=
    primitive_ok (by simpa using h.whole) rfl
  have hr : raiseCsn s = .ok () ((s.moved s.pinEvents (.pin .csn true true)).advance.withCsn .high).advance :=
    (bind_of_ok hpin).trans (bind_of_ok hset)
  refine ⟨_, hr, ⟨h.ports.of_env (.inr rfl), by simpa using h.whole⟩,
    fun hq => hq.of_env (.inr rfl), by simp, rfl, rfl, rfl, rfl, rfl, rfl, fun hq => by simp [hq.pinEvents]⟩

/-- `new` up to the width read: CE low, CSN high, the default CONFIG written. -/
structure Prepared (d : Byte) (s u : State) : Prop where
  clear : Clear u
  quiet : Quiet s → Quiet u
  events : ∃ i1 st, u.events = s.events ++ [.pin .ce false true, .pin .csn true true] ++
    frameEvents (.wRegister .config [d]) i1 ++ frameEvents (.rRegister .setupAw 1) [st, s.periph.regs.setupAw]
  mode : u.mode = s.mode
  ce : u.ce = .low
  csn : u.csn = .high
  shadow : u.shadow = some d
  fault : u.fault = s.fault
  requests : u.requests = s.requests
  regs : u.periph.regs = s.periph.regs.setConfig d
  radio : Quiet s → u.periph.radio = s.periph.radio

/-- What `new` does from the width test on. -/
def constructEnd (w : Nat) : Op Unit := do
  check (!legalWidth w) (raise .notConnected)
  updateConfig fun x => { x with pwrUp := true }
  setMode .standby

theorem construct_prepares (a b c : Bool) (h : Clear s) : ∃ u, Prepared (newByte a b c) s u ∧
    construct a b c s = constructEnd (2 + (s.periph.regs.setupAw &&& 3#8).toNat) u := by
  obtain ⟨s1, hr1, hC⟩ := ceWrite_ok false h
  obtain ⟨s2, hr2, hc2, hq2, hev2, hcsn2, hmode2, hce2, hfault2, hreq2, hregs2, hrad2⟩ := raiseCsn_ok hC.clear
  obtain ⟨i1, s3, hr3, hW⟩ := writeConfig_ok (defaultConfig a b c) hc2.advance
  rw [defaultConfig_encode] at hW
  obtain ⟨st, u, hr4, hF⟩ := getAddressWidth_ok hW.clear
  have haw : s3.periph.regs.setupAw = s.periph.regs.setupAw := by
    rw [hW.regs]
    show s2.periph.regs.setupAw = _
    rw [hregs2, hC.regs]
  rw [haw] at hr4 hF
  have hr3 : ∀ g : Status → Op Unit, (tick >>= fun _ => writeReg configReg (defaultConfig a b c) >>= g) s2 = g _ s3 :=
    fun g => by rw [bind_of_ok (run_tick hc2.whole), bind_of_ok hr3]
  refine ⟨u, ⟨hF.clear, fun hq => hF.quiet (hW.quiet (hq2 (hC.quiet hq))), ⟨i1, st, ?_⟩, ?_, ?_, hF.csn, ?_, ?_, ?_, ?_,
    fun hq => ?_⟩, ?_⟩
  · rw [hF.events, hW.events]
    simp [hev2, hC.events, ceEvent]
  · exact hF.mode.trans (hW.mode.trans (hmode2.trans hC.mode))
  · exact hF.ce.trans (hW.ce.trans (hce2.trans hC.ce))
  · exact hF.shadow.trans hW.shadow
  · exact hF.fault.trans (hW.fault.trans (hfault2.trans hC.fault))
  · exact hF.requests.trans (hW.requests.trans (hreq2.trans hC.requests))
  · exact (hF.regs.trans hW.regs).trans (congrArg (Regs.setConfig · (newByte a b c)) (hregs2.trans hC.regs))
  · have hq3 := hC.quiet hq
    rw [quiet_read hF (hW.quiet (hq2 hq3)), hW.radio (hq2 hq3)]
    exact (hrad2 hq3).trans (hC.quietRadio hq)
  · rw [construct]
    exact (bind_of_ok hr1).trans ((bind_of_ok hr2).trans ((hr3 _).trans (bind_of_ok hr4)))

/-! ## PRIM_RX and PWR_UP -/

theorem primRx_set : ∀ b : BitVec 8, ({ ConfigReg.decode b with primRx := true } : ConfigReg).encode =
    (b &&& 0x7F#8) ||| 1#8 ∧ ((b &&& 0x7F#8) ||| 1#8 = b &&& 0x7F#8 ↔ b.getLsbD 0 = true) := by decide

theorem primRx_clear : ∀ b : BitVec 8, ({ ConfigReg.decode b with primRx := false } : ConfigReg).encode =
    b &&& 0x7E#8 ∧ (b &&& 0x7E#8 = b &&& 0x7F#8 ↔ b.getLsbD 0 = false) := by decide

theorem pwrUp_encode (up : Bool) : ∀ b : BitVec 8, ({ ConfigReg.decode b with pwrUp := up } : ConfigReg).encode =
    (b &&& 0x7D#8) ||| (if up then 0x02#8 else 0) := by cases up <;> decide

/-- `power_up` and `power_down`, marked or not. -/
theorem setPower_runs (up : Bool) (h : Clear s) (hb : s.shadow = some b) : ∃ v u, setPower up s = .ok () u ∧
    ConfigSet (decide (s.ce ≠ .low)) b ((b &&& 0x7D#8) ||| (if up then 0x02#8 else 0)) v u ∧
    v = if s.ce = .low then s.advance else (s.advance.addFault (.hazard .powerToggleWithCe)).advance := by
  have hm := run_markPower h.whole
  by_cases hce : s.ce = .low
  · obtain ⟨u, hr, hC⟩ := updateConfig_sets false (fun x => ({ x with pwrUp := up }, ())) h.advance hb
    rw [pwrUp_encode] at hC
    refine ⟨_, u, ?_, ?_, (if_pos hce).symm⟩
    · rw [setPower, bind_of_ok (hm.trans (if_neg (not_not.2 hce)))]
      exact hr
    · rw [decide_eq_false (not_not.2 hce)]
      exact hC
  · have hc : Clear (s.advance.addFault (.hazard .powerToggleWithCe)).advance := ⟨h.ports, by simpa using h.whole⟩
    obtain ⟨u, hr, hC⟩ := updateConfig_sets true (fun x => ({ x with pwrUp := up }, ())) hc hb
    rw [pwrUp_encode] at hC
    refine ⟨_, u, ?_, ?_, (if_neg hce).symm⟩
    · rw [setPower, bind_of_ok (hm.trans (if_pos hce))]
      exact hr
    · rw [decide_eq_true hce]
      exact hC

end Sys2Proof.Machine

namespace Sys2Proof
open Machine

/-- Settles O35. -/
theorem newSucceeds : Obligations.NewSucceeds := by
  intro a b c s hs hp hm haw
  obtain ⟨u, hP, hr⟩ := construct_prepares a b c (hp.start (.new a b c))
  obtain ⟨i1, st, hev⟩ := hP.events
  obtain ⟨henc, hne⟩ := newByte_powered a b c
  obtain ⟨v, hr2, hC⟩ := updateConfig_sets false (fun x => ({ x with pwrUp := true }, ())) hP.clear.advance hP.shadow
  rw [henc] at hC
  obtain ⟨⟨i2, hev2⟩, hshadow, hcsn, hregs⟩ := hC.written hne
  have hlegal : legalWidth (2 + (s.periph.regs.setupAw &&& 3#8).toNat) = true := by
    rw [legalWidth_field]; exact decide_eq_true haw
  have hend : construct a b c (s.start (.new a b c)) = .ok () (v.withMode .standby).advance := by
    refine hr.trans ((bind_of_ok (check_passes (not_illegal hlegal) _ hP.clear)).trans ?_)
    exact (bind_of_ok hr2).trans (run_setMode _ hC.clear.whole)
  refine ⟨_, i1, st, i2, hostOp_returns hs (by rw [hm]; rfl) (returningUnit_returns hend), rfl, rfl, rfl,
    hC.ce.trans hP.ce, hcsn, hC.fault.trans hP.fault, hC.requests.trans hP.requests, ⟨hshadow, ?_, ?_⟩, fun hq => ?_⟩
  · exact hev2.trans (congrArg (· ++ _) hev)
  · refine hregs.trans ?_
    show u.periph.regs.setConfig _ = _
    rw [hP.regs]
    exact congrArg (fun x => { s.periph.regs with config := x }) (newByte_merged a b c s.periph.regs.config)
  · exact (hC.radio rfl (hP.quiet hq)).trans (hP.radio hq)

/-- Settles O36: the width test ends `new` after the SETUP_AW read. -/
theorem newNotConnected : Obligations.NewNotConnected := by
  intro a b c s hs hp hm haw
  obtain ⟨u, hP, hr⟩ := construct_prepares a b c (hp.start (.new a b c))
  obtain ⟨i1, st, hev⟩ := hP.events
  have hillegal : (!legalWidth (2 + (s.periph.regs.setupAw &&& 3#8).toNat)) = true := by
    rw [legalWidth_field]; simp [haw]
  have hend : construct a b c (s.start (.new a b c)) = .error (.err .notConnected) u.advance := by
    refine hr.trans (bind_of_error ?_)
    rw [run_check _ _ hP.clear.whole]
    exact if_pos hillegal
  exact ⟨_, i1, st, hostOp_fails hs (by rw [hm]; rfl) (returningUnit_raises hend), rfl, rfl, hP.mode.trans hm, hP.ce,
    hP.csn, hP.fault, hP.shadow, hev, hP.regs⟩

/-- Settles O37. -/
theorem enterRxAndTx : Obligations.EnterRxAndTx := by
  refine fun b s hs hm hb => ⟨?_, ?_⟩
  · obtain ⟨henc, hiff⟩ := primRx_set b
    obtain ⟨v, hr1, hC⟩ := updateConfig_sets false (fun x => ({ x with primRx := true }, ())) (hs.start .rx) hb
    rw [henc] at hC
    obtain ⟨evs, hev, hnone, hframe⟩ := hC.shown
    obtain ⟨w, hr2, hW⟩ := ceWrite_ok true hC.clear
    have hend : enterRx (s.start .rx) = .ok () (w.withMode .rx).advance :=
      (bind_of_ok hr1).trans ((bind_of_ok hr2).trans (run_setMode _ hW.clear.whole))
    refine ⟨_, evs, hostOp_returns hs.idle (by rw [hm]; rfl) (returningUnit_returns hend), rfl, rfl, rfl, hW.ce,
      hW.fault.trans hC.fault, hW.events.trans (congrArg (· ++ _) hev), fun h0 => ?_, fun h0 => ?_, fun hq => ?_⟩
    · obtain ⟨-, hshadow, hperiph, -⟩ := hC.suppressed (hiff.2 h0)
      exact ⟨hnone (hiff.2 h0), hW.shadow.trans (hshadow.trans hb), hW.regs.trans (congrArg Periph.regs hperiph)⟩
    · have hne := fun he => Bool.false_ne_true (h0.symm.trans (hiff.1 he))
      obtain ⟨-, hshadow, -, hregs⟩ := hC.written hne
      exact ⟨hframe hne, hW.shadow.trans hshadow, hW.regs.trans hregs⟩
    · exact (hW.quietRadio (hC.quiet hq)).trans (hC.radio rfl hq)
  · obtain ⟨henc, hiff⟩ := primRx_clear b
    obtain ⟨v, hr1, hC⟩ := updateConfig_sets false (fun x => ({ x with primRx := false }, ())) (hs.start .tx) hb
    rw [henc] at hC
    obtain ⟨evs, hev, hnone, hframe⟩ := hC.shown
    have hend : enterTx (s.start .tx) = .ok () (v.withMode .tx).advance :=
      (bind_of_ok hr1).trans (run_setMode _ hC.clear.whole)
    refine ⟨_, evs, hostOp_returns hs.idle (by rw [hm]; rfl) (returningUnit_returns hend), rfl, rfl, rfl, hC.ce,
      hC.fault, hev, fun h0 => ?_, fun h0 => ?_, fun hq => hC.radio rfl hq⟩
    · obtain ⟨-, hshadow, hperiph, -⟩ := hC.suppressed (hiff.2 h0)
      exact ⟨hnone (hiff.2 h0), hshadow.trans hb, congrArg Periph.regs hperiph⟩
    · have hne := fun he => Bool.false_ne_true ((hiff.1 he).symm.trans h0)
      obtain ⟨-, hshadow, -, hregs⟩ := hC.written hne
      exact ⟨hframe hne, hshadow, hregs⟩

/-- Settles O38. -/
theorem standbyFromRx : Obligations.StandbyFromRx := by
  intro s hs hm
  obtain ⟨w, hr, hW⟩ := ceWrite_ok false (hs.start .standbyRx)
  have hend : leaveRx (s.start .standbyRx) = .ok () (w.withMode .standby).advance :=
    (bind_of_ok hr).trans (run_setMode _ hW.clear.whole)
  refine ⟨_, hostOp_returns hs.idle (by rw [hm]; rfl) (returningUnit_returns hend), rfl, rfl, rfl, hW.ce, hW.events,
    hW.csn, hW.shadow, hW.fault, hW.regs, fun hq => ?_⟩
  show w.periph = s.periph
  rw [← show Periph.mk w.periph.regs w.periph.radio = w.periph from rfl, hW.regs, hW.quietRadio hq]
  rfl

/-- Settles O39. -/
theorem powerOperations : Obligations.PowerOperations := by
  intro up b s hs hb
  have power : ∀ i : Instr, exec i s = hostOp i inLive (returningUnit (setPower up)) s →
      ∃ t, exec i s = .next t ∧ t.result = some (.ok .unit) ∧
        ConfigUpdated b ((b &&& 0x7D#8) ||| (if up then 0x02#8 else 0)) s t ∧
        t.fault = (if s.ce = .low then s.fault else s.fault.add (.hazard .powerToggleWithCe)) ∧
        (s.ce = .low → Quiet s → t.periph.radio = s.periph.radio) := by
    intro i hexec
    obtain ⟨v, u, hr, hC, hv⟩ := setPower_runs up (hs.start i) hb
    have hce : (s.start i).ce = s.ce := rfl
    rw [hce] at hC hv
    refine ⟨_, hexec.trans (hostOp_returns hs.idle hs.inLive (returningUnit_returns hr)), rfl, ?_, ?_, fun hl hq => ?_⟩
    · split at hv <;> subst hv <;>
        exact ⟨hC.mode, hC.ce, hC.requests, hC.params, rfl, hC.suppressed, hC.written⟩
    · by_cases hl : s.ce = .low
      · rw [if_pos hl] at hv ⊢
        exact hC.fault.trans (by rw [hv]; rfl)
      · rw [if_neg hl] at hv ⊢
        exact hC.fault.trans (by rw [hv]; rfl)
    · rw [if_pos hl] at hv
      subst hv
      exact hC.radio (decide_eq_false (not_not.2 hl)) hq
  cases up with
  | true => exact power .powerUp rfl
  | false => exact power .powerDown rfl

end Sys2Proof
end

section
/-! PROOFS. The receive operations and the admission into the TX FIFO (rules R340 to R345, R370, R371, R375): reads of one
byte of the radio state, said once, and the operations made of them. -/

namespace Sys2Proof.Machine

variable {α : Type} {i : Instr} {s t u : State} {c : Cmd} {inp : List Byte} {d : List Byte}

/-! ## Reads of one byte -/

/-- A read of any one-byte register; in a quiet world its bytes are the peripheral's. -/
theorem readReg_one (r : Reg) (enc : α → Byte) (dec : Byte → α) (h : Clear s) (ha : r.isAddress = false) :
    ∃ st x u, readReg (RegType.byte r enc dec) 1 s = .ok (Status.decode st, dec x) u ∧
      Framed (.rRegister r 1) [st, x] s u ∧
      (Quiet s → Status.decode st = s.periph.radio.status ∧ ∃ n, [x] = s.periph.readReg s.params n r 1) := by
  obtain ⟨inp, u, hr, hF⟩ := readReg_ok (RegType.byte r enc dec) 1 h (by simp [RegType.byte, ha])
  rw [ite_self] at hF
  have hF : Framed (.rRegister r 1) inp s u := hF
  obtain ⟨st, x, rfl⟩ : ∃ st x, inp = [st, x] := List.length_eq_two.1 (hF.len.trans (len_rRegister r 1))
  refine ⟨st, x, u, hr, hF, fun hq => ?_⟩
  obtain ⟨n, m, hst, hd, -⟩ := hF.quiet_response hq
  refine ⟨hst, n, hd.trans (fillTo_self n ?_)⟩
  exact readReg_length (by simp [Reg.legalLen, ha]) _ _ _ ha

/-- A query: an operation that reads a one-byte register and returns what it makes of it. -/
theorem query_returns {legal : Mode → Bool} (r : Reg) (enc : α → Byte) (dec : Byte → α) (v : α → Value)
    (hs : Ready s) (hl : legal s.mode = true) (ha : r.isAddress = false) :
    ∃ t st x, hostOp i legal (readReg (RegType.byte r enc dec) 1 >>= fun p => pure (v p.2)) s = .next t ∧
      Returned s t (v (dec x)) ∧ t.csn = .high ∧
      t.events = s.events ++ frameEvents (.rRegister r 1) [st, x] ∧ t.periph.regs = s.periph.regs ∧
      (Quiet s → (∃ n, [x] = s.periph.readReg s.params n r 1) ∧ t.periph = s.periph) := by
  obtain ⟨st, x, u, hr, hF, hq⟩ := readReg_one r enc dec (hs.start i) ha
  exact ⟨_, st, x, hostOp_returns hs.idle hl (bind_of_ok hr), hF.passed.returned _, hF.csn, hF.events, hF.regs,
    fun h => ⟨(hq h).2, by have := quiet_read hF h; exact this⟩⟩

theorem fifoStatus_decode_byte (par : Params) (r : Radio) : FifoStatus.decode (r.fifoStatusByte par) = r.fifoStatus par := by
  have h : ∀ (v : FifoStatus) (b : Bool) (x : BitVec 2), FifoStatus.decode (v.encode ||| bitAt 7 b ||| fieldAt 2 x) = v := by
    rintro ⟨a, b, c, d, e⟩ f x; revert a b c d e f x; decide
  exact h _ _ _

/-- The FIFO_STATUS byte read in a quiet world. -/
theorem decode_fifo {x : Byte} {n : Nat} {p : Periph} {par : Params} (h : [x] = p.readReg par n .fifoStatus 1) :
    FifoStatus.decode x = p.radio.fifoStatus par := by
  rw [(List.cons.inj h).1, fifoStatus_decode_byte]

theorem readFifo_ok (h : Clear s) : ∃ st fs u, readFifo s = .ok (Status.decode st, FifoStatus.decode fs) u ∧
    Framed (.rRegister .fifoStatus 1) [st, fs] s u ∧
    (Quiet s → Status.decode st = s.periph.radio.status ∧ FifoStatus.decode fs = s.periph.radio.fifoStatus s.params) := by
  obtain ⟨st, fs, u, hr, hF, hq⟩ := readReg_one .fifoStatus FifoStatus.encode FifoStatus.decode h rfl
  exact ⟨st, fs, u, hr, hF, fun h => ⟨(hq h).1, (hq h).2.elim fun _ => decode_fifo⟩⟩

/-! ## Admission into the TX FIFO -/

/-- The FIFO_STATUS read and the test of TX_FULL, before the frame that queues. -/
def admission (g : Op Unit) : Op Unit := do
  let (_, fs) ← readFifo
  check fs.txFull (raise .queueFull)
  g

theorem admission_room (h : Clear s) (hq : Quiet s) (hl : s.periph.radio.txFifo.length < 3) :
    ∃ st fs u, Framed (.rRegister .fifoStatus 1) [st, fs] s u ∧ ∀ g, admission g s = g u.advance := by
  obtain ⟨st, fs, u, hr, hF, hfs⟩ := readFifo_ok h
  refine ⟨st, fs, u, hF, fun g => (bind_of_ok hr).trans (bind_of_ok (check_passes ?_ _ hF.clear))⟩
  rw [(hfs hq).2]
  exact Bool.eq_false_iff.1 (decide_eq_false (Nat.not_le.2 hl))

theorem admission_full (h : Clear s) (hq : Quiet s) (hl : 3 ≤ s.periph.radio.txFifo.length) :
    ∃ st fs u, Framed (.rRegister .fifoStatus 1) [st, fs] s u ∧
      ∀ g, admission g s = .error (.err .queueFull) u.advance := by
  obtain ⟨st, fs, u, hr, hF, hfs⟩ := readFifo_ok h
  refine ⟨st, fs, u, hF, fun g => (bind_of_ok hr).trans (bind_of_error (check_raises ?_ _ hF.clear.whole))⟩
  rw [(hfs hq).2]
  exact decide_eq_true hl

theorem not_too_long_payload (hd : d.length ≤ 32) : ¬ Config.payloadMax < d.length := Nat.not_lt.2 hd

theorem send_admits (hd : d.length ≤ 32) (h : Clear s) : send d s = admission (do
    let _ ← frame (.wTxPayload d)
    ceEnable) s.advance := bind_of_ok (check_passes (not_too_long_payload hd) _ h)

theorem push_admits (p : Pipe) (hd : d.length ≤ 32) (h : Clear s) : push (BitVec.ofNat 8 p.toNat) d s = admission (do
    let _ ← frame (.wAckPayload p d)) s.advance.advance := by
  rw [push_of_pipe (ofNat?_toNat p) d h.whole]
  exact bind_of_ok (check_passes (not_too_long_payload hd) _ h.advance)

/-- A frame that queues, in a quiet world. -/
theorem Framed.queued {e : TxEntry} (h : Framed c inp s u) (hq : Quiet s)
    (hc : c = .wTxPayload d ∧ e = .data d ∨ ∃ p, c = .wAckPayload p d ∧ e = .ack p d false)
    (hl : s.periph.radio.txFifo.length < 3) : u.periph.regs = s.periph.regs ∧
      (d ≠ [] → u.periph.radio = { s.periph.radio with txFifo := s.periph.radio.txFifo ++ [e] }) ∧
      (d = [] → u.periph.radio = { s.periph.radio with txFifo := u.periph.radio.txFifo } ∧
        u.periph.radio.txFifo.length ≤ 3) := by
  obtain ⟨n, m, -, hp⟩ := h.quietPeriph hq
  have hp : u.periph = { s.periph with radio := s.periph.radio.enqueue m d e } := by
    rcases hc with ⟨rfl, rfl⟩ | ⟨p, rfl, rfl⟩ <;> exact hp
  rw [hp]
  exact ⟨rfl, fun hd => enqueue_room m hd e hl, fun _ => ⟨enqueue_rest .., enqueue_length ..⟩⟩

/-! ## The RX FIFO -/

/-- `read` after its width frame. -/
def readRest (w : Nat) : Op Payload := do
  tick
  if Config.payloadMax < w then
    let _ ← frame .flushRx
    return Payload.empty
  else
    tick
    if w = 0 then
      openRxFifo
      return Payload.empty
    else
      let (_, bytes) ← frame (.rRxPayload w)
      return Payload.ofBytes bytes

theorem readPayload_width (h : Clear s) : ∃ st w u, Framed .rRxPlWid [st, w] s u ∧
    readPayload s = readRest w.toNat u ∧
    (Quiet s → u.periph = s.periph ∧
      ∀ pkt rest, s.periph.radio.rxFifo = pkt :: rest → w = BitVec.ofNat 8 pkt.data.length) := by
  obtain ⟨inp, u, hr, hF⟩ := frame_ok .rRxPlWid h
  obtain ⟨st, w, rfl⟩ : ∃ st w, inp = [st, w] := List.length_eq_two.1 hF.len
  refine ⟨st, w, u, hF, bind_of_ok hr, fun hq => ?_⟩
  obtain ⟨n, m, -, hd, hp⟩ := hF.quiet_response hq
  refine ⟨hp, fun pkt rest hf => ?_⟩
  simp only [Periph.answer, hf] at hd
  exact (List.cons.inj hd).1

theorem readRest_flushes {w : Nat} (hw : 32 < w) (h : Clear s) :
    ∃ inp u, readRest w s = .ok Payload.empty u ∧ Framed .flushRx inp s u := by
  obtain ⟨inp, u, hr, hF⟩ := frame_ok .flushRx h.advance
  refine ⟨inp, u, ?_, hF.before⟩
  rw [readRest, bind_of_ok (run_tick h.whole), if_pos hw, bind_of_ok hr]
  rfl

theorem readRest_reads {w : Nat} (hw : w ≤ 32) (h0 : w ≠ 0) (h : Clear s) :
    ∃ inp u, readRest w s = .ok (Payload.ofBytes inp.tail) u ∧ Framed (.rRxPayload w) inp s u := by
  obtain ⟨inp, u, hr, hF⟩ := frame_ok (.rRxPayload w) h.advance.advance
  refine ⟨inp, u, ?_, hF.before.before⟩
  rw [readRest, bind_of_ok (run_tick h.whole), if_neg (Nat.not_lt.2 hw), bind_of_ok (run_tick h.advance.whole), if_neg h0,
    bind_of_ok hr]
  rfl

/-- A payload frame in a quiet world: the head packet is removed, its bytes answered where the frame is as long. -/
theorem Framed.popped {w : Nat} (h : Framed (.rRxPayload w) inp s u) (hq : Quiet s) :
    u.periph = { s.periph with radio := { s.periph.radio with rxFifo := s.periph.radio.rxFifo.tail } } ∧
      ∀ pkt rest, s.periph.radio.rxFifo = pkt :: rest → pkt.data.length = w → inp.tail = pkt.data := by
  obtain ⟨n, m, -, hd, hp⟩ := h.quiet_response hq
  refine ⟨hp, fun pkt rest hf hw => ?_⟩
  have hlen : (Cmd.rRxPayload w).len - 1 = w := by simp
  simp only [Periph.answer, hf, hlen, List.take_of_length_le hw.le, fillTo_self n hw] at hd
  exact hd

theorem Framed.flushed (h : Framed .flushRx inp s u) (hq : Quiet s) :
    u.periph = { s.periph with radio := { s.periph.radio with rxFifo := [] } } := by
  obtain ⟨n, m, -, hp⟩ := h.quietPeriph hq
  exact hp

/-- A width of 0 opens the RX FIFO and no more. -/
structure Opened (s u : State) : Prop extends Passed s u where
  events : u.events = s.events
  csn : u.csn = s.csn
  periph : u.periph = { s.periph with radio := { s.periph.radio with rxFifo := u.periph.radio.rxFifo } }
  bound : u.periph.radio.rxFifo.length ≤ s.params.rxFifoDepth

/-- The state after `openRxFifo`. -/
def State.opened (s : State) : State := s.nextDraw.withPeriph { s.periph with radio :=
  { s.periph.radio with rxFifo := (freeRadio s.params s.draws).rxFifo } }

theorem readRest_opens (h : Clear s) : ∃ u, readRest 0 s = .ok Payload.empty u ∧ Opened s u := by
  have hr : readRest 0 s = .ok Payload.empty s.advance.advance.opened := by
    rw [readRest, bind_of_ok (run_tick h.whole), if_neg (by decide), bind_of_ok (run_tick h.advance.whole), if_pos rfl]
    rfl
  exact ⟨_, hr, ⟨⟨h.ports, h.advance.advance.whole⟩, id, rfl, rfl, rfl, rfl, rfl, rfl, rfl⟩, rfl, rfl, rfl,
    (freeRadio_bounded s.params s.draws).2⟩

end Sys2Proof.Machine

namespace Sys2Proof
open Machine

/-- Settles O44. -/
theorem receiveQueries : Obligations.ReceiveQueries := by
  intro s hs hm
  have hl : inRx s.mode = true := by rw [hm]; rfl
  refine ⟨?_, ?_, ?_⟩
  · obtain ⟨t, st, x, hr, hR, hcsn, hev, hregs, hq⟩ :=
      query_returns (i := .hasCarrier) .cd (bitAt 0) (·.getLsbD 0) Value.bool hs hl rfl
    exact ⟨t, st, x, hr, hR, hcsn, hev, hregs, fun h => ⟨(hq h).1.elim fun _ hx => (List.cons.inj hx).1, (hq h).2⟩⟩
  · obtain ⟨t, st, x, hr, hR, hcsn, hev, hregs, hq⟩ :=
      query_returns (i := .isEmpty) .fifoStatus FifoStatus.encode FifoStatus.decode (.bool ·.rxEmpty) hs hl rfl
    exact ⟨t, st, x, hr, hR, hcsn, hev, hregs,
      fun h => ⟨(hq h).1.elim fun _ hx => congrArg FifoStatus.rxEmpty (decode_fifo hx), (hq h).2⟩⟩
  · obtain ⟨t, st, x, hr, hR, hcsn, hev, hregs, hq⟩ :=
      query_returns (i := .isFull) .fifoStatus FifoStatus.encode FifoStatus.decode (.bool ·.rxFull) hs hl rfl
    exact ⟨t, st, x, hr, hR, hcsn, hev, hregs,
      fun h => ⟨(hq h).1.elim fun _ hx => congrArg FifoStatus.rxFull (decode_fifo hx), (hq h).2⟩⟩

/-- Settles O46. -/
theorem transmitQueries : Obligations.TransmitQueries := by
  intro s hs hm
  have hl : inTx s.mode = true := by rw [hm]; rfl
  refine ⟨?_, ?_⟩
  · obtain ⟨t, st, x, hr, hR, hcsn, hev, hregs, hq⟩ :=
      query_returns (i := .canSend) .fifoStatus FifoStatus.encode FifoStatus.decode (fun fs => .bool !fs.txFull) hs hl rfl
    exact ⟨t, st, x, hr, hR, hcsn, hev, hregs,
      fun h => ⟨(hq h).1.elim fun _ hx => congrArg FifoStatus.txFull (decode_fifo hx), (hq h).2⟩⟩
  · obtain ⟨t, st, x, hr, hR, hcsn, hev, hregs, hq⟩ := query_returns (i := .observe) .observeTx ObserveTx.encode
      ObserveTx.decode (fun x => .counts x.plosCnt x.arcCnt) hs hl rfl
    refine ⟨t, st, x, hr, hR, hcsn, hev, hregs, fun h => ?_⟩
    obtain ⟨⟨n, hx⟩, hp⟩ := hq h
    obtain ⟨h1, h2⟩ := observe_fields s.periph.radio.plosCnt s.periph.radio.arcCnt
    have hx : x = _ := (List.cons.inj hx).1
    rw [hx]
    exact ⟨h1, h2, hp⟩

/-- Settles O40. -/
theorem canReadReturns : Obligations.CanReadReturns := by
  intro s hs hm
  obtain ⟨i1, u, hr1, hF1, hq1⟩ := clearInterrupts_runs (hs.start .canRead)
  obtain ⟨st, fs, v, hr2, hF2, hq2⟩ := readFifo_ok hF1.clear
  have hr : Machine.canRead (s.start .canRead) =
      .ok (if fs.getLsbD 0 then none else some (fieldOf st 1 3)) v.advance :=
    (bind_of_ok hr1).trans ((bind_of_ok hr2).trans (bind_of_ok (run_tick hF2.clear.whole)))
  refine ⟨_, i1, st, fs, hostOp_returns hs.idle (by rw [hm]; rfl) (bind_of_ok hr), hF2.csn,
    ((hF1.passed.trans hF2.passed).trans (passed_advance hF2.clear)).returned _, ?_, hF2.regs.trans hF1.regs,
    fun hq => ⟨?_, ?_⟩⟩
  · exact hF2.events.trans (congrArg (· ++ _) hF1.events)
  · show v.periph.radio = _
    rw [quiet_read hF2 (hF1.quiet hq), hq1 hq]
    rfl
  · obtain ⟨hst, hfs⟩ := hq2 (hF1.quiet hq)
    rw [hq1 hq] at hst hfs
    have hempty : fs.getLsbD 0 = s.periph.radio.rxFifo.isEmpty := congrArg FifoStatus.rxEmpty hfs
    have hpipe : fieldOf st 1 3 = s.periph.radio.rxPNo := congrArg Status.rxPNo hst
    show some (OpResult.ok (Value.pipe _)) = _
    rw [hempty, hpipe, Radio.rxPNo]
    cases s.periph.radio.rxFifo <;> rfl

/-- Settles O41: `read` after the width frame, by the width it brought. -/
theorem readReturns : Obligations.ReadReturns := by
  intro s hs hm hq
  have hl : inRx s.mode = true := by rw [hm]; rfl
  obtain ⟨st, w, u, hF, hr, hw⟩ := readPayload_width (hs.start .read)
  obtain ⟨hperiph, hwidth⟩ := hw hq
  have hperiph : u.periph = s.periph := hperiph
  have hqu : Quiet u := hF.quiet hq
  have returns : ∀ {p v}, readRest w.toNat u = .ok p v → exec .read s = .next (v.returned (.payload p)) :=
    fun h => hostOp_returns hs.idle hl (bind_of_ok (hr.trans h))
  have empty : w = 0 → ∃ t, exec .read s = .next t ∧ Returned s t (.payload Payload.empty) ∧ t.csn = .high ∧
      t.periph = { s.periph with radio := { s.periph.radio with rxFifo := t.periph.radio.rxFifo } } ∧
      t.periph.radio.rxFifo.length ≤ s.params.rxFifoDepth ∧ t.events = s.events ++ frameEvents .rRxPlWid [st, 0] := by
    rintro rfl
    obtain ⟨v, hr2, hO⟩ := readRest_opens hF.clear
    refine ⟨_, returns hr2, (hF.passed.trans hO.toPassed).returned _, hO.csn.trans hF.csn, ?_, ?_,
      hO.events.trans hF.events⟩
    · rw [← hperiph]
      exact hO.periph
    · exact hO.bound.trans_eq (congrArg Params.rxFifoDepth hF.params)
  refine ⟨fun pkt rest hfifo => ⟨fun h1 h32 => ?_, fun h0 => ?_, fun h32 h256 => ?_⟩, fun hfifo => ?_⟩
  · obtain rfl := hwidth pkt rest hfifo
    have hn : (BitVec.ofNat 8 pkt.data.length).toNat = pkt.data.length := Nat.mod_eq_of_lt (by omega)
    rw [hn] at returns
    obtain ⟨i2, v, hr2, hF2⟩ := readRest_reads h32 (by omega) hF.clear
    obtain ⟨hp, hd⟩ := hF2.popped hqu
    rw [hperiph] at hp hd
    rw [hd pkt rest hfifo rfl] at hr2
    refine ⟨_, st, i2, returns hr2, (hF.passed.trans hF2.passed).returned _, hF2.csn, ?_,
      hF2.events.trans (congrArg (· ++ _) hF.events)⟩
    refine hp.trans ?_
    rw [hfifo]
    rfl
  · have hw0 : w = 0 := by rw [hwidth pkt rest hfifo, h0]; rfl
    obtain ⟨t, ht⟩ := empty hw0
    exact ⟨t, st, ht⟩
  · obtain rfl := hwidth pkt rest hfifo
    have hn : (BitVec.ofNat 8 pkt.data.length).toNat = pkt.data.length := Nat.mod_eq_of_lt h256
    rw [hn] at returns
    obtain ⟨i2, v, hr2, hF2⟩ := readRest_flushes h32 hF.clear
    refine ⟨_, st, i2, returns hr2, (hF.passed.trans hF2.passed).returned _, hF2.csn, ?_,
      hF2.events.trans (congrArg (· ++ _) hF.events)⟩
    rw [← hperiph]
    exact hF2.flushed hqu
  · have rest : ∀ {p v}, readRest w.toNat u = .ok p v → Passed u v → v.csn = .high →
        v.periph = { u.periph with radio := { u.periph.radio with rxFifo := [] } } →
        ∃ t p, exec .read s = .next t ∧ Returned s t (.payload p) ∧ t.csn = .high ∧
          t.periph = { s.periph with radio := { s.periph.radio with rxFifo := t.periph.radio.rxFifo } } ∧
          t.periph.radio.rxFifo.length ≤ s.params.rxFifoDepth := fun {p v} h hP hcsn hp => by
      rw [hperiph] at hp
      refine ⟨_, p, returns h, (hF.passed.trans hP).returned _, hcsn, ?_, ?_⟩
      · show v.periph = { s.periph with radio := { s.periph.radio with rxFifo := v.periph.radio.rxFifo } }
        rw [hp]
      · show v.periph.radio.rxFifo.length ≤ _
        rw [hp]
        exact Nat.zero_le _
    rcases Nat.lt_or_ge 32 w.toNat with hbig | hsmall
    · obtain ⟨i2, v, hr2, hF2⟩ := readRest_flushes hbig hF.clear
      exact rest hr2 hF2.passed hF2.csn (hF2.flushed hqu)
    by_cases hw0 : w = 0
    · obtain ⟨t, hr, hR, hcsn, hp, hb, -⟩ := empty hw0
      exact ⟨t, _, hr, hR, hcsn, hp, hb⟩
    · obtain ⟨i2, v, hr2, hF2⟩ := readRest_reads hsmall (fun hn => hw0 (BitVec.eq_of_toNat_eq hn)) hF.clear
      refine rest hr2 hF2.passed hF2.csn ((hF2.popped hqu).1.trans ?_)
      rw [hperiph, hfifo]
      rfl

/-- Settles O42. -/
theorem pushQueues : Obligations.PushQueues := by
  intro p d s hs hm hq hd hl
  have hleg : inStandbyOrRx s.mode = true := by rcases hm with hm | hm <;> rw [hm] <;> rfl
  have hc := hs.start (.push (BitVec.ofNat 8 p.toNat) d)
  obtain ⟨st, fs, u, hF, hadmit⟩ := admission_room hc.advance.advance hq hl
  obtain ⟨i2, v, hr, hF2⟩ := frame_ok (.wAckPayload p d) hF.clear.advance
  have hperiph : u.periph = s.periph := by have := quiet_read hF hq; exact this
  have hq2 := hF2.queued (hF.quiet hq) (.inr ⟨p, rfl, rfl⟩) (by rw [advance_periph, hperiph]; exact hl)
  rw [advance_periph, hperiph] at hq2
  obtain ⟨hregs, hroom, hempty⟩ := hq2
  have hrun : push (BitVec.ofNat 8 p.toNat) d (s.start (.push (BitVec.ofNat 8 p.toNat) d)) = .ok () v :=
    (push_admits p hd hc).trans ((hadmit _).trans (bind_of_ok hr))
  exact ⟨_, st, fs, i2, hostOp_returns hs.idle hleg (returningUnit_returns hrun),
    (hF.before.before.passed.trans hF2.before.passed).returned _, hF2.csn, hregs,
    hF2.events.trans (congrArg (· ++ _) hF.events), hroom, hempty⟩

/-- Settles O43. -/
theorem queueErrors : Obligations.QueueErrors := by
  refine fun d s hs => ⟨fun hm pipe hp => ?_, fun hq hd hl i hi => ?_⟩
  · have hleg : inStandbyOrRx s.mode = true := by rcases hm with hm | hm <;> rw [hm] <;> rfl
    refine hostOp_raises hs.idle hleg (q := .busy (.push pipe d) 1 false none) (returningUnit_raises ?_)
    rw [push, bind_of_ok (run_tick rfl), ofNat?_of_gt pipe hp]
    rfl
  · have full : ∀ {legal : Mode → Bool} {x : Op Unit} {v : State} {g : Op Unit},
        exec i s = hostOp i legal (returningUnit x) s →
        legal s.mode = true → x (s.start i) = admission g v → Clear v → Passed (s.start i) v → v.periph = s.periph →
        v.events = s.events → ∃ t st fs, exec i s = .next t ∧ Raised s t .queueFull ∧ t.csn = .high ∧
          t.periph = s.periph ∧ t.events = s.events ++ frameEvents (.rRegister .fifoStatus 1) [st, fs] := by
      intro legal x v g hexec hleg hx hc hP hperiph hev
      have hqv := hP.quiet hq
      obtain ⟨st, fs, u, hF, hadmit⟩ := admission_full hc hqv (by rw [hperiph]; exact hl)
      refine ⟨_, st, fs, hexec.trans (hostOp_fails hs.idle hleg (returningUnit_raises (hx.trans (hadmit g)))),
        ((hP.trans hF.passed).trans (passed_advance hF.clear)).raised _, hF.csn, ?_, hF.events.trans (congrArg (· ++ _) hev)⟩
      exact (quiet_read hF hqv).trans hperiph
    rcases hi with ⟨rfl, hm⟩ | ⟨⟨p, rfl⟩, hm⟩
    · have hc := hs.start (.send d)
      exact full rfl (by rw [hm]; rfl) (send_admits hd hc) hc.advance (passed_advance hc) rfl rfl
    · have hc := hs.start (.push (BitVec.ofNat 8 p.toNat) d)
      exact full rfl (by rcases hm with hm | hm <;> rw [hm] <;> rfl) (push_admits p hd hc) hc.advance.advance
        ((passed_advance hc).trans (passed_advance hc.advance)) rfl rfl

/-- Settles O45. -/
theorem sendQueues : Obligations.SendQueues := by
  intro d s hs hm hq hd hl
  have hc := hs.start (.send d)
  obtain ⟨st, fs, u, hF, hadmit⟩ := admission_room hc.advance hq hl
  obtain ⟨i2, v, hr, hF2⟩ := frame_ok (.wTxPayload d) hF.clear.advance
  obtain ⟨w, hr2, hW⟩ := ceWrite_ok true hF2.clear
  have hperiph : u.periph = s.periph := by have := quiet_read hF hq; exact this
  have hqu := hF.quiet hq
  have hq2 := hF2.queued hqu (.inl ⟨rfl, rfl⟩) (by rw [advance_periph, hperiph]; exact hl)
  rw [advance_periph, hperiph] at hq2
  obtain ⟨hregs, hroom, hempty⟩ := hq2
  have hradio : w.periph.radio = v.periph.radio := hW.quietRadio (hF2.quiet hqu)
  rw [← hradio] at hroom hempty
  have hrun : send d (s.start (.send d)) = .ok () w :=
    (send_admits hd hc).trans ((hadmit _).trans ((bind_of_ok hr).trans hr2))
  exact ⟨_, st, fs, i2, hostOp_returns hs.idle (by rw [hm]; rfl) (returningUnit_returns hrun), rfl, rfl,
    hW.mode.trans (hF2.mode.trans (hF.mode.trans hm)), hW.ce, hW.csn.trans hF2.csn,
    hW.shadow.trans (hF2.shadow.trans hF.shadow), hW.fault.trans (hF2.fault.trans hF.fault), hW.regs.trans hregs,
    hW.events.trans (congrArg (· ++ _) (hF2.events.trans (congrArg (· ++ _) hF.events))), hroom, hempty⟩

end Sys2Proof
end

section
/-! PROOFS. The drain loop (rules R316, R373): what one pass of `wait_empty` does on an empty FIFO, on a waiting packet and
on MAX_RT, from a new call and from the loop head alike. -/

namespace Sys2Proof.Machine

variable {op i : Instr} {s t u : State} {lost : Bool}

/-! ## One pass -/

/-- What every pass keeps, in a quiet world. -/
structure Pass (s u : State) : Prop where
  clear : Clear u
  quiet : Quiet u
  mode : u.mode = s.mode
  csn : u.csn = .high
  shadow : u.shadow = s.shadow
  fault : u.fault = s.fault
  regs : u.periph.regs = s.periph.regs

/-- CE lowered or raised after the FIFO_STATUS read, the peripheral left as it was. -/
structure CePass (level : Bool) (st fs : Byte) (s u : State) : Prop extends Pass s u where
  ce : u.ce = if level then .high else .low
  periph : u.periph = s.periph
  events : u.events = s.events ++ frameEvents (.rRegister .fifoStatus 1) [st, fs] ++ [ceEvent level]

/-- The recovery from MAX_RT. -/
structure FlushPass (st fs : Byte) (i2 i3 : List Byte) (s u : State) : Prop extends Pass s u where
  ce : u.ce = s.ce
  radio : u.periph.radio = { s.periph.radio with txFifo := [], txDs := false, maxRt := false }
  events : u.events = s.events ++ frameEvents (.rRegister .fifoStatus 1) [st, fs] ++ frameEvents .flushTx i2 ++
    frameEvents (.wRegister .status [0x30]) i3

theorem CeWritten.quiet_periph {level : Bool} (h : CeWritten level s u) (hq : Quiet s) : u.periph = s.periph := by
  rw [← show Periph.mk u.periph.regs u.periph.radio = u.periph from rfl, h.regs, h.quietRadio hq]

/-- A CE write after the FIFO_STATUS read. -/
theorem cePass_of {level : Bool} {st fs : Byte} (hq : Quiet s) (hF : Framed (.rRegister .fifoStatus 1) [st, fs] s t)
    (hW : CeWritten level t.advance u) : CePass level st fs s u := by
  have hqt : Quiet t.advance := hF.quiet hq
  have hp : u.periph = s.periph := (hW.quiet_periph hqt).trans (by have := quiet_read hF hq; exact this)
  exact ⟨⟨hW.clear, hW.quiet hqt, hW.mode.trans hF.mode, hW.csn.trans hF.csn, hW.shadow.trans hF.shadow,
    hW.fault.trans hF.fault, congrArg Periph.regs hp⟩, hW.ce, hp, hW.events.trans (congrArg (· ++ _) hF.events)⟩

/-- On an empty TX FIFO a pass lowers CE and ends, with the loss if one was seen. -/
theorem waitPass_ends (lost : Bool) (h : Clear s) (hq : Quiet s) (hf : s.periph.radio.txFifo = []) :
    ∃ st fs u, CePass false st fs s u ∧
      waitPass lost s = if lost then .error (.err .maxRetransmitsExceeded) u.advance else .ok none u.advance := by
  obtain ⟨st, fs, t, hr, hF, hfs⟩ := readFifo_ok h
  obtain ⟨u, hr2, hW⟩ := ceWrite_ok false hF.clear.advance
  have hempty : (FifoStatus.decode fs).txEmpty = true := by rw [(hfs hq).2, Radio.fifoStatus, hf]; rfl
  refine ⟨st, fs, u, cePass_of hq hF hW, ?_⟩
  rw [waitPass]
  refine (bind_of_ok hr).trans ((bind_of_ok (run_tick hF.clear.whole)).trans ?_)
  rw [if_pos hempty]
  refine (bind_of_ok hr2).trans ?_
  cases lost with
  | false => exact bind_of_ok (check_passes (by decide) _ hW.clear)
  | true => exact bind_of_error (check_raises rfl _ hW.clear.whole)

/-- With a packet waiting and MAX_RT clear a pass keeps CE asserted. -/
theorem waitPass_waits (lost : Bool) (h : Clear s) (hq : Quiet s) (hf : s.periph.radio.txFifo ≠ [])
    (hm : s.periph.radio.maxRt = false) :
    ∃ st fs u, CePass true st fs s u ∧ waitPass lost s = .ok (some lost) u := by
  obtain ⟨st, fs, t, hr, hF, hfs⟩ := readFifo_ok h
  obtain ⟨u, hr2, hW⟩ := ceWrite_ok true hF.clear.advance.advance
  have hempty : ¬ (FifoStatus.decode fs).txEmpty = true := by
    rw [(hfs hq).2]; simpa [Radio.fifoStatus] using hf
  have hmax : ¬ (Status.decode st).maxRt = true := by rw [(hfs hq).1]; simpa [Radio.status] using hm
  refine ⟨st, fs, u, cePass_of hq hF.after hW, ?_⟩
  rw [waitPass]
  refine (bind_of_ok hr).trans ((bind_of_ok (run_tick hF.clear.whole)).trans ?_)
  rw [if_neg hempty, bind_of_ok (run_tick hF.clear.advance.whole), if_neg hmax]
  exact bind_of_ok hr2

/-- With MAX_RT set and a packet waiting a pass flushes, clears TX_DS and MAX_RT and remembers the loss. -/
theorem waitPass_flushes (lost : Bool) (h : Clear s) (hq : Quiet s) (hf : s.periph.radio.txFifo ≠ [])
    (hm : s.periph.radio.maxRt = true) :
    ∃ st fs i2 i3 u, FlushPass st fs i2 i3 s u ∧ waitPass lost s = .ok (some true) u.advance := by
  obtain ⟨st, fs, t, hr, hF, hfs⟩ := readFifo_ok h
  obtain ⟨i2, v, hr2, hF2⟩ := frame_ok .flushTx hF.clear.advance.advance
  obtain ⟨i3, u, hF3, hr3⟩ := writeReg_frame statusReg txFlags hF2.clear (by decide) (by decide)
  have hF3 : Framed (.wRegister .status [0x30]) i3 v u := hF3
  have hqt : Quiet t.advance.advance := hF.quiet hq
  have hempty : ¬ (FifoStatus.decode fs).txEmpty = true := by
    rw [(hfs hq).2]; simpa [Radio.fifoStatus] using hf
  have hmax : (Status.decode st).maxRt = true := by rw [(hfs hq).1]; exact hm
  obtain ⟨n, m, -, hv⟩ := hF2.quietPeriph hqt
  have hp : u.periph = { s.periph with radio := { s.periph.radio with txFifo := [], txDs := false, maxRt := false } } := by
    rw [quiet_write hF3 (hF2.quiet hqt), hv, advance_periph, advance_periph, quiet_read hF hq]
    simp [Periph.commit, Periph.write, Regs.write, Radio.write, Status.decode]
  refine ⟨st, fs, i2, i3, u, ⟨⟨hF3.clear, hF3.quiet (hF2.quiet hqt), hF3.mode.trans (hF2.mode.trans hF.mode), hF3.csn,
    hF3.shadow.trans (hF2.shadow.trans hF.shadow), hF3.fault.trans (hF2.fault.trans hF.fault), by rw [hp]⟩,
    hF3.ce.trans (hF2.ce.trans hF.ce), by rw [hp],
    hF3.events.trans (congrArg (· ++ _) (hF2.events.trans (congrArg (· ++ _) hF.events)))⟩, ?_⟩
  rw [waitPass]
  refine (bind_of_ok hr).trans ((bind_of_ok (run_tick hF.clear.whole)).trans ?_)
  rw [if_neg hempty, bind_of_ok (run_tick hF.clear.advance.whole), if_pos hmax, bind_of_ok hr2]
  exact (bind_of_ok hr3).trans (bind_of_ok (run_tick hF3.clear.whole))

/-! ## The pass as an instruction -/

/-- Where a pass runs from: the block with `B.seq` at the loop head, the result port empty. -/
structure PassStart (s w : State) : Prop where
  clear : PortsOk s → Clear w
  quiet : Quiet s → Quiet w
  mode : w.mode = s.mode
  ce : w.ce = s.ce
  csn : w.csn = s.csn
  shadow : w.shadow = s.shadow
  fault : w.fault = s.fault
  periph : w.periph = s.periph
  events : w.events = s.events

theorem loopOp_passes {pass : Bool → Op (Option Bool)} (h : AtPass op lost s) (hm : s.mode = .tx) :
    ∃ w, PassStart s w ∧ loopOp op inTx pass s = deliverPass op (pass lost w) := by
  have hl : inTx s.mode = true := by rw [hm]; rfl
  rcases h with ⟨hs, rfl⟩ | hs
  · exact ⟨_, ⟨fun hp => (hp.start op).advance, id, rfl, rfl, rfl, rfl, rfl, rfl, rfl⟩, loopOp_starts hs hl⟩
  · exact ⟨s.withResult none, ⟨fun hp => ⟨hp, congrArg SeqPos.began hs⟩, id, rfl, rfl, rfl, rfl, rfl, rfl, rfl⟩,
      loopOp_goes_on hs hl⟩

/-- The pass of either looping operation, where `wait_empty`'s pass goes on or raises. -/
theorem exec_pass (ho : op = .waitEmpty ∨ op = .standbyTx) (h : AtPass op lost s) (hm : s.mode = .tx) :
    ∃ w, PassStart s w ∧
      (∀ l u, waitPass lost w = .ok (some l) u → exec op s = .next (u.withSeq (.busy op loopHead l none))) ∧
      (∀ e u, waitPass lost w = .error (.err e) u → exec op s = .next (u.raised e)) ∧
      (∀ u, waitPass lost w = .ok none u → Clear u →
        (op = .waitEmpty → exec op s = .next (u.returned .unit)) ∧
        (op = .standbyTx → ∃ v, CeWritten false u v ∧
          exec op s = .next ((v.withMode .standby).advance.returned .unit))) := by
  rcases ho with rfl | rfl
  · obtain ⟨w, hw, hr⟩ := loopOp_passes (pass := waitPass) h hm
    exact ⟨w, hw, fun l u hx => hr.trans (by rw [hx]; rfl), fun e u hx => hr.trans (by rw [hx]; rfl),
      fun u hx _ => ⟨fun _ => hr.trans (by rw [hx]; rfl), fun he => by cases he⟩⟩
  · obtain ⟨w, hw, hr⟩ := loopOp_passes (pass := leaveTxPass) h hm
    refine ⟨w, hw, fun l u hx => hr.trans (by rw [leaveTxPass, bind_of_ok hx]; rfl),
      fun e u hx => hr.trans (by rw [leaveTxPass, bind_of_error hx]; rfl),
      fun u hx hc => ⟨fun he => by (cases he), fun _ => ?_⟩⟩
    obtain ⟨v, hr2, hW⟩ := ceWrite_ok false hc
    have hend : leaveTxPass lost w = .ok none (v.withMode .standby).advance :=
      (bind_of_ok hx).trans ((bind_of_ok hr2).trans (bind_of_ok (run_setMode _ hW.clear.whole)))
    exact ⟨v, hW, hr.trans (by rw [hend]; rfl)⟩

end Sys2Proof.Machine

namespace Sys2Proof
open Machine

/-- Settles O47. -/
theorem drainEnds : Obligations.DrainEnds := by
  intro op lost s ho hm ha hq hf
  obtain ⟨w, hw, -, hraise, hend⟩ := exec_pass ho ha hm
  obtain ⟨st, fs, u, hP, hr⟩ := waitPass_ends lost (hw.clear hq.portsOk) (hw.quiet hq) (by rw [hw.periph]; exact hf)
  have hmode := hP.mode.trans (hw.mode.trans hm)
  have hshadow := hP.shadow.trans hw.shadow
  have hfault := hP.fault.trans hw.fault
  have hperiph := hP.periph.trans hw.periph
  have hev := hP.events
  rw [hw.events] at hev
  cases lost with
  | true =>
    have hne : ¬ (op = .standbyTx ∧ true = false) := fun h => by cases h.2
    refine ⟨_, st, fs, hraise _ _ hr, rfl, rfl, ?_, hP.ce, hP.csn, hshadow, hfault, hperiph, ?_⟩
    · rw [if_neg hne]; exact hmode
    · rw [if_neg hne, List.append_nil]; exact hev
  | false =>
    obtain ⟨hwait, hstandby⟩ := hend _ hr hP.clear.advance
    rcases ho with rfl | rfl
    · refine ⟨_, st, fs, hwait rfl, rfl, rfl, hmode, hP.ce, hP.csn, hshadow, hfault, hperiph, ?_⟩
      rw [if_neg (by decide), List.append_nil]
      exact hev
    · obtain ⟨v, hW, hx⟩ := hstandby rfl
      exact ⟨_, st, fs, hx, rfl, rfl, rfl, hW.ce, hW.csn.trans hP.csn, hW.shadow.trans hshadow, hW.fault.trans hfault,
        (hW.quiet_periph hP.quiet).trans hperiph, hW.events.trans (congrArg (· ++ _) hev)⟩

/-- Settles O48. -/
theorem drainPass : Obligations.DrainPass := by
  intro op lost s ho hm ha hq hf
  obtain ⟨w, hw, hgo, -, -⟩ := exec_pass ho ha hm
  have hfw : w.periph.radio.txFifo ≠ [] := by rw [hw.periph]; exact hf
  refine ⟨fun hmax => ?_, fun hmax => ?_⟩
  · obtain ⟨st, fs, u, hP, hr⟩ :=
      waitPass_waits lost (hw.clear hq.portsOk) (hw.quiet hq) hfw (by rw [hw.periph]; exact hmax)
    exact ⟨_, st, fs, hgo _ _ hr, rfl, hP.mode.trans (hw.mode.trans hm), hP.ce, hP.csn, hP.shadow.trans hw.shadow,
      hP.fault.trans hw.fault, hP.periph.trans hw.periph, by rw [← hw.events]; exact hP.events⟩
  · obtain ⟨st, fs, i2, i3, u, hP, hr⟩ :=
      waitPass_flushes lost (hw.clear hq.portsOk) (hw.quiet hq) hfw (by rw [hw.periph]; exact hmax)
    exact ⟨_, st, fs, i2, i3, hgo _ _ hr, rfl, hP.mode.trans (hw.mode.trans hm), hP.ce.trans hw.ce, hP.csn,
      hP.shadow.trans hw.shadow, hP.fault.trans hw.fault, by rw [← hw.periph]; exact hP.regs,
      by rw [← hw.periph]; exact hP.radio, by rw [← hw.events]; exact hP.events⟩

end Sys2Proof
end

section
/-! PROOFS. The radio's events (rules R110 to R114, R460): each event where the contract allows it, said once, and the
recovery from MAX_RT in two passes of `wait_empty`. -/

namespace Sys2Proof.Machine

variable {s : State} {par : Params} {regs : Regs} {ce : Level} {r : Radio} {p : Pipe} {d : List Byte} {use : Bool}

/-! ## ACK payloads -/

/-- The first ACK payload of the pipe goes out. -/
theorem attachAck_append {pre : List TxEntry} (x : List Byte) (gone : Bool) (post : List TxEntry)
    (h : ∀ y b, .ack p y b ∉ pre) : attachAck p (pre ++ .ack p x gone :: post) = pre ++ .ack p x true :: post := by
  induction pre with
  | nil => simp [attachAck]
  | cons e pre ih =>
    have ih := ih fun y b hm => h y b (List.mem_cons_of_mem _ hm)
    cases e with
    | data y => simp [attachAck, ih]
    | ack q y b =>
      have hq : q ≠ p := fun hq => h y b (by simp [hq])
      simp [attachAck, hq, ih]

/-- An ACK payload that went out leaves on a different packet, and the next of the pipe goes out. -/
theorem advanceAck_append {pre : List TxEntry} (x : List Byte) (gone : Bool) (post : List TxEntry)
    (h : ∀ y b, .ack p y b ∉ pre) : advanceAck p (pre ++ .ack p x gone :: post) =
      if gone then pre ++ attachAck p post else pre ++ .ack p x true :: post := by
  induction pre with
  | nil => simp [advanceAck]
  | cons e pre ih =>
    have ih := ih fun y b hm => h y b (List.mem_cons_of_mem _ hm)
    cases e with
    | data y => cases gone <;> simpa [advanceAck] using ih
    | ack q y b =>
      have hq : q ≠ p := fun hq => h y b (by simp [hq])
      cases gone <;> simpa [advanceAck, hq] using ih

/-! ## Events -/

theorem accept_room {pkt : RxPacket} (h : r.rxFifo.length < par.rxFifoDepth) :
    r.accept par pkt = { r with rxFifo := r.rxFifo ++ [pkt], rxDr := true } := if_pos h

theorem accept_full {pkt : RxPacket} (h : par.rxFifoDepth ≤ r.rxFifo.length) : r.accept par pkt = r :=
  if_neg (Nat.not_lt.2 h)

/-- A reception in active Rx on an enabled pipe, with room. -/
theorem event_received (hA : powerState regs ce = .activeRx) (hp : (toBools regs.enRxaddr).get p = true)
    (hroom : r.rxFifo.length < par.rxFifoDepth) : r.event par regs ce (.received p d use) =
      { r with
        rxFifo := r.rxFifo ++ [⟨BitVec.ofNat 3 p.toNat, d⟩], rxDr := true
        txFifo := if !r.maxRt && (regs.ackEnabled p || use) then advanceAck p r.txFifo else r.txFifo } := by
  simp only [Radio.event, hA, hp, hroom, decide_true, Bool.and_true, if_true, accept_room hroom]
  split <;> rfl

/-- What a repeated packet puts into the RX FIFO. -/
def Radio.arrive (par : Params) (r : Radio) (p : Pipe) : Option (List Byte) → Radio
  | none => r
  | some d => r.accept par { pipe := BitVec.ofNat 3 p.toNat, data := d }

/-- The pipe's ACK payload goes out, unless MAX_RT holds the TX FIFO (rules R112, R460). -/
def Radio.answerAck (regs : Regs) (p : Pipe) (use : Bool) (r : Radio) : Radio :=
  if !r.maxRt && (regs.ackEnabled p || use) then { r with txFifo := attachAck p r.txFifo } else r

/-- A repetition: in active Rx on an enabled pipe what the event names arrives, then the ACK payload goes out. -/
theorem event_repeated (again : Option (List Byte)) : r.event par regs ce (.repeated p again use) =
    if powerState regs ce = .activeRx && (toBools regs.enRxaddr).get p
    then (r.arrive par p again).answerAck regs p use else r := by
  cases again <;> rfl

/-- Only the TX FIFO can change when an ACK payload goes out. -/
theorem answerAck_rest (regs : Regs) (p : Pipe) (use : Bool) (r : Radio) :
    r.answerAck regs p use = { r with txFifo := (r.answerAck regs p use).txFifo } := by
  unfold Radio.answerAck
  split <;> rfl

theorem answerAck_held (hm : r.maxRt = true) : r.answerAck regs p use = r := by simp [Radio.answerAck, hm]

theorem answerAck_txFifo (hm : r.maxRt = false) (hack : regs.ackEnabled p = true) :
    (r.answerAck regs p use).txFifo = attachAck p r.txFifo := by simp [Radio.answerAck, hm, hack]

/-- Without room, or where the event says that nothing enters, a repetition leaves the RX FIFO and RX_DR. -/
theorem arrive_none {again : Option (List Byte)} (h : again = none ∨ par.rxFifoDepth ≤ r.rxFifo.length) :
    r.arrive par p again = r := by
  cases again with
  | none => rfl
  | some d => exact accept_full (h.resolve_left (by simp))

theorem arrive_rest (again : Option (List Byte)) : (r.arrive par p again).txDs = r.txDs ∧
    (r.arrive par p again).maxRt = r.maxRt ∧ (r.arrive par p again).txFifo = r.txFifo := by
  cases again with
  | none => exact ⟨rfl, rfl, rfl⟩
  | some d => exact ⟨accept_txDs .., accept_maxRt .., accept_txFifo ..⟩

theorem event_not_rx (h : powerState regs ce ≠ .activeRx) (again : Option (List Byte)) :
    r.event par regs ce (.received p d use) = r ∧ r.event par regs ce (.repeated p again use) = r := by
  simp [Radio.event, h]

theorem event_not_tx (h : powerState regs ce ≠ .activeTx) (arc : BitVec 4) (ack : Option (Pipe × List Byte)) :
    r.event par regs ce (.sent arc ack) = r ∧ r.event par regs ce .maxRetries = r := by
  simp [Radio.event, h]

section
variable {x : List Byte} {rest : List TxEntry} (arc : BitVec 4) (hA : powerState regs ce = .activeTx)
  (hm : r.maxRt = false) (hf : r.txFifo = .data x :: rest)
include hA hm hf

/-- A sent packet leaves the TX FIFO and sets TX_DS. -/
theorem event_sent :
    r.event par regs ce (.sent arc none) = { r with txFifo := rest, txDs := true, arcCnt := arc } := by
  simp only [Radio.event, hA, hm, hf, decide_true, Bool.not_false, Bool.and_true, if_true]

/-- The ACK payload of a sent packet arrives. -/
theorem event_sent_acked (p : Pipe) (d : List Byte) : r.event par regs ce (.sent arc (some (p, d))) =
    { r with txFifo := rest, txDs := true, arcCnt := arc }.accept par ⟨BitVec.ofNat 3 p.toNat, d⟩ := by
  simp only [Radio.event, hA, hm, hf, decide_true, Bool.not_false, Bool.and_true, if_true]

end

/-- Used up retransmissions set MAX_RT and keep the packet. -/
theorem event_maxRetries {x : List Byte} {rest : List TxEntry} (hA : powerState regs ce = .activeTx)
    (hm : r.maxRt = false) (hf : r.txFifo = .data x :: rest) : r.event par regs ce .maxRetries =
      { r with maxRt := true, plosCnt := satIncr r.plosCnt, arcCnt := (SetupRetr.decode regs.setupRetr).arc } := by
  simp only [Radio.event, hA, hm, hf, decide_true, Bool.not_false, Bool.and_true, if_true]

/-- While MAX_RT is set an event leaves the TX FIFO and MAX_RT. -/
theorem event_held (e : RadioEvent) (hm : r.maxRt = true) :
    (r.event par regs ce e).txFifo = r.txFifo ∧ (r.event par regs ce e).maxRt = true := by
  cases e with
  | received p d use =>
    simp only [Radio.event, accept_maxRt, hm, Bool.not_true, Bool.false_and, Bool.false_eq_true, if_false]
    split
    · exact ⟨accept_txFifo .., (accept_maxRt ..).trans hm⟩
    · exact ⟨rfl, hm⟩
  | repeated p again use =>
    obtain ⟨-, hmax, htx⟩ := arrive_rest (par := par) (r := r) (p := p) again
    rw [event_repeated]
    split
    · rw [answerAck_held (hmax.trans hm)]
      exact ⟨htx, hmax.trans hm⟩
    · exact ⟨rfl, hm⟩
  | sent arc ack => simp [Radio.event, hm]
  | maxRetries => simp [Radio.event, hm]
  | counters plos arc => exact ⟨rfl, hm⟩
  | carrier on => exact ⟨rfl, hm⟩

theorem events_held (evs : List RadioEvent) (hm : r.maxRt = true) :
    (r.events par regs ce evs).txFifo = r.txFifo ∧ (r.events par regs ce evs).maxRt = true := by
  induction evs generalizing r with
  | nil => exact ⟨rfl, hm⟩
  | cons e rest ih =>
    obtain ⟨hf, hm⟩ := event_held (par := par) (regs := regs) (ce := ce) e hm
    obtain ⟨hf2, hm2⟩ := ih hm
    exact ⟨hf2.trans hf, hm2⟩

/-! ## The recovery -/

/-- Two passes of `wait_empty` with MAX_RT set: the first flushes, the second finds the FIFO empty. -/
theorem waitEmpty_recovers (hs : s.seq = .idle) (hm : s.mode = .tx) (hq : Quiet s) (hf : s.periph.radio.txFifo ≠ [])
    (hmax : s.periph.radio.maxRt = true) :
    ∃ t u, exec .waitEmpty s = .next t ∧ exec .waitEmpty t = .next u ∧
      u.result = some (.err .maxRetransmitsExceeded) ∧ u.seq = .idle ∧ u.mode = .tx ∧ u.ce = .low ∧
      u.periph.radio.txFifo = [] ∧ u.periph.radio.maxRt = false ∧ u.periph.regs = s.periph.regs := by
  obtain ⟨w, hw, hgo, -, -⟩ := exec_pass (.inl rfl) (.inl ⟨hs, rfl⟩ : AtPass .waitEmpty false s) hm
  obtain ⟨st, fs, i2, i3, v, hP, hr⟩ := waitPass_flushes false (hw.clear hq.portsOk) (hw.quiet hq)
    (by rw [hw.periph]; exact hf) (by rw [hw.periph]; exact hmax)
  have hempty : v.periph.radio.txFifo = [] := by rw [hP.radio]
  have hmode : v.mode = .tx := hP.mode.trans (hw.mode.trans hm)
  obtain ⟨w2, hw2, -, hraise, -⟩ := exec_pass (s := v.advance.withSeq (.busy .waitEmpty loopHead true none)) (.inl rfl)
    (.inr rfl) hmode
  obtain ⟨st2, fs2, u, hP2, hr2⟩ := waitPass_ends true (hw2.clear hP.clear.ports) (hw2.quiet hP.quiet)
    (by rw [hw2.periph]; exact hempty)
  have hperiph : u.periph = v.periph := hP2.periph.trans hw2.periph
  refine ⟨_, _, hgo _ _ hr, hraise _ _ hr2, rfl, rfl, hP2.mode.trans (hw2.mode.trans hmode), hP2.ce, ?_, ?_, ?_⟩
  · exact (congrArg (·.radio.txFifo) hperiph).trans hempty
  · refine (congrArg (·.radio.maxRt) hperiph).trans ?_
    rw [hP.radio]
  · exact (congrArg (·.regs) hperiph).trans (hP.regs.trans (congrArg Periph.regs hw.periph))

end Sys2Proof.Machine

namespace Sys2Proof
open Machine

/-- Settles O49: the radio event by event, then the recovery. -/
theorem radioEventsAndMaxRtRecovery : Obligations.RadioEventsAndMaxRtRecovery := by
  refine ⟨fun par regs ce r => ⟨fun p d use hA hp hroom => ?_, fun p again use hA hp => ?_, fun _ _ => rfl,
    fun on => ?_, fun p d again use hA => event_not_rx hA again, fun x rest arc hA hm hf => ?_,
    fun arc ack hA => event_not_tx hA arc ack, fun p x gone pre post hA hp hack hm hf hpre => ?_,
    fun evs hm => events_held evs hm⟩, fun s hs hm hq hf hmax => waitEmpty_recovers hs hm hq hf hmax⟩
  · rw [event_received hA hp hroom]
    exact ⟨rfl, rfl, rfl, rfl⟩
  · obtain ⟨htx, hmax, -⟩ := arrive_rest (r := r) (par := par) (p := p) again
    rw [event_repeated, if_pos (by simp [hA, hp]), answerAck_rest]
    refine ⟨fun d hd hroom => ?_, fun hn => ?_, htx, hmax⟩
    · subst hd
      rw [Radio.arrive, accept_room hroom]
      exact ⟨rfl, rfl⟩
    · rw [arrive_none hn]
      exact ⟨rfl, rfl⟩
  · cases on <;> rfl
  · rw [event_sent arc hA hm hf, event_maxRetries hA hm hf]
    refine ⟨rfl, fun p d hroom => ?_, rfl, rfl, rfl⟩
    rw [event_sent_acked arc hA hm hf]
    exact accept_room hroom
  · refine ⟨fun again use => ?_, fun d use hroom => ?_⟩
    · obtain ⟨-, hmax, htx⟩ := arrive_rest (r := r) (par := par) (p := p) again
      rw [event_repeated, if_pos (by simp [hA, hp]), answerAck_txFifo (hmax.trans hm) hack, htx, hf]
      exact attachAck_append x gone post hpre
    · rw [event_received hA hp hroom]
      simp only [hm, hack, Bool.not_false, Bool.true_or, Bool.and_true, if_true, hf]
      exact advanceAck_append x gone post hpre

end Sys2Proof
end
